-- ==== Sys2Proof/Word.lean ====
section
/-!
DEFINITION. The word types of the part and their plainest arithmetic (00_scope.md, Conventions).
-/

namespace Sys2Proof

/-- One byte of a block, an area or a frame. -/
abbrev Byte := BitVec 8

/-- One word of the port window map (R157). -/
abbrev Word16 := BitVec 16

/-- A line-shaft or axis position, modulo 2^32 (00_scope.md, Positions). -/
abbrev Pos := BitVec 32

/-- A cycle number, modulo 65,536 (00_scope.md, Cycle number). -/
abbrev Cycle := BitVec 16

/-- A block number, 0 to 511 (R94). -/
abbrev BlockNo := Fin 512

/-- An axis number, 0 to 7. -/
abbrev AxisNo := Fin 8

/-- A line-shaft number, L0 to L3. -/
abbrev ShaftNo := Fin 4

/-- A plan number, 0 to 3. -/
abbrev PlanNo := Fin 4

/-- A channel number, 0 to 7. -/
abbrev ChannelNo := Fin 8

/-- A trip source number, 0 to 31. -/
abbrev SourceNo := Fin 32

/-- A lock number, 0 to 15. -/
abbrev LockNo := Fin 16

/-- A common area number, 0 to 7. -/
abbrev AreaNo := Fin 8

end Sys2Proof
end

