-- ==== Sys2Proof/Machine/Types.lean ====
section
/-!
DEFINITION. The enumerations, frames and records of the data book (10_formats_and_windows.md, 10.1 and 10.2), as plain
data. State and Instr are built from them.
-/

namespace Sys2Proof.Machine

/-! ### Enumerations -/

/-- The two processor ports (00_scope.md, Port views). -/
inductive Port where
  | a | b
  deriving DecidableEq, Repr

/-- The two links of a node. -/
inductive Side where
  | west | east
  deriving DecidableEq, Repr

/-- Link states (R1). -/
inductive LinkState where
  | down | training | up
  deriving DecidableEq, Repr

/-- Down reasons (R1). -/
inductive DownReason where
  | none | loss | silent | degraded | farEnd | detached | clock
  deriving DecidableEq, Repr

/-- Path modes (R10, R12). -/
inductive PathMode where
  | through | wrapEast | wrapWest | isolated
  deriving DecidableEq, Repr

/-- Ring states (R39). -/
inductive RingState where
  | closed | wrapped | split
  deriving DecidableEq, Repr

/-- Node roles (R22, R23). -/
inductive Role where
  | follower | standby | leader
  deriving DecidableEq, Repr

/-- Leader phases (R22); `none` at other roles and while detached. -/
inductive LeaderPhase where
  | none | waiting | listening | emitting
  deriving DecidableEq, Repr

/-- Lock states of the time lock (R22). -/
inductive LockState where
  | unlocked | acquiring | locked | holdover
  deriving DecidableEq, Repr

/-- Axis states (R55). -/
inductive AxisState where
  | off | engaging | follow | disengaging
  deriving DecidableEq, Repr

/-- Correction outcomes (R62, R64, R66). -/
inductive CorrOutcome where
  | none | applied | clamped | notFollowing | noAxis | lost | undelivered
  deriving DecidableEq, Repr

/-- States of a correction outbox entry (R63, R64). -/
inductive OutboxState where
  | queued | sent | done
  deriving DecidableEq, Repr

/-- Trip classes in rising order; `none` lies below NOTICE (04_trips.md, opening text). -/
inductive TripClass where
  | none | notice | stop | quick | instant
  deriving DecidableEq, Repr

/-- Segment marks, the header's outcome field (R9, R106). -/
inductive Mark where
  | none | taken | busy | held | late
  deriving DecidableEq, Repr

/-- Message kinds (R99, 10.1). -/
inductive MsgKind where
  | none | request | response | event | strip
  deriving DecidableEq, Repr

/-- Message outcomes (R111 to R114, R126, R128, R133). -/
inductive MsgOutcome where
  | none | taken | failedBusy | failedLost | failedLate | failedAbsent | droppedBusy | droppedHeld | droppedLost
  | droppedAbsent | cancelled | noResponse | flushed | superseded
  deriving DecidableEq, Repr

/-- Slot states of a strip store (R131). -/
inductive SlotState where
  | empty | filling | ready | reading
  deriving DecidableEq, Repr

/-- Plan outcomes (R154). -/
inductive PlanOutcome where
  | none | done | vetoed | cancelled
  deriving DecidableEq, Repr

/-- Reasons of a refused access (R155). -/
inductive AccessReason where
  | guarded | notOwner | notHeld | undefined | readOnly
  deriving DecidableEq, Repr

/-- Clock states (R167). -/
inductive ClockState where
  | crystal | fallback | restarting
  deriving DecidableEq, Repr

/-- Channel types (R99). -/
inductive ChannelType where
  | off | screen | image
  deriving DecidableEq, Repr

/-- Owners of a packet memory block (R94). -/
inductive BlockOwner where
  | free | port (p : Port) | txq | assembly | rxq | store
  deriving DecidableEq, Repr

/-- States of an outstanding-table entry (R116). -/
inductive EntryState where
  | waiting | answering
  deriving DecidableEq, Repr

/-- The twelve events of a port (08, table "Event causes"). -/
inductive Event where
  | cycle | trip | ring | timelock | rx | outcome | corr | lockfree | signal | store | plan | access
  deriving DecidableEq, Repr

/-- Result and status codes read back by ports (10.4, table "Result and status codes"). -/
inductive Code where
  | none | accepted | granted | alreadyHeld | heldByOther | busy | empty | full | queueFull | tooManyOutstanding
  | inFlight | notEmpty | notLeader | noChange | tooSoon | tooLate | noRoster | noAxis | notLocked | tripped
  | noEntry | notEngaged | badTarget | channelOff | notOwner | badKind | badDest | badLength | badBlock | notScreen
  | notImage | badSlot | notReady | notOpen | attached | notAttached | noAddress | badAddress | axesActive
  | clockFault | notFaulted | starting | ready | finishing | done
  deriving DecidableEq, Repr

/-! ### Pairs of like things -/

/-- One thing for each port. -/
structure PortPair (α : Type) where
  a : α
  b : α
  deriving DecidableEq, Repr

/-- One thing for each side. -/
structure SidePair (α : Type) where
  west : α
  east : α
  deriving DecidableEq, Repr

/-! ### Frames (R9, R169) -/

/-- The fields of the common header that the origin writes and the ring changes (R9). -/
structure Header where
  origin : Nat
  dest   : Nat
  hops   : Nat
  mark   : Mark
  takers : Nat
  deriving DecidableEq, Repr

/-- A LINK_IDLE (R3). The turnaround is 0 when the echo stamp is absent. -/
structure LinkIdle where
  sender     : Nat
  heard      : Bool
  sendStamp  : BitVec 32
  echo       : Option (BitVec 32)
  turnaround : BitVec 32
  deriving DecidableEq, Repr

/-- A trip record (R85). The origin is none when the node had no address as it latched. -/
structure TripRecord where
  origin : Option Nat
  source : SourceNo
  cls    : TripClass
  cycle  : Cycle
  deriving DecidableEq, Repr

/-- A staged or announced plan switch (R40). -/
structure PlanSwitch where
  plan  : PlanNo
  cycle : Cycle
  deriving DecidableEq, Repr

/-- One shaft's values in CYCLE_START (R26): position integer, position fraction, velocity. -/
structure ShaftSample where
  posInt  : Pos
  posFrac : BitVec 16
  vel     : Int
  deriving DecidableEq, Repr

/-- The content of a CYCLE_START beyond the header (R26). -/
structure CycleStart where
  cycle         : Cycle
  leader        : Nat
  epoch         : BitVec 8
  ring          : RingState
  cls           : TripClass
  firstFault    : Option TripRecord
  resetNo       : BitVec 8
  activePlan    : PlanNo
  pendingSwitch : Option PlanSwitch
  shafts        : Vector ShaftSample 4
  transit       : BitVec 32
  deriving DecidableEq, Repr

/-- A correction entry of a STATUS (R64). -/
structure CorrEntry where
  target  : Nat
  axis    : Nat
  outcome : CorrOutcome
  delta   : Int
  deriving DecidableEq, Repr

/-- The content of a STATUS beyond the header (R27, R169). -/
structure StatusBody where
  mode       : PathMode
  cls        : TripClass
  topSource  : Option SourceNo
  resetNo    : BitVec 8
  planReady  : Bool
  axisStates : Vector AxisState 8
  cycle      : Cycle
  entries    : List CorrEntry
  deriving DecidableEq, Repr

/-- The content of a TRIP_FLASH beyond the header (R80). -/
structure TripFlash where
  source : SourceNo
  cls    : TripClass
  cycle  : Cycle
  deriving DecidableEq, Repr

/-- The stamp of a strip (R132): cycle number and shaft position integer. -/
structure Stamp where
  cycle : Cycle
  pos   : Pos
  deriving DecidableEq, Repr

/-- The content of a DATA segment beyond the header (R104, R169). -/
structure DataBody where
  channel : ChannelNo
  tag     : BitVec 8
  attempt : BitVec 8
  index   : Nat
  count   : Nat
  kind    : MsgKind
  answers : BitVec 8
  length  : Nat
  strip   : BitVec 16
  stamp   : Option Stamp
  payload : List Byte
  deriving DecidableEq, Repr

/-- The content of a frame, by kind (R8, R9). -/
inductive Body where
  | cycleStart (c : CycleStart)
  | status (b : StatusBody)
  | tripFlash (f : TripFlash)
  | data (d : DataBody)
  deriving DecidableEq, Repr

/-- A frame with the common header: every kind but LINK_IDLE. -/
structure Frame where
  hdr  : Header
  body : Body
  deriving DecidableEq, Repr

/-- What an output carries: a LINK_IDLE, or a ring frame. -/
inductive WireFrame where
  | idle (l : LinkIdle)
  | ring (f : Frame)
  deriving DecidableEq, Repr

/-- When a frame arrived (its first byte, R8) and when it was received (its last byte), local time in ns. -/
structure RxTime where
  arrival  : Nat
  received : Nat
  deriving DecidableEq, Repr

/-! ### What port commands name -/

/-- The configuration words of R23 other than the role. -/
inductive ConfigItem where
  | period | holdLimit | captureWindow | lockCount | takeCount | allowance
  deriving DecidableEq, Repr

/-- The four limits of a shaft (R45). -/
inductive ShaftLimit where
  | aUp | aDn | aStop | aQuick
  deriving DecidableEq, Repr

/-- The fields of an axis plan entry (R53). -/
inductive EntryField where
  | valid | shaft | numerator | denominator | phase
  deriving DecidableEq, Repr

/-- The parameters of an axis (R54). -/
inductive AxisParam where
  | enabled | corrSlew | engageSlew | decel | window | followCount | lag | actualReport | guardLock
  | followClass | stepClass
  deriving DecidableEq, Repr

/-- The configuration items of a channel (R99, R116, R130). -/
inductive ChannelItem where
  | type | owner | rxDepth | flush | storeSize | stampShaft | tripFreeze | tResp
  deriving DecidableEq, Repr

/-- The items of a link that both ports read (R1) and the window map gives no word (log entry 14). Word `i` of the error
window holds its entries 16i to 16i + 15, oldest in bit 0, a fail being 1. -/
inductive LinkItem where
  | laser | downReason | delayMeasured | neighbour | heard | goodRun | upRun | windowLength | windowWord (i : Fin 4)
  deriving DecidableEq, Repr

/-- The items of the trip unit that both ports read (R74) and the window map gives no word. -/
inductive TripItem where
  | topSource | announced | guardCycle | guardLeft | leaderEpoch | leaderNode | stagedReset | request (p : Port)
  deriving DecidableEq, Repr

/-- The items of a channel that both ports read (R116, R130) and the window map gives no word. -/
inductive ChannelStateItem where
  | hold | readPosition | storeState | openSlot | storeReadPosition | completionSequence
  | gapSource (i : Fin 4) | gapLast (i : Fin 4)
  deriving DecidableEq, Repr

/-- Registers that the rules give a port but the window map gives no address (log entry 14). The last five only read. -/
inductive Unplaced where
  | areaBinding (a : AreaNo)
  | staleLimit
  | overreadFlag
  | lockGiveRefused
  | axisRangeFlag
  | outcomeOverflow (c : ChannelNo)
  | lateReturnCount
  | busyMarkCount
  | discardCount
  | staleCount
  | blocksHeld (q : Port)
  | link (d : Side) (i : LinkItem)
  | trip (i : TripItem)
  | channel (c : ChannelNo) (i : ChannelStateItem)
  deriving DecidableEq, Repr

/-- What a register access names: a word address of the map, or a register the map gives no address. -/
inductive RegTarget where
  | addr (a : Word16)
  | unplaced (u : Unplaced)
  deriving DecidableEq, Repr

end Sys2Proof.Machine
end

