-- ==== Sys2Proof/Syntax.lean ====
section
/-!
DEFINITION. The commands of the part: one constructor per row of spec/opcode_table.json, in the table's order. Port
commands carry the port that makes the access and the value written; frame arrivals carry the input, the local times
of arrival and receipt, and the frame; timer expiries whose time the state holds carry nothing.
-/

namespace Sys2Proof

open Machine

/-- The 101 commands (spec/opcode_table.json). -/
inductive Instr where
  /-- RESET (R162): the width straps as sampled, true for 32 bits. -/
  | reset (widA widB : Bool)
  | waitCountRestart
  /-- STABILISATION_WAIT_END (R162): bit n of the operand says that TRIPINn is sensed low (R74). -/
  | stabilisationWaitEnd (tripinLow : BitVec 8)
  | stabilisationTimeout (tripinLow : BitVec 8)
  | clockFault
  | clockRestart (p : Port)
  | clockRestartComplete
  | restartFailed
  | tripinConditionAppears (n : Fin 8)
  | tripinConditionGoes (n : Fin 8)
  | signalDetectAsserted (side : Side)
  | holdOffEnd (side : Side)
  | signalDetectLost (side : Side)
  | linkSilent (side : Side)
  | linkIdleReceived (side : Side) (t : RxTime) (f : LinkIdle)
  | frameDiscardedNotUp (side : Side) (t : RxTime) (f : Frame)
  /-- FRAME_CRC_FAIL (R8): the bytes received, from byte 0 to the last CRC byte. -/
  | frameCrcFail (side : Side) (t : RxTime) (bytes : List Byte)
  | frameOnUnusedInput (side : Side) (t : RxTime) (f : Frame)
  | frameForwarded (side : Side) (t : RxTime) (f : Frame)
  /-- OUTPUT_IDLE (R18): the local time at which the output becomes idle. -/
  | outputIdle (side : Side) (now : Nat)
  | cycleStartReceived (side : Side) (t : RxTime) (h : Header) (c : CycleStart)
  | statusReceived (side : Side) (t : RxTime) (h : Header) (b : StatusBody)
  | tripFlashReceived (side : Side) (t : RxTime) (h : Header) (f : TripFlash)
  | dataSegmentReceived (side : Side) (t : RxTime) (h : Header) (d : DataBody)
  | ownDataReturned (side : Side) (t : RxTime) (h : Header) (d : DataBody)
  | ownStatusReturned (side : Side) (t : RxTime) (h : Header) (b : StatusBody)
  | ownFrameRemoved (side : Side) (t : RxTime) (f : Frame)
  | listenEnd
  | leaderBoundary
  | acquireMiss
  | holdoverEntry
  | holdoverEvent
  | runningDownEvent
  | openPhaseEnd
  | segmentOffer
  | segmentTimeout (c : ChannelNo) (index : Nat)
  | retryWaitEnd (c : ChannelNo)
  | heldWaitEnd (c : ChannelNo)
  | contextStale (k : Fin 4)
  | outstandingEntryTimeout (c : ChannelNo) (dest : Nat) (tag : BitVec 8)
  | resetGuardLapse
  | nodeAddress (p : Port) (v : Word16)
  | roleWrite (p : Port) (v : Word16)
  | configurationWrite (p : Port) (item : ConfigItem) (v : Word16)
  | attach (p : Port)
  | detach (p : Port)
  | portSoftReset (p : Port)
  /-- ROSTER_WRITE (R38): bit a of the operand names address a. -/
  | rosterWrite (p : Port) (plan : PlanNo) (set : BitVec 32)
  | planStagingWrite (p : Port) (plan : Word16) (cycle : Cycle)
  | cancelPlan (p : Port)
  | targetVelocityWrite (p : Port) (shaft : ShaftNo) (v : BitVec 48)
  | shaftLimitWrite (p : Port) (shaft : ShaftNo) (limit : ShaftLimit) (v : BitVec 32)
  | planEntryWrite (p : Port) (axis : AxisNo) (plan : PlanNo) (field : EntryField) (v : BitVec 32)
  | axisParameterWrite (p : Port) (axis : AxisNo) (param : AxisParam) (v : BitVec 32)
  | engage (p : Port) (axis : Word16)
  | disengage (p : Port) (axis : Word16)
  | drop (p : Port) (axis : Word16)
  | correctionPost (p : Port)
  | correctionResultRead (p : Port)
  | actualPositionWrite (p : Port) (axis : AxisNo) (v : Pos)
  | setpointSetFirstRead (p : Port)
  | setpointSetFinalRead (p : Port)
  | sourceClassWrite (p : Port) (source : SourceNo) (v : Word16)
  | sourceEnableWrite (p : Port) (source : SourceNo) (v : Word16)
  | tripRequest (p : Port)
  | tripRelease (p : Port)
  | tripReset (p : Port)
  | localClear (p : Port)
  | blockTake (p : Port)
  | screenTake (p : Port)
  | blockGive (p : Port) (v : Word16)
  /-- BLOCK_WINDOW_ACCESS (R160): the word of the window, and the lines written, or none for a read. -/
  | blockWindowAccess (p : Port) (word : Fin 128) (w : Option (BitVec 32))
  | commonAreaWrite (p : Port) (area : AreaNo) (word : Fin 512) (w : BitVec 32)
  | areaBindingWrite (p : Port) (area : AreaNo) (v : Word16)
  | channelConfigWrite (p : Port) (c : ChannelNo) (item : ChannelItem) (v : Word16)
  | post (p : Port) (v : Word16)
  | cancelHead (p : Port) (v : Word16)
  | outcomeRead (p : Port) (c : ChannelNo)
  /-- DESCRIPTOR_READ (R118): the word of the descriptor window, offset 20h onward. -/
  | descriptorRead (p : Port) (c : ChannelNo) (word : Fin 9)
  | streamRead (p : Port) (c : ChannelNo)
  | discardHead (p : Port) (v : Word16)
  | hold (p : Port) (v : Word16)
  | release (p : Port) (v : Word16)
  /-- OPEN_SLOT (R137): channel number, and slot number or FFFFh for OLDEST. -/
  | openSlot (p : Port) (v : Word16) (slot : Word16)
  | stripRead (p : Port) (c : ChannelNo)
  | closeSlot (p : Port) (v : Word16)
  | releaseSlot (p : Port) (v : Word16)
  | freeze (p : Port) (v : Word16)
  | resume (p : Port) (v : Word16)
  | lockTake (p : Port) (lock : LockNo)
  | lockGive (p : Port) (lock : LockNo)
  | notifyOptionsWrite (p : Port) (v : Word16)
  | signalSet (p : Port) (v : Word16)
  | signalClear (p : Port) (v : Word16)
  | signalEnableWrite (p : Port) (v : Word16)
  | eventClear (p : Port) (v : Word16)
  | eventEnableWrite (p : Port) (v : Word16)
  | captureClear (p : Port)
  /-- UNDEFINED_ACCESS (R161): the word address, and the lines written, or none for a read. -/
  | undefinedAccess (p : Port) (addr : Word16) (w : Option (BitVec 32))
  | registerWrite (p : Port) (target : RegTarget) (w : BitVec 32)
  /-- WIDE_FIELD_LOW_WORD_READ (R158): a read of a word of the map, or of a register that the map does not place. -/
  | wideFieldLowWordRead (p : Port) (target : RegTarget)
  deriving DecidableEq, Repr

end Sys2Proof
end

