-- ==== Sys2Proof/Config.lean ====
section
/-!
DEFINITION. What the data book leaves open and an implementation fixes: opaque constants, so that no proof can
see their values.
-/

namespace Sys2Proof.Config

/-- The word address of a port register that 10_formats_and_windows.md (10.3) gives no address, by its number in
`Unplaced.index`. The rules name these registers and their access rules; only the access capture (R161) shows the
address. -/
opaque unplacedAddress : Nat → Word16

/-- The code that an enumerated register with `n` codes (0 to n − 1) and no clamping rule holds after a write of a
value its code table does not list: first argument `n`, second the value written. Every use reduces it modulo `n`,
so it is one of the listed codes; which one the data book does not state. -/
opaque unlistedCode : Nat → Nat → Nat

end Sys2Proof.Config
end

