-- ==== Sys2Proof/Machine/State.lean ====
section
/-!
DEFINITION. The state of the part as plain data, block by block as 00_scope.md's block diagram divides it, the state
right after RESET, and the reasons a step can stop. INVENTORY.md lists every item with its rule and reset value.
-/

namespace Sys2Proof.Machine

/-! ### Clock unit -/

/-- The clock unit (R162, R167, R168). -/
structure ClockUnit where
  /-- The ready word: STARTING (false) during the stabilisation wait, READY (true) after it (R162). -/
  ready        : Bool
  state        : ClockState
  faults       : Nat
  /-- Crystal periods counted by the wait of R162 or the restart of R168. -/
  periods      : Nat
  deriving DecidableEq, Repr

/-! ### Link units -/

/-- The last good LINK_IDLE's send stamp and arrival time (R3). -/
structure Echo where
  stamp   : BitVec 32
  arrival : Nat
  deriving DecidableEq, Repr

/-- A link unit (R1), its pins and the frame its output is sending. -/
structure LinkUnit where
  state         : LinkState
  laser         : Bool
  signalDetect  : Bool
  holdOff       : Bool
  downReason    : DownReason
  delay         : Nat
  delayMeasured : Bool
  neighbour     : Option Nat
  heard         : Bool
  /-- Consecutive good LINK_IDLEs from one sender (R4). -/
  run           : Nat
  /-- LINK_IDLEs counted toward UP (R5). -/
  upCount       : Nat
  /-- The error window, oldest first; true is a fail (R7). -/
  window        : List Bool
  downCount     : Nat
  crcErrors     : Nat
  echo          : Option Echo
  /-- The frame on the wire of this link's output, or none while the output is idle (R18). -/
  wire          : Option WireFrame
  deriving DecidableEq, Repr

/-! ### Ring path unit -/

/-- A frame waiting in the through buffer, with its output and its arrival time (R17, R20). -/
structure BufEntry where
  out     : Side
  arrival : Nat
  frame   : Frame
  deriving DecidableEq, Repr

/-- The ring path unit (R10, R17, R19, R21). -/
structure RingPath where
  mode           : PathMode
  buffer         : List BufEntry
  ownFlash       : List Frame
  ownCycleStart  : Option Frame
  ownStatus      : Option Frame
  hopDrops       : Nat
  overflows      : Nat
  wrapDiscards   : Nat
  unusedInputs   : Nat
  replacedFrames : Nat
  deriving DecidableEq, Repr

/-! ### Cycle and time-lock unit -/

/-- The last anchoring CYCLE_START: its cycle number and estimated send time (R22, R30). -/
structure Reference where
  cycle : Cycle
  send  : Int
  deriving DecidableEq, Repr

/-- What the presence record holds of an address marked present (R39, R42). -/
structure Presence where
  mode      : PathMode
  planReady : Bool
  deriving DecidableEq, Repr

/-- The plan outcome record (R154). -/
structure PlanRecord where
  outcome : PlanOutcome
  plan    : PlanNo
  cycle   : Cycle
  deriving DecidableEq, Repr

/-- The configuration words of R23 other than the role. -/
structure NodeConfig where
  periodMicros : Nat
  holdLimit    : Nat
  captureMicros : Nat
  lockCount    : Nat
  takeCount    : Nat
  allowance    : Nat
  deriving DecidableEq, Repr

/-- The cycle and time-lock unit (R22, R23, R38 to R41, R154, R163). -/
structure CycleUnit where
  attached      : Bool
  address       : Option Nat
  role          : Role
  phase         : LeaderPhase
  epoch         : BitVec 8
  leader        : Option Nat
  lock          : LockState
  runningDown   : Bool
  cycle         : Cycle
  reference     : Option Reference
  refTransit    : Nat
  /-- The local period in ns (R22). -/
  period        : Int
  good          : Nat
  missed        : Nat
  lastEps       : Int
  activePlan    : PlanNo
  pendingSwitch : Option PlanSwitch
  ring          : RingState
  outOfWindow   : Nat
  foreign       : Nat
  holdovers     : Nat
  config        : NodeConfig
  clampFlag     : Bool
  configResult  : Code
  /-- The rosters, bit a for address a (R38). -/
  rosters       : Vector (BitVec 31) 4
  missing       : Vector Nat 31
  /-- Per plan, the addresses that roster writes have added while the node leads and the plan has not yet been used
  (R38), bit a for address a. -/
  added         : Vector (BitVec 31) 4
  presence      : Vector (Option Presence) 31
  remoteAxes    : Vector (Vector AxisState 8) 31
  stagingPlan   : Word16
  stagingCycle  : Cycle
  planReady     : Bool
  planRecord    : PlanRecord
  /-- The cycle timer's next boundary, local time in ns, and its period (R24, R25, R36). -/
  nextBoundary  : Int
  timerPeriod   : Int
  listenEnd     : Int
  /-- The send time of the current cycle (R28). -/
  cycleSend     : Int
  /-- Whether leadership began and no boundary has passed since (R39). -/
  freshLead     : Bool
  deriving DecidableEq, Repr

/-! ### Line-shaft unit -/

/-- One line shaft (R45). -/
structure Shaft where
  pos       : BitVec 48
  vel       : Int
  target    : Int
  aUp       : Nat
  aDn       : Nat
  aStop     : Nat
  aQuick    : Nat
  step      : Int
  stepFault : Bool
  deriving DecidableEq, Repr

/-- An epoch and a leader node (R45, R74). -/
structure LeaderId where
  epoch : BitVec 8
  node  : Nat
  deriving DecidableEq, Repr

/-- The line-shaft unit (R45). -/
structure ShaftUnit where
  shafts        : Vector Shaft 4
  resyncWindow  : Nat
  resyncPending : Bool
  lastTaken     : Option LeaderId
  clampFlag     : Bool
  deriving DecidableEq, Repr

/-! ### Axis unit -/

/-- An axis plan entry (R53). -/
structure PlanEntry where
  valid : Bool
  shaft : ShaftNo
  num   : Int
  den   : Nat
  phase : Nat
  deriving DecidableEq, Repr

/-- The working copy of an axis that is not OFF (R53). -/
structure Working where
  shaft : ShaftNo
  num   : Int
  den   : Nat
  phase : Nat
  deriving DecidableEq, Repr

/-- One axis: its entries (R53), parameters (R54) and running state (R55, R73). -/
structure Axis where
  entries       : Vector PlanEntry 4
  enabled       : Bool
  corrSlew      : Nat
  engageSlew    : Nat
  decel         : Nat
  window        : Nat
  followCount   : Nat
  lag           : Nat
  actualReport  : Bool
  guardLock     : Option LockNo
  state         : AxisState
  work          : Working
  /-- Geared position g. -/
  g             : Pos
  /-- Gearing remainder r. -/
  r             : Int
  /-- Offset accumulator k. -/
  k             : Pos
  /-- Pending correction c_p. -/
  cp            : Int
  /-- Disengage velocity u. -/
  u             : Int
  /-- Setpoint p. -/
  p             : Pos
  velOut        : Int
  /-- Published setpoints, newest last, at most 4. -/
  history       : List Pos
  actual        : Pos
  fresh         : Bool
  run           : Nat
  actualMissing : Nat
  lastError     : Int
  deriving DecidableEq, Repr

/-- One axis of a setpoint set (R69). -/
structure SetpointAxis where
  state  : AxisState
  p      : Pos
  velOut : Int
  deriving DecidableEq, Repr

/-- A setpoint set (R69). -/
structure SetpointSet where
  cycle : Cycle
  axes  : Vector SetpointAxis 8
  deriving DecidableEq, Repr

/-- A correction outbox entry (R63). `cycle` and `place` name the correction entry that carries it: the cycle number of the
STATUS (R64) and, the model's own field, the entry's place in that STATUS (log entry 38). Both are 0 before it is SENT. -/
structure OutboxEntry where
  port    : Port
  target  : Nat
  axis    : Nat
  delta   : Int
  state   : OutboxState
  outcome : CorrOutcome
  cycle   : Cycle
  place   : Nat
  deriving DecidableEq, Repr

/-- The axis unit (R53 to R55, R63, R69 to R71). -/
structure AxisUnit where
  axes       : Vector Axis 8
  clampFlag  : Bool
  rangeFlag  : Bool
  outbox     : List OutboxEntry
  live       : SetpointSet
  snapshot   : Option SetpointSet
  taken      : Option Cycle
  stale      : Nat
  staleLimit : Nat
  deriving DecidableEq, Repr

/-! ### Trip unit -/

/-- A trip source (R74, R75). -/
structure Source where
  present : Bool
  latched : Bool
  cls     : TripClass
  enabled : Bool
  raises  : Nat
  deriving DecidableEq, Repr

/-- The reset guard while it has not lapsed (R74, R89). -/
structure ResetGuard where
  cycle : Cycle
  left  : Nat
  deriving DecidableEq, Repr

/-- The trip unit (R74). -/
structure TripUnit where
  sources      : Vector Source 32
  localClass   : TripClass
  topSource    : Option SourceNo
  view         : TripClass
  announced    : TripClass
  list         : List TripRecord
  overflows    : Nat
  firstFault   : Option TripRecord
  resetNo      : BitVec 8
  guard        : Option ResetGuard
  tripLeader   : Option LeaderId
  stagedReset  : Bool
  ignored      : Nat
  requests     : PortPair Bool
  /-- Whether the previous cycle event found the path mode ISOLATED (R77, source 10). -/
  prevIsolated : Bool
  deriving DecidableEq, Repr

/-! ### Packet memory -/

/-- The packet memory (R94, R95, R98): block owners, free list, reserve and the bytes of blocks and areas. -/
structure Pool where
  owners    : Vector BlockOwner 512
  free      : List BlockNo
  reserve   : Nat
  clampFlag : Bool
  mem       : List Host.Cell
  deriving DecidableEq, Repr

/-! ### Channel unit -/

/-- A message in a transmit queue (R100, R104, R132). -/
structure TxMsg where
  tag       : BitVec 8
  kind      : MsgKind
  dest      : Nat
  length    : Nat
  blocks    : List BlockNo
  answers   : BitVec 8
  strip     : BitVec 16
  stamp     : Option Stamp
  tries     : Nat
  /-- Whether some segment has started on the wire, in any attempt (R128, R133). -/
  started   : Bool
  /-- Whether the owner port's soft reset left it only to finish its attempt (R115). -/
  finishing : Bool
  deriving DecidableEq, Repr

/-- The sending state of the head (R101). A held wait counts the cycle events since its attempt ended. -/
inductive HeadState where
  | idle | inAttempt | retryWait | heldWait (events : Nat)
  deriving DecidableEq, Repr

/-- What an attempt keeps of one segment (R105). On the wire it counts the cycle events since its start. -/
inductive SegState where
  | unsent | onWire (events : Nat) | returned (m : Mark) (takers : Nat) | notReturned
  deriving DecidableEq, Repr

/-- A transmission attempt in progress (R105). -/
structure Attempt where
  segs    : List SegState
  stopped : Bool
  deriving DecidableEq, Repr

/-- An outcome record (R113). -/
structure OutcomeRecord where
  outcome : MsgOutcome
  tag     : BitVec 8
  kind    : MsgKind
  dest    : Nat
  tries   : Nat
  takers  : Nat
  deriving DecidableEq, Repr

/-- A received SCREEN message (R117, R118). -/
structure RxMsg where
  origin  : Nat
  kind    : MsgKind
  tag     : BitVec 8
  answers : BitVec 8
  toAll   : Bool
  length  : Nat
  cycle   : Cycle
  blocks  : List BlockNo
  deriving DecidableEq, Repr

/-- An outstanding-table entry (R116). -/
structure OutEntry where
  dest  : Nat
  tag   : BitVec 8
  cycle : Cycle
  state : EntryState
  age   : Nat
  deriving DecidableEq, Repr

/-- A strip store slot (R131). -/
structure Slot where
  state   : SlotState
  source  : Nat
  strip   : BitVec 16
  length  : Nat
  blocks  : List BlockNo
  arrival : Cycle
  stamp   : Option Stamp
  toAll   : Bool
  seq     : Nat
  deriving DecidableEq, Repr

/-- A gap table entry (R136). -/
structure GapEntry where
  source : Nat
  last   : BitVec 16
  deriving DecidableEq, Repr

/-- The strip store of an IMAGE channel (R130). The open slot is the one in READING. -/
structure StripStore where
  frozen     : Bool
  slots      : List Slot
  readPos    : Nat
  nextSeq    : Nat
  /-- The gap table, the entry heard least recently first. -/
  gaps       : List GapEntry
  overwrites : Nat
  missed     : Nat
  outOfOrder : Nat
  deriving DecidableEq, Repr

/-- The configuration items of a channel (R99, R116, R130). -/
structure ChannelConfig where
  type       : ChannelType
  owner      : Port
  rxDepth    : Nat
  flush      : Bool
  storeSize  : Nat
  stampShaft : Option ShaftNo
  tripFreeze : Bool
  tResp      : Nat
  deriving DecidableEq, Repr

/-- One channel (R99, R101, R116, R130, R172). -/
structure Channel where
  config     : ChannelConfig
  queue      : List TxMsg
  head       : HeadState
  attempt    : Option Attempt
  /-- Whether the idle head's next attempt is a held re-offer (R111). -/
  reoffer    : Bool
  nextTag    : BitVec 8
  attemptNo  : BitVec 8
  outcomes   : List OutcomeRecord
  overflow   : Bool
  rx         : List RxMsg
  readPos    : Nat
  held       : Bool
  entries    : List OutEntry
  flushed    : Nat
  store      : StripStore
  slotSelect : PortPair Word16
  outView    : PortPair OutcomeRecord
  deriving DecidableEq, Repr

/-- An assembly context (R107). -/
structure Context where
  origin  : Nat
  channel : ChannelNo
  kind    : MsgKind
  tag     : BitVec 8
  attempt : BitVec 8
  length  : Nat
  count   : Nat
  next    : Nat
  blocks  : List BlockNo
  answers : BitVec 8
  strip   : BitVec 16
  stamp   : Option Stamp
  toAll   : Bool
  idle    : Nat
  /-- The slot a STRIP is filling (R134). -/
  slot    : Option Nat
  deriving DecidableEq, Repr

/-- The segment offered to the own-frame output (R103). -/
structure Offered where
  channel : ChannelNo
  index   : Nat
  frame   : Frame
  deriving DecidableEq, Repr

/-- The channel unit (R99, R102, R103, R105 to R109). -/
structure ChannelUnit where
  channels    : Vector Channel 8
  contexts    : Vector (Option Context) 4
  offered     : Option Offered
  allowance   : Nat
  openPhase   : Bool
  /-- Whether the arbiter offers nothing more in this cycle (R103). -/
  shut        : Bool
  lateReturns : Nat
  busyMarks   : Nat
  discards    : Nat
  clampFlag   : Bool
  deriving DecidableEq, Repr

/-! ### Lock and signal unit -/

/-- One lock (R144). -/
structure LockRec where
  holder : Option Port
  waiter : Option Port
  deriving DecidableEq, Repr

/-- The lock and signal unit (R144, R149, R151, R152). Signals and enables are those toward the port. -/
structure LockUnit where
  locks       : Vector LockRec 16
  bindings    : Vector (Option LockNo) 8
  notify      : PortPair (BitVec 16)
  signals     : PortPair (BitVec 16)
  enables     : PortPair (BitVec 16)
  giveRefused : PortPair Bool
  deriving DecidableEq, Repr

/-! ### Port units -/

/-- The access capture (R161). -/
structure Capture where
  addr   : Word16
  write  : Bool
  reason : AccessReason
  deriving DecidableEq, Repr

/-- The field latch (R158, R170): empty; the words of a field still to be read, with the address they wait for; or the
words of a field written so far, with the field's address and the address they wait for. -/
inductive Latch where
  | empty
  | reading (next : Nat) (rest : List Word16)
  | writing (base : Nat) (next : Nat) (parts : List Word16)
  deriving DecidableEq, Repr

/-- The posting record of a port (R100, 10.3). -/
structure PostingRecord where
  dest    : Word16
  kind    : Word16
  length  : Word16
  count   : Word16
  answers : Word16
  strip   : Word16
  blocks  : Vector Word16 8
  deriving DecidableEq, Repr

/-- The correction posting words of a port (R63, 10.3). -/
structure CorrPosting where
  target : Word16
  axis   : Word16
  delta  : BitVec 32
  deriving DecidableEq, Repr

/-- The correction result view of a port (R67, R172). -/
structure CorrView where
  outcome : CorrOutcome
  target  : Nat
  axis    : Nat
  delta   : Int
  deriving DecidableEq, Repr

/-- The read-backs of a port's code words (R172). -/
structure ReadBacks where
  nodeAddress  : Code
  attach       : Code
  detach       : Code
  clockRestart : Code
  staging      : Code
  cancelPlan   : Code
  engage       : Code
  disengage    : Code
  drop         : Code
  corrPost     : Code
  tripReset    : Code
  /-- The number of latches cleared by the last LOCAL CLEAR (R92). -/
  localClear   : Nat
  tripRequest  : Code
  tripRelease  : Code
  post         : Code
  cancelHead   : Code
  discardHead  : Code
  hold         : Code
  release      : Code
  freeze       : Code
  resume       : Code
  closeSlot    : Code
  releaseSlot  : Code
  openSlot     : Code
  deriving DecidableEq, Repr

/-- A port unit (R153, R157 to R161, R172 and the port flags of R96, R97, R120). -/
structure PortUnit where
  /-- The sampled width strap, true for 32 bits (R157). -/
  wide             : Bool
  /-- The byte order, true for big (R159). -/
  bigEndian        : Bool
  flags            : BitVec 12
  enables          : BitVec 12
  capture          : Option Capture
  accessCount      : Nat
  takeRefused      : Bool
  takeRefusedCount : Nat
  giveRefused      : Bool
  giveRefusedCount : Nat
  overread         : Bool
  select           : Option BlockNo
  latch            : Latch
  codes            : ReadBacks
  postTag          : Nat
  slotOpened       : Nat
  posting          : PostingRecord
  corrPosting      : CorrPosting
  corrView         : CorrView
  /-- The data lines DA or DB as the port's last read left them (R157). -/
  lines            : BitVec 32
  deriving DecidableEq, Repr

/-! ### The whole part -/

/-- The state of the part, one field per block (00_scope.md, Block diagram), and the queue of waiting commands. -/
structure State where
  clock   : ClockUnit
  links   : SidePair LinkUnit
  ring    : RingPath
  cyc     : CycleUnit
  shafts  : ShaftUnit
  axis    : AxisUnit
  trip    : TripUnit
  pool    : Pool
  chan    : ChannelUnit
  locks   : LockUnit
  ports   : PortPair PortUnit
  pending : List Instr
  deriving DecidableEq, Repr

/-- Why the part would stop with a fault. -/
inductive Fault where
  /-- An address outside the packet memory's 139,264 bytes. Safe. No command raises it: every address a command forms
  comes from a block, area and byte number in range (R94, R98). -/
  | outsidePacketMemory (addr : Nat)
  deriving DecidableEq, Repr

/-- Why the model would refuse a command. -/
inductive Refusal where
  /-- A command that has no meaning yet. Safe. No command raises it: every row of the table has its meaning. -/
  | notModelled (mnemonic : String)
  deriving DecidableEq, Repr

/-! ### Reset values -/

/-- A link unit after RESET (R1), with its input pin at the given level. -/
def LinkUnit.reset (signalDetect : Bool) : LinkUnit :=
  { state := .down, laser := false, signalDetect := signalDetect, holdOff := false, downReason := .none, delay := 0,
    delayMeasured := false, neighbour := none, heard := false, run := 0, upCount := 0, window := [], downCount := 0,
    crcErrors := 0, echo := none, wire := none }

/-- The ring path unit after RESET (R17, R21). -/
def RingPath.reset : RingPath :=
  { mode := .isolated, buffer := [], ownFlash := [], ownCycleStart := none, ownStatus := none, hopDrops := 0,
    overflows := 0, wrapDiscards := 0, unusedInputs := 0, replacedFrames := 0 }

/-- The configuration words after RESET (R23). -/
def NodeConfig.reset : NodeConfig :=
  { periodMicros := 500, holdLimit := 8, captureMicros := 2, lockCount := 16, takeCount := 3, allowance := 2048 }

/-- The cycle unit after RESET (R22, R23, R38, R39, R40, R154, R163). -/
def CycleUnit.reset : CycleUnit :=
  { attached := false, address := none, role := .follower, phase := .none, epoch := 0, leader := none,
    lock := .unlocked, runningDown := false, cycle := 0, reference := none, refTransit := 0, period := 500000,
    good := 0, missed := 0, lastEps := 0, activePlan := 0, pendingSwitch := none, ring := .closed, outOfWindow := 0,
    foreign := 0, holdovers := 0, config := NodeConfig.reset, clampFlag := false, configResult := .none,
    rosters := Vector.replicate 4 0, missing := Vector.replicate 31 0, added := Vector.replicate 4 0,
    presence := Vector.replicate 31 none, remoteAxes := Vector.replicate 31 (Vector.replicate 8 .off),
    stagingPlan := 0, stagingCycle := 0,
    planReady := false, planRecord := { outcome := .none, plan := 0, cycle := 0 }, nextBoundary := 0,
    timerPeriod := 0, listenEnd := 0, cycleSend := 0, freshLead := false }

/-- A line shaft after RESET (R45). -/
def Shaft.reset : Shaft :=
  { pos := 0, vel := 0, target := 0, aUp := 65536, aDn := 65536, aStop := 131072, aQuick := 262144, step := 0,
    stepFault := false }

/-- The line-shaft unit after RESET (R45, R46). -/
def ShaftUnit.reset : ShaftUnit :=
  { shafts := Vector.replicate 4 Shaft.reset, resyncWindow := 4096, resyncPending := false, lastTaken := none,
    clampFlag := false }

/-- A plan entry after RESET (R53). -/
def PlanEntry.reset : PlanEntry := { valid := false, shaft := 0, num := 1, den := 1, phase := 0 }

/-- An axis after RESET (R53 to R55, R72, R73). -/
def Axis.reset : Axis :=
  { entries := Vector.replicate 4 PlanEntry.reset, enabled := false, corrSlew := 256, engageSlew := 4096, decel := 64,
    window := 8192, followCount := 3, lag := 2, actualReport := false, guardLock := none, state := .off,
    work := { shaft := 0, num := 1, den := 1, phase := 0 }, g := 0, r := 0, k := 0, cp := 0, u := 0, p := 0,
    velOut := 0, history := [], actual := 0, fresh := false, run := 0, actualMissing := 0, lastError := 0 }

/-- The live setpoint set after RESET (R69). -/
def SetpointSet.reset : SetpointSet :=
  { cycle := 0, axes := Vector.replicate 8 { state := .off, p := 0, velOut := 0 } }

/-- The axis unit after RESET (R54, R63, R69 to R71). -/
def AxisUnit.reset : AxisUnit :=
  { axes := Vector.replicate 8 Axis.reset, clampFlag := false, rangeFlag := false, outbox := [],
    live := SetpointSet.reset, snapshot := some SetpointSet.reset, taken := none, stale := 0, staleLimit := 3 }

/-- The class of source `n` after RESET (R75). -/
def resetClass (n : Nat) : TripClass :=
  if n < 11 || n == 12 then .quick else if n == 15 then .notice else .stop

/-- A trip source after RESET (R75). -/
def Source.reset (n : Nat) : Source :=
  { present := false, latched := false, cls := resetClass n, enabled := true, raises := 0 }

/-- The trip unit after RESET (R74). -/
def TripUnit.reset : TripUnit :=
  { sources := Vector.ofFn fun n => Source.reset n.val, localClass := .none, topSource := none, view := .none,
    announced := .none, list := [], overflows := 0, firstFault := none, resetNo := 0, guard := none,
    tripLeader := none, stagedReset := false, ignored := 0, requests := { a := false, b := false },
    prevIsolated := false }

/-- The packet memory after RESET (R94, R95, R98): every block FREE and zero, blocks 0 to 511 free in order. -/
def Pool.reset : Pool :=
  { owners := Vector.replicate 512 .free, free := List.finRange 512, reserve := 32, clampFlag := false, mem := [] }

/-- An EMPTY slot (R131). The spec gives the other fields of its record no value: they read 0, and the stamp as absent.
A FILLING slot's record names the source and strip number, with length 0; its other fields stand as here. DESIGN CHOICE
(log entry 53). -/
def Slot.blank : Slot :=
  { state := .empty, source := 0, strip := 0, length := 0, blocks := [], arrival := 0, stamp := none, toAll := false,
    seq := 0 }

/-- A strip store with `n` EMPTY slots and the counts of R130 at 0. -/
def StripStore.reset (n : Nat) : StripStore :=
  { frozen := false, slots := List.replicate n Slot.blank, readPos := 0, nextSeq := 0, gaps := [], overwrites := 0,
    missed := 0, outOfOrder := 0 }

/-- The view of an outcome window with no record (R172). -/
def OutcomeRecord.blank : OutcomeRecord :=
  { outcome := .none, tag := 0, kind := .none, dest := 0, tries := 0, takers := 0 }

/-- A channel after RESET (R99, R116, R130, R172). -/
def Channel.reset : Channel :=
  { config := { type := .off, owner := .a, rxDepth := 2, flush := true, storeSize := 8, stampShaft := none,
                tripFreeze := true, tResp := 200 },
    queue := [], head := .idle, attempt := none, reoffer := false, nextTag := 0, attemptNo := 0, outcomes := [],
    overflow := false, rx := [], readPos := 0, held := false, entries := [], flushed := 0,
    store := StripStore.reset 8, slotSelect := { a := 0, b := 0 },
    outView := { a := OutcomeRecord.blank, b := OutcomeRecord.blank } }

/-- The channel unit after RESET (R99, R106, R107). -/
def ChannelUnit.reset : ChannelUnit :=
  { channels := Vector.replicate 8 Channel.reset, contexts := Vector.replicate 4 none, offered := none, allowance := 0,
    openPhase := false, shut := false, lateReturns := 0, busyMarks := 0, discards := 0, clampFlag := false }

/-- The lock and signal unit after RESET (R144, R149, R151, R152). -/
def LockUnit.reset : LockUnit :=
  { locks := Vector.replicate 16 { holder := none, waiter := none }, bindings := Vector.replicate 8 none,
    notify := { a := 0, b := 0 }, signals := { a := 0, b := 0 }, enables := { a := 0, b := 0 },
    giveRefused := { a := false, b := false } }

/-- Every read-back NONE (R172). -/
def ReadBacks.reset : ReadBacks :=
  { nodeAddress := .none, attach := .none, detach := .none, clockRestart := .none, staging := .none,
    cancelPlan := .none, engage := .none, disengage := .none, drop := .none, corrPost := .none, tripReset := .none,
    localClear := 0, tripRequest := .none, tripRelease := .none, post := .none, cancelHead := .none,
    discardHead := .none, hold := .none, release := .none, freeze := .none, resume := .none, closeSlot := .none,
    releaseSlot := .none, openSlot := .none }

/-- A posting record of zeros (R100). -/
def PostingRecord.reset : PostingRecord :=
  { dest := 0, kind := 0, length := 0, count := 0, answers := 0, strip := 0, blocks := Vector.replicate 8 0 }

/-- A port unit after RESET with the given strap (R153, R157 to R161, R172). -/
def PortUnit.reset (wide : Bool) : PortUnit :=
  { wide := wide, bigEndian := false, flags := 0, enables := 0, capture := none, accessCount := 0,
    takeRefused := false, takeRefusedCount := 0, giveRefused := false, giveRefusedCount := 0, overread := false,
    select := some 0, latch := .empty, codes := ReadBacks.reset, postTag := 0, slotOpened := 0,
    posting := PostingRecord.reset, corrPosting := { target := 0, axis := 0, delta := 0 },
    corrView := { outcome := .none, target := 0, axis := 0, delta := 0 }, lines := 0 }

/-- The part as RESET rises (R162): the stabilisation wait begins. The signal-detect pins and the width straps come from
outside; the queue is the caller's. R167 gives the clock state and fault count after the wait only: during it they are
CRYSTAL and 0, DESIGN CHOICE (log entry 56). -/
def State.afterReset (westDetect eastDetect widA widB : Bool) (pending : List Instr) : State :=
  { clock := { ready := false, state := .crystal, faults := 0, periods := 0 },
    links := { west := LinkUnit.reset westDetect, east := LinkUnit.reset eastDetect },
    ring := RingPath.reset, cyc := CycleUnit.reset, shafts := ShaftUnit.reset, axis := AxisUnit.reset,
    trip := TripUnit.reset, pool := Pool.reset, chan := ChannelUnit.reset, locks := LockUnit.reset,
    ports := { a := PortUnit.reset widA, b := PortUnit.reset widB }, pending := pending }

/-- The machine right after reset: signal-detect deasserted, both straps low (16 bits), no command waiting.
DESIGN CHOICE for the pins (log entry 13); every other value is the data book's or named in INVENTORY.md. Unsafe where a
claim leans on a pin level. -/
def State.reset : State := State.afterReset false false false false []

end Sys2Proof.Machine
end

