-- ==== Sys2Proof/Machine/Arith.lean ====
section
/-!
DEFINITION. The arithmetic of the data book (00_scope.md, Conventions) and access to pairs and vectors.
-/

namespace Sys2Proof.Machine

/-! ### Counters and comparisons -/

/-- A 16-bit counter counts once and stops at 65,535 (00_scope.md, Counters). -/
def bump (n : Nat) : Nat := if n < 65535 then n + 1 else 65535

/-- A 16-bit counter counts `k` times. -/
def bumpBy (n k : Nat) : Nat := if n + k < 65535 then n + k else 65535

/-- Serial comparison of epochs and reset numbers (00_scope.md): `a` is newer than `b` when (a − b) modulo 256 lies in
1 to 127. -/
def newer (a b : BitVec 8) : Bool := decide (1 ≤ (a - b).toNat ∧ (a - b).toNat ≤ 127)

/-- A value limited to `lo` to `hi` (R23, R54, R99). -/
def clampNat (v lo hi : Nat) : Nat := if v < lo then lo else if hi < v then hi else v

/-- clamp(x, −m, +m) (00_scope.md, Clamping). -/
def clampInt (x m : Int) : Int := if x < -m then -m else if m < x then m else x

/-- A difference of two 32-bit positions, read signed (00_scope.md, Positions). -/
def posDiff (a b : Pos) : Int := (a - b).toInt

/-- The shortest path of `x` within a revolution: x modulo 2^20 mapped into −2^19 + 1 to +2^19 (00_scope.md). -/
def shortestPath (x : Int) : Int :=
  if 524288 < x % 1048576 then x % 1048576 - 1048576 else x % 1048576

/-- (m − n) modulo 65,536, for cycle numbers (R30, R40). -/
def cycleDist (m n : Cycle) : Nat := (m - n).toNat

/-- A duration rounded down to a multiple of 4 ns (R3, R20). -/
def floor4 (x : Int) : Int := x - x % 4

/-- A port's or the ring's signed 32-bit field as an integer. -/
def signed32 (v : BitVec 32) : Int := v.toInt

/-- The wrap of an integer into a 32-bit position. -/
def toPos (x : Int) : Pos := BitVec.ofInt 32 x

/-! ### Pairs and vectors -/

def Port.other : Port → Port
  | .a => .b
  | .b => .a

def Side.other : Side → Side
  | .west => .east
  | .east => .west

def PortPair.get {α : Type} (x : PortPair α) : Port → α
  | .a => x.a
  | .b => x.b

def PortPair.modify {α : Type} (x : PortPair α) (p : Port) (f : α → α) : PortPair α :=
  match p with
  | .a => { x with a := f x.a }
  | .b => { x with b := f x.b }

def PortPair.set {α : Type} (x : PortPair α) (p : Port) (v : α) : PortPair α := x.modify p fun _ => v

def SidePair.get {α : Type} (x : SidePair α) : Side → α
  | .west => x.west
  | .east => x.east

def SidePair.modify {α : Type} (x : SidePair α) (d : Side) (f : α → α) : SidePair α :=
  match d with
  | .west => { x with west := f x.west }
  | .east => { x with east := f x.east }

/-- Changes entry `i` of a vector by `f`. -/
def modifyAt {α : Type} {n : Nat} (v : Vector α n) (i : Fin n) (f : α → α) : Vector α n := v.set i.val (f v[i.val])

/-- Changes entry `i` of a list by `f`; a list without it is left as it stands. -/
def modifyNth {α : Type} : List α → Nat → (α → α) → List α
  | [], _, _ => []
  | x :: xs, 0, f => f x :: xs
  | x :: xs, i + 1, f => x :: modifyNth xs i f

/-- A list with its newest entry at the end and at most `n` entries: the oldest leave (R7, R69, R113). -/
def pushBounded {α : Type} (xs : List α) (x : α) (n : Nat) : List α := (xs ++ [x]).drop (xs.length + 1 - n)

/-- All axes in ascending order. -/
def allAxes : List AxisNo := [0, 1, 2, 3, 4, 5, 6, 7]

/-- All shafts in ascending order. -/
def allShafts : List ShaftNo := [0, 1, 2, 3]

/-- All channels in ascending order. -/
def allChannels : List ChannelNo := [0, 1, 2, 3, 4, 5, 6, 7]

/-- All assembly contexts in ascending order. -/
def allContexts : List (Fin 4) := [0, 1, 2, 3]

/-- All locks in ascending order. -/
def allLocks : List LockNo := [0, 1, 2, 3, 4, 5, 6, 7, 8, 9, 10, 11, 12, 13, 14, 15]

/-- All trip sources in ascending order. -/
def allSources : List SourceNo := List.finRange 32

/-- All node addresses in ascending order. -/
def allAddresses : List (Fin 31) := List.finRange 31

end Sys2Proof.Machine
end

