-- ==== Sys2Proof/Machine/Memory.lean ====
section
/-!
DEFINITION. Packet memory bytes (R94, R98) as a list of (address, byte) cells in canonical form: addresses strictly
rising, no cell equal to what an unlisted address reads. Byte b of block n lies at 256n + b, byte b of common area a at
131,072 + 1,024a + b.
-/

namespace Sys2Proof.Machine

/-- What an unlisted address reads: the zero byte that every block and area holds after RESET (R94, R98). -/
def unlistedByte : Byte := 0

/-- One byte of the packet memory. -/
def Memory.read : List Host.Cell → Nat → Byte
  | [], _ => unlistedByte
  | (a, v) :: rest, x => if a = x then v else Memory.read rest x

/-- One byte written; the canonical form is kept. -/
def Memory.write : List Host.Cell → Nat → Byte → List Host.Cell
  | [], x, v => if v = unlistedByte then [] else [(x, v)]
  | (a, w) :: rest, x, v =>
    if x < a then (if v = unlistedByte then (a, w) :: rest else (x, v) :: (a, w) :: rest)
    else if x = a then (if v = unlistedByte then rest else (x, v) :: rest)
    else (a, w) :: Memory.write rest x v

/-- Bytes written from an address onward, in offset order. -/
def Memory.writeBytes : List Host.Cell → Nat → List Byte → List Host.Cell
  | mem, _, [] => mem
  | mem, x, v :: vs => Memory.writeBytes (Memory.write mem x v) (x + 1) vs

/-- `n` bytes read from an address onward, in offset order. -/
def Memory.readBytes (mem : List Host.Cell) (x : Nat) : Nat → List Byte
  | 0 => []
  | n + 1 => Memory.read mem x :: Memory.readBytes mem (x + 1) n

/-- Whether every address of a memory is above `x` and the canonical form holds from there. -/
def Memory.wfAbove : List Host.Cell → Nat → Bool
  | [], _ => true
  | (a, v) :: rest, x => decide (x < a) && decide (v ≠ unlistedByte) && Memory.wfAbove rest a

/-- The canonical form. -/
def Memory.wf : List Host.Cell → Bool
  | [] => true
  | (a, v) :: rest => decide (v ≠ unlistedByte) && Memory.wfAbove rest a

/-- The address of byte `b` of block `n` (R94). -/
def blockAddr (n : BlockNo) (b : Nat) : Nat := 256 * n.val + b

/-- The address of byte `b` of common area `a` (R98). -/
def areaAddr (a : AreaNo) (b : Nat) : Nat := 131072 + 1024 * a.val + b

/-- A message's bytes from `offset` on: 256 from each block in order (R119, R138). The address of its byte `i`. -/
def messageByteAddr (blocks : List BlockNo) (i : Nat) : Option Nat :=
  (blocks[i / 256]?).map fun n => blockAddr n (i % 256)

/-- Byte `i` of a message held in `blocks`. -/
def messageByte (mem : List Host.Cell) (blocks : List BlockNo) (i : Nat) : Byte :=
  match messageByteAddr blocks i with
  | some a => Memory.read mem a
  | none => unlistedByte

end Sys2Proof.Machine
end

