-- ==== Sys2Proof/Machine/Ops.lean ====
section
/-!
DEFINITION. The named operations over the state's blocks: every change of the state goes through one of these, so that a
proof reads which block a command touches. Laws/State.lean holds one lemma per field per operation.
-/

namespace Sys2Proof.Machine

/-! ### Whole blocks -/

def State.modClock (s : State) (f : ClockUnit → ClockUnit) : State := { s with clock := f s.clock }

def State.modLink (s : State) (d : Side) (f : LinkUnit → LinkUnit) : State := { s with links := s.links.modify d f }

def State.modRing (s : State) (f : RingPath → RingPath) : State := { s with ring := f s.ring }

def State.modCyc (s : State) (f : CycleUnit → CycleUnit) : State := { s with cyc := f s.cyc }

def State.modShafts (s : State) (f : ShaftUnit → ShaftUnit) : State := { s with shafts := f s.shafts }

def State.modAxisUnit (s : State) (f : AxisUnit → AxisUnit) : State := { s with axis := f s.axis }

def State.modTrip (s : State) (f : TripUnit → TripUnit) : State := { s with trip := f s.trip }

def State.modPool (s : State) (f : Pool → Pool) : State := { s with pool := f s.pool }

def State.modChan (s : State) (f : ChannelUnit → ChannelUnit) : State := { s with chan := f s.chan }

def State.modLocks (s : State) (f : LockUnit → LockUnit) : State := { s with locks := f s.locks }

def State.modPort (s : State) (p : Port) (f : PortUnit → PortUnit) : State := { s with ports := s.ports.modify p f }

/-! ### Parts of blocks -/

def State.port (s : State) (p : Port) : PortUnit := s.ports.get p

def State.link (s : State) (d : Side) : LinkUnit := s.links.get d

def State.getShaft (s : State) (i : ShaftNo) : Shaft := s.shafts.shafts[i.val]

def State.modShaft (s : State) (i : ShaftNo) (f : Shaft → Shaft) : State :=
  s.modShafts fun u => { u with shafts := modifyAt u.shafts i f }

def State.getAxis (s : State) (i : AxisNo) : Axis := s.axis.axes[i.val]

def State.modAxis (s : State) (i : AxisNo) (f : Axis → Axis) : State :=
  s.modAxisUnit fun u => { u with axes := modifyAt u.axes i f }

def State.getSource (s : State) (i : SourceNo) : Source := s.trip.sources[i.val]

def State.modSource (s : State) (i : SourceNo) (f : Source → Source) : State :=
  s.modTrip fun u => { u with sources := modifyAt u.sources i f }

def State.getChannel (s : State) (i : ChannelNo) : Channel := s.chan.channels[i.val]

def State.modChannel (s : State) (i : ChannelNo) (f : Channel → Channel) : State :=
  s.modChan fun u => { u with channels := modifyAt u.channels i f }

def State.getContext (s : State) (k : Fin 4) : Option Context := s.chan.contexts[k.val]

def State.setContext (s : State) (k : Fin 4) (c : Option Context) : State :=
  s.modChan fun u => { u with contexts := modifyAt u.contexts k fun _ => c }

def State.getLock (s : State) (j : LockNo) : LockRec := s.locks.locks[j.val]

def State.modLock (s : State) (j : LockNo) (f : LockRec → LockRec) : State :=
  s.modLocks fun u => { u with locks := modifyAt u.locks j f }

/-- Sets a read-back of a port's code words (R172). -/
def State.setCode (s : State) (p : Port) (f : ReadBacks → ReadBacks) : State :=
  s.modPort p fun u => { u with codes := f u.codes }

/-- A port read drives the port's data lines (R157). -/
def State.drive (s : State) (p : Port) (v : BitVec 32) : State := s.modPort p fun u => { u with lines := v }

/-- A port read returns a number on the port's data lines. -/
def State.driveNat (s : State) (p : Port) (v : Nat) : State := s.drive p (BitVec.ofNat 32 v)

/-- The other word of a word's pair (R157). -/
def pairPartner (a : Nat) : Nat := if a % 2 = 0 then a + 1 else a - 1

/-- A port read of the word at address `a`, with the other word of its pair: a 16-bit port's lines carry the word, a 32-bit
port's the pair, the even word on lines 0 to 15 (R157). -/
def State.drivePair (s : State) (p : Port) (a own partner : Nat) : State :=
  if (s.port p).wide then
    if a % 2 = 0 then s.drive p (BitVec.ofNat 16 partner ++ BitVec.ofNat 16 own)
    else s.drive p (BitVec.ofNat 16 own ++ BitVec.ofNat 16 partner)
  else s.driveNat p own

/-! ### What the blocks read of each other -/

/-- Whether the node leads: its role is LEADER and its phase EMITTING (02, 2.1). -/
def State.leading (s : State) : Bool := decide (s.cyc.role = .leader ∧ s.cyc.phase = .emitting)

/-- Whether the node has cycle events running (R11, "Cycle events at a glance"). -/
def State.eventsRunning (s : State) : Bool :=
  s.leading || decide (s.cyc.lock ≠ .unlocked) || s.cyc.runningDown

/-- The node's own address; 0 stands where no address is written, when no frame leaves the node (R163, R164). -/
def State.own (s : State) : Nat := s.cyc.address.getD 0

/-- P integer of a shaft, the upper 32 bits of P (00_scope.md). -/
def Shaft.posInt (x : Shaft) : Pos := x.pos.extractLsb' 16 32

/-- P fraction of a shaft. -/
def Shaft.posFrac (x : Shaft) : BitVec 16 := x.pos.extractLsb' 0 16

/-- An index as an axis, channel, plan, shaft, lock, source or block number, if it names one. -/
def finOf (n : Nat) (v : Nat) : Option (Fin n) := if h : v < n then some ⟨v, h⟩ else none

end Sys2Proof.Machine
end

