-- ==== Sys2Proof/Machine/Flags.lean ====
section
/-!
DEFINITION. Event flags, interrupt lines, trip output pins and refused accesses (08, 8.4; R87; R155, R156, R161).
-/

namespace Sys2Proof.Machine

/-- The bit of an event in the event flag, enable and clear words (R171). -/
def Event.bit : Event → Nat
  | .cycle => 0
  | .trip => 1
  | .ring => 2
  | .timelock => 3
  | .rx => 4
  | .outcome => 5
  | .corr => 6
  | .lockfree => 7
  | .signal => 8
  | .store => 9
  | .plan => 10
  | .access => 11

/-- The word that names one event (R171). -/
def Event.mask (e : Event) : BitVec 12 := 1#12 <<< e.bit

/-- Whether a port's flag for an event is set. -/
def PortUnit.hasFlag (u : PortUnit) (e : Event) : Bool := u.flags.getLsbD e.bit

/-- An event raised at a port sets its flag, whatever the enable (R153). -/
def raise (p : Port) (e : Event) (s : State) : State := s.modPort p fun u => { u with flags := u.flags ||| e.mask }

/-- An event raised at both ports. -/
def raiseBoth (e : Event) (s : State) : State := raise .b e (raise .a e s)

/-- Whether a port's interrupt line, INTA or INTB, is asserted (driven low): some flag is both set and enabled (R156). -/
def State.interrupt (s : State) (p : Port) : Bool := decide ((s.port p).flags &&& (s.port p).enables ≠ 0)

/-- The rank of a trip class: none below NOTICE below STOP below QUICK below INSTANT (04, opening text). -/
def TripClass.rank : TripClass → Nat
  | .none => 0
  | .notice => 1
  | .stop => 2
  | .quick => 3
  | .instant => 4

/-- The higher of two trip classes. -/
def TripClass.max (x y : TripClass) : TripClass := if x.rank < y.rank then y else x

/-- STOPOUT (R87): asserted during the stabilisation wait, and then while the view is STOP or higher. -/
def State.stopout (s : State) : Bool := !s.clock.ready || decide (2 ≤ s.trip.view.rank)

/-- TRIPOUT, the drive enable (R87): de-asserted during the stabilisation wait, and then asserted while the view is below
INSTANT. -/
def State.tripout (s : State) : Bool := s.clock.ready && decide (s.trip.view.rank < 4)

/-- An access that is refused or dropped (R155, R161): ACCESS is raised at the port, an empty capture takes the record,
and the access count rises. -/
def access (p : Port) (addr : Word16) (write : Bool) (reason : AccessReason) (s : State) : State :=
  raise p .access <| s.modPort p fun u =>
    { u with
      capture := match u.capture with
        | none => some { addr := addr, write := write, reason := reason }
        | some c => some c
      accessCount := bump u.accessCount }

/-- A refused read returns 0 (R120, R160, R161). -/
def accessRead (p : Port) (addr : Word16) (reason : AccessReason) (s : State) : State :=
  (access p addr false reason s).driveNat p 0

/-- A port access that writes: ignored during the stabilisation wait (R162), and otherwise taken with the port's field
latch emptied (R158). -/
def portWrite (p : Port) (s : State) (f : State → State) : State :=
  if s.clock.ready then f (s.modPort p fun u => { u with latch := .empty }) else s

/-- A port access that reads: it returns 0 during the stabilisation wait (R162). -/
def portRead (p : Port) (s : State) (f : State → State) : State :=
  if s.clock.ready then f (s.modPort p fun u => { u with latch := .empty }) else s.driveNat p 0

/-- The word address an access is made at: a 32-bit port ignores address line 1 (R157). -/
def accessAddr (wide : Bool) (a : Word16) : Word16 := if wide then a &&& 0xFFFE#16 else a

/-- Whether the other word of an address's pair takes every port's write, among the words whose write has a command of its
own and is refused in some case: DETACH, CLOCK RESTART, LOCAL CLEAR and the source enables stand beside the soft reset
word, the fault count, TRIP RESET and the raise counts (10.3; log entry 55). -/
def partnerTaken (a : Nat) : Bool :=
  a == 0x0004 || a == 0x0009 || a == 0x0785 || (decide (0x0700 ≤ a ∧ a < 0x0780) && a % 4 == 2)

/-- A port command's write of one word is refused (R155, R161). At a 32-bit port the access carries the pair: it raises
nothing where the other half is taken, and otherwise one ACCESS with the even word's address (R157). A row that carries a
whole field of 32 or 48 bits is one access, so at a 16-bit port it makes one ACCESS with the address given, while writes of
the field's words make one each. DESIGN CHOICE (log entry 73). -/
def refuseWord (p : Port) (addr : Word16) (reason : AccessReason) (s : State) : State :=
  if (s.port p).wide && partnerTaken addr.toNat then s else access p (accessAddr (s.port p).wide addr) true reason s

/-- A port command's write of a field of 32 bits is refused: at a 16-bit port the write of its high word is what the guard
judges (R158), and at a 32-bit port the pair. -/
def refuseField (p : Port) (base : Word16) (reason : AccessReason) (s : State) : State :=
  access p (if (s.port p).wide then base else base + 1) true reason s

/-- A write that the rules give to port A alone: the word is read-only at port B (10.3, R161). `addr` is a field's low word
where the row carries a whole field (log entry 73). -/
def writeByA (p : Port) (addr : Word16) (f : State → State) (s : State) : State :=
  match p with
  | .a => f s
  | .b => refuseWord .b addr .readOnly s

end Sys2Proof.Machine
end

