-- ==== Sys2Proof/Machine/Operands.lean ====
section
/-!
DEFINITION. The operand forms of port commands: enumerated codes (10.1), result codes (10.4), the values a written word
stands for, and the word addresses of the map (10.3, R171) that refused accesses are captured with.
-/

namespace Sys2Proof.Machine

/-! ### Codes (10.1, "Enumerated codes"; 10.4) -/

def Mark.num : Mark → Nat
  | .none => 0
  | .taken => 1
  | .busy => 2
  | .held => 3
  | .late => 4

def MsgKind.num : MsgKind → Nat
  | .none => 0
  | .request => 1
  | .response => 2
  | .event => 3
  | .strip => 4

def PathMode.num : PathMode → Nat
  | .through => 0
  | .wrapEast => 1
  | .wrapWest => 2
  | .isolated => 3

def RingState.num : RingState → Nat
  | .closed => 0
  | .wrapped => 1
  | .split => 2

def AxisState.num : AxisState → Nat
  | .off => 0
  | .engaging => 1
  | .follow => 2
  | .disengaging => 3

def CorrOutcome.num : CorrOutcome → Nat
  | .none => 0
  | .applied => 1
  | .clamped => 2
  | .notFollowing => 3
  | .noAxis => 4
  | .lost => 5
  | .undelivered => 6

def MsgOutcome.num : MsgOutcome → Nat
  | .none => 0
  | .taken => 1
  | .failedBusy => 2
  | .failedLost => 3
  | .failedLate => 4
  | .failedAbsent => 5
  | .droppedBusy => 6
  | .droppedHeld => 7
  | .droppedLost => 8
  | .droppedAbsent => 9
  | .cancelled => 10
  | .noResponse => 11
  | .flushed => 12
  | .superseded => 13

/-- Lock holder: FREE, HELD_A, HELD_B. -/
def holderNum : Option Port → Nat
  | none => 0
  | some .a => 1
  | some .b => 2

def SlotState.num : SlotState → Nat
  | .empty => 0
  | .filling => 1
  | .ready => 2
  | .reading => 3

def PlanOutcome.num : PlanOutcome → Nat
  | .none => 0
  | .done => 1
  | .vetoed => 2
  | .cancelled => 3

def AccessReason.num : AccessReason → Nat
  | .guarded => 1
  | .notOwner => 2
  | .notHeld => 3
  | .undefined => 4
  | .readOnly => 5

def Role.num : Role → Nat
  | .follower => 0
  | .standby => 1
  | .leader => 2

/-- Leader phase; none reads FFFFh (R171). -/
def LeaderPhase.num : LeaderPhase → Nat
  | .none => 65535
  | .waiting => 0
  | .listening => 1
  | .emitting => 2

def LockState.num : LockState → Nat
  | .unlocked => 0
  | .acquiring => 1
  | .locked => 2
  | .holdover => 3

def DownReason.num : DownReason → Nat
  | .none => 0
  | .loss => 1
  | .silent => 2
  | .degraded => 3
  | .farEnd => 4
  | .detached => 5
  | .clock => 6

def LinkState.num : LinkState → Nat
  | .down => 0
  | .training => 1
  | .up => 2

def ClockState.num : ClockState → Nat
  | .crystal => 0
  | .fallback => 1
  | .restarting => 2

def ChannelType.num : ChannelType → Nat
  | .off => 0
  | .screen => 1
  | .image => 2

def Port.num : Port → Nat
  | .a => 0
  | .b => 1

def HeadState.num : HeadState → Nat
  | .idle => 0
  | .inAttempt => 1
  | .retryWait => 2
  | .heldWait _ => 3

def EntryState.num : EntryState → Nat
  | .waiting => 0
  | .answering => 1

/-- Block owner codes of the owner table (10.3). -/
def BlockOwner.num : BlockOwner → Nat
  | .free => 0
  | .port .a => 1
  | .port .b => 2
  | .txq => 3
  | .assembly => 4
  | .rxq => 5
  | .store => 6

/-- A trip class at the ports: 0 to 3, FFFFh for none (R171). -/
def TripClass.word : TripClass → Nat
  | .none => 65535
  | .notice => 0
  | .stop => 1
  | .quick => 2
  | .instant => 3

/-- A yes-or-no item (R171). -/
def boolNum (b : Bool) : Nat := if b then 1 else 0

/-- An item that may be none reads FFFFh for none (R171). -/
def optNum : Option Nat → Nat
  | none => 65535
  | some v => v

/-- Result and status codes (10.4). -/
def Code.num : Code → Nat
  | .none => 0x0000
  | .accepted => 0x0001
  | .granted => 0x0002
  | .alreadyHeld => 0x0003
  | .heldByOther => 0x0004
  | .busy => 0x0010
  | .empty => 0x0011
  | .full => 0x0012
  | .queueFull => 0x0013
  | .tooManyOutstanding => 0x0014
  | .inFlight => 0x0015
  | .notEmpty => 0x0016
  | .notLeader => 0x0020
  | .noChange => 0x0021
  | .tooSoon => 0x0022
  | .tooLate => 0x0023
  | .noRoster => 0x0024
  | .noAxis => 0x0030
  | .notLocked => 0x0031
  | .tripped => 0x0032
  | .noEntry => 0x0033
  | .notEngaged => 0x0034
  | .badTarget => 0x0035
  | .channelOff => 0x0040
  | .notOwner => 0x0041
  | .badKind => 0x0042
  | .badDest => 0x0043
  | .badLength => 0x0044
  | .badBlock => 0x0045
  | .notScreen => 0x0046
  | .notImage => 0x0047
  | .badSlot => 0x0048
  | .notReady => 0x0049
  | .notOpen => 0x004A
  | .attached => 0x0050
  | .notAttached => 0x0051
  | .noAddress => 0x0052
  | .badAddress => 0x0053
  | .axesActive => 0x0054
  | .clockFault => 0x0055
  | .notFaulted => 0x0056
  | .starting => 0x0060
  | .ready => 0x0061
  | .finishing => 0x0062
  | .done => 0x0063

/-! ### Values that a written word stands for -/

/-- A code of `n` for an enumerated register without a clamping rule: the value written when the table lists it, and
otherwise an unstated one of the `n` codes (log entry 16). -/
def listedCode (n v : Nat) : Nat := if v < n then v else Config.unlistedCode n v % n

/-- An on-or-off or yes-or-no register without a clamping rule. -/
def listedBool (v : Nat) : Bool := listedCode 2 v == 1

def roleOf : Nat → Role
  | 0 => .follower
  | 1 => .standby
  | _ => .leader

def channelTypeOf : Nat → ChannelType
  | 0 => .off
  | 1 => .screen
  | _ => .image

def portOf : Nat → Port
  | 0 => .a
  | _ => .b

/-- A trip class 0 to 3. -/
def classOf : Nat → TripClass
  | 0 => .notice
  | 1 => .stop
  | 2 => .quick
  | _ => .instant

def kindOf : Nat → MsgKind
  | 1 => .request
  | 2 => .response
  | 3 => .event
  | 4 => .strip
  | _ => .none

/-- A lock 0 to 15, or none for FFFFh (R171), from a word whose out-of-range values are clamped: the nearest lock. -/
def lockOrNone (v : Nat) : Option LockNo := if v = 65535 then none else finOf 16 (clampNat v 0 15)

/-! ### Word addresses (10.3, R171) -/

def shaftAddr (i : ShaftNo) (off : Nat) : Word16 := BitVec.ofNat 16 (0x0100 + 0x20 * i.val + off)

def axisAddr (i : AxisNo) (off : Nat) : Word16 := BitVec.ofNat 16 (0x0200 + 0x80 * i.val + off)

def channelAddr (c : ChannelNo) (off : Nat) : Word16 := BitVec.ofNat 16 (0x1400 + 0x80 * c.val + off)

def sourceAddr (n : SourceNo) (off : Nat) : Word16 := BitVec.ofNat 16 (0x0700 + 4 * n.val + off)

/-- Word of a configuration item of R23 in the node region. -/
def ConfigItem.addr : ConfigItem → Word16
  | .period => 0x000B
  | .holdLimit => 0x000C
  | .captureWindow => 0x000D
  | .lockCount => 0x000E
  | .takeCount => 0x000F
  | .allowance => 0x0010

/-- Offset of a shaft limit in a shaft's window. -/
def ShaftLimit.off : ShaftLimit → Nat
  | .aUp => 0x10
  | .aDn => 0x12
  | .aStop => 0x14
  | .aQuick => 0x16

/-- Offset of a field in a plan entry of 8 words (R171: φ takes the next even pair). -/
def EntryField.off : EntryField → Nat
  | .valid => 0
  | .shaft => 1
  | .numerator => 2
  | .denominator => 3
  | .phase => 4

/-- Offset of a parameter in an axis's window (R171). -/
def AxisParam.off : AxisParam → Nat
  | .enabled => 0x20
  | .corrSlew => 0x21
  | .engageSlew => 0x22
  | .decel => 0x24
  | .window => 0x26
  | .followCount => 0x28
  | .lag => 0x29
  | .actualReport => 0x2A
  | .guardLock => 0x2B
  | .followClass => 0x2C
  | .stepClass => 0x2D

/-- Offset of the actual position pair in an axis's window (R171). -/
def actualOff : Nat := 0x46

/-- Offset of a configuration item in a channel's window (R171). -/
def ChannelItem.off : ChannelItem → Nat
  | .type => 0
  | .owner => 1
  | .rxDepth => 2
  | .flush => 3
  | .storeSize => 4
  | .stampShaft => 5
  | .tripFreeze => 6
  | .tResp => 7

def LinkItem.index : LinkItem → Nat
  | .laser => 0
  | .downReason => 1
  | .delayMeasured => 2
  | .neighbour => 3
  | .heard => 4
  | .goodRun => 5
  | .upRun => 6
  | .windowLength => 7
  | .windowWord i => 8 + i.val

def TripItem.index : TripItem → Nat
  | .topSource => 0
  | .announced => 1
  | .guardCycle => 2
  | .guardLeft => 3
  | .leaderEpoch => 4
  | .leaderNode => 5
  | .stagedReset => 6
  | .request p => 7 + p.num

def ChannelStateItem.index : ChannelStateItem → Nat
  | .hold => 0
  | .readPosition => 1
  | .storeState => 2
  | .openSlot => 3
  | .storeReadPosition => 4
  | .completionSequence => 5
  | .gapSource i => 6 + i.val
  | .gapLast i => 10 + i.val

def Side.num : Side → Nat
  | .west => 0
  | .east => 1

/-- The number under which Config.unplacedAddress gives the address of a register the map does not place. -/
def Unplaced.index : Unplaced → Nat
  | .areaBinding a => a.val
  | .staleLimit => 8
  | .overreadFlag => 9
  | .lockGiveRefused => 10
  | .axisRangeFlag => 11
  | .lateReturnCount => 12
  | .busyMarkCount => 13
  | .discardCount => 14
  | .staleCount => 15
  | .outcomeOverflow c => 16 + c.val
  | .blocksHeld q => 24 + q.num
  | .link d i => 32 + 16 * d.num + i.index
  | .trip i => 64 + i.index
  | .channel c i => 128 + 16 * c.val + i.index

def Unplaced.addr (u : Unplaced) : Word16 := Config.unplacedAddress u.index

end Sys2Proof.Machine
end

