-- ==== Sys2Proof/Machine/Frames.lean ====
section
/-!
DEFINITION. Frames on the fibre (10.2, R169, R170): lengths, the check that no field is outside its range, the bytes of
every kind with their CRC-32, and the reading of received bytes.
-/

namespace Sys2Proof.Machine

/-! ### Lengths (R169) -/

/-- The length in bytes of a frame, CRC included (R169). -/
def Frame.len (f : Frame) : Nat :=
  match f.body with
  | .cycleStart _ => 88
  | .status b => 32 + 8 * b.entries.length
  | .tripFlash _ => 20
  | .data d => 28 + d.payload.length

/-- The segment count of a message of a given length (R104). -/
def segmentCount (length : Nat) : Nat := (length + 255) / 256

/-- The payload length of segment `i` of a message (R104). -/
def segmentLength (length i : Nat) : Nat :=
  if i + 1 < segmentCount length then 256 else length - 256 * (segmentCount length - 1)

/-! ### Malformed frames (R8, R170) -/

/-- The header fields inside their ranges (10.2). A CYCLE_START, STATUS or TRIP_FLASH to a destination other than 31 is good
and is processed like one to 31. DESIGN CHOICE (log entry 64). -/
def Header.inRange (h : Header) : Bool :=
  decide (h.origin ≤ 30) && decide (h.dest ≤ 31) && decide (h.hops ≤ 64) && decide (h.takers ≤ 31)

def TripRecord.inRange (r : TripRecord) : Bool :=
  match r.origin with
  | some o => decide (o ≤ 30)
  | none => false

def ShaftSample.inRange (x : ShaftSample) : Bool :=
  decide (-137438953472 ≤ x.vel) && decide (x.vel ≤ 137438953472)

def CycleStart.inRange (c : CycleStart) : Bool :=
  decide (c.leader ≤ 30) && c.shafts.toList.all ShaftSample.inRange &&
    match c.firstFault with
    | some r => r.inRange
    | none => true

def CorrEntry.inRange (e : CorrEntry) : Bool :=
  decide (e.target ≤ 30) && decide (e.axis ≤ 255) && decide (-524288 ≤ e.delta) && decide (e.delta ≤ 524288)

def StatusBody.inRange (b : StatusBody) : Bool := decide (b.entries.length ≤ 4) && b.entries.all CorrEntry.inRange

def DataBody.inRange (d : DataBody) : Bool :=
  decide (d.index < d.count) && decide (1 ≤ d.length) && decide (d.length ≤ 2048) &&
    decide (d.count = segmentCount d.length) && decide (d.payload.length = segmentLength d.length d.index)

/-- Whether every field of a frame is inside its range (R170). -/
def Frame.inRange (f : Frame) : Bool :=
  f.hdr.inRange && match f.body with
    | .cycleStart c => c.inRange
    | .status b => b.inRange
    | .tripFlash _ => true
    | .data d => d.inRange

def LinkIdle.inRange (l : LinkIdle) : Bool := decide (l.sender ≤ 30)

/-! ### CRC-32 (R169) -/

/-- One bit shifted into the CRC register, most significant bit first. -/
def crcShift (r : BitVec 32) : BitVec 32 := if r.msb then (r <<< 1) ^^^ 0x04C11DB7#32 else r <<< 1

def crcByte (r : BitVec 32) (b : Byte) : BitVec 32 :=
  crcShift (crcShift (crcShift (crcShift (crcShift (crcShift (crcShift (crcShift
    (r ^^^ (b.zeroExtend 32 <<< 24)))))))))

/-- The CRC of the bytes of a frame before it (R169). -/
def crc32 (bs : List Byte) : BitVec 32 := ~~~ (bs.foldl crcByte 0xFFFFFFFF#32)

/-! ### Bytes (10.2): a multi-byte field is sent most significant byte first -/

/-- The `n` low bytes of a number, most significant first. -/
def beBytes (v : Nat) : Nat → List Byte
  | 0 => []
  | n + 1 => BitVec.ofNat 8 (v / 256 ^ n) :: beBytes v n

/-- The number that bytes spell, most significant first. -/
def beNat (bs : List Byte) : Nat := bs.foldl (fun acc b => acc * 256 + b.toNat) 0

/-- A signed number as `n` bytes, two's complement. -/
def beInt (v : Int) (n : Nat) : List Byte := beBytes (v % (256 ^ n : Nat)).toNat n

/-- A trip class on the fibre: 0 to 3, FFh for none (10.1). -/
def TripClass.byte : TripClass → Nat
  | .none => 255
  | .notice => 0
  | .stop => 1
  | .quick => 2
  | .instant => 3

def Body.kindByte : Body → Nat
  | .cycleStart _ => 1
  | .status _ => 2
  | .tripFlash _ => 3
  | .data _ => 4

/-- Bytes 0 to 11 (10.2, Common header); the extension word carries the stamp position of DATA. -/
def Frame.headerBytes (f : Frame) : List Byte :=
  beBytes f.body.kindByte 1 ++ beBytes f.hdr.origin 1 ++ beBytes f.hdr.dest 1 ++ beBytes f.hdr.hops 1 ++
    beBytes f.hdr.mark.num 1 ++ beBytes f.hdr.takers 1 ++ beBytes 0 2 ++
    match f.body with
    | .data d => match d.stamp with
      | some st => beBytes st.pos.toNat 4
      | none => beBytes 0 4
    | _ => beBytes 0 4

/-- The six bytes of a trip record in CYCLE_START; zeros when absent. -/
def recordBytes : Option TripRecord → List Byte
  | some r => beBytes (r.origin.getD 255) 1 ++ beBytes r.source.val 1 ++ beBytes r.cls.byte 1 ++ beBytes 0 1 ++
      beBytes r.cycle.toNat 2
  | none => beBytes 0 6

def ShaftSample.bytes (x : ShaftSample) : List Byte :=
  beBytes x.posInt.toNat 4 ++ beBytes x.posFrac.toNat 2 ++ beInt x.vel 6

/-- Bytes 12 to 83 of a CYCLE_START. -/
def CycleStart.bytes (c : CycleStart) : List Byte :=
  beBytes c.cycle.toNat 2 ++ beBytes c.leader 1 ++ beBytes c.epoch.toNat 1 ++ beBytes c.ring.num 1 ++
    beBytes c.cls.byte 1 ++ beBytes c.resetNo.toNat 1 ++ beBytes c.activePlan.val 1 ++
    beBytes (match c.pendingSwitch with | some w => w.plan.val | none => 255) 1 ++
    beBytes (boolNum c.firstFault.isSome) 1 ++
    beBytes (match c.pendingSwitch with | some w => w.cycle.toNat | none => 0) 2 ++
    recordBytes c.firstFault ++ beBytes 0 2 ++ beBytes c.transit.toNat 4 ++
    (c.shafts.toList.map ShaftSample.bytes).flatten

def CorrEntry.bytes (e : CorrEntry) : List Byte :=
  beBytes e.target 1 ++ beBytes e.axis 1 ++ beBytes e.outcome.num 1 ++ beBytes 0 1 ++ beInt e.delta 4

/-- Bytes 12 onward of a STATUS, without its CRC. -/
def StatusBody.bytes (b : StatusBody) : List Byte :=
  beBytes b.mode.num 1 ++ beBytes b.cls.byte 1 ++
    beBytes (match b.topSource with | some n => n.val | none => 255) 1 ++ beBytes b.resetNo.toNat 1 ++
    beBytes (boolNum b.planReady) 1 ++ beBytes b.entries.length 1 ++
    (b.axisStates.toList.map fun x => beBytes x.num 1).flatten ++ beBytes b.cycle.toNat 2 ++
    (b.entries.map CorrEntry.bytes).flatten

/-- Bytes 12 to 15 of a TRIP_FLASH. -/
def TripFlash.bytes (f : TripFlash) : List Byte :=
  beBytes f.source.val 1 ++ beBytes f.cls.byte 1 ++ beBytes f.cycle.toNat 2

/-- Bytes 12 onward of a DATA frame, without its CRC. -/
def DataBody.bytes (d : DataBody) : List Byte :=
  beBytes d.channel.val 1 ++ beBytes d.tag.toNat 1 ++ beBytes d.attempt.toNat 1 ++
    beBytes (16 * d.index + d.count) 1 ++ beBytes (d.kind.num + 128 * boolNum d.stamp.isSome) 1 ++
    beBytes d.answers.toNat 1 ++ beBytes d.length 2 ++ beBytes d.strip.toNat 2 ++
    beBytes (match d.stamp with | some st => st.cycle.toNat | none => 0) 2 ++ d.payload

/-- The bytes of a ring frame before its CRC. Reserved fields, unassigned bits of flag bytes, and fields that are zero when
absent are sent as zero, in a forwarded frame too, whatever they held as it came. DESIGN CHOICE (log entry 61). -/
def Frame.bytes (f : Frame) : List Byte :=
  f.headerBytes ++ match f.body with
    | .cycleStart c => c.bytes
    | .status b => b.bytes
    | .tripFlash t => t.bytes
    | .data d => d.bytes

/-- The bytes of a LINK_IDLE before its CRC (10.2). -/
def LinkIdle.bytes (l : LinkIdle) : List Byte :=
  beBytes 0 1 ++ beBytes l.sender 1 ++ beBytes (boolNum l.heard + 2 * boolNum l.echo.isSome) 1 ++ beBytes 0 1 ++
    beBytes l.sendStamp.toNat 4 ++ beBytes (match l.echo with | some e => e.toNat | none => 0) 4 ++
    beBytes (match l.echo with | some _ => l.turnaround.toNat | none => 0) 4

/-- Bytes with their CRC behind them (R169). -/
def withCrc (bs : List Byte) : List Byte := bs ++ beBytes (crc32 bs).toNat 4

/-- What a frame on the wire looks like, CRC included. -/
def WireFrame.bytes : WireFrame → List Byte
  | .idle l => withCrc l.bytes
  | .ring f => withCrc f.bytes

/-! ### Reading received bytes -/

/-- The number in `n` bytes from offset `o`. -/
def fieldAt (bs : List Byte) (o n : Nat) : Nat := beNat ((bs.drop o).take n)

/-- A trip class byte; none where the code is not listed (R170). -/
def classAt (v : Nat) : Option TripClass :=
  if v = 0 then some .notice else if v = 1 then some .stop else if v = 2 then some .quick
  else if v = 3 then some .instant else if v = 255 then some .none else none

def markAt (v : Nat) : Option Mark :=
  if v = 0 then some .none else if v = 1 then some .taken else if v = 2 then some .busy
  else if v = 3 then some .held else if v = 4 then some .late else none

def pathModeAt (v : Nat) : Option PathMode :=
  if v = 0 then some .through else if v = 1 then some .wrapEast else if v = 2 then some .wrapWest
  else if v = 3 then some .isolated else none

def ringStateAt (v : Nat) : Option RingState :=
  if v = 0 then some .closed else if v = 1 then some .wrapped else if v = 2 then some .split else none

def axisStateAt (v : Nat) : Option AxisState :=
  if v = 0 then some .off else if v = 1 then some .engaging else if v = 2 then some .follow
  else if v = 3 then some .disengaging else none

def corrOutcomeAt (v : Nat) : Option CorrOutcome :=
  if v = 0 then some .none else if v = 1 then some .applied else if v = 2 then some .clamped
  else if v = 3 then some .notFollowing else if v = 4 then some .noAxis else if v = 5 then some .lost
  else if v = 6 then some .undelivered else none

def msgKindAt (v : Nat) : Option MsgKind := if v ≤ 4 then some (kindOf v) else none

/-- A two's complement number in `n` bytes from offset `o`. -/
def signedAt (bs : List Byte) (o n : Nat) : Int := (BitVec.ofNat (8 * n) (fieldAt bs o n)).toInt

def headerAt (bs : List Byte) : Option Header :=
  (markAt (fieldAt bs 4 1)).map fun m =>
    { origin := fieldAt bs 1 1, dest := fieldAt bs 2 1, hops := fieldAt bs 3 1, mark := m,
      takers := fieldAt bs 5 1 }

def recordAt (bs : List Byte) (o : Nat) : Option TripRecord :=
  (finOf 32 (fieldAt bs (o + 1) 1)).bind fun src =>
    (classAt (fieldAt bs (o + 2) 1)).map fun c =>
      { origin := some (fieldAt bs o 1), source := src, cls := c, cycle := BitVec.ofNat 16 (fieldAt bs (o + 4) 2) }

def shaftAt (bs : List Byte) (i : Nat) : ShaftSample :=
  { posInt := BitVec.ofNat 32 (fieldAt bs (36 + 12 * i) 4), posFrac := BitVec.ofNat 16 (fieldAt bs (40 + 12 * i) 2),
    vel := signedAt bs (42 + 12 * i) 6 }

/-- The pending switch of a CYCLE_START: none for FFh, refused for another unlisted plan. A switch cycle beside FFh is ignored,
as every nonzero field is that 10.2 gives as zero when absent. DESIGN CHOICE (log entry 61). -/
def switchAt (bs : List Byte) : Option (Option PlanSwitch) :=
  if fieldAt bs 20 1 = 255 then some none
  else (finOf 4 (fieldAt bs 20 1)).map fun pl =>
    some { plan := pl, cycle := BitVec.ofNat 16 (fieldAt bs 22 2) }

/-- The first-fault record of a CYCLE_START, by bit 0 of byte 21, whose other bits are ignored. DESIGN CHOICE (log entry
61). -/
def firstFaultAt (bs : List Byte) : Option (Option TripRecord) :=
  if fieldAt bs 21 1 % 2 = 1 then (recordAt bs 24).map some else some none

def cycleStartAt (bs : List Byte) : Option CycleStart :=
  (ringStateAt (fieldAt bs 16 1)).bind fun rs =>
  (classAt (fieldAt bs 17 1)).bind fun cls =>
  (finOf 4 (fieldAt bs 19 1)).bind fun pl =>
  (switchAt bs).bind fun sw =>
  (firstFaultAt bs).map fun ff =>
    { cycle := BitVec.ofNat 16 (fieldAt bs 12 2), leader := fieldAt bs 14 1,
      epoch := BitVec.ofNat 8 (fieldAt bs 15 1), ring := rs, cls := cls, firstFault := ff,
      resetNo := BitVec.ofNat 8 (fieldAt bs 18 1), activePlan := pl, pendingSwitch := sw,
      shafts := #v[shaftAt bs 0, shaftAt bs 1, shaftAt bs 2, shaftAt bs 3],
      transit := BitVec.ofNat 32 (fieldAt bs 32 4) }

def corrEntryAt (bs : List Byte) (o : Nat) : Option CorrEntry :=
  (corrOutcomeAt (fieldAt bs (o + 2) 1)).map fun out =>
    { target := fieldAt bs o 1, axis := fieldAt bs (o + 1) 1, outcome := out, delta := signedAt bs (o + 4) 4 }

def corrEntriesAt (bs : List Byte) (o : Nat) : Nat → Option (List CorrEntry)
  | 0 => some []
  | n + 1 => (corrEntryAt bs o).bind fun e => (corrEntriesAt bs (o + 8) n).map fun es => e :: es

def topSourceAt (v : Nat) : Option (Option SourceNo) :=
  if v = 255 then some none else (finOf 32 v).map some

def axisStatesAt (bs : List Byte) : Option (Vector AxisState 8) :=
  (axisStateAt (fieldAt bs 18 1)).bind fun x0 => (axisStateAt (fieldAt bs 19 1)).bind fun x1 =>
  (axisStateAt (fieldAt bs 20 1)).bind fun x2 => (axisStateAt (fieldAt bs 21 1)).bind fun x3 =>
  (axisStateAt (fieldAt bs 22 1)).bind fun x4 => (axisStateAt (fieldAt bs 23 1)).bind fun x5 =>
  (axisStateAt (fieldAt bs 24 1)).bind fun x6 => (axisStateAt (fieldAt bs 25 1)).map fun x7 =>
    #v[x0, x1, x2, x3, x4, x5, x6, x7]

/-- Bytes 12 onward of a STATUS. Byte 16 gives the plan-ready flag in bit 0; its other bits are ignored. DESIGN CHOICE (log
entry 61). -/
def statusAt (bs : List Byte) : Option StatusBody :=
  (pathModeAt (fieldAt bs 12 1)).bind fun m =>
  (classAt (fieldAt bs 13 1)).bind fun cls =>
  (topSourceAt (fieldAt bs 14 1)).bind fun top =>
  (axisStatesAt bs).bind fun ax =>
  (corrEntriesAt bs 28 (fieldAt bs 17 1)).map fun es =>
    { mode := m, cls := cls, topSource := top, resetNo := BitVec.ofNat 8 (fieldAt bs 15 1),
      planReady := fieldAt bs 16 1 % 2 == 1, axisStates := ax, cycle := BitVec.ofNat 16 (fieldAt bs 26 2),
      entries := es }

def tripFlashAt (bs : List Byte) : Option TripFlash :=
  (finOf 32 (fieldAt bs 12 1)).bind fun src =>
    (classAt (fieldAt bs 13 1)).map fun cls =>
      { source := src, cls := cls, cycle := BitVec.ofNat 16 (fieldAt bs 14 2) }

/-- Bytes 12 onward of a DATA frame. Byte 16 gives the kind in bits 0 to 2 and the stamp flag in bit 7; bits 3 to 6, which
10.2 does not assign, are ignored, as the bits of every flag byte are that 10.2 leaves unassigned, and they leave as zero.
DESIGN CHOICE (log entry 61). -/
def dataAt (bs : List Byte) : Option DataBody :=
  (finOf 8 (fieldAt bs 12 1)).bind fun ch =>
  (msgKindAt (fieldAt bs 16 1 % 8)).map fun k =>
    { channel := ch, tag := BitVec.ofNat 8 (fieldAt bs 13 1), attempt := BitVec.ofNat 8 (fieldAt bs 14 1),
      index := fieldAt bs 15 1 / 16, count := fieldAt bs 15 1 % 16, kind := k,
      answers := BitVec.ofNat 8 (fieldAt bs 17 1), length := fieldAt bs 18 2,
      strip := BitVec.ofNat 16 (fieldAt bs 20 2),
      stamp := if fieldAt bs 16 1 / 128 % 2 = 1 then
          some { cycle := BitVec.ofNat 16 (fieldAt bs 22 2), pos := BitVec.ofNat 32 (fieldAt bs 8 4) } else none,
      payload := bs.drop 24 }

/-- A LINK_IDLE. Byte 2 gives two flags in bits 0 and 1; its other bits are ignored. DESIGN CHOICE (log entry 61). -/
def linkIdleAt (bs : List Byte) : LinkIdle :=
  { sender := fieldAt bs 1 1, heard := fieldAt bs 2 1 % 2 == 1, sendStamp := BitVec.ofNat 32 (fieldAt bs 4 4),
    echo := if fieldAt bs 2 1 / 2 % 2 = 1 then some (BitVec.ofNat 32 (fieldAt bs 8 4)) else none,
    turnaround := BitVec.ofNat 32 (fieldAt bs 12 4) }

/-- The body that the bytes before the CRC spell, where their length is the one the kind and count fields call for. -/
def bodyAt (bs : List Byte) : Option Body :=
  if fieldAt bs 0 1 = 1 then
    if bs.length = 84 then (cycleStartAt bs).map Body.cycleStart else none
  else if fieldAt bs 0 1 = 2 then
    if bs.length = 28 + 8 * fieldAt bs 17 1 then (statusAt bs).map Body.status else none
  else if fieldAt bs 0 1 = 3 then
    if bs.length = 16 then (tripFlashAt bs).map Body.tripFlash else none
  else if fieldAt bs 0 1 = 4 then
    if 24 < bs.length then (dataAt bs).map Body.data else none
  else none

/-- The frame that received bytes spell, or none where the CRC fails or the frame is malformed (R8, R169, R170). -/
def parseFrame (bytes : List Byte) : Option WireFrame :=
  let bs := bytes.take (bytes.length - 4)
  if bytes.length < 20 || decide (284 < bytes.length) then none
  else if beBytes (crc32 bs).toNat 4 ≠ bytes.drop (bytes.length - 4) then none
  else if fieldAt bs 0 1 = 0 then
    if bs.length = 16 && (linkIdleAt bs).inRange then some (.idle (linkIdleAt bs)) else none
  else
    (headerAt bs).bind fun h =>
      (bodyAt bs).bind fun b =>
        if (Frame.mk h b).inRange then some (.ring { hdr := h, body := b }) else none

end Sys2Proof.Machine
end

