-- ==== Sys2Proof/Machine/Outbox.lean ====
section
/-!
DEFINITION. Register corrections (03, 3.6): what a correction does to an axis (R62), and the correction outbox (R63 to
R67).
-/

namespace Sys2Proof.Machine

/-- An axis enters OFF (R55): p is held, the velocity output, c_p, u and the following run count are 0; g, r and k are
kept (R61). -/
def Axis.toOff (x : Axis) : Axis := { x with state := .off, velOut := 0, cp := 0, u := 0, run := 0 }

/-- What a correction of `delta` does to an axis, with its outcome (R62). -/
def Axis.correct (x : Axis) (delta : Int) : CorrOutcome × Axis :=
  if !x.enabled then (.noAxis, x)
  else if x.state ≠ .follow then (.notFollowing, x)
  else if -524288 ≤ x.cp + delta ∧ x.cp + delta ≤ 524288 then (.applied, { x with cp := x.cp + delta })
  else (.clamped, { x with cp := clampInt (x.cp + delta) 524288 })

/-- A correction applied at this node to the axis numbered `n` (R62). -/
def applyCorrection (n : Nat) (delta : Int) (s : State) : CorrOutcome × State :=
  match finOf 8 n with
  | none => (.noAxis, s)
  | some i => (((s.getAxis i).correct delta).1, s.modAxis i fun x => (x.correct delta).2)

/-! ### The outbox -/

/-- Whether some entry that port `p` posted became DONE between two outboxes of one length. -/
def becameDone (p : Port) (old new : List OutboxEntry) : Bool :=
  (old.zip new).any fun e => decide (e.1.state ≠ .done) && decide (e.2.state = .done) && decide (e.2.port = p)

/-- The outbox takes a new content of the same length; each entry that becomes DONE raises CORR at its posting port
(R63, R64, R66). -/
def setOutbox (new : List OutboxEntry) (s : State) : State :=
  let old := s.axis.outbox
  let s := s.modAxisUnit fun u => { u with outbox := new }
  let s := if becameDone .a old new then raise .a .corr s else s
  if becameDone .b old new then raise .b .corr s else s

/-- Every SENT entry becomes DONE with outcome LOST (R64). -/
def loseSent (es : List OutboxEntry) : List OutboxEntry :=
  es.map fun e => if e.state = .sent then { e with state := .done, outcome := .lost } else e

/-- The oldest QUEUED entries, at most 4 with the `placed` ones before them, become SENT under a cycle number; each keeps
its place in the STATUS (R64). -/
def markSent (cyc : Cycle) : List OutboxEntry → Nat → List OutboxEntry
  | [], _ => []
  | e :: es, placed =>
    if e.state = .queued ∧ placed < 4 then
      { e with state := .sent, cycle := cyc, place := placed } :: markSent cyc es (placed + 1)
    else e :: markSent cyc es placed

/-- The correction entries a STATUS carries: the entries SENT under its cycle number (R64). An axis
number above 255, which names no axis anywhere, is carried as 255 (log entry 41). -/
def sentEntries (es : List OutboxEntry) : List CorrEntry :=
  (es.filter fun e => decide (e.state = .sent)).map fun e =>
    { target := e.target, axis := min e.axis 255, outcome := .none, delta := e.delta }

/-- The outbox's work at a STATUS (R64): entries still SENT become LOST, then up to 4 QUEUED ones are placed. Answers
the correction entries of the new STATUS. -/
def outboxAtStatus (s : State) : List CorrEntry × State :=
  let lost := loseSent s.axis.outbox
  let s := setOutbox lost s
  let placed := markSent s.cyc.cycle lost 0
  (sentEntries placed, s.modAxisUnit fun u => { u with outbox := placed })

/-- Whether a returned correction entry is the one that carried an outbox entry: it names the same target, axis and delta
(R64, R66). -/
def CorrEntry.carries (c : CorrEntry) (e : OutboxEntry) : Bool :=
  decide (c.target = e.target) && decide (c.axis = min e.axis 255) && decide (c.delta = e.delta)

/-- What an outbox entry becomes when its own correction entry returns: DONE with the marked outcome, UNDELIVERED where
none is marked (R66). -/
def OutboxEntry.returned (e : OutboxEntry) (c : CorrEntry) : OutboxEntry :=
  { e with state := .done, outcome := if c.outcome = .none then .undelivered else c.outcome }

/-- An outbox entry after the node's own STATUS of cycle `cyc` returned with the correction entries `cs`: an entry SENT
under that cycle is matched with the entry at its own place alone (R66), so the correction entry of an outbox entry that a
soft reset removed matches nothing (R67). DEDUCED (log entry 38). -/
def returnEntry (cyc : Cycle) (cs : List CorrEntry) (e : OutboxEntry) : OutboxEntry :=
  if e.state = .sent ∧ e.cycle = cyc then
    match cs[e.place]? with
    | some c => if c.carries e then e.returned c else e
    | none => e
  else e

/-- The outbox after a node's own STATUS returned (R66, R67). -/
def returnSent (cyc : Cycle) (cs : List CorrEntry) (es : List OutboxEntry) : List OutboxEntry :=
  es.map (returnEntry cyc cs)

/-- A node's own STATUS is removed at its processing input and read by the axis unit (R15, R66). -/
def ownStatusBack (b : StatusBody) (s : State) : State :=
  setOutbox (returnSent b.cycle b.entries s.axis.outbox) s

/-! ### Posting and reading results -/

/-- The correction post word's address (10.3). -/
def corrPostAddr : Word16 := 0x0644

/-- A write of the correction post word (R63). The posted delta is clamped, and the clamp flag set, at an accepted post: a
post answered FULL or BAD_TARGET sets no flag, and the posting words keep what was written. DESIGN CHOICE (log entry 48).
-/
def cmdCorrectionPost (p : Port) (s : State) : State :=
  let w := (s.port p).corrPosting
  let delta := clampInt (signed32 w.delta) 524288
  if 8 ≤ s.axis.outbox.length then s.setCode p fun c => { c with corrPost := .full }
  else if 30 < w.target.toNat then s.setCode p fun c => { c with corrPost := .badTarget }
  else
    let s := s.setCode p fun c => { c with corrPost := .accepted }
    let s := if delta = signed32 w.delta then s else s.modAxisUnit fun u => { u with clampFlag := true }
    if s.cyc.address = some w.target.toNat then
      let r := applyCorrection w.axis.toNat delta s
      raise p .corr <| r.2.modAxisUnit fun u =>
        { u with outbox := u.outbox ++ [{ port := p, target := w.target.toNat, axis := w.axis.toNat, delta := delta,
                                          state := .done, outcome := r.1, cycle := 0, place := 0 }] }
    else
      s.modAxisUnit fun u =>
        { u with outbox := u.outbox ++ [{ port := p, target := w.target.toNat, axis := w.axis.toNat, delta := delta,
                                          state := .queued, outcome := .none, cycle := 0, place := 0 }] }

/-- The oldest DONE entry of a port, with the outbox without it (R67). -/
def takeDone (p : Port) : List OutboxEntry → Option (OutboxEntry × List OutboxEntry)
  | [] => none
  | e :: es =>
    if e.state = .done ∧ e.port = p then some (e, es) else (takeDone p es).map fun r => (r.1, e :: r.2)

/-- A read of the first word of a port's correction result window (R67, R172). -/
def cmdCorrectionResultRead (p : Port) (s : State) : State :=
  match takeDone p s.axis.outbox with
  | some (e, rest) =>
    ((s.modAxisUnit fun u => { u with outbox := rest }).modPort p fun u =>
      { u with corrView := { outcome := e.outcome, target := e.target, axis := e.axis, delta := e.delta } }).drivePair p
        0x0650 e.outcome.num e.target
  | none =>
    (s.modPort p fun u => { u with corrView := { outcome := .none, target := 0, axis := 0, delta := 0 } }).driveNat p 0

/-- CORRECTION_POST (R63). -/
def execCorrectionPost (p : Port) (s : State) : Host.Outcome State Fault Refusal :=
  .next (portWrite p s (cmdCorrectionPost p))

/-- CORRECTION_RESULT_READ (R67). -/
def execCorrectionResultRead (p : Port) (s : State) : Host.Outcome State Fault Refusal :=
  .next (portRead p s (cmdCorrectionResultRead p))

end Sys2Proof.Machine
end

