-- ==== Sys2Proof/Machine/Packet.lean ====
section
/-!
DEFINITION. Packet memory: block owners and the free list (R94 to R97), the block window (R160), common areas and their
bindings (R98, R149), and payload bytes on the data lanes (R159).
-/

namespace Sys2Proof.Machine

/-! ### Owners and the free list -/

def Pool.owner (u : Pool) (n : BlockNo) : BlockOwner := u.owners[n.val]

/-- The blocks listed take an owner. -/
def Pool.own (u : Pool) (bs : List BlockNo) (o : BlockOwner) : Pool :=
  { u with owners := bs.foldl (fun v n => v.set n.val o) u.owners }

/-- The blocks listed become FREE and join the tail of the free list in the order given (R95). -/
def Pool.release (u : Pool) (bs : List BlockNo) : Pool :=
  { u.own bs .free with free := u.free ++ bs }

/-- The head block leaves the free list for a new owner (R95, R96, R107). -/
def Pool.takeHead (u : Pool) (o : BlockOwner) : Option (BlockNo × Pool) :=
  match u.free with
  | [] => none
  | n :: rest => some (n, { u.own [n] o with free := rest })

/-- The blocks a port holds, in ascending block number. -/
def Pool.heldBy (u : Pool) (p : Port) : List BlockNo :=
  (List.finRange 512).filter fun n => decide (u.owner n = .port p)

/-- Blocks freed in the state. -/
def freeBlocks (bs : List BlockNo) (s : State) : State := s.modPool fun u => u.release bs

/-- Blocks given an owner in the state. -/
def ownBlocks (bs : List BlockNo) (o : BlockOwner) (s : State) : State := s.modPool fun u => u.own bs o

/-! ### Taking and giving blocks -/

/-- The word address of Block Take and of SCREEN Take (10.3). -/
def takeAddr (screen : Bool) : Nat := if screen then 0x0801 else 0x0800

/-- A take word answers a port. The other take word of the pair is not read by the command: its lines are 0 at a 32-bit
port (log entry 1). -/
def answerTake (screen : Bool) (p : Port) (v : Nat) (s : State) : State := s.drivePair p (takeAddr screen) v 0

/-- A take that is refused (R96): none (FFFFh), the take-refused flag and count. -/
def takeRefused (screen : Bool) (p : Port) (s : State) : State :=
  answerTake screen p 65535 <|
    s.modPort p fun u => { u with takeRefused := true, takeRefusedCount := bump u.takeRefusedCount }

/-- A read of Block Take or, with `screen`, of SCREEN Take: the first line of R96's table that applies. -/
def cmdTake (screen : Bool) (p : Port) (s : State) : State :=
  if 64 ≤ (s.pool.heldBy p).length then takeRefused screen p s
  else if !screen && decide (s.pool.free.length ≤ s.pool.reserve) then takeRefused screen p s
  else
    match s.pool.takeHead (.port p) with
    | none => takeRefused screen p s
    | some (n, pool) => answerTake screen p n.val (s.modPool fun _ => pool)

def cmdBlockTake (p : Port) (s : State) : State := cmdTake false p s

def cmdScreenTake (p : Port) (s : State) : State := cmdTake true p s

/-- A write of Block Give (R97). -/
def cmdBlockGive (p : Port) (v : Word16) (s : State) : State :=
  match finOf 512 v.toNat with
  | some n =>
    if s.pool.owner n = .port p then freeBlocks [n] s
    else s.modPort p fun u => { u with giveRefused := true, giveRefusedCount := bump u.giveRefusedCount }
  | none => s.modPort p fun u => { u with giveRefused := true, giveRefusedCount := bump u.giveRefusedCount }

/-! ### Payload bytes on the data lanes (R159) -/

/-- The lane (line number divided by 8) that carries the byte at offset `i` of an access. -/
def laneOf (wide big : Bool) (i : Nat) : Nat :=
  match big with
  | false => i
  | true => (if wide then 3 else 1) - i

/-- How many bytes a payload access carries. -/
def accessBytes (wide : Bool) : Nat := if wide then 4 else 2

/-- The bytes a write carries, in offset order. -/
def bytesOfLines (wide big : Bool) (w : BitVec 32) : List Byte :=
  (List.range (accessBytes wide)).map fun i => w.extractLsb' (8 * laneOf wide big i) 8

/-- The lines a read drives for bytes in offset order. -/
def linesOfBytes (wide big : Bool) (bs : List Byte) : BitVec 32 :=
  BitVec.ofNat 32 ((List.range (accessBytes wide)).foldl
    (fun acc i => acc + (bs.getD i 0).toNat * 2 ^ (8 * laneOf wide big i)) 0)

/-- The first byte offset that an access to word `w` of a payload window reaches: a 32-bit port ignores address line 1
(R157). -/
def windowOffset (wide : Bool) (w : Nat) : Nat := if wide then 4 * (w / 2) else 2 * w

/-- Payload bytes written into the packet memory from an address onward. -/
def writePayload (x : Nat) (bs : List Byte) (s : State) : State :=
  s.modPool fun q => { q with mem := Memory.writeBytes q.mem x bs }

/-- The word address an access is made at: a 32-bit port's is the even one of the pair (R157). -/
def accessWord (wide : Bool) (w : Nat) : Nat := if wide then w - w % 2 else w

/-! ### The block window (R160) -/

def blockWindowAddr (word : Nat) : Word16 := BitVec.ofNat 16 (0x2000 + word)

/-- An access to the block window: judged at the access, on a block the port holds (R160). -/
def cmdBlockWindow (p : Port) (word : Fin 128) (w : Option (BitVec 32)) (s : State) : State :=
  let u := s.port p
  match u.select with
  | some n =>
    if s.pool.owner n = .port p then
      match w with
      | some lines =>
        writePayload (blockAddr n (windowOffset u.wide word.val)) (bytesOfLines u.wide u.bigEndian lines) s
      | none =>
        s.drive p (linesOfBytes u.wide u.bigEndian
          (Memory.readBytes s.pool.mem (blockAddr n (windowOffset u.wide word.val)) (accessBytes u.wide)))
    else match w with
      | some _ => access p (blockWindowAddr (accessWord u.wide word.val)) true .notHeld s
      | none => accessRead p (blockWindowAddr (accessWord u.wide word.val)) .notHeld s
  | none =>
    match w with
    | some _ => access p (blockWindowAddr (accessWord u.wide word.val)) true .notHeld s
    | none => accessRead p (blockWindowAddr (accessWord u.wide word.val)) .notHeld s

/-! ### Common areas (R98, R149) -/

def areaWordAddr (a : AreaNo) (word : Nat) : Word16 := BitVec.ofNat 16 (0x3000 + 0x200 * a.val + word)

/-- Whether a port holds a lock. -/
def State.holds (s : State) (p : Port) (j : LockNo) : Bool := decide ((s.getLock j).holder = some p)

/-- Whether a guard lets a port's write through: no lock bound, or the port holds it (R149, R150). -/
def State.guardOpen (s : State) (p : Port) (g : Option LockNo) : Bool :=
  match g with
  | none => true
  | some j => s.holds p j

/-- A write of a common area (R98, R149). -/
def cmdAreaWrite (p : Port) (a : AreaNo) (word : Fin 512) (w : BitVec 32) (s : State) : State :=
  let u := s.port p
  if s.guardOpen p s.locks.bindings[a.val] then
    writePayload (areaAddr a (windowOffset u.wide word.val)) (bytesOfLines u.wide u.bigEndian w) s
  else access p (areaWordAddr a (accessWord u.wide word.val)) true .guarded s

/-- The binding a written word stands for: a lock 0 to 15, none for FFFFh (R149, R171); for any other word one of these
17, which the data book does not state (log entry 16). -/
def bindingOf (v : Nat) : Option LockNo :=
  if v = 65535 then none else if v < 16 then finOf 16 v else finOf 16 (Config.unlistedCode 17 v % 17)

/-- A write of a register without an address is refused (R161). Its address, and with it its pair's other word, is
unstated: the write is judged alone (log entry 14). -/
def refuseUnplaced (p : Port) (q : Unplaced) (reason : AccessReason) (s : State) : State :=
  access p (accessAddr (s.port p).wide q.addr) true reason s

/-- A write of an area's binding by port A, guarded by the binding it replaces (R149). -/
def cmdBindingWrite (p : Port) (a : AreaNo) (v : Word16) (s : State) : State :=
  match p with
  | .a =>
    if s.guardOpen .a s.locks.bindings[a.val] then
      s.modLocks fun u => { u with bindings := modifyAt u.bindings a fun _ => bindingOf v.toNat }
    else refuseUnplaced .a (.areaBinding a) .guarded s
  | .b => refuseUnplaced .b (.areaBinding a) .readOnly s

/-! ### The commands -/

/-- BLOCK_TAKE (R96). -/
def execBlockTake (p : Port) (s : State) : Host.Outcome State Fault Refusal := .next (portRead p s (cmdBlockTake p))

/-- SCREEN_TAKE (R96). -/
def execScreenTake (p : Port) (s : State) : Host.Outcome State Fault Refusal := .next (portRead p s (cmdScreenTake p))

/-- BLOCK_GIVE (R97). -/
def execBlockGive (p : Port) (v : Word16) (s : State) : Host.Outcome State Fault Refusal :=
  .next (portWrite p s (cmdBlockGive p v))

/-- BLOCK_WINDOW_ACCESS (R160). -/
def execBlockWindowAccess (p : Port) (word : Fin 128) (w : Option (BitVec 32)) (s : State) :
    Host.Outcome State Fault Refusal :=
  .next (match w with
    | some _ => portWrite p s (cmdBlockWindow p word w)
    | none => portRead p s (cmdBlockWindow p word w))

/-- COMMON_AREA_WRITE (R98, R149). -/
def execCommonAreaWrite (p : Port) (a : AreaNo) (word : Fin 512) (w : BitVec 32) (s : State) :
    Host.Outcome State Fault Refusal :=
  .next (portWrite p s (cmdAreaWrite p a word w))

/-- AREA_BINDING_WRITE (R149). -/
def execAreaBindingWrite (p : Port) (a : AreaNo) (v : Word16) (s : State) : Host.Outcome State Fault Refusal :=
  .next (portWrite p s (cmdBindingWrite p a v))

end Sys2Proof.Machine
end

