-- ==== Sys2Proof/Machine/Queue.lean ====
section
/-!
DEFINITION. Transmit queues: attempts, results and final outcomes (R101 to R105, R111 to R113, R123), and the arbiter
of the open allowance (R102, R103).
-/

namespace Sys2Proof.Machine

/-! ### Records and removal -/

/-- An outcome record joins a channel's list of at most 8 and raises OUTCOME at the owner port (R113). -/
def addOutcome (c : ChannelNo) (r : OutcomeRecord) (s : State) : State :=
  let full := decide (8 ≤ (s.getChannel c).outcomes.length)
  raise (s.getChannel c).config.owner .outcome <| s.modChannel c fun x =>
    { x with outcomes := pushBounded x.outcomes r 8, overflow := x.overflow || full }

/-- An offered segment of channel `c` that has not started is withdrawn; its charge is not returned (R103, R105, R128,
R133). -/
def withdraw (c : ChannelNo) (s : State) : State :=
  s.modChan fun u =>
    { u with offered := match u.offered with
        | some o => if o.channel = c then none else some o
        | none => none }

/-- When the path mode becomes ISOLATED or at DETACH, an offered segment returns to its message unsent (R19, R103). -/
def withdrawAny (s : State) : State := s.modChan fun u => { u with offered := none }

/-- The head of channel `c` becomes idle with no attempt in progress (R101). -/
def idleHead (reoffer : Bool) (c : ChannelNo) (s : State) : State :=
  s.modChannel c fun x => { x with head := .idle, attempt := none, reoffer := reoffer }

/-- Message `i` leaves the queue of channel `c` and its blocks are freed in message order; if it was the head, the next
message becomes the head, idle (R113). -/
def removeMessage (c : ChannelNo) (i : Nat) (s : State) : State :=
  match (s.getChannel c).queue[i]? with
  | none => s
  | some m =>
    let s := freeBlocks m.blocks (s.modChannel c fun x => { x with queue := x.queue.eraseIdx i })
    if i = 0 then idleHead false c (withdraw c s) else s

/-- A message's final outcome: it leaves the queue, its blocks are freed, and an outcome record is added (R113). -/
def finalOutcome (c : ChannelNo) (i : Nat) (out : MsgOutcome) (takers : Nat) (s : State) : State :=
  match (s.getChannel c).queue[i]? with
  | none => s
  | some m =>
    addOutcome c { outcome := out, tag := m.tag, kind := m.kind, dest := m.dest, tries := m.tries, takers := takers }
      (removeMessage c i s)

/-! ### Outstanding entries -/

/-- The record of an outstanding entry that timed out (R126). -/
def noResponse (e : OutEntry) : OutcomeRecord :=
  { outcome := .noResponse, tag := e.tag, kind := .request, dest := e.dest, tries := 0, takers := 0 }

/-- A WAITING entry for a REQUEST that was taken; an entry with the same destination and tag leaves first as if it had
timed out (R123). -/
def makeEntry (c : ChannelNo) (dest : Nat) (tag : BitVec 8) (s : State) : State :=
  let same := (s.getChannel c).entries.filter fun e => decide (e.dest = dest ∧ e.tag = tag)
  let s := s.modChannel c fun x =>
    { x with entries := x.entries.filter fun e => !decide (e.dest = dest ∧ e.tag = tag) }
  let s := same.foldl (fun s e => addOutcome c (noResponse e) s) s
  s.modChannel c fun x =>
    { x with entries := x.entries ++ [{ dest := dest, tag := tag, cycle := s.cyc.cycle, state := .waiting, age := 0 }] }

/-! ### Attempts -/

def SegState.isUnsent : SegState → Bool
  | .unsent => true
  | _ => false

def SegState.isOnWire : SegState → Bool
  | .onWire _ => true
  | _ => false

def SegState.isLost : SegState → Bool
  | .notReturned => true
  | _ => false

def SegState.hasMark (m : Mark) : SegState → Bool
  | .returned x _ => decide (x = m)
  | _ => false

def SegState.isReturned : SegState → Bool
  | .returned _ _ => true
  | _ => false

/-- An attempt has ended: no started segment is still out, and every segment has started or a stop is recorded (R105). -/
def Attempt.ended (a : Attempt) : Bool := !a.segs.any SegState.isOnWire && (a.stopped || !a.segs.any SegState.isUnsent)

def Attempt.someMark (a : Attempt) (m : Mark) : Bool := a.segs.any (SegState.hasMark m)

/-- What an ended attempt does to its message. -/
inductive AttemptResult where
  | final (o : MsgOutcome) (takers : Nat)
  | retry
  | held
  deriving DecidableEq, Repr

/-- The takers with which the last segment returned (R112). -/
def Attempt.lastTakers (a : Attempt) : Nat :=
  match a.segs.getLast? with
  | some (.returned _ n) => n
  | _ => 0

/-- The result of an attempt of a SCREEN message to a single node: the first line of R111's table that applies. -/
def screenResult (a : Attempt) (tries : Nat) : AttemptResult :=
  if a.someMark .late then .final .failedLate 0
  else if a.someMark .none then .final .failedAbsent 0
  else if a.someMark .held then .held
  else if a.someMark .busy || a.segs.any SegState.isLost then
    if tries < 8 then .retry
    else if a.someMark .busy then .final .failedBusy 0 else .final .failedLost 0
  else .final .taken 0

/-- The result of the one attempt of a STRIP to a single node (R112). -/
def stripResult (a : Attempt) : AttemptResult :=
  if a.segs.all (SegState.hasMark .taken) then .final .taken 0
  else if a.someMark .none then .final .droppedAbsent 0
  else if a.someMark .held then .final .droppedHeld 0
  else if a.someMark .busy then .final .droppedBusy 0
  else .final .droppedLost 0

/-- The result of the attempt of a message to destination 31 (R112). R112 gives takers for TAKEN alone: a record with any
other outcome holds 0. DESIGN CHOICE (log entry 58). -/
def broadcastResult (a : Attempt) (k : MsgKind) : AttemptResult :=
  if a.segs.all SegState.isReturned then .final .taken a.lastTakers
  else if k = .strip then .final .droppedLost 0 else .final .failedLost 0

def attemptResult (a : Attempt) (m : TxMsg) : AttemptResult :=
  if m.dest = 31 then broadcastResult a m.kind
  else if m.kind = .strip then stripResult a
  else screenResult a m.tries

/-- An ended attempt is decided (R105, R111, R112); `atEvent` says that it ended at a cycle event, when a retry follows at
once. A message that only finishes its attempt after a soft reset leaves without a record (R115). -/
def resolveAttempt (c : ChannelNo) (atEvent : Bool) (s : State) : State :=
  match (s.getChannel c).attempt, (s.getChannel c).queue with
  | some a, m :: _ =>
    if !a.ended then s
    else if m.finishing then removeMessage c 0 s
    else
      match attemptResult a m with
      | .retry => if atEvent then idleHead false c s
          else s.modChannel c fun x => { x with head := .retryWait, attempt := none }
      | .held => s.modChannel c fun x => { x with head := .heldWait 0, attempt := none }
      | .final o n =>
        let s := finalOutcome c 0 o n s
        if m.kind = .request ∧ o = .taken ∧ m.dest ≠ 31 then makeEntry c m.dest m.tag s else s
  | _, _ => s

/-- The segments of an attempt with segment `i` changed by `f`. -/
def Attempt.modSeg (a : Attempt) (i : Nat) (f : SegState → SegState) : Attempt := { a with segs := modifyNth a.segs i f }

/-- An own DATA segment is removed at its origin and matched to its attempt (R15, R105). A mark other than TAKEN stops the
attempt of a message that only finishes as well, so that its unsent segments are not offered. R115 does not say so:
DESIGN CHOICE (log entry 23). -/
def ownDataBack (h : Header) (d : DataBody) (s : State) : State :=
  let x := s.getChannel d.channel
  match x.attempt, x.queue with
  | some a, m :: _ =>
    if m.tag = d.tag ∧ x.attemptNo = d.attempt ∧ (a.segs[d.index]?).any SegState.isOnWire then
      let stop := decide (m.dest ≠ 31 ∧ h.mark ≠ .taken)
      let s := s.modChannel d.channel fun x =>
        { x with attempt := some { (a.modSeg d.index fun _ => .returned h.mark h.takers) with
                                   stopped := a.stopped || stop } }
      let s := if stop then withdraw d.channel s else s
      resolveAttempt d.channel false s
    else s.modChan fun u => { u with lateReturns := bump u.lateReturns }
  | _, _ => s.modChan fun u => { u with lateReturns := bump u.lateReturns }

/-! ### The arbiter of the allowance (R102, R103) -/

/-- Whether IMAGE segments are charged twice: the path mode is not THROUGH, or the ring is WRAPPED (R102). -/
def State.imageDoubled (s : State) : Bool := decide (s.ring.mode ≠ .through) || decide (s.cyc.ring = .wrapped)

/-- The charge of a segment with `n` payload bytes on a channel of the given type (R102). -/
def segmentCharge (t : ChannelType) (doubled : Bool) (n : Nat) : Nat :=
  if t = .image && doubled then 2 * (n + 36) else n + 36

/-- Whether a channel is ready (R101). -/
def Channel.isReady (x : Channel) : Bool :=
  decide (x.config.type ≠ .off) && !x.queue.isEmpty &&
    match x.head, x.attempt with
    | .idle, _ => true
    | .inAttempt, some a => !a.stopped && a.segs.any SegState.isUnsent
    | _, _ => false

/-- The index of the next segment of a ready channel's head. -/
def Channel.nextSegment (x : Channel) : Nat :=
  match x.attempt with
  | some a => a.segs.findIdx SegState.isUnsent
  | none => 0

/-- Segment `i` of a message as it leaves (R104). -/
def State.segmentFrame (s : State) (c : ChannelNo) (attemptNo : BitVec 8) (m : TxMsg) (i : Nat) : Frame :=
  { hdr := { origin := s.own, dest := m.dest, hops := 0, mark := .none, takers := 0 },
    body := .data
      { channel := c, tag := m.tag, attempt := attemptNo, index := i, count := segmentCount m.length, kind := m.kind,
        answers := m.answers, length := m.length, strip := m.strip, stamp := m.stamp,
        payload := match m.blocks[i]? with
          | some n => Memory.readBytes s.pool.mem (blockAddr n 0) (segmentLength m.length i)
          | none => [] } }

/-- An attempt of an idle head begins: the attempt number rises, and the tries unless it is a held re-offer (R105,
R111). -/
def Channel.beginAttempt (x : Channel) : Channel :=
  match x.head, x.queue with
  | .idle, m :: rest =>
    { x with
      attemptNo := x.attemptNo + 1
      queue := { m with tries := if x.reoffer then m.tries else m.tries + 1 } :: rest
      head := .inAttempt
      attempt := some { segs := List.replicate (segmentCount m.length) .unsent, stopped := false }
      reoffer := false }
  | _, _ => x

/-- The arbiter chooses and offers (R103). -/
def offerSegment (s : State) : State :=
  if s.chan.offered.isSome || !s.chan.openPhase || decide (s.ring.mode = .isolated) || s.chan.shut ||
      decide (s.chan.allowance = 0) then s
  else
    match allChannels.find? fun c => (s.getChannel c).isReady with
    | none => s
    | some c =>
      match (s.getChannel c).queue with
      | [] => s
      | m :: _ =>
        let i := (s.getChannel c).nextSegment
        let charge := segmentCharge (s.getChannel c).config.type s.imageDoubled (segmentLength m.length i)
        if s.chan.allowance < charge then s.modChan fun u => { u with shut := true }
        else
          let s := s.modChannel c Channel.beginAttempt
          let f := s.segmentFrame c (s.getChannel c).attemptNo m i
          s.modChan fun u =>
            { u with offered := some { channel := c, index := i, frame := f }, allowance := u.allowance - charge }

/-- The offered segment starts on the wire (R19, R105). -/
def startOffered (o : Offered) (s : State) : State :=
  (s.modChannel o.channel fun x =>
    { x with
      attempt := x.attempt.map fun a => a.modSeg o.index fun _ => .onWire 0
      queue := modifyNth x.queue 0 fun m => { m with started := true } }).modChan fun u => { u with offered := none }

/-! ### Waits and timeouts, counted at cycle events (R105, R111) -/

/-- A cycle event passes for a waiting head: retry wait ends, held wait ends at its sixteenth event (R111). -/
def Channel.waitEvent (x : Channel) : Channel :=
  match x.head with
  | .retryWait => { x with head := .idle, reoffer := false }
  | .heldWait n => if 16 ≤ n + 1 then { x with head := .idle, reoffer := true } else { x with head := .heldWait (n + 1) }
  | _ => x

/-- A cycle event passes for a segment: on the wire since the second event before, it is taken as not returned (R105). -/
def SegState.event : SegState → SegState
  | .onWire n => if 2 ≤ n + 1 then .notReturned else .onWire (n + 1)
  | x => x

/-- A cycle event passes for an attempt in progress. -/
def attemptEvent (c : ChannelNo) (s : State) : State :=
  resolveAttempt c true <| s.modChannel c fun x =>
    { x with attempt := x.attempt.map fun a => { a with segs := a.segs.map SegState.event } }

/-- SEGMENT_OFFER (R103). -/
def execSegmentOffer (s : State) : Host.Outcome State Fault Refusal := .next (offerSegment s)

/-- SEGMENT_TIMEOUT (R105): the second cycle event since the start of one segment, seen for that segment. -/
def execSegmentTimeout (c : ChannelNo) (i : Nat) (s : State) : Host.Outcome State Fault Refusal :=
  match (s.getChannel c).attempt with
  | some a =>
    match a.segs[i]? with
    | some (.onWire n) =>
      if 2 ≤ n + 1 then
        .next (resolveAttempt c true (s.modChannel c fun x =>
          { x with attempt := x.attempt.map fun a => a.modSeg i fun _ => .notReturned }))
      else .next s
    | _ => .next s
  | none => .next s

/-- RETRY_WAIT_END (R111). -/
def execRetryWaitEnd (c : ChannelNo) (s : State) : Host.Outcome State Fault Refusal :=
  .next (if (s.getChannel c).head = .retryWait then s.modChannel c Channel.waitEvent else s)

/-- HELD_WAIT_END (R111): the sixteenth cycle event of a held wait. -/
def execHeldWaitEnd (c : ChannelNo) (s : State) : Host.Outcome State Fault Refusal :=
  match (s.getChannel c).head with
  | .heldWait n => .next (if 16 ≤ n + 1 then s.modChannel c Channel.waitEvent else s)
  | _ => .next s

end Sys2Proof.Machine
end

