-- ==== Sys2Proof/Machine/RingPath.lean ====
section
/-!
DEFINITION. The ring path unit (R10 to R13, R16 to R21) and the loss of a link (R2, R10): path modes, the internal loop of
ISOLATED, own frames waiting, forwarding, and the output arbiters.
-/

namespace Sys2Proof.Machine

/-! ### Path modes (R10, R12) -/

/-- The output that processed and own frames leave on; none in ISOLATED (R12). -/
def PathMode.ownOutput : PathMode → Option Side
  | .through => some .east
  | .wrapEast => some .west
  | .wrapWest => some .east
  | .isolated => none

/-- The processing input; none in ISOLATED, where it is the internal loop (R12). -/
def PathMode.procInput : PathMode → Option Side
  | .through => some .west
  | .wrapEast => some .west
  | .wrapWest => some .east
  | .isolated => none

/-- Whether a mode uses a link (R10). -/
def PathMode.uses : PathMode → Side → Bool
  | .through, _ => true
  | .wrapEast, .west => true
  | .wrapWest, .east => true
  | _, _ => false

/-- The mode that the links call for (R10). -/
def modeOfLinks (westUp eastUp : Bool) : PathMode :=
  match westUp, eastUp with
  | true, true => .through
  | true, false => .wrapEast
  | false, true => .wrapWest
  | false, false => .isolated

def LinkUnit.isUp (l : LinkUnit) : Bool := decide (l.state = .up)

def State.calledMode (s : State) : PathMode := modeOfLinks s.links.west.isUp s.links.east.isUp

/-- The mode that the links still in use call for when the link on side `d`, in use, leaves UP (R10). -/
def PathMode.without : PathMode → Side → PathMode
  | .through, .west => .wrapWest
  | .through, .east => .wrapEast
  | .wrapEast, .west => .isolated
  | .wrapWest, .east => .isolated
  | m, _ => m

/-! ### Own frames (R12, R19) -/

/-- Own frames waiting when the node becomes ISOLATED go round the internal loop at once (R10, R12, R15; log entry 6). -/
def drainLoop (s : State) : State :=
  let status := s.ring.ownStatus
  let s := s.modRing fun u => { u with ownFlash := [], ownCycleStart := none, ownStatus := none }
  match status with
  | some f => match f.body with
    | .status b => ownStatusBack b s
    | _ => s
  | none => s

/-- The path mode becomes `m`; a change raises RING at both ports (R10, R11), and ISOLATED withdraws an offered segment
(R103). -/
def setMode (m : PathMode) (s : State) : State :=
  if s.ring.mode = m then s
  else
    let s := raiseBoth .ring (s.modRing fun u => { u with mode := m })
    if m = .isolated then drainLoop (withdrawAny s) else s

/-- The header an origin writes (R9). -/
def State.ownHeader (s : State) (dest : Nat) : Header :=
  { origin := s.own, dest := dest, hops := 0, mark := .none, takers := 0 }

/-- An own TRIP_FLASH is emitted (R19, R80): a detached node sends none; in ISOLATED it is removed at once. -/
def emitFlash (f : TripFlash) (s : State) : State :=
  if s.cyc.attached && decide (s.ring.mode ≠ .isolated) then
    s.modRing fun u => { u with ownFlash := u.ownFlash ++ [{ hdr := s.ownHeader 31, body := .tripFlash f }] }
  else s

/-- An own CYCLE_START is emitted: it replaces one still waiting (R19); in ISOLATED it is removed at once. -/
def emitCycleStart (c : CycleStart) (s : State) : State :=
  if s.ring.mode = .isolated then s
  else
    s.modRing fun u =>
      { u with
        ownCycleStart := some { hdr := s.ownHeader 31, body := .cycleStart c }
        replacedFrames := if u.ownCycleStart.isSome then bump u.replacedFrames else u.replacedFrames }

/-- An own STATUS is emitted: it replaces one still waiting (R19); in ISOLATED it returns at once (R12, R15). -/
def emitStatus (b : StatusBody) (s : State) : State :=
  if s.ring.mode = .isolated then ownStatusBack b s
  else
    s.modRing fun u =>
      { u with
        ownStatus := some { hdr := s.ownHeader 31, body := .status b }
        replacedFrames := if u.ownStatus.isSome then bump u.replacedFrames else u.replacedFrames }

/-! ### The loss of a link (R2, R10) -/

/-- A link unit enters DOWN (R2): an entry from TRAINING or UP counts and records its reason. The frame on its output is
lost (R10; log entry 10). -/
def LinkUnit.enterDown (l : LinkUnit) (reason : DownReason) : LinkUnit :=
  { l with
    state := .down
    holdOff := true
    downReason := if l.state = .down then l.downReason else reason
    downCount := if l.state = .down then l.downCount else bump l.downCount
    delayMeasured := false
    neighbour := none
    heard := false
    run := 0
    upCount := 0
    window := []
    echo := none
    wire := none }

/-- Frames in the through buffer bound for the departed link's output are discarded and counted (R10). -/
def discardBound (d : Side) (s : State) : State :=
  s.modRing fun u =>
    { u with
      buffer := u.buffer.filter fun e => decide (e.out ≠ d)
      wrapDiscards := bumpBy u.wrapDiscards (u.buffer.filter fun e => decide (e.out = d)).length }

/-- A link goes DOWN for a reason; a link in use that leaves UP changes the path mode at once (R6, R10). -/
def linkDrop (d : Side) (reason : DownReason) (s : State) : State :=
  let wasUsed := (s.link d).isUp && s.ring.mode.uses d
  let s := s.modLink d fun l => l.enterDown reason
  if wasUsed then setMode (s.ring.mode.without d) (discardBound d s) else s

/-! ### The through buffer (R16, R17, R20) -/

/-- The frame bytes in the through buffer. -/
def RingPath.used (u : RingPath) : Nat := (u.buffer.map fun e => e.frame.len).sum

/-- The free space in the through buffer (R21). -/
def RingPath.freeSpace (u : RingPath) : Nat := 1024 - u.used

/-- A CYCLE_START's transit with a delay in ns added (R20). A sum past the field's 32 bits wraps. DESIGN CHOICE (log
entry 62). -/
def CycleStart.addTransit (c : CycleStart) (ns : Int) : CycleStart := { c with transit := c.transit + BitVec.ofInt 32 ns }

/-- The link delay of the input added at arrival (R20). -/
def Frame.arriveTransit (f : Frame) (delay : Nat) : Frame :=
  match f.body with
  | .cycleStart c => { f with body := .cycleStart (c.addTransit delay) }
  | _ => f

/-- The residence added at departure, rounded down to a multiple of 4 ns (R20). -/
def Frame.departTransit (f : Frame) (arrival now : Nat) : Frame :=
  match f.body with
  | .cycleStart c => { f with body := .cycleStart (c.addTransit (floor4 ((now : Int) - arrival))) }
  | _ => f

/-- Whether the arbiter of output `d` starts nothing because a leader's boundary is at most 2.5 µs away (R25). A node that is
still LISTENING has no boundary yet, so nothing is stopped before the first one. DESIGN CHOICE (log entry 63). -/
def State.quiet (s : State) (d : Side) (now : Nat) : Bool :=
  s.leading && decide (s.ring.mode.ownOutput = some d) &&
    decide (s.cyc.nextBoundary - 2500 ≤ (now : Int)) && decide ((now : Int) < s.cyc.nextBoundary)

/-- Whether a frame waits for output `d`: in the through buffer, or an own frame where own frames leave on it. -/
def State.waitingFor (s : State) (d : Side) : Bool :=
  s.ring.buffer.any (fun e => decide (e.out = d)) ||
    (decide (s.ring.mode.ownOutput = some d) &&
      (!s.ring.ownFlash.isEmpty || s.ring.ownCycleStart.isSome || s.ring.ownStatus.isSome || s.chan.offered.isSome))

/-- A frame is put on the wire of output `d`. -/
def sendOn (d : Side) (w : WireFrame) (s : State) : State := s.modLink d fun l => { l with wire := some w }

/-- A received frame is to be forwarded on output `d` (R16, R17). -/
def forward (d : Side) (t : RxTime) (f : Frame) (s : State) : State :=
  if 64 ≤ f.hdr.hops then s.modRing fun u => { u with hopDrops := bump u.hopDrops }
  else
    let f : Frame := { f with hdr := { f.hdr with hops := f.hdr.hops + 1 } }
    if (s.link d).wire.isNone && !s.waitingFor d && !s.quiet d t.received then
      sendOn d (.ring (f.departTransit t.arrival t.received)) s
    else if s.ring.used + f.len ≤ 1024 then
      s.modRing fun u => { u with buffer := u.buffer ++ [{ out := d, arrival := t.arrival, frame := f }] }
    else s.modRing fun u => { u with overflows := bump u.overflows }

/-- A processed frame is forwarded on the output of the path mode (R12, R14). -/
def forwardProcessed (t : RxTime) (f : Frame) (s : State) : State :=
  match s.ring.mode.ownOutput with
  | some d => forward d t f s
  | none => s

/-! ### The output arbiter (R18) -/

/-- The LINK_IDLE an output sends at a local time (R3). -/
def State.linkIdle (s : State) (d : Side) (now : Nat) : LinkIdle :=
  { sender := s.own, heard := (s.link d).heard, sendStamp := BitVec.ofNat 32 now,
    echo := (s.link d).echo.map fun e => e.stamp,
    turnaround := match (s.link d).echo with
      | some e => BitVec.ofNat 32 (now - e.arrival)
      | none => 0 }

/-- The oldest frame of the through buffer bound for output `d`, with the buffer without it. -/
def takeBound (d : Side) : List BufEntry → Option (BufEntry × List BufEntry)
  | [] => none
  | e :: es => if e.out = d then some (e, es) else (takeBound d es).map fun r => (r.1, e :: r.2)

/-- Frames below the own CYCLE_START in the order of service: the through buffer, own STATUS, own DATA, and a LINK_IDLE
where nothing waits (R18). -/
def serveRest (d : Side) (own : Bool) (now : Nat) (s : State) : State :=
  match takeBound d s.ring.buffer with
  | some (e, rest) =>
    sendOn d (.ring (e.frame.departTransit e.arrival now)) (s.modRing fun u => { u with buffer := rest })
  | none =>
    match own, s.ring.ownStatus, s.chan.offered with
    | true, some f, _ => sendOn d (.ring f) (s.modRing fun u => { u with ownStatus := none })
    | true, none, some o =>
      if s.chan.openPhase then sendOn d (.ring o.frame) (startOffered o s)
      else sendOn d (.idle (s.linkIdle d now)) s
    | _, _, _ => sendOn d (.idle (s.linkIdle d now)) s

/-- The arbiter of output `d` chooses (R18). -/
def serve (d : Side) (now : Nat) (s : State) : State :=
  match decide (s.ring.mode.ownOutput = some d), s.ring.ownFlash, s.ring.ownCycleStart with
  | true, f :: rest, _ => sendOn d (.ring f) (s.modRing fun u => { u with ownFlash := rest })
  | true, [], some f => sendOn d (.ring f) (s.modRing fun u => { u with ownCycleStart := none })
  | own, _, _ => serveRest d own now s

/-- An output becomes idle at a local time (R6, R18, R25). -/
def outputIdle (d : Side) (now : Nat) (s : State) : State :=
  if !(s.link d).laser then s
  else if (s.link d).isUp && s.ring.mode.uses d && !s.quiet d now then serve d now s
  else sendOn d (.idle (s.linkIdle d now)) s

/-- OUTPUT_IDLE (R18). -/
def execOutputIdle (d : Side) (now : Nat) (s : State) : Host.Outcome State Fault Refusal := .next (outputIdle d now s)

end Sys2Proof.Machine
end

