-- ==== Sys2Proof/Machine/Trips.lean ====
section
/-!
DEFINITION. The trip unit (04): latches and raises (R76 to R78), the local class and its TRIP_FLASH (R79, R80), the ring
class view and its effects (R84, R87, R48, R56, R140), the trip list (R85, R86), trip resets (R88, R89), and the port
commands and pin events of the unit.
-/

namespace Sys2Proof.Machine

/-! ### Freezing a strip store (R140) -/

/-- A RUNNING store becomes FROZEN and STORE is raised at the owner port; a FROZEN one is left as it stands (R140). -/
def freezeStore (c : ChannelNo) (s : State) : State :=
  if (s.getChannel c).store.frozen then s
  else
    raise (s.getChannel c).config.owner .store <| s.modChannel c fun x =>
      { x with store := { x.store with frozen := true } }

/-- The view rises through STOP: every IMAGE store with trip-freeze on freezes (R140), at a DETACHED node too, of which R143
says that it may first act after ATTACH. DESIGN CHOICE (log entry 60). -/
def tripFreeze (s : State) : State :=
  allChannels.foldl (fun s c =>
    if (s.getChannel c).config.type = .image && (s.getChannel c).config.tripFreeze then freezeStore c s else s) s

/-! ### The ring class view (R84) -/

/-- While the node leads, the announced class is the view and the first fault is the oldest record of the list (R74, R84,
R86; log entry 19). -/
def leadSync (s : State) : State :=
  if s.leading then s.modTrip fun u => { u with announced := u.view, firstFault := u.list.head? } else s

/-- Every shaft's target velocity becomes 0 (R48). -/
def clearTargets (s : State) : State :=
  s.modShafts fun u => { u with shafts := u.shafts.map fun x => { x with target := 0 } }

/-- Every shaft's velocity becomes 0 (R48, R50). -/
def stopShafts (s : State) : State :=
  s.modShafts fun u => { u with shafts := u.shafts.map fun x => { x with vel := 0 } }

/-- Every axis that is not OFF goes to OFF, raising nothing (R56). -/
def axesOff (s : State) : State :=
  s.modAxisUnit fun u => { u with axes := u.axes.map fun x => if x.state = .off then x else x.toOff }

/-- The view becomes INSTANT: velocities become 0 at a node that leads, is in HOLDOVER or runs down (R48, R50), and every
axis goes to OFF (R56). -/
def instantEffects (s : State) : State :=
  axesOff (if s.leading || decide (s.cyc.lock = .holdover) || s.cyc.runningDown then stopShafts s else s)

/-- The view rises to `c` if `c` is higher (R84), with the effects of the table after R87. -/
def raiseView (c : TripClass) (s : State) : State :=
  let old := s.trip.view
  if old.rank < c.rank then
    let s := raiseBoth .trip (leadSync (s.modTrip fun u => { u with view := c }))
    let s := if 2 ≤ c.rank then clearTargets s else s
    let s := if c = .instant then instantEffects s else s
    if old.rank < 2 ∧ 2 ≤ c.rank then tripFreeze s else s
  else s

/-! ### The trip list (R85) -/

/-- The origin of a record; one latched while the node had no address is this node's (log entry 17). -/
def TripRecord.node (r : TripRecord) (own : Option Nat) : Option Nat := r.origin.or own

/-- Whether two records share origin and source. -/
def TripRecord.same (own : Option Nat) (r q : TripRecord) : Bool :=
  decide (r.node own = q.node own ∧ r.source = q.source)

/-- A record is added, merged into one of the same origin and source, or counted as overflow (R85). -/
def addRecord (r : TripRecord) (s : State) : State :=
  leadSync <| s.modTrip fun u =>
    if u.list.any (fun q => q.same s.cyc.address r) then
      { u with list := u.list.map fun q => if q.same s.cyc.address r then { q with cls := q.cls.max r.cls } else q }
    else if u.list.length < 16 then { u with list := u.list ++ [r] }
    else { u with overflows := bump u.overflows }

/-! ### Local class (R79, R80) -/

/-- The highest class among latched sources (R79). -/
def TripUnit.highest (u : TripUnit) : TripClass :=
  u.sources.toList.foldl (fun c x => if x.latched then c.max x.cls else c) .none

/-- The lowest-numbered latched source whose class is `c` (R79). -/
def TripUnit.topOf (u : TripUnit) (c : TripClass) : Option SourceNo :=
  allSources.find? fun n => (u.sources[n.val]).latched && decide ((u.sources[n.val]).cls = c)

/-- The local class and top latched source are recomputed; a change of class raises TRIP, and a rise caused by a source
emits a TRIP_FLASH and reaches the view (R79, R80, R84). -/
def recomputeLocal (cause : Option SourceNo) (s : State) : State :=
  let old := s.trip.localClass
  let new := s.trip.highest
  let s := s.modTrip fun u => { u with localClass := new, topSource := u.topOf new }
  let s := if old = new then s else raiseBoth .trip s
  let s := match cause with
    | some n => if old.rank < new.rank then emitFlash { source := n, cls := new, cycle := s.cyc.cycle } s else s
    | none => s
  raiseView new s

/-! ### Latching (R78) -/

/-- Source `n` latches (R78). -/
def latch (n : SourceNo) (s : State) : State :=
  let s := s.modSource n fun x => { x with latched := true }
  let s := addRecord { origin := s.cyc.address, source := n, cls := (s.getSource n).cls, cycle := s.cyc.cycle } s
  recomputeLocal (some n) s

/-- Source `n` latches if it is enabled and not latched (R78). -/
def latchIfEnabled (n : SourceNo) (s : State) : State :=
  if (s.getSource n).enabled && !(s.getSource n).latched then latch n s else s

/-- A pulse source is raised (R77): the raise count rises whether or not the source is enabled. -/
def raisePulse (n : SourceNo) (s : State) : State :=
  latchIfEnabled n (s.modSource n fun x => { x with raises := bump x.raises })

/-- The condition of a level source appears (R76, R78). -/
def conditionAppears (n : SourceNo) (s : State) : State :=
  latchIfEnabled n (s.modSource n fun x => { x with present := true })

/-- The condition of a level source goes (R76). -/
def conditionGoes (n : SourceNo) (s : State) : State := s.modSource n fun x => { x with present := false }

/-- The step source of an axis, 24 + a (R75). -/
def stepSource (a : AxisNo) : SourceNo := ⟨24 + a.val, by have := a.isLt; omega⟩

/-- The following source of an axis, 16 + a (R75). -/
def followSource (a : AxisNo) : SourceNo := ⟨16 + a.val, by have := a.isLt; omega⟩

/-- The axis whose class parameter a source's class is, if it is one of 16 to 31 (R75). -/
def sourceAxis (n : SourceNo) : Option AxisNo :=
  if 24 ≤ n.val then finOf 8 (n.val - 24) else if 16 ≤ n.val then finOf 8 (n.val - 16) else none

/-! ### Frames from other nodes (R81, R82, R83) -/

/-- Whether a TRIP_FLASH's cycle number lies inside the reset guard: R − 4 to R − 1 (R81). -/
def TripUnit.guarded (u : TripUnit) (c : Cycle) : Bool :=
  match u.guard with
  | some g => decide (1 ≤ cycleDist g.cycle c ∧ cycleDist g.cycle c ≤ 4)
  | none => false

/-- A TRIP_FLASH from another origin (R81). -/
def takeFlash (origin : Nat) (f : TripFlash) (s : State) : State :=
  if s.trip.guarded f.cycle then s.modTrip fun u => { u with ignored := bump u.ignored }
  else addRecord { origin := some origin, source := f.source, cls := f.cls, cycle := s.cyc.cycle } (raiseView f.cls s)

/-- The trip unit reads a STATUS from another origin (R82). Three cases the spec leaves open: an older STATUS of
class none raises the ignored count (log entry 68); a reset number exactly 128 from the node's, which the serial comparison
calls neither older nor newer, is counted (log entry 49); and a class above none with no top latched source raises the view
and adds no record (log entry 50). DESIGN CHOICE. -/
def takeStatusTrip (origin : Nat) (b : StatusBody) (s : State) : State :=
  if newer s.trip.resetNo b.resetNo then s.modTrip fun u => { u with ignored := bump u.ignored }
  else if b.cls = .none then s
  else
    let s := raiseView b.cls s
    match b.topSource with
    | some n => addRecord { origin := some origin, source := n, cls := b.cls, cycle := s.cyc.cycle } s
    | none => s

/-- Step 1 of a trip reset: latches whose condition is absent, and those of disabled sources, clear (R89). -/
def Source.atReset (x : Source) : Source := { x with latched := x.latched && x.enabled && x.present }

/-- The records of the sources still latched, in ascending source number (R89, step 2). -/
def TripUnit.latchedRecords (u : TripUnit) (own : Option Nat) (cycle : Cycle) : List TripRecord :=
  (allSources.filter fun n => (u.sources[n.val]).latched).map fun n =>
    { origin := own, source := n, cls := (u.sources[n.val]).cls, cycle := cycle }

/-- The node applies a trip reset with a number and a reset cycle (R89). -/
def applyReset (number : BitVec 8) (cycle : Cycle) (s : State) : State :=
  let oldLocal := s.trip.localClass
  let oldView := s.trip.view
  let s := s.modTrip fun u => { u with sources := u.sources.map Source.atReset }
  let s := s.modTrip fun u => { u with list := u.latchedRecords s.cyc.address cycle }
  let cls := s.trip.highest
  let s := leadSync <| s.modTrip fun u => { u with localClass := cls, topSource := u.topOf cls, view := cls }
  let s := if oldLocal = cls ∧ oldView = cls then s else raiseBoth .trip s
  let s := match s.trip.topSource with
    | some n => if cls = TripClass.none then s else emitFlash { source := n, cls := cls, cycle := cycle } s
    | none => s
  s.modTrip fun u => { u with resetNo := number, guard := some { cycle := cycle, left := 4 } }

/-- The trip fields of an accepted CYCLE_START are taken (R83). A reset number of the same trip leader exactly 128 from the
node's is neither newer nor older: nothing changes, DESIGN CHOICE (log entry 49). -/
def takeTripFields (c : CycleStart) (s : State) : State :=
  let leader : LeaderId := { epoch := c.epoch, node := c.leader }
  let s :=
    if s.trip.tripLeader ≠ some leader then
      s.modTrip fun u => { u with resetNo := c.resetNo, tripLeader := some leader }
    else if newer c.resetNo s.trip.resetNo then applyReset c.resetNo c.cycle s
    else s
  let s := raiseView c.cls (s.modTrip fun u => { u with announced := c.cls })
  s.modTrip fun u => { u with firstFault := c.firstFault }

/-- The reset guard counts a cycle event and lapses at the fourth (R89). -/
def guardTick (s : State) : State :=
  s.modTrip fun u =>
    { u with guard := match u.guard with
        | some g => if g.left ≤ 1 then none else some { g with left := g.left - 1 }
        | none => none }

/-- The leader's boundary applies a staged reset with the boundary's cycle number (R88). -/
def applyStagedReset (s : State) : State :=
  if s.trip.stagedReset then
    applyReset (s.trip.resetNo + 1) s.cyc.cycle (s.modTrip fun u => { u with stagedReset := false })
  else s

/-- A staged reset is discarded (R74, R88). -/
def dropStagedReset (s : State) : State := s.modTrip fun u => { u with stagedReset := false }

/-- The test for source 10 at a cycle event (R77). -/
def isolationTest (s : State) : State :=
  let now := decide (s.ring.mode = .isolated)
  let s := if s.cyc.attached && now && s.trip.prevIsolated then raisePulse 10 s else s
  s.modTrip fun u => { u with prevIsolated := now }

/-! ### Port commands -/

/-- A class is written for a source, at the trip unit or at the axis unit (R54, R75): it takes effect at once. -/
def setSourceClass (n : SourceNo) (c : TripClass) (s : State) : State :=
  let s := s.modSource n fun x => { x with cls := c }
  if (s.getSource n).latched then recomputeLocal (some n) s else s

/-- Whether port A's write of a source's class passes the axis's guard lock (R75, R150). -/
def State.classGuardOpen (s : State) (n : SourceNo) : Bool :=
  match sourceAxis n with
  | some a => s.guardOpen .a (s.getAxis a).guardLock
  | none => true

/-- A write of a source's class (R75, R150). -/
def cmdSourceClass (p : Port) (n : SourceNo) (v : Word16) (s : State) : State :=
  writeByA p (sourceAddr n 1) (fun s =>
    if s.classGuardOpen n then setSourceClass n (classOf (listedCode 4 v.toNat)) s
    else refuseWord .a (sourceAddr n 1) .guarded s) s

/-- A write of a source's enable: yes for a level source whose condition is present latches it (R75, R78). -/
def cmdSourceEnable (p : Port) (n : SourceNo) (v : Word16) (s : State) : State :=
  writeByA p (sourceAddr n 2) (fun s =>
    let s := s.modSource n fun x => { x with enabled := listedBool v.toNat }
    if (s.getSource n).present then latchIfEnabled n s else s) s

/-- The request source of a port: 13 for port A, 14 for port B (R75). -/
def requestSource : Port → SourceNo
  | .a => 13
  | .b => 14

/-- TRIP REQUEST (R76). -/
def cmdTripRequest (p : Port) (s : State) : State :=
  let s := s.setCode p fun c => { c with tripRequest := .accepted }
  let s := s.modTrip fun u => { u with requests := u.requests.set p true }
  if (s.getSource (requestSource p)).present then s else conditionAppears (requestSource p) s

/-- TRIP RELEASE (R76). -/
def cmdTripRelease (p : Port) (s : State) : State :=
  let s := s.setCode p fun c => { c with tripRelease := .accepted }
  conditionGoes (requestSource p) (s.modTrip fun u => { u with requests := u.requests.set p false })

/-- TRIP RESET (R88). -/
def cmdTripReset (p : Port) (s : State) : State :=
  if s.leading then
    (s.setCode p fun c => { c with tripReset := .accepted }).modTrip fun u => { u with stagedReset := true }
  else s.setCode p fun c => { c with tripReset := .notLeader }

/-- Whether LOCAL CLEAR clears a source's latch (R92). -/
def Source.clearable (x : Source) : Bool := x.latched && decide (x.cls = .notice) && !x.present

/-- The address of the LOCAL CLEAR word (10.3, R171). -/
def localClearAddr : Word16 := 0x0785

/-- LOCAL CLEAR (R92). -/
def cmdLocalClear (p : Port) (s : State) : State :=
  writeByA p localClearAddr (fun s =>
    let n := (s.trip.sources.toList.filter Source.clearable).length
    let s := s.setCode .a fun c => { c with localClear := n }
    recomputeLocal none <| s.modTrip fun u =>
      { u with sources := u.sources.map fun x => if x.clearable then { x with latched := false } else x }) s

/-! ### The commands -/

/-- The source of a TRIPIN pin (R75). -/
def pinSource (n : Fin 8) : SourceNo := ⟨n.val, by have := n.isLt; omega⟩

/-- TRIPIN_CONDITION_APPEARS (R76): the pins are sensed from the end of the stabilisation wait on (R74). -/
def execTripinConditionAppears (n : Fin 8) (s : State) : Host.Outcome State Fault Refusal :=
  .next (if s.clock.ready && !(s.getSource (pinSource n)).present then conditionAppears (pinSource n) s else s)

/-- TRIPIN_CONDITION_GOES (R76). -/
def execTripinConditionGoes (n : Fin 8) (s : State) : Host.Outcome State Fault Refusal :=
  .next (if s.clock.ready then conditionGoes (pinSource n) s else s)

/-- RESET_GUARD_LAPSE (R89): the fourth cycle event after the reset passes; that cycle event's own row finds the guard
lapsed already (log entry 3). -/
def execResetGuardLapse (s : State) : Host.Outcome State Fault Refusal :=
  .next (match s.trip.guard with
    | some g => if g.left ≤ 1 then guardTick s else s
    | none => s)

/-- SOURCE_CLASS_WRITE (R75). -/
def execSourceClassWrite (p : Port) (n : SourceNo) (v : Word16) (s : State) : Host.Outcome State Fault Refusal :=
  .next (portWrite p s (cmdSourceClass p n v))

/-- SOURCE_ENABLE_WRITE (R75). -/
def execSourceEnableWrite (p : Port) (n : SourceNo) (v : Word16) (s : State) : Host.Outcome State Fault Refusal :=
  .next (portWrite p s (cmdSourceEnable p n v))

/-- TRIP_REQUEST (R76). -/
def execTripRequest (p : Port) (s : State) : Host.Outcome State Fault Refusal := .next (portWrite p s (cmdTripRequest p))

/-- TRIP_RELEASE (R76). -/
def execTripRelease (p : Port) (s : State) : Host.Outcome State Fault Refusal := .next (portWrite p s (cmdTripRelease p))

/-- TRIP_RESET (R88). -/
def execTripReset (p : Port) (s : State) : Host.Outcome State Fault Refusal := .next (portWrite p s (cmdTripReset p))

/-- LOCAL_CLEAR (R92). -/
def execLocalClear (p : Port) (s : State) : Host.Outcome State Fault Refusal := .next (portWrite p s (cmdLocalClear p))

end Sys2Proof.Machine
end

