-- ==== Sys2Proof/Machine/Shafts.lean ====
section
/-!
DEFINITION. The line-shaft unit (03, 3.1 and 3.2): the generator (R47), the replica's takes, extrapolation and resync (R49
to R51), the handing over of leadership (R52), and the port writes (R46).
-/

namespace Sys2Proof.Machine

/-! ### One shaft -/

/-- A velocity moves toward a target by at most a limit; a move that would carry it across zero leaves it at 0 (R47, step
2). -/
def ramp (v target : Int) (limit : Nat) : Int :=
  let moved : Int := if v < target then min (v + limit) target else max (v - limit) target
  if (0 < v ∧ moved < 0) ∨ (v < 0 ∧ 0 < moved) then 0 else moved

/-- The limit while no trip of class STOP or higher stands (R47, step 1). -/
def Shaft.runLimit (x : Shaft) : Nat :=
  if x.vel = 0 ∨ (((0 < x.vel ∧ 0 < x.target) ∨ (x.vel < 0 ∧ x.target < 0)) ∧ x.vel.natAbs < x.target.natAbs) then x.aUp
  else x.aDn

/-- The velocity of a generator's boundary under a ring class view (R47, steps 1 and 2). -/
def Shaft.generatorVel (x : Shaft) : TripClass → Int
  | .instant => 0
  | .quick => ramp x.vel 0 x.aQuick
  | .stop => ramp x.vel 0 x.aStop
  | .notice => ramp x.vel x.target x.runLimit
  | .none => ramp x.vel x.target x.runLimit

/-- P becomes P + v modulo 2^48, and the step the change of P integer (R47, step 3). The step fault mark clears (R51). -/
def Shaft.advance (x : Shaft) (v : Int) : Shaft :=
  let pos := x.pos + BitVec.ofInt 48 v
  { x with vel := v, pos := pos, step := posDiff (pos.extractLsb' 16 32) x.posInt, stepFault := false }

/-- One boundary of the generator (R47). -/
def Shaft.generate (view : TripClass) (x : Shaft) : Shaft := x.advance (x.generatorVel view)

/-- The velocity of an extrapolation: it ramps to 0 under a_quick while the node runs down or the view is STOP or higher,
is 0 under INSTANT, and is otherwise kept (R50; log entry 34). -/
def Shaft.extrapolateVel (x : Shaft) (runningDown : Bool) (view : TripClass) : Int :=
  if view = .instant then 0
  else if runningDown || decide (2 ≤ view.rank) then ramp x.vel 0 x.aQuick
  else x.vel

/-- One cycle event of the replica on the local timer (R50). -/
def Shaft.extrapolate (runningDown : Bool) (view : TripClass) (x : Shaft) : Shaft :=
  x.advance (x.extrapolateVel runningDown view)

/-- The accumulator a CYCLE_START carries. -/
def ShaftSample.pos (f : ShaftSample) : BitVec 48 := f.posInt ++ f.posFrac

/-- The replica takes a frame's values (R49). -/
def Shaft.take (f : ShaftSample) (x : Shaft) : Shaft :=
  { x with pos := f.pos, vel := f.vel, step := posDiff f.posInt x.posInt, stepFault := false }

/-- The take at the event that moves a node from UNLOCKED to ACQUIRING: the step is 0 (R49). -/
def Shaft.takeFirst (f : ShaftSample) (x : Shaft) : Shaft := { x.take f with step := 0 }

/-- The deviation of a frame from the prediction of a resync event (R51). -/
def Shaft.deviation (view : TripClass) (f : ShaftSample) (x : Shaft) : Int :=
  posDiff f.posInt (x.extrapolate false view).posInt

/-- The take at a resync event (R51). -/
def Shaft.resync (window : Nat) (view : TripClass) (f : ShaftSample) (x : Shaft) : Shaft :=
  { x.take f with stepFault := decide (window < (x.deviation view f).natAbs) }

/-- A shaft at rest where it stands (R52). -/
def Shaft.rest (x : Shaft) : Shaft := { x with vel := 0, target := 0, step := 0, stepFault := false }

/-! ### The unit at a cycle event -/

/-- How a cycle event moves the shafts. -/
inductive ShaftWork where
  | generate
  | extrapolate
  | takeFirst (c : CycleStart)
  | take (c : CycleStart)
  | resync (c : CycleStart)
  deriving DecidableEq, Repr

/-- What a cycle event does to one shaft, given the sample of a frame. -/
def ShaftWork.shaft (w : ShaftWork) (runningDown : Bool) (view : TripClass) (window : Nat) (i : ShaftNo) (x : Shaft) :
    Shaft :=
  match w with
  | .generate => x.generate view
  | .extrapolate => x.extrapolate runningDown view
  | .takeFirst c => x.takeFirst c.shafts[i.val]
  | .take c => x.take c.shafts[i.val]
  | .resync c => x.resync window view c.shafts[i.val]

/-- The frame whose epoch and leader a cycle event records as last taken (R49). -/
def ShaftWork.taken : ShaftWork → Option LeaderId
  | .generate => none
  | .extrapolate => none
  | .takeFirst c => some { epoch := c.epoch, node := c.leader }
  | .take c => some { epoch := c.epoch, node := c.leader }
  | .resync c => some { epoch := c.epoch, node := c.leader }

/-- An axis in ENGAGING or FOLLOW on a shaft with a step fault goes to OFF and raises its step source (R51). -/
def dropFaulted (a : AxisNo) (s : State) : State :=
  let x := s.getAxis a
  if (x.state = .engaging ∨ x.state = .follow) ∧ (s.getShaft x.work.shaft).stepFault then
    raisePulse (stepSource a) (s.modAxis a Axis.toOff)
  else s

/-- The line-shaft unit's work at a cycle event (R47, R49 to R51). The resync pending mark clears (R51). -/
def moveShafts (w : ShaftWork) (s : State) : State :=
  s.modShafts fun u =>
    { u with
      shafts := Vector.ofFn fun i =>
        w.shaft s.cyc.runningDown s.trip.view u.resyncWindow i u.shafts[i.val]
      lastTaken := w.taken.or u.lastTaken
      resyncPending := false }

/-- The axes meet the step faults of a resync, in ascending axis number (R51). No other movement of the shafts leaves a step
fault. A step source of class INSTANT puts every axis OFF as it is raised, so the later axes on a faulted shaft raise none.
DESIGN CHOICE (log entry 8). -/
def dropAllFaulted (s : State) : State := allAxes.foldl (fun s a => dropFaulted a s) s

/-- Every shaft at rest, no step fault and no resync pending: DETACH and a clock fault (R45, R52). -/
def shaftsRest (s : State) : State :=
  s.modShafts fun u => { u with shafts := u.shafts.map Shaft.rest, resyncPending := false }

/-- ATTACH clears the step fault and resync pending marks (R45). -/
def shaftsAttach (s : State) : State :=
  s.modShafts fun u =>
    { u with shafts := u.shafts.map fun x => { x with stepFault := false }, resyncPending := false }

/-- At a standby takeover each shaft's target becomes its velocity (R52). -/
def shaftsTakeOver (s : State) : State :=
  s.modShafts fun u => { u with shafts := u.shafts.map fun x => { x with target := x.vel } }

/-! ### Port writes (R46) -/

/-- The target velocity a written 48-bit value stands for, and whether it was clamped. -/
def targetOf (v : BitVec 48) : Int := clampInt v.toInt 137438953472

/-- A write of a target velocity (R46). -/
def cmdTargetVelocity (p : Port) (i : ShaftNo) (v : BitVec 48) (s : State) : State :=
  writeByA p (shaftAddr i 0x0C) (fun s =>
    let s := s.modShaft i fun x => { x with target := targetOf v }
    if targetOf v = v.toInt then s else s.modShafts fun u => { u with clampFlag := true }) s

def Shaft.setLimit (x : Shaft) (l : ShaftLimit) (n : Nat) : Shaft :=
  match l with
  | .aUp => { x with aUp := n }
  | .aDn => { x with aDn := n }
  | .aStop => { x with aStop := n }
  | .aQuick => { x with aQuick := n }

/-- A write of a limit, clamped to 1 to 2^24 (R46). -/
def cmdShaftLimit (p : Port) (i : ShaftNo) (l : ShaftLimit) (v : BitVec 32) (s : State) : State :=
  writeByA p (shaftAddr i l.off) (fun s =>
    let s := s.modShaft i fun x => x.setLimit l (clampNat v.toNat 1 16777216)
    if clampNat v.toNat 1 16777216 = v.toNat then s else s.modShafts fun u => { u with clampFlag := true }) s

/-- A write of the resync window, 1 to 2^20, clamped under the unit's clamp flag (R45, R46). -/
def cmdResyncWindow (p : Port) (v : BitVec 32) (s : State) : State :=
  writeByA p 0x0180 (fun s =>
    s.modShafts fun u =>
      { u with
        resyncWindow := clampNat v.toNat 1 1048576
        clampFlag := u.clampFlag || decide (clampNat v.toNat 1 1048576 ≠ v.toNat) }) s

/-- TARGET_VELOCITY_WRITE (R46). -/
def execTargetVelocityWrite (p : Port) (i : ShaftNo) (v : BitVec 48) (s : State) : Host.Outcome State Fault Refusal :=
  .next (portWrite p s (cmdTargetVelocity p i v))

/-- SHAFT_LIMIT_WRITE (R46). -/
def execShaftLimitWrite (p : Port) (i : ShaftNo) (l : ShaftLimit) (v : BitVec 32) (s : State) :
    Host.Outcome State Fault Refusal :=
  .next (portWrite p s (cmdShaftLimit p i l v))

end Sys2Proof.Machine
end

