-- ==== Sys2Proof/Machine/Axes.lean ====
section
/-!
DEFINITION. The axis unit (03, 3.3 to 3.8): gearing (R57), engage and disengage (R58 to R61), corrections worked off (R62),
plan switches (R68), publication and its checks (R69 to R73), and the port commands.
-/

namespace Sys2Proof.Machine

/-! ### One axis -/

/-- Gearing to the working shaft's step: q is the floor of (Δθ × n + r) / d, r the remainder, and g gains q (R57). The
setpoint p is g + k (R55). -/
def Axis.gear (x : Axis) (dTheta : Int) : Axis :=
  let sum := dTheta * x.work.num + x.r
  let g := x.g + toPos (sum / (x.work.den : Int))
  { x with g := g, r := sum % (x.work.den : Int), p := g + x.k }

/-- The working copy an entry gives. -/
def PlanEntry.working (e : PlanEntry) : Working := { shaft := e.shaft, num := e.num, den := e.den, phase := e.phase }

/-- An axis engages from a start position with an entry on a shaft whose P integer is θ (R58). -/
def Axis.engageFrom (x : Axis) (start : Pos) (e : PlanEntry) (theta : Pos) : Axis :=
  let prod := (theta.toNat : Int) * e.num
  let g := toPos (prod / (e.den : Int))
  { x with
    state := .engaging
    work := e.working
    g := g
    r := prod % (e.den : Int)
    k := start - g
    cp := shortestPath ((g.toNat : Int) + e.phase - start.toNat)
    p := start
    u := 0
    run := 0 }

/-- Where an accepted ENGAGE starts: the actual position if it is reported and fresh, else the last published p (R58). -/
def Axis.startFrom (x : Axis) (published : Pos) : Pos := if x.actualReport && x.fresh then x.actual else published

/-- An axis enters DISENGAGING with u at its last velocity output (R60). -/
def Axis.toDisengaging (x : Axis) : Axis := { x with state := .disengaging, u := x.velOut, cp := 0, run := 0 }

/-- One event of the ramp of DISENGAGING (R60). -/
def Axis.rampDown (x : Axis) : Axis :=
  let u := ramp x.u 0 x.decel
  let y := { x with u := u, p := x.p + toPos u }
  if u = 0 then y.toOff else y

/-- An amount of the pending alignment or correction moves into the offset (R59, R62). -/
def Axis.slewBy (x : Axis) (limit : Nat) : Axis :=
  let a := clampInt x.cp limit
  let k := x.k + toPos a
  { x with k := k, cp := x.cp - a, p := x.g + k }

/-- The slew of an event by state: σ_e in ENGAGING, moving to FOLLOW when nothing is pending, and σ_c in FOLLOW (R59,
R62). -/
def Axis.slew (x : Axis) : Axis :=
  match x.state with
  | .engaging =>
    let y := x.slewBy x.engageSlew
    if y.cp = 0 then { y with state := .follow } else y
  | .follow => x.slewBy x.corrSlew
  | .off => x
  | .disengaging => x

/-- How an axis in ENGAGING or FOLLOW meets a new active plan's entry, on a shaft whose P integer is θ (R68). -/
def Axis.meetPlan (x : Axis) (e : PlanEntry) (theta : Pos) : Axis :=
  if !e.valid then x.toDisengaging
  else if e.shaft = x.work.shaft then
    { x with work := e.working, r := 0,
             cp := clampInt (x.cp + shortestPath ((e.phase : Int) - x.work.phase)) 524288 }
  else x.engageFrom x.p e theta

/-- The following check of a publication, before its value joins the history (R73). -/
def Axis.followCheck (x : Axis) : Axis :=
  if x.state = .follow && x.actualReport then
    if x.fresh then
      match if x.lag ≤ x.history.length then x.history[x.history.length - x.lag]? else none with
      | some h =>
        let fe := posDiff h x.actual
        { x with lastError := fe, run := if x.window < fe.natAbs then min (x.run + 1) 16 else 0 }
      | none => x
    else { x with actualMissing := bump x.actualMissing }
  else x

/-- The velocity output of a publication, against the p published before (R69). -/
def Axis.outputVel (x : Axis) (previous : Pos) : Int :=
  match x.state with
  | .off => 0
  | .disengaging => x.u
  | .engaging => posDiff x.p previous
  | .follow => posDiff x.p previous

/-- What a publication does to an axis (R69, R73). -/
def Axis.published (x : Axis) (previous : Pos) : Axis :=
  let y := x.followCheck
  { y with velOut := x.outputVel previous, history := pushBounded y.history y.p 4, fresh := false }

/-! ### The unit at a cycle event -/

/-- The active plan's entry of an axis (R53). -/
def State.activeEntry (s : State) (i : AxisNo) : PlanEntry := (s.getAxis i).entries[s.cyc.activePlan.val]

/-- An axis in ENGAGING or FOLLOW meets a plan change at this event (R68). -/
def meetPlanChange (i : AxisNo) (s : State) : State :=
  let e := s.activeEntry i
  let s := s.modAxis i fun x => x.meetPlan e (s.getShaft e.shaft).posInt
  if e.valid then s else raisePulse 11 s

/-- An axis in ENGAGING or FOLLOW gears, meets a plan change if there is one, and slews (R57, R59, R62, R68). One that the
change puts into DISENGAGING makes no ramp step at this event: it has geared, it publishes u as R60 set it, and its ramp
starts at the next event. DESIGN CHOICE (log entry 71). -/
def gearAxis (switched : Bool) (i : AxisNo) (s : State) : State :=
  let dTheta := (s.getShaft (s.getAxis i).work.shaft).step
  if 4194304 < dTheta.natAbs then raisePulse (stepSource i) (s.modAxis i Axis.toOff)
  else
    let s := s.modAxis i fun x => x.gear dTheta
    let s := if switched then meetPlanChange i s else s
    s.modAxis i Axis.slew

/-- One axis advances at a cycle event at which the unit publishes (R56). -/
def advanceAxis (switched : Bool) (i : AxisNo) (s : State) : State :=
  match (s.getAxis i).state with
  | .off => s
  | .disengaging => s.modAxis i Axis.rampDown
  | .engaging => gearAxis switched i s
  | .follow => gearAxis switched i s

/-- Whether some axis is not OFF. -/
def AxisUnit.anyActive (u : AxisUnit) : Bool := u.axes.toList.any fun x => decide (x.state ≠ .off)

/-- The setpoint set that the axes stand for after a publication (R69). -/
def AxisUnit.toSet (u : AxisUnit) (cycle : Cycle) : SetpointSet :=
  { cycle := cycle, axes := u.axes.map fun x => { state := x.state, p := x.p, velOut := x.velOut } }

/-- The stale count of a publication (R71). -/
def AxisUnit.nextStale (u : AxisUnit) : Nat :=
  if u.anyActive then if u.taken = some u.live.cycle then 0 else min (u.stale + 1) 15 else 0

/-- The unit's own state at a publication (R69, R71, R73). -/
def AxisUnit.publish (cycle : Cycle) (u : AxisUnit) : AxisUnit :=
  let y := { u with
    axes := Vector.ofFn fun i => (u.axes[i.val]).published (u.live.axes[i.val]).p
    stale := u.nextStale }
  { y with live := y.toSet cycle }

/-- A publication and the sources it raises (R69, R71, R73): source 12 first, then 16 + axis in ascending axis number. The
spec gives no order: a source 12 of class INSTANT puts every axis OFF and its run count at 0 before 16 + axis is tested.
DESIGN CHOICE (log entry 8). -/
def publish (s : State) : State :=
  let s := s.modAxisUnit fun u => u.publish s.cyc.cycle
  let s := if s.axis.staleLimit ≤ s.axis.stale then raisePulse 12 s else s
  allAxes.foldl (fun s a =>
    if (s.getAxis a).followCount ≤ (s.getAxis a).run then raisePulse (followSource a) s else s) s

/-- Whether the axis unit publishes at this cycle event (R69; log entry 22 for the running-down test). -/
def State.publishes (s : State) : Bool :=
  decide (s.cyc.lock = .locked) || decide (s.cyc.lock = .holdover) || (s.cyc.runningDown && s.axis.anyActive)

/-- The axis unit's work at a cycle event: advance, then publish (R56, R69). -/
def axisWork (switched : Bool) (s : State) : State :=
  publish (allAxes.foldl (fun s i => advanceAxis switched i s) s)

/-- The axis state codes of the STATUS of a cycle event: those published at it, or all OFF (R56, R69). -/
def State.statusCodes (s : State) (published : Bool) : Vector AxisState 8 :=
  if published then s.axis.live.axes.map fun x => x.state else Vector.replicate 8 .off

/-- The plan-ready flag (R41). -/
def State.ready (s : State) : Bool :=
  match s.cyc.pendingSwitch with
  | some w => s.axis.axes.toList.all fun x => decide (x.state = .off) || (x.entries[w.plan.val]).valid
  | none => false

/-! ### Port commands -/

def engageAddr : Word16 := 0x0638
def disengageAddr : Word16 := 0x0639
def dropAddr : Word16 := 0x063A

/-- The code of an ENGAGE (R58). -/
def State.engageCode (s : State) (i : AxisNo) : Code :=
  if !(s.getAxis i).enabled then .noAxis
  else if (s.getAxis i).state ≠ .off then .busy
  else if s.cyc.lock ≠ .locked then .notLocked
  else if s.trip.view = .instant then .tripped
  else if !(s.activeEntry i).valid then .noEntry
  else .accepted

/-- ENGAGE (R58). -/
def cmdEngage (p : Port) (v : Word16) (s : State) : State :=
  writeByA p engageAddr (fun s =>
    match finOf 8 v.toNat with
    | none => s.setCode .a fun c => { c with engage := .noAxis }
    | some i =>
      let code := s.engageCode i
      let t := s.setCode .a fun c => { c with engage := code }
      if code = .accepted then
        t.modAxis i fun x =>
          x.engageFrom (x.startFrom (s.axis.live.axes[i.val]).p) (s.activeEntry i)
            (s.getShaft (s.activeEntry i).shaft).posInt
      else t) s

/-- DISENGAGE (R60). -/
def cmdDisengage (p : Port) (v : Word16) (s : State) : State :=
  writeByA p disengageAddr (fun s =>
    match finOf 8 v.toNat with
    | none => s.setCode .a fun c => { c with disengage := .noAxis }
    | some i =>
      if (s.getAxis i).state = .engaging ∨ (s.getAxis i).state = .follow then
        (s.setCode .a fun c => { c with disengage := .accepted }).modAxis i Axis.toDisengaging
      else s.setCode .a fun c => { c with disengage := .notEngaged }) s

/-- DROP (R61). -/
def cmdDrop (p : Port) (v : Word16) (s : State) : State :=
  writeByA p dropAddr (fun s =>
    match finOf 8 v.toNat with
    | none => s.setCode .a fun c => { c with drop := .noAxis }
    | some i => (s.setCode .a fun c => { c with drop := .accepted }).modAxis i Axis.toOff) s

/-- A write that an axis's guard lock guards (R150): a word, or a field of 32 bits from `addr` on. -/
def guardedByAxis (p : Port) (i : AxisNo) (addr : Word16) (field : Bool) (f : State → State) (s : State) : State :=
  writeByA p addr (fun s =>
    if s.guardOpen .a (s.getAxis i).guardLock then f s
    else if field then refuseField .a addr .guarded s
    else refuseWord .a addr .guarded s) s

/-- A field of a plan entry takes a value (R53). -/
def PlanEntry.setField (e : PlanEntry) (f : EntryField) (v : BitVec 32) : PlanEntry :=
  match f with
  | .valid => { e with valid := listedBool (v.setWidth 16).toNat }
  | .shaft => { e with shaft := Fin.ofNat 4 (listedCode 4 (v.setWidth 16).toNat) }
  | .numerator => { e with num := (v.setWidth 16).toInt }
  | .denominator => { e with den := (v.setWidth 16).toNat }
  | .phase => { e with phase := v.toNat % 1048576 }

/-- Whether a field of a plan entry is a field of 32 bits (R171). -/
def EntryField.wide (f : EntryField) : Bool := decide (f = .phase)

/-- A write of a field of a plan entry (R53, R150): a denominator of 0 is refused and sets the range flag. -/
def cmdPlanEntry (p : Port) (i : AxisNo) (plan : PlanNo) (f : EntryField) (v : BitVec 32) (s : State) : State :=
  guardedByAxis p i (axisAddr i (8 * plan.val + f.off)) f.wide (fun s =>
    if f = .denominator ∧ v.setWidth 16 = 0#16 then s.modAxisUnit fun u => { u with rangeFlag := true }
    else s.modAxis i fun x => { x with entries := modifyAt x.entries plan fun e => e.setField f v }) s

/-- The least and greatest value of a parameter written as a number (R54); guard lock apart. -/
def AxisParam.range : AxisParam → Nat × Nat
  | .enabled => (0, 1)
  | .corrSlew => (1, 65535)
  | .engageSlew => (1, 1048576)
  | .decel => (1, 65535)
  | .window => (1, 1048576)
  | .followCount => (1, 16)
  | .lag => (1, 4)
  | .actualReport => (0, 1)
  | .guardLock => (0, 15)
  | .followClass => (0, 3)
  | .stepClass => (0, 3)

/-- Whether a parameter is a field of 32 bits (R171). -/
def AxisParam.wide : AxisParam → Bool
  | .engageSlew => true
  | .window => true
  | _ => false

/-- The number a written value carries for a parameter. -/
def AxisParam.value (q : AxisParam) (v : BitVec 32) : Nat := if q.wide then v.toNat else (v.setWidth 16).toNat

/-- The value in range that a written number is stored as (R54). -/
def AxisParam.stored (q : AxisParam) (n : Nat) : Nat := clampNat n q.range.1 q.range.2

/-- Whether a write of a parameter sets the clamp flag (R54). -/
def AxisParam.clamps (q : AxisParam) (n : Nat) : Bool :=
  if q = .guardLock ∧ n = 65535 then false else decide (q.stored n ≠ n)

/-- A parameter takes a number; the classes stand in the trip unit (R54, R75), and Enabled = no drops the axis (R61). -/
def setParam (i : AxisNo) (q : AxisParam) (n : Nat) (s : State) : State :=
  match q with
  | .enabled =>
    s.modAxis i fun x =>
      if q.stored n = 1 then { x with enabled := true }
      else if x.state = .off then { x with enabled := false } else { x.toOff with enabled := false }
  | .corrSlew => s.modAxis i fun x => { x with corrSlew := q.stored n }
  | .engageSlew => s.modAxis i fun x => { x with engageSlew := q.stored n }
  | .decel => s.modAxis i fun x => { x with decel := q.stored n }
  | .window => s.modAxis i fun x => { x with window := q.stored n }
  | .followCount => s.modAxis i fun x => { x with followCount := q.stored n }
  | .lag => s.modAxis i fun x => { x with lag := q.stored n }
  | .actualReport => s.modAxis i fun x => { x with actualReport := q.stored n == 1 }
  | .guardLock => s.modAxis i fun x => { x with guardLock := lockOrNone n }
  | .followClass => setSourceClass (followSource i) (classOf (q.stored n)) s
  | .stepClass => setSourceClass (stepSource i) (classOf (q.stored n)) s

/-- A write of an axis parameter (R54, R150). -/
def cmdAxisParam (p : Port) (i : AxisNo) (q : AxisParam) (v : BitVec 32) (s : State) : State :=
  guardedByAxis p i (axisAddr i q.off) q.wide (fun s =>
    let s := setParam i q (q.value v) s
    if q.clamps (q.value v) then s.modAxisUnit fun u => { u with clampFlag := true } else s) s

/-- A write of an axis's actual position (R72). -/
def cmdActual (p : Port) (i : AxisNo) (v : Pos) (s : State) : State :=
  writeByA p (axisAddr i actualOff) (fun s =>
    if (s.getAxis i).actualReport then s.modAxis i fun x => { x with actual := v, fresh := true } else s) s

/-! ### The setpoint set (R69, R70, 10.3) -/

/-- Word `off` of a setpoint set, from 0600h on. -/
def SetpointSet.word (u : SetpointSet) (off : Nat) : Word16 :=
  if off = 0 then u.cycle
  else if off < 2 then 0
  else
    match finOf 8 ((off - 2) / 6) with
    | none => 0
    | some i =>
      let x := u.axes[i.val]
      match (off - 2) % 6 with
      | 0 => BitVec.ofNat 16 x.state.num
      | 2 => x.p.extractLsb' 0 16
      | 3 => x.p.extractLsb' 16 16
      | 4 => (BitVec.ofInt 32 x.velOut).extractLsb' 0 16
      | 5 => (BitVec.ofInt 32 x.velOut).extractLsb' 16 16
      | _ => 0

/-- Word `off` of the set as a port reads it: port A from its snapshot, port B from the live set (R70). -/
def State.setpointWord (s : State) (p : Port) (off : Nat) : Word16 :=
  match p with
  | .a => match s.axis.snapshot with
    | some u => u.word off
    | none => 0
  | .b => s.axis.live.word off

/-- What a port's access to the set's word `off` returns: one word, or the pair it stands in at a 32-bit port (R157). -/
def State.setpointLines (s : State) (p : Port) (off : Nat) : BitVec 32 :=
  if (s.port p).wide then s.setpointWord p (off - off % 2 + 1) ++ s.setpointWord p (off - off % 2)
  else (s.setpointWord p off).zeroExtend 32

/-- A read of the set's first word: at port A it copies the live set into the snapshot (R70). -/
def cmdSetpointFirst (p : Port) (s : State) : State :=
  let s := match p with
    | .a => s.modAxisUnit fun u => { u with snapshot := some u.live }
    | .b => s
  s.drive p (s.setpointLines p 0)

/-- A read of the set's final word: at port A it records the snapshot's cycle number as taken (R70). -/
def cmdSetpointFinal (p : Port) (s : State) : State :=
  let s := match p, s.axis.snapshot with
    | .a, some u => s.modAxisUnit fun x => { x with taken := some u.cycle }
    | _, _ => s
  s.drive p (s.setpointLines p 0x31)

/-! ### The commands -/

/-- PLAN_ENTRY_WRITE (R53). -/
def execPlanEntryWrite (p : Port) (i : AxisNo) (plan : PlanNo) (f : EntryField) (v : BitVec 32) (s : State) :
    Host.Outcome State Fault Refusal :=
  .next (portWrite p s (cmdPlanEntry p i plan f v))

/-- AXIS_PARAMETER_WRITE (R54). -/
def execAxisParameterWrite (p : Port) (i : AxisNo) (q : AxisParam) (v : BitVec 32) (s : State) :
    Host.Outcome State Fault Refusal :=
  .next (portWrite p s (cmdAxisParam p i q v))

/-- ENGAGE (R58). -/
def execEngage (p : Port) (v : Word16) (s : State) : Host.Outcome State Fault Refusal :=
  .next (portWrite p s (cmdEngage p v))

/-- DISENGAGE (R60). -/
def execDisengage (p : Port) (v : Word16) (s : State) : Host.Outcome State Fault Refusal :=
  .next (portWrite p s (cmdDisengage p v))

/-- DROP (R61). -/
def execDrop (p : Port) (v : Word16) (s : State) : Host.Outcome State Fault Refusal :=
  .next (portWrite p s (cmdDrop p v))

/-- ACTUAL_POSITION_WRITE (R72). -/
def execActualPositionWrite (p : Port) (i : AxisNo) (v : Pos) (s : State) : Host.Outcome State Fault Refusal :=
  .next (portWrite p s (cmdActual p i v))

/-- SETPOINT_SET_FIRST_READ (R70). -/
def execSetpointSetFirstRead (p : Port) (s : State) : Host.Outcome State Fault Refusal :=
  .next (portRead p s (cmdSetpointFirst p))

/-- SETPOINT_SET_FINAL_READ (R70). -/
def execSetpointSetFinalRead (p : Port) (s : State) : Host.Outcome State Fault Refusal :=
  .next (portRead p s (cmdSetpointFinal p))

end Sys2Proof.Machine
end

