-- ==== Sys2Proof/Machine/Receive.lean ====
section
/-!
DEFINITION. Receiving DATA (R106 to R110), what a completed message does on a SCREEN channel (R117, R124, R128) and on an
IMAGE channel (R134 to R136), and the channel unit's work at a cycle event (R102, R105, R109, R111, R126).
-/

namespace Sys2Proof.Machine

/-! ### Contexts -/

/-- Whether a channel's type carries a message kind (R99). -/
def ChannelType.carries : ChannelType → MsgKind → Bool
  | .screen, .request => true
  | .screen, .response => true
  | .screen, .event => true
  | .image, .strip => true
  | _, _ => false

/-- The context of an origin and channel (R107: at most one). -/
def State.contextOf (s : State) (origin : Nat) (ch : ChannelNo) : Option (Fin 4) :=
  allContexts.find? fun k => match s.getContext k with
    | some c => decide (c.origin = origin ∧ c.channel = ch)
    | none => false

/-- The contexts of a channel: its assemblies in progress. -/
def State.contextsOn (s : State) (ch : ChannelNo) : List (Fin 4) :=
  allContexts.filter fun k => match s.getContext k with
    | some c => decide (c.channel = ch)
    | none => false

/-- The context a segment 0 takes: context 3 for SCREEN if it is free, then the lowest free one of 0 to 2 (R107). -/
def State.freeContext (s : State) (t : ChannelType) : Option (Fin 4) :=
  if t = .screen && (s.getContext 3).isNone then some 3
  else [0, 1, 2].find? fun k => (s.getContext k).isNone

/-- The ANSWERING entry of a context's RESPONSE returns to WAITING and keeps its age (R125). -/
def reopenEntry (c : Context) (s : State) : State :=
  if c.kind = .response then
    s.modChannel c.channel fun x =>
      { x with entries := x.entries.map fun e =>
          if e.dest = c.origin ∧ e.tag = c.answers ∧ e.state = .answering then { e with state := .waiting } else e }
  else s

/-- Slot `i` of a channel's store becomes EMPTY. -/
def emptySlot (ch : ChannelNo) (i : Nat) (s : State) : State :=
  s.modChannel ch fun x => { x with store := { x.store with slots := modifyNth x.store.slots i fun _ => Slot.blank } }

/-- Context `k` is discarded: its blocks are freed in message order, its slot becomes EMPTY, its entry WAITING, and the
discard count rises (R109, R125, R135). -/
def discardContext (k : Fin 4) (s : State) : State :=
  match s.getContext k with
  | none => s
  | some c =>
    let s := freeBlocks c.blocks (s.setContext k none)
    let s := match c.slot with
      | some i => emptySlot c.channel i s
      | none => s
    reopenEntry c (s.modChan fun u => { u with discards := bump u.discards })

/-! ### The mark of segment 0 (R106) -/

/-- Whether some WAITING entry matches a RESPONSE (R124). -/
def Channel.awaits (x : Channel) (origin : Nat) (answers : BitVec 8) : Bool :=
  x.entries.any fun e => decide (e.dest = origin ∧ e.tag = answers ∧ e.state = .waiting)

/-- The READY slot with the lowest completion sequence number among slots from index `i` on. -/
def oldestReadyFrom : List Slot → Nat → Option (Nat × Nat)
  | [], _ => none
  | x :: xs, i =>
    match oldestReadyFrom xs (i + 1) with
    | some (j, seq) => if x.state = .ready ∧ x.seq ≤ seq then some (i, x.seq) else some (j, seq)
    | none => if x.state = .ready then some (i, x.seq) else none

def StripStore.oldestReady (u : StripStore) : Option Nat := (oldestReadyFrom u.slots 0).map fun r => r.1

/-- The slot a segment 0 takes: the lowest EMPTY one, else the oldest READY one (R134). -/
def StripStore.chooseSlot (u : StripStore) : Option Nat :=
  match u.slots.findIdx? fun x => decide (x.state = .empty) with
  | some i => some i
  | none => u.oldestReady

/-- How many blocks recycling a slot frees. -/
def StripStore.blocksOf (u : StripStore) (i : Nat) : Nat :=
  match u.slots[i]? with
  | some x => x.blocks.length
  | none => 0

/-- What a segment 0 meets: a mark, or a context (and for a STRIP a slot) that takes it. -/
inductive Verdict where
  | mark (m : Mark)
  | take (k : Fin 4) (slot : Option Nat)
  deriving DecidableEq, Repr

/-- The first line of R106's table for a SCREEN channel that carries the kind. -/
def State.screenVerdict (s : State) (origin : Nat) (d : DataBody) : Verdict :=
  let x := s.getChannel d.channel
  if x.held then .mark .held
  else if d.kind = .response && !x.awaits origin d.answers then .mark .late
  else if x.config.rxDepth ≤ x.rx.length + (s.contextsOn d.channel).length then .mark .busy
  else
    match s.freeContext .screen with
    | none => .mark .busy
    | some k => if s.pool.free.isEmpty then .mark .busy else .take k none

/-- The same for an IMAGE channel (R106, R134, R141). -/
def State.imageVerdict (s : State) (d : DataBody) : Verdict :=
  let x := s.getChannel d.channel
  if x.store.frozen then .mark .held
  else
    match x.store.chooseSlot with
    | none => .mark .busy
    | some i =>
      match s.freeContext .image with
      | none => .mark .busy
      | some k =>
        if s.pool.free.length + x.store.blocksOf i ≤ s.pool.reserve then .mark .busy else .take k (some i)

/-- The mark of a segment 0 once a context of the same origin and channel is discarded (R106). -/
def State.verdict (s : State) (origin : Nat) (d : DataBody) : Verdict :=
  let t := (s.getChannel d.channel).config.type
  if !t.carries d.kind then .mark .busy
  else if t = .screen then s.screenVerdict origin d
  else s.imageVerdict d

/-! ### Taking a segment (R108) -/

/-- A slot is filled by a strip: a recycled one first frees its blocks and counts (R134). -/
def fillSlot (ch : ChannelNo) (i : Nat) (origin : Nat) (strip : BitVec 16) (s : State) : State :=
  let s := match (s.getChannel ch).store.slots[i]? with
    | some x =>
      if x.state = SlotState.ready then
        freeBlocks x.blocks (s.modChannel ch fun y =>
          { y with store := { y.store with overwrites := bump y.store.overwrites } })
      else s
    | none => s
  s.modChannel ch fun y =>
    { y with store := { y.store with
        slots := modifyNth y.store.slots i fun _ => { Slot.blank with state := .filling, source := origin, strip := strip } } }

/-- A segment's payload goes into the head free block, which becomes ASSEMBLY (R107, R108). -/
def placePayload (bytes : List Byte) (s : State) : Option BlockNo × State :=
  match s.pool.takeHead .assembly with
  | some (n, pool) => (some n, writePayload (blockAddr n 0) bytes (s.modPool fun _ => pool))
  | none => (none, s)

/-- The WAITING entry a RESPONSE's segment 0 answers becomes ANSWERING (R124). -/
def answerEntry (origin : Nat) (answers : BitVec 8) : List OutEntry → List OutEntry
  | [] => []
  | e :: es =>
    if e.dest = origin ∧ e.tag = answers ∧ e.state = .waiting then { e with state := .answering } :: es
    else e :: answerEntry origin answers es

/-! ### Completion -/

/-- Whether the stale-response flush removes a message: a RESPONSE to the node, nothing of it started (R128). -/
def TxMsg.flushable (m : TxMsg) (x : Nat) : Bool := decide (m.kind = .response ∧ m.dest = x) && !m.started

/-- The flush of a transmit queue, in queue order (R128); the fuel is the queue's length. -/
def flushResponses (ch : ChannelNo) (x : Nat) : Nat → State → State
  | 0, s => s
  | n + 1, s =>
    match (s.getChannel ch).queue.findIdx? fun m => m.flushable x with
    | some i =>
      flushResponses ch x n ((finalOutcome ch i .flushed 0 s).modChannel ch fun y => { y with flushed := bump y.flushed })
    | none => s

/-- A completed SCREEN message joins the receive queue (R117); a RESPONSE removes its entry (R124), a REQUEST flushes
(R128). -/
def completeScreen (c : Context) (s : State) : State :=
  let s := ownBlocks c.blocks .rxq s
  let s := raise (s.getChannel c.channel).config.owner .rx <| s.modChannel c.channel fun x =>
    { x with rx := x.rx ++ [{ origin := c.origin, kind := c.kind, tag := c.tag, answers := c.answers, toAll := c.toAll,
                              length := c.length, cycle := s.cyc.cycle, blocks := c.blocks }] }
  if c.kind = .response then
    s.modChannel c.channel fun x =>
      { x with entries := x.entries.filter fun e =>
          !decide (e.dest = c.origin ∧ e.tag = c.answers ∧ e.state = .answering) }
  else if c.kind = .request && (s.getChannel c.channel).config.flush then
    flushResponses c.channel c.origin (s.getChannel c.channel).queue.length s
  else s

/-- The gap table meets a strip number (R136). -/
def StripStore.gapUpdate (u : StripStore) (source : Nat) (n : BitVec 16) : StripStore :=
  match u.gaps.find? fun e => decide (e.source = source) with
  | some e =>
    let diff := (n - e.last).toNat
    let rest := u.gaps.filter fun e => decide (e.source ≠ source)
    if 1 ≤ diff ∧ diff ≤ 32767 then
      { u with missed := bumpBy u.missed (diff - 1), gaps := rest ++ [{ source := source, last := n }] }
    else { u with outOfOrder := bump u.outOfOrder, gaps := rest ++ [{ source := source, last := e.last }] }
  | none => { u with gaps := pushBounded u.gaps { source := source, last := n } 4 }

/-- The store takes a completed strip into slot `i` (R135). -/
def StripStore.complete (u : StripStore) (i : Nat) (c : Context) (cycle : Cycle) : StripStore :=
  ({ u with
      slots := modifyNth u.slots i fun _ =>
        { state := .ready, source := c.origin, strip := c.strip, length := c.length, blocks := c.blocks,
          arrival := cycle, stamp := c.stamp, toAll := c.toAll, seq := u.nextSeq }
      nextSeq := u.nextSeq + 1 }).gapUpdate c.origin c.strip

/-- A completed STRIP passes to its slot (R135). -/
def completeStrip (c : Context) (i : Nat) (s : State) : State :=
  let s := ownBlocks c.blocks .store s
  raise (s.getChannel c.channel).config.owner .rx <| s.modChannel c.channel fun x =>
    { x with store := x.store.complete i c s.cyc.cycle }

/-- The last segment was taken: the context is freed and the message passes on (R108). -/
def completeContext (k : Fin 4) (s : State) : State :=
  match s.getContext k with
  | none => s
  | some c =>
    let s := s.setContext k none
    match c.slot with
    | some i => completeStrip c i s
    | none => completeScreen c s

/-- Segment 0 marked TAKEN opens context `k` (R108, R124, R134). -/
def takeFirst (h : Header) (d : DataBody) (k : Fin 4) (slot : Option Nat) (s : State) : State :=
  let s := match slot with
    | some i => fillSlot d.channel i h.origin d.strip s
    | none => s
  let r := placePayload d.payload s
  let s := r.2.setContext k (some
    { origin := h.origin, channel := d.channel, kind := d.kind, tag := d.tag, attempt := d.attempt, length := d.length,
      count := d.count, next := 1, blocks := r.1.toList, answers := d.answers, strip := d.strip, stamp := d.stamp,
      toAll := h.dest == 31, idle := 0, slot := slot })
  let s := if d.kind = .response then
      s.modChannel d.channel fun x => { x with entries := answerEntry h.origin d.answers x.entries }
    else s
  if d.count ≤ 1 then completeContext k s else s

/-- Whether a later segment follows its context, a block apart (R108). -/
def Context.follows (c : Context) (d : DataBody) : Bool :=
  decide (d.tag = c.tag ∧ d.attempt = c.attempt ∧ d.count = c.count ∧ d.index = c.next)

/-- Whether a context's segment may take a block (R107). -/
def State.blockFor (s : State) (c : Context) : Bool :=
  if c.kind = .strip then decide (s.pool.reserve < s.pool.free.length) else !s.pool.free.isEmpty

/-- A later segment marked TAKEN (R108). -/
def takeNext (d : DataBody) (k : Fin 4) (c : Context) (s : State) : State :=
  let r := placePayload d.payload s
  let s := r.2.setContext k (some { c with next := c.next + 1, blocks := c.blocks ++ r.1.toList, idle := 0 })
  if c.count ≤ c.next + 1 then completeContext k s else s

/-- A segment is judged, and taken if its mark is TAKEN (R106, R108, R109). -/
def judgeSegment (h : Header) (d : DataBody) (s : State) : Mark × State :=
  if d.index = 0 then
    let s := match s.contextOf h.origin d.channel with
      | some k => discardContext k s
      | none => s
    match s.verdict h.origin d with
    | .mark m => (m, s)
    | .take k slot => (.taken, takeFirst h d k slot s)
  else
    match s.contextOf h.origin d.channel with
    | none => (.busy, s)
    | some k =>
      match s.getContext k with
      | none => (.busy, s)
      | some c =>
        if c.follows d && s.blockFor c then (.taken, takeNext d k c s) else (.busy, discardContext k s)

/-- A DATA segment for this node or for 31 is marked at the processing input; answers the header it carries on (R106,
R110). -/
def takeSegment (h : Header) (d : DataBody) (s : State) : Header × State :=
  let r := judgeSegment h d s
  if h.dest = 31 then
    if r.1 = .taken then ({ h with mark := .taken, takers := h.takers + 1 }, r.2) else (h, r.2)
  else
    ({ h with mark := r.1 },
      if r.1 = .busy then r.2.modChan fun u => { u with busyMarks := bump u.busyMarks } else r.2)

/-! ### The unit's work at a cycle event -/

/-- A cycle event passes for an open context: its idle count rises, and at 2 it is discarded (R109). -/
def contextEvent (k : Fin 4) (s : State) : State :=
  match s.getContext k with
  | none => s
  | some c => if 2 ≤ c.idle + 1 then discardContext k s else s.setContext k (some { c with idle := c.idle + 1 })

/-- Whether an entry times out: WAITING with an age of T_resp or more (R126). -/
def OutEntry.expired (e : OutEntry) (tResp : Nat) : Bool := decide (e.state = .waiting) && decide (tResp ≤ e.age)

/-- A cycle event passes for a channel's outstanding table (R126). -/
def entriesEvent (c : ChannelNo) (s : State) : State :=
  let s := s.modChannel c fun x => { x with entries := x.entries.map fun e => { e with age := min (e.age + 1) 4095 } }
  let t := (s.getChannel c).config.tResp
  let gone := (s.getChannel c).entries.filter fun e => e.expired t
  let s := s.modChannel c fun x => { x with entries := x.entries.filter fun e => !e.expired t }
  gone.foldl (fun s e => addOutcome c (noResponse e) s) s

/-- The channel unit's work at a cycle event (R102, R105, R109, R111, R126, R28). The attempts and waits of the heads are worked
before the contexts and entries that R126 orders. DESIGN CHOICE (log entry 69). -/
def channelWork (openPhase : Bool) (s : State) : State :=
  let s := allChannels.foldl (fun s c => attemptEvent c (s.modChannel c Channel.waitEvent)) s
  let s := allContexts.foldl (fun s k => contextEvent k s) s
  let s := allChannels.foldl (fun s c =>
    if (s.getChannel c).config.type = .screen then entriesEvent c s else s) s
  s.modChan fun u => { u with allowance := s.cyc.config.allowance, shut := false, openPhase := openPhase }

/-! ### The events of one object -/

/-- CONTEXT_STALE (R109): the cycle event that brings context `k`'s idle count to 2, seen for that context. -/
def execContextStale (k : Fin 4) (s : State) : Host.Outcome State Fault Refusal :=
  .next (match s.getContext k with
    | some c => if 2 ≤ c.idle + 1 then discardContext k s else s
    | none => s)

/-- Removes the first entry with a destination and tag. -/
def removeEntry (dest : Nat) (tag : BitVec 8) : List OutEntry → List OutEntry
  | [] => []
  | e :: es => if e.dest = dest ∧ e.tag = tag then es else e :: removeEntry dest tag es

/-- OUTSTANDING_ENTRY_TIMEOUT (R126): the cycle event that brings one WAITING entry's age to T_resp, seen for that
entry. -/
def execOutstandingEntryTimeout (c : ChannelNo) (dest : Nat) (tag : BitVec 8) (s : State) :
    Host.Outcome State Fault Refusal :=
  .next (match (s.getChannel c).entries.find? fun e => decide (e.dest = dest ∧ e.tag = tag) with
    | some e =>
      if ({ e with age := e.age + 1 } : OutEntry).expired (s.getChannel c).config.tResp then
        addOutcome c (noResponse e) (s.modChannel c fun x => { x with entries := removeEntry dest tag x.entries })
      else s
    | none => s)

end Sys2Proof.Machine
end

