-- ==== Sys2Proof/Machine/Cycle.lean ====
section
/-!
DEFINITION. The cycle and time-lock unit (02): cycle events and the order of the blocks' work at one (log entry 7), the
time lock (R29 to R34), leadership (R24, R25, R36, R37), rosters and ring state (R38, R39), and plan switches (R40 to R44).
-/

namespace Sys2Proof.Machine

/-! ### Small parts -/

/-- The lock state becomes `l`; a change raises TIMELOCK at both ports (R22). -/
def setLock (l : LockState) (s : State) : State :=
  if s.cyc.lock = l then s else raiseBoth .timelock (s.modCyc fun u => { u with lock := l })

/-- The ring state becomes `r`; a change raises RING at both ports (R39). -/
def setRing (r : RingState) (s : State) : State :=
  if s.cyc.ring = r then s else raiseBoth .ring (s.modCyc fun u => { u with ring := r })

/-- The presence record is cleared (R39). -/
def clearPresence (s : State) : State := s.modCyc fun u => { u with presence := Vector.replicate 31 none }

/-- A PLAN event with its outcome record (R154). -/
def planEvent (o : PlanOutcome) (p : PlanNo) (s : State) : State :=
  raiseBoth .plan (s.modCyc fun u => { u with planRecord := { outcome := o, plan := p, cycle := u.cycle } })

/-- P_c in ns. -/
def CycleUnit.periodNs (u : CycleUnit) : Int := u.config.periodMicros * 1000

/-- W_cap in ns. -/
def CycleUnit.captureNs (u : CycleUnit) : Int := u.config.captureMicros * 1000

/-- The predicted send time of cycle `m` (R30); without a reference, 0. -/
def CycleUnit.predicted (u : CycleUnit) (m : Cycle) : Int :=
  match u.reference with
  | some r => r.send + cycleDist m r.cycle * u.period
  | none => 0

/-- The distance k of cycle `m` from the reference (R30). -/
def CycleUnit.distance (u : CycleUnit) (m : Cycle) : Nat :=
  match u.reference with
  | some r => cycleDist m r.cycle
  | none => 0

/-- The local period corrected by ε: an eighth rounded toward zero, at most 500 ns, kept within 4,000 ns of P_c (R30). -/
def CycleUnit.corrected (u : CycleUnit) (eps : Int) : Int :=
  u.periodNs + clampInt (u.period + clampInt (eps.tdiv 8) 500 - u.periodNs) 4000

/-- The unit anchors on a CYCLE_START with an estimated send time (R30). -/
def CycleUnit.anchor (u : CycleUnit) (c : CycleStart) (est : Int) : CycleUnit :=
  { u with reference := some { cycle := c.cycle, send := est }, refTransit := c.transit.toNat }

/-- The estimated send time of a CYCLE_START: its arrival minus its transit (R30). -/
def CycleStart.estimated (c : CycleStart) (t : RxTime) : Int := (t.arrival : Int) - c.transit.toNat

/-- Whether ε lies within the capture window W_cap (R33). -/
def CycleUnit.within (u : CycleUnit) (eps : Int) : Bool := decide ((eps.natAbs : Int) ≤ u.captureNs)

/-! ### A cycle event -/

/-- The opening of a cycle event: the path mode is compared (R11), the reset guard counts (R89), and the cycle takes its
number (R35) and send time (R28). -/
def beginEvent (n : Cycle) (send : Int) (s : State) : State :=
  (guardTick (setMode s.calledMode s)).modCyc fun u => { u with cycle := n, cycleSend := send }

/-- The plan-ready flag is determined (R41). -/
def markReady (s : State) : State :=
  let ready := s.ready
  s.modCyc fun u => { u with planReady := ready }

/-- A pending switch whose cycle is this event's number is applied (R44). -/
def applySwitch (s : State) : State :=
  match s.cyc.pendingSwitch with
  | some w =>
    if w.cycle = s.cyc.cycle then
      planEvent .done w.plan (s.modCyc fun u => { u with activePlan := w.plan, pendingSwitch := none })
    else s
  | none => s

/-- The node emits its STATUS for the event (R27), with the outbox's entries (R64). -/
def emitOwnStatus (published : Bool) (s : State) : State :=
  if s.cyc.attached then
    let r := outboxAtStatus s
    emitStatus
      { mode := s.ring.mode, cls := s.trip.localClass, topSource := s.trip.topSource, resetNo := s.trip.resetNo,
        planReady := s.cyc.planReady, axisStates := s.statusCodes published, cycle := s.cyc.cycle, entries := r.1 } r.2
  else s

/-- Whether the open phase runs at a local cycle time (R28). -/
def CycleUnit.inOpenPhase (u : CycleUnit) (elapsed : Int) : Bool := decide (elapsed < u.periodNs - 20000)

/-- The close of a cycle event: the axis unit, the test for source 10, the STATUS, the channel unit, and CYCLE. -/
def finishEvent (switched : Bool) (elapsed : Int) (s : State) : State :=
  let published := s.publishes
  let s := if published then axisWork switched s else s
  let s := emitOwnStatus published (isolationTest s)
  raiseBoth .cycle (channelWork (s.cyc.inOpenPhase elapsed) s)

/-! ### Plan handling at a follower (R41, R44) -/

/-- Whether a switch cycle N has been reached at cycle c (R41). -/
def reached (n c : Cycle) : Bool := decide (cycleDist n c = 0 ∨ 32768 ≤ cycleDist n c)

/-- The frame's active plan becomes the node's where it differs (R44). -/
def takeActivePlan (c : CycleStart) (s : State) : State :=
  if s.cyc.activePlan = c.activePlan then s
  else planEvent .done c.activePlan (s.modCyc fun u => { u with activePlan := c.activePlan })

/-- The frame's pending switch becomes the node's; one not yet reached that the frame no longer carries is CANCELLED
(R41). -/
def takePendingSwitch (c : CycleStart) (s : State) : State :=
  let old := s.cyc.pendingSwitch
  let s := s.modCyc fun u => { u with pendingSwitch := c.pendingSwitch }
  match old, c.pendingSwitch with
  | some w, none => if reached w.cycle s.cyc.cycle then s else planEvent .cancelled w.plan s
  | _, _ => s

/-! ### Cycle events made by a CYCLE_START -/

/-- A cycle event made by an accepted CYCLE_START; `first` is what the cycle unit raises at it. The shafts move under the
view as it stood before the frame (R51), and every source of the event is raised after the frame's trip fields, so that a
source raised at the event of a trip reset is a new trip whose TRIP_FLASH carries the reset cycle (R90; log entry 7). Where a
due switch and then the frame's active plan both change the plan, each raises PLAN and the axes meet the net change alone:
DESIGN CHOICE (log entry 57). -/
def frameEvent (w : ShaftWork) (first : State → State) (c : CycleStart) (t : RxTime) (s : State) : State :=
  let s := setRing c.ring (beginEvent c.cycle (c.estimated t) s)
  let old := s.cyc.activePlan
  let s := markReady (takePendingSwitch c (takeActivePlan c (applySwitch s)))
  let switched := decide (s.cyc.activePlan ≠ old)
  let s := takeTripFields c (moveShafts w (clearPresence s))
  finishEvent switched ((t.received : Int) - s.cyc.cycleSend) (dropAllFaulted (first s))

/-- The epoch and leader that a CYCLE_START carries. -/
def CycleStart.leaderId (c : CycleStart) : LeaderId := { epoch := c.epoch, node := c.leader }

/-- How the replica takes a frame that makes a cycle event: checked at a resync event (R49, R51). -/
def State.takeWork (s : State) (good returning : Bool) (c : CycleStart) : ShaftWork :=
  if returning || (good && (s.shafts.resyncPending || decide (s.shafts.lastTaken ≠ some c.leaderId))) then .resync c
  else .take c

/-- The node enters ACQUIRING on a CYCLE_START (R31): axes go to OFF (R56), and the frame makes a cycle event. -/
def enterAcquiring (first : State → State) (c : CycleStart) (t : RxTime) (s : State) : State :=
  let work : ShaftWork := if s.cyc.lock = .unlocked then .takeFirst c else .take c
  let s := axesOff <| (setLock .acquiring s).modCyc fun u =>
    { (u.anchor c (c.estimated t)) with
      runningDown := false, good := 0, missed := 0, period := u.periodNs, epoch := c.epoch, leader := some c.leader }
  frameEvent work first c t s

/-- An accepted CYCLE_START in ACQUIRING (R32). -/
def judgeAcquiring (c : CycleStart) (t : RxTime) (s : State) : State :=
  let est := c.estimated t
  let eps := est - s.cyc.predicted c.cycle
  let k := s.cyc.distance c.cycle
  let near := decide (k = 1) && decide (2 * (eps.natAbs : Int) ≤ s.cyc.period)
  let good := near && s.cyc.within eps
  let work := s.takeWork good false c
  let s := s.modCyc fun u =>
    { (u.anchor c est) with
      lastEps := eps
      period := if near then u.corrected eps else u.period
      missed := if near then 0 else u.missed
      good := if good then min (u.good + 1) 64 else 0 }
  let s := if s.cyc.config.lockCount ≤ s.cyc.good then setLock .locked s else s
  frameEvent work id c t s

/-- An accepted CYCLE_START that is not good while LOCKED or in HOLDOVER (R33, R34). -/
def ignoreFrame (eps : Int) (s : State) : State :=
  s.modCyc fun u => { u with lastEps := eps, outOfWindow := bump u.outOfWindow }

/-- An accepted CYCLE_START in LOCKED (R33). -/
def judgeLocked (c : CycleStart) (t : RxTime) (s : State) : State :=
  let est := c.estimated t
  let eps := est - s.cyc.predicted c.cycle
  if s.cyc.distance c.cycle = 1 ∧ s.cyc.within eps then
    let work := s.takeWork true false c
    frameEvent work id c t <| s.modCyc fun u => { (u.anchor c est) with lastEps := eps, period := u.corrected eps }
  else ignoreFrame eps s

/-- An accepted CYCLE_START in HOLDOVER (R34). A late one, which returns the node to LOCKED without a cycle event, leaves the
send time of the current cycle (R28) as the holdover event predicted it. DESIGN CHOICE (log entry 65). -/
def judgeHoldover (c : CycleStart) (t : RxTime) (s : State) : State :=
  let est := c.estimated t
  let eps := est - s.cyc.predicted c.cycle
  let k := s.cyc.distance c.cycle
  let missed := s.cyc.missed
  if s.cyc.within eps && (decide (k = missed) || decide (k = missed + 1)) then
    let s := setLock .locked <| s.modCyc fun u =>
      { (u.anchor c est) with lastEps := eps, period := if k = 1 then u.corrected eps else u.period, missed := 0 }
    if k = missed + 1 then frameEvent (s.takeWork true true c) id c t s
    else takeTripFields c (s.modShafts fun u => { u with resyncPending := true })
  else ignoreFrame eps s

/-- A leading or listening LEADER yields to a CYCLE_START (R24, R37). -/
def yieldTo (c : CycleStart) (t : RxTime) (s : State) : State :=
  let s := dropStagedReset (s.modRing fun u => { u with ownCycleStart := none })
  enterAcquiring (raisePulse 15) c t (s.modCyc fun u => { u with role := .follower, phase := .none })

/-- An accepted CYCLE_START is judged by the lock state (R29, R31 to R34), the node having taken its epoch and leader. -/
def judge (c : CycleStart) (t : RxTime) (s : State) : State :=
  let s := s.modCyc fun u => { u with epoch := c.epoch, leader := some c.leader }
  if s.cyc.role = .leader then yieldTo c t s
  else
    match s.cyc.lock with
    | .unlocked => enterAcquiring id c t s
    | .acquiring => judgeAcquiring c t s
    | .locked => judgeLocked c t s
    | .holdover => judgeHoldover c t s

/-- Whether a node that is not leading accepts a CYCLE_START (R29). -/
def CycleUnit.accepts (u : CycleUnit) (c : CycleStart) : Bool :=
  u.leader.isNone || decide (u.epoch = c.epoch ∧ u.leader = some c.leader) || newer c.epoch u.epoch

/-- Whether a leading node yields to a CYCLE_START (R37). -/
def State.yields (s : State) (c : CycleStart) : Bool :=
  newer c.epoch s.cyc.epoch || (!newer s.cyc.epoch c.epoch && decide (c.leader < s.own))

/-- A CYCLE_START from another origin is handed to the cycle unit (R29, R37). -/
def takeCycleStart (c : CycleStart) (t : RxTime) (s : State) : State :=
  if s.leading then
    if s.yields c then yieldTo c t s else s.modCyc fun u => { u with foreign := bump u.foreign }
  else if s.cyc.accepts c then judge c t s
  else s.modCyc fun u => { u with foreign := bump u.foreign }

/-! ### Cycle events of the local timer -/

/-- The middle of a cycle event of a node that does not lead, on its own timer: a pending switch, readiness, presence and
the replica's extrapolation (R41, R44, R39, R50). -/
def localWork (s : State) : State :=
  moveShafts .extrapolate (clearPresence (markReady (applySwitch s)))

/-- The local cycle time at a deadline (R28, R30). -/
def CycleUnit.deadlineElapsed (u : CycleUnit) : Int := u.refTransit + u.captureNs

/-- A cycle event at a deadline: the cycle number rises by one (R35). -/
def localEvent (first takeOver : State → State) (s : State) : State :=
  let n := s.cyc.cycle + 1
  let s := first (beginEvent n (s.cyc.predicted n) s)
  let old := s.cyc.activePlan
  let s := localWork s
  let switched := decide (s.cyc.activePlan ≠ old)
  finishEvent switched s.cyc.deadlineElapsed (takeOver s)

/-- Whether a STANDBY takes over at a holdover event (R36). -/
def State.takesOver (s : State) : Bool :=
  decide (s.cyc.role = .standby) && decide (s.ring.mode ≠ .isolated) &&
    decide (min s.cyc.config.takeCount s.cyc.config.holdLimit ≤ s.cyc.missed)

/-- Leadership begins at a listen's end or a takeover: the epoch rises, the node follows itself, is LOCKED and EMITTING,
and its presence and missing counts start afresh (R24, R36, R39). The reference, the reference transit and the last ε stay as
the old leader's frames left them. DESIGN CHOICE (log entry 66). -/
def beginLeading (period boundary : Int) (s : State) : State :=
  leadSync <| clearPresence <| setLock .locked <| s.modCyc fun u =>
    { u with
      phase := .emitting, epoch := u.epoch + 1, leader := u.address, missed := 0, timerPeriod := period,
      nextBoundary := boundary, missing := Vector.replicate 31 0, added := Vector.replicate 4 0, freshLead := true }

/-- A standby takes over (R36, R52). -/
def takeOver (s : State) : State :=
  if s.takesOver then
    let s := s.modCyc fun u => { u with role := .leader }
    raisePulse 15 <| shaftsTakeOver <| beginLeading s.cyc.period (s.cyc.predicted (s.cyc.cycle + 1)) s
  else s

/-- The node reaches its deadline in LOCKED (R33). -/
def holdoverEntry (s : State) : State :=
  localEvent id id <| setLock .holdover <| s.modCyc fun u => { u with missed := 1, holdovers := bump u.holdovers }

/-- A holdover event (R34): expiry past H, else a missed count and a standby's test. -/
def holdoverEvent (s : State) : State :=
  if s.cyc.config.holdLimit < s.cyc.missed + 1 then
    localEvent (raisePulse 8) id <| setLock .unlocked <| s.modCyc fun u =>
      { u with runningDown := true, leader := none }
  else localEvent id takeOver (s.modCyc fun u => { u with missed := u.missed + 1 })

/-- A miss in ACQUIRING (R32): past H the node gives up, has no reference and no cycle events (R31). -/
def acquireMiss (s : State) : State :=
  let s := s.modCyc fun u => { u with good := 0, missed := u.missed + 1 }
  if s.cyc.config.holdLimit < s.cyc.missed then
    (setLock .unlocked (s.modCyc fun u => { u with leader := none, reference := none })).modChan fun u =>
      { u with openPhase := false }
  else s

/-! ### The leader's boundary (R25) -/

/-- Whether an address is a member of a plan's roster (R38). -/
def CycleUnit.member (u : CycleUnit) (p : PlanNo) (a : Fin 31) : Bool := (u.rosters[p.val]).getLsbD a.val

/-- Whether a plan has a roster (R38). -/
def CycleUnit.hasRoster (u : CycleUnit) (p : PlanNo) : Bool := decide (u.rosters[p.val] ≠ 0)

/-- Whether an address is the node's own. -/
def CycleUnit.isOwn (u : CycleUnit) (a : Fin 31) : Bool := decide (u.address = some a.val)

/-- The missing counts of a boundary (R39). -/
def CycleUnit.nextMissing (u : CycleUnit) : Vector Nat 31 :=
  Vector.ofFn fun a =>
    if u.freshLead || !u.member u.activePlan a || u.isOwn a then u.missing[a.val]
    else if (u.presence[a.val]).isSome then 0
    else min (u.missing[a.val] + 1) 255

/-- Whether some member's missing count is 2 or more (R39). -/
def CycleUnit.isSplit (u : CycleUnit) : Bool :=
  allAddresses.any fun a => u.member u.activePlan a && !u.isOwn a && decide (2 ≤ u.missing[a.val])

/-- Whether some marked STATUS reported a mode other than THROUGH (R39). -/
def CycleUnit.someWrapped (u : CycleUnit) : Bool :=
  u.presence.toList.any fun x => match x with
    | some q => decide (q.mode ≠ .through)
    | none => false

/-- The ring state a leader evaluates (R39). -/
def State.evaluatedRing (s : State) : RingState :=
  if s.cyc.isSplit then .split
  else if s.ring.mode ≠ .through || s.cyc.someWrapped then .wrapped
  else .closed

/-- Whether every member of a plan's roster is ready (R42). -/
def CycleUnit.allReady (u : CycleUnit) (p : PlanNo) : Bool :=
  u.hasRoster p && allAddresses.all fun a =>
    !u.member p a ||
      if u.isOwn a then u.planReady
      else match u.presence[a.val] with
        | some q => q.planReady
        | none => false

/-- The check at boundary N − 2 (R42). -/
def vetoCheck (s : State) : State :=
  match s.cyc.pendingSwitch with
  | some w =>
    if cycleDist w.cycle s.cyc.cycle = 2 && !s.cyc.allReady w.plan then
      planEvent .vetoed w.plan (s.modCyc fun u => { u with pendingSwitch := none })
    else s
  | none => s

/-- The first-fault record as it is sent, its origin this node's where it latched without an address (log entry 17). -/
def State.sentFault (s : State) : Option TripRecord :=
  s.trip.firstFault.map fun r => { r with origin := r.node s.cyc.address }

/-- The CYCLE_START of a boundary (R26). -/
def State.cycleStart (s : State) : CycleStart :=
  { cycle := s.cyc.cycle, leader := s.own, epoch := s.cyc.epoch, ring := s.cyc.ring, cls := s.trip.announced,
    firstFault := s.sentFault, resetNo := s.trip.resetNo, activePlan := s.cyc.activePlan,
    pendingSwitch := s.cyc.pendingSwitch,
    shafts := s.shafts.shafts.map fun x => { posInt := x.posInt, posFrac := x.posFrac, vel := x.vel },
    transit := 0 }

/-- The missing counts once a plan's roster comes into use: an address that the leader's port A added to it and that the
roster in use before did not name starts with 0 (R38). -/
def CycleUnit.startAdded (u : CycleUnit) (before : PlanNo) : CycleUnit :=
  { u with
    missing := Vector.ofFn fun a =>
      if (u.added[u.activePlan.val]).getLsbD a.val && !u.member before a then 0 else u.missing[a.val]
    added := modifyAt u.added u.activePlan fun _ => 0 }

/-- The leader's pending switch at its boundary (R44), and the counts of the roster that comes into use (R38). -/
def leaderSwitch (s : State) : State :=
  let t := applySwitch s
  if t.cyc.activePlan = s.cyc.activePlan then t else t.modCyc fun u => u.startAdded s.cyc.activePlan

/-- A boundary of the leader's cycle timer (R25). -/
def leaderBoundary (s : State) : State :=
  let s := beginEvent (s.cyc.cycle + 1) s.cyc.nextBoundary s
  let s := s.modCyc fun u => { u with nextBoundary := u.nextBoundary + u.timerPeriod, missing := u.nextMissing }
  let s := setRing s.evaluatedRing s
  let old := s.cyc.activePlan
  let s := vetoCheck (markReady (leaderSwitch s))
  let switched := decide (s.cyc.activePlan ≠ old)
  let s := (clearPresence s).modCyc fun u => { u with freshLead := false }
  let s := applyStagedReset (moveShafts .generate s)
  finishEvent switched 0 (emitCycleStart s.cycleStart s)

/-! ### STATUS (R39) -/

/-- The cycle unit marks a STATUS's origin present and keeps its axis states (R39). -/
def markPresent (origin : Nat) (b : StatusBody) (s : State) : State :=
  match finOf 31 origin with
  | some a =>
    s.modCyc fun u =>
      { u with
        presence := modifyAt u.presence a fun _ => some { mode := b.mode, planReady := b.planReady }
        remoteAxes := modifyAt u.remoteAxes a fun _ => b.axisStates }
  | none => s

/-! ### Timer commands -/

/-- LISTEN_END (R24). -/
def execListenEnd (s : State) : Host.Outcome State Fault Refusal :=
  .next (if s.cyc.role = .leader ∧ s.cyc.phase = .listening then beginLeading s.cyc.periodNs s.cyc.listenEnd s else s)

/-- LEADER_BOUNDARY (R25). -/
def execLeaderBoundary (s : State) : Host.Outcome State Fault Refusal :=
  .next (if s.leading then leaderBoundary s else s)

/-- ACQUIRE_MISS (R32). -/
def execAcquireMiss (s : State) : Host.Outcome State Fault Refusal :=
  .next (if s.cyc.lock = .acquiring then acquireMiss s else s)

/-- HOLDOVER_ENTRY (R33). -/
def execHoldoverEntry (s : State) : Host.Outcome State Fault Refusal :=
  .next (if s.cyc.lock = .locked ∧ !s.leading then holdoverEntry s else s)

/-- HOLDOVER_EVENT (R34). -/
def execHoldoverEvent (s : State) : Host.Outcome State Fault Refusal :=
  .next (if s.cyc.lock = .holdover then holdoverEvent s else s)

/-- RUNNING_DOWN_EVENT (R31, R50). -/
def execRunningDownEvent (s : State) : Host.Outcome State Fault Refusal :=
  .next (if s.cyc.runningDown then localEvent id id s else s)

/-- OPEN_PHASE_END (R28): no own DATA starts until the next cycle event. -/
def execOpenPhaseEnd (s : State) : Host.Outcome State Fault Refusal :=
  .next (s.modChan fun u => { u with openPhase := false })

/-! ### Port commands of rosters and plan switches -/

/-- A plan's roster is replaced (R38). An address that a write adds while the node leads starts with a missing count of 0:
at once in the roster in use, and in another plan's once that plan is used (log entry 28). -/
def CycleUnit.setRoster (u : CycleUnit) (leading : Bool) (plan : PlanNo) (set : BitVec 31) : CycleUnit :=
  let old := u.rosters[plan.val]
  { u with
    rosters := modifyAt u.rosters plan fun _ => set
    missing := Vector.ofFn fun a =>
      if leading && decide (plan = u.activePlan) && (set &&& ~~~old).getLsbD a.val then 0 else u.missing[a.val]
    added :=
      if leading && decide (plan ≠ u.activePlan) then modifyAt u.added plan fun x => (x &&& set) ||| (set &&& ~~~old)
      else u.added }

/-- ROSTER_WRITE (R38). -/
def cmdRoster (p : Port) (plan : PlanNo) (v : BitVec 32) (s : State) : State :=
  writeByA p (BitVec.ofNat 16 (0x0080 + 2 * plan.val)) (fun s =>
    s.modCyc fun u => u.setRoster s.leading plan (v.setWidth 31)) s

/-- The code of a staging write (R40). -/
def State.stagingCode (s : State) (p : Nat) (n : Cycle) : Code :=
  if !s.leading then .notLeader
  else if s.cyc.pendingSwitch.isSome then .busy
  else if p = s.cyc.activePlan.val then .noChange
  else if cycleDist n s.cyc.cycle < 8 ∨ 32767 < cycleDist n s.cyc.cycle then .tooSoon
  else
    match finOf 4 p with
    | some q => if s.cyc.hasRoster q then .accepted else .noRoster
    | none => .noRoster

/-- PLAN_STAGING_WRITE (R40): the pair keeps what was written. -/
def cmdStaging (p : Port) (plan : Word16) (n : Cycle) (s : State) : State :=
  writeByA p 0x00B0 (fun s =>
    let code := s.stagingCode plan.toNat n
    let t := (s.setCode .a fun c => { c with staging := code }).modCyc fun u =>
      { u with stagingPlan := plan, stagingCycle := n }
    match code, finOf 4 plan.toNat with
    | .accepted, some q => t.modCyc fun u => { u with pendingSwitch := some { plan := q, cycle := n } }
    | _, _ => t) s

/-- CANCEL PLAN (R43). The read-back of one that cancels, to which R43 gives no code, is ACCEPTED. DESIGN CHOICE (log entry
67). -/
def cmdCancelPlan (p : Port) (s : State) : State :=
  writeByA p 0x00B4 (fun s =>
    if !s.leading then s.setCode .a fun c => { c with cancelPlan := .notLeader }
    else
      match s.cyc.pendingSwitch with
      | none => s.setCode .a fun c => { c with cancelPlan := .none }
      | some w =>
        if cycleDist w.cycle s.cyc.cycle < 3 then s.setCode .a fun c => { c with cancelPlan := .tooLate }
        else
          planEvent .cancelled w.plan <| (s.setCode .a fun c => { c with cancelPlan := .accepted }).modCyc fun u =>
            { u with pendingSwitch := none }) s

/-- ROSTER_WRITE (R38). -/
def execRosterWrite (p : Port) (plan : PlanNo) (v : BitVec 32) (s : State) : Host.Outcome State Fault Refusal :=
  .next (portWrite p s (cmdRoster p plan v))

/-- PLAN_STAGING_WRITE (R40). -/
def execPlanStagingWrite (p : Port) (plan : Word16) (n : Cycle) (s : State) : Host.Outcome State Fault Refusal :=
  .next (portWrite p s (cmdStaging p plan n))

/-- CANCEL_PLAN (R43). -/
def execCancelPlan (p : Port) (s : State) : Host.Outcome State Fault Refusal :=
  .next (portWrite p s (cmdCancelPlan p))

end Sys2Proof.Machine
end

