-- ==== Sys2Proof/Machine/Links.lean ====
section
/-!
DEFINITION. The link units (R1 to R8) and the reception of frames: training, silence and loss, the error window, and the
handing of a received frame (R13 to R15, R65). Every frame-arrival command runs the one reception, which the state
decides (log entry 5).
-/

namespace Sys2Proof.Machine

/-! ### Link units -/

/-- A node without cycle events running takes the called mode when a link comes UP (R11). -/
def modeAtUp (s : State) : State := if s.eventsRunning then s else setMode s.calledMode s

/-- A LEADER in WAITING starts its listen of 4 × P_c when its first link reaches UP (R24). -/
def listenAtUp (now : Nat) (s : State) : State :=
  if s.cyc.role = .leader ∧ s.cyc.phase = .waiting then
    s.modCyc fun u => { u with phase := .listening, listenEnd := (now : Int) + 4 * u.periodNs }
  else s

/-- A link in TRAINING enters UP (R5). -/
def linkUp (d : Side) (now : Nat) (s : State) : State :=
  listenAtUp now (modeAtUp (s.modLink d fun l => { l with state := .up, window := [] }))

/-- A DOWN link whose hold-off has run out, with its laser on and signal-detect asserted, moves to TRAINING (R2). -/
def LinkUnit.tryTraining (l : LinkUnit) : LinkUnit :=
  if l.state = .down ∧ l.laser ∧ l.signalDetect ∧ !l.holdOff then { l with state := .training } else l

/-- The link delay a good LINK_IDLE gives, if it lies between 0 and 100,000 ns (R3). -/
def measuredDelay (arrival : Nat) (f : LinkIdle) : Option Nat :=
  match f.echo with
  | none => none
  | some e =>
    let trip : Int := (BitVec.ofNat 32 arrival - e).toNat
    let delay := floor4 ((trip - f.turnaround.toNat) / 2)
    if 0 ≤ delay ∧ delay ≤ 100000 then some delay.toNat else none

/-- The measurement of a good LINK_IDLE, and the stamp the unit echoes (R3). -/
def LinkUnit.measure (l : LinkUnit) (arrival : Nat) (f : LinkIdle) : LinkUnit :=
  let l := { l with echo := some { stamp := f.sendStamp, arrival := arrival } }
  match measuredDelay arrival f with
  | some n => { l with delay := n, delayMeasured := true }
  | none => l

/-- The good run, the neighbour and the heard flag after a good LINK_IDLE (R4). -/
def LinkUnit.goodIdle (l : LinkUnit) (sender : Nat) : LinkUnit :=
  let run := if l.neighbour = some sender ∨ l.neighbour = none then bump l.run else 1
  { l with neighbour := some sender, run := run, heard := l.heard || decide (4 ≤ run) }

/-- The count toward UP after a good LINK_IDLE in TRAINING (R5). -/
def LinkUnit.countAfter (l : LinkUnit) (f : LinkIdle) : Nat :=
  if f.heard && (decide (l.neighbour = some f.sender) || l.neighbour.isNone) then bump l.upCount else 0

/-- A frame ends the good run at 0 (R4), and with it the count toward UP (R5). -/
def LinkUnit.endRun (l : LinkUnit) : LinkUnit := { l with run := 0, upCount := 0 }

/-- The error window with a newest entry, at most 64 (R7). -/
def LinkUnit.record (l : LinkUnit) (fail : Bool) : LinkUnit := { l with window := pushBounded l.window fail 64 }

/-- The failed entries of the error window. -/
def LinkUnit.fails (l : LinkUnit) : Nat := (l.window.filter fun b => b).length

/-- A frame fails its CRC or is malformed (R4, R7, R8); in TRAINING the error window stays as it is (log entry 33). -/
def badFrame (d : Side) (s : State) : State :=
  match (s.link d).state with
  | .down => s
  | .training => s.modLink d fun l => { l.endRun with crcErrors := bump l.crcErrors }
  | .up =>
    let s := s.modLink d fun l => { (l.endRun.record true) with crcErrors := bump l.crcErrors }
    if 4 ≤ (s.link d).fails then linkDrop d .degraded s else s

/-- A good LINK_IDLE in TRAINING (R3 to R5): UP needs a measurement made before it (log entry 9). -/
def idleTraining (d : Side) (t : RxTime) (f : LinkIdle) (s : State) : State :=
  let l := s.link d
  let n := l.countAfter f
  let up := decide (16 ≤ n) && (l.goodIdle f.sender).heard && l.delayMeasured
  let s := s.modLink d fun l => { ((l.goodIdle f.sender).measure t.arrival f) with upCount := n }
  if up then linkUp d t.received s else s

/-- A good LINK_IDLE in UP (R3, R4, R6). -/
def idleUp (d : Side) (t : RxTime) (f : LinkIdle) (s : State) : State :=
  let far := !f.heard || decide ((s.link d).neighbour ≠ some f.sender)
  let s := s.modLink d fun l => (l.goodIdle f.sender).measure t.arrival f
  if far then linkDrop d .farEnd s else s

/-- A LINK_IDLE that passed its CRC (R2 to R7). -/
def receiveIdle (d : Side) (t : RxTime) (f : LinkIdle) (s : State) : State :=
  let good := decide (s.cyc.address ≠ some f.sender)
  match (s.link d).state with
  | .down => s
  | .training => if good then idleTraining d t f s else s.modLink d LinkUnit.endRun
  | .up =>
    let s := s.modLink d fun l => l.record false
    if good then idleUp d t f s else s.modLink d LinkUnit.endRun

/-! ### Handing a ring frame (R14, R15) -/

/-- The correction entries of a STATUS that name this node and carry outcome NONE are applied and marked (R65). -/
def applyEntries (own : Option Nat) : List CorrEntry → State → List CorrEntry × State
  | [], s => ([], s)
  | e :: es, s =>
    if own = some e.target ∧ e.outcome = .none then
      let r := applyCorrection e.axis e.delta s
      let q := applyEntries own es r.2
      ({ e with outcome := r.1 } :: q.1, q.2)
    else
      let q := applyEntries own es s
      (e :: q.1, q.2)

/-- A STATUS from another origin: presence, trip fields, corrections (R14). The trip unit reads it before the axis unit
applies its entries, so a class INSTANT that puts the axes OFF makes its entries NOT_FOLLOWING. The spec gives no order:
DESIGN CHOICE (log entry 51). -/
def takeStatus (h : Header) (b : StatusBody) (s : State) : StatusBody × State :=
  let r := applyEntries s.cyc.address b.entries (takeStatusTrip h.origin b (markPresent h.origin b s))
  ({ b with entries := r.1 }, r.2)

/-- A frame at its origin's processing input is removed and handed to the block that sent it (R15). -/
def removeOwn (f : Frame) (s : State) : State :=
  match f.body with
  | .data d => ownDataBack f.hdr d s
  | .status b => ownStatusBack b s
  | .cycleStart _ => s
  | .tripFlash _ => s

/-- A frame from another origin at the processing input: the frame as it goes on, and the state (R14). -/
def handFrame (t : RxTime) (f : Frame) (s : State) : Frame × State :=
  match f.body with
  | .cycleStart c => (f, takeCycleStart c t s)
  | .status b =>
    let r := takeStatus f.hdr b s
    ({ f with body := .status r.1 }, r.2)
  | .tripFlash b => (f, takeFlash f.hdr.origin b s)
  | .data d =>
    if f.hdr.dest = 31 ∨ s.cyc.address = some f.hdr.dest then
      let r := takeSegment f.hdr d s
      ({ f with hdr := r.1 }, r.2)
    else (f, s)

/-- A ring frame that a link in UP passes to the ring path unit (R13 to R16, R20). -/
def receiveRing (d : Side) (t : RxTime) (f : Frame) (s : State) : State :=
  let f := f.arriveTransit (s.link d).delay
  if !s.ring.mode.uses d then s.modRing fun u => { u with unusedInputs := bump u.unusedInputs }
  else if s.ring.mode.procInput = some d then
    if s.cyc.address = some f.hdr.origin then removeOwn f s
    else
      let r := handFrame t f s
      forwardProcessed t r.1 r.2
  else forward d.other t f s

/-- A ring frame is received on a link (R2, R4, R7, R8); one with a field out of its range is malformed (R170). -/
def receiveFrame (d : Side) (t : RxTime) (f : Frame) (s : State) : State :=
  if !f.inRange then badFrame d s
  else
    match (s.link d).state with
    | .down => s
    | .training => s
    | .up => receiveRing d t f (s.modLink d fun l => l.record false)

/-- A LINK_IDLE is received on a link; a sender above 30 makes it malformed (R170). -/
def receiveLinkIdle (d : Side) (t : RxTime) (f : LinkIdle) (s : State) : State :=
  if f.inRange then receiveIdle d t f s else badFrame d s

/-- Bytes are received on a link (R8, R169, R170). -/
def receiveBytes (d : Side) (t : RxTime) (bytes : List Byte) (s : State) : State :=
  match parseFrame bytes with
  | none => badFrame d s
  | some (.idle f) => receiveLinkIdle d t f s
  | some (.ring f) => receiveFrame d t f s

/-! ### The commands -/

/-- SIGNAL_DETECT_ASSERTED (R2). -/
def execSignalDetectAsserted (d : Side) (s : State) : Host.Outcome State Fault Refusal :=
  .next (s.modLink d fun l => ({ l with signalDetect := true } : LinkUnit).tryTraining)

/-- HOLD_OFF_END (R2). -/
def execHoldOffEnd (d : Side) (s : State) : Host.Outcome State Fault Refusal :=
  .next (if (s.link d).state = .down then s.modLink d fun l => ({ l with holdOff := false } : LinkUnit).tryTraining
    else s)

/-- SIGNAL_DETECT_LOST (R5, R6). -/
def execSignalDetectLost (d : Side) (s : State) : Host.Outcome State Fault Refusal :=
  let s := s.modLink d fun l => { l with signalDetect := false }
  .next (if (s.link d).state = .down then s else linkDrop d .loss s)

/-- LINK_SILENT (R5, R6). -/
def execLinkSilent (d : Side) (s : State) : Host.Outcome State Fault Refusal :=
  .next (if (s.link d).state = .down then s else linkDrop d .silent s)

/-- LINK_IDLE_RECEIVED (R4). -/
def execLinkIdleReceived (d : Side) (t : RxTime) (f : LinkIdle) (s : State) : Host.Outcome State Fault Refusal :=
  .next (receiveLinkIdle d t f s)

/-- FRAME_DISCARDED_NOT_UP (R2, R4). -/
def execFrameDiscardedNotUp (d : Side) (t : RxTime) (f : Frame) (s : State) : Host.Outcome State Fault Refusal :=
  .next (receiveFrame d t f s)

/-- FRAME_CRC_FAIL (R8): the bytes are checked against their CRC and layout. -/
def execFrameCrcFail (d : Side) (t : RxTime) (bytes : List Byte) (s : State) : Host.Outcome State Fault Refusal :=
  .next (receiveBytes d t bytes s)

/-- FRAME_ON_UNUSED_INPUT (R13). -/
def execFrameOnUnusedInput (d : Side) (t : RxTime) (f : Frame) (s : State) : Host.Outcome State Fault Refusal :=
  .next (receiveFrame d t f s)

/-- FRAME_FORWARDED (R14, R16). -/
def execFrameForwarded (d : Side) (t : RxTime) (f : Frame) (s : State) : Host.Outcome State Fault Refusal :=
  .next (receiveFrame d t f s)

/-- CYCLE_START_RECEIVED (R29). -/
def execCycleStartReceived (d : Side) (t : RxTime) (h : Header) (c : CycleStart) (s : State) :
    Host.Outcome State Fault Refusal :=
  .next (receiveFrame d t { hdr := h, body := .cycleStart c } s)

/-- STATUS_RECEIVED (R14, R39, R65, R82). -/
def execStatusReceived (d : Side) (t : RxTime) (h : Header) (b : StatusBody) (s : State) :
    Host.Outcome State Fault Refusal :=
  .next (receiveFrame d t { hdr := h, body := .status b } s)

/-- TRIP_FLASH_RECEIVED (R81). -/
def execTripFlashReceived (d : Side) (t : RxTime) (h : Header) (f : TripFlash) (s : State) :
    Host.Outcome State Fault Refusal :=
  .next (receiveFrame d t { hdr := h, body := .tripFlash f } s)

/-- DATA_SEGMENT_RECEIVED (R106, R110). -/
def execDataSegmentReceived (d : Side) (t : RxTime) (h : Header) (b : DataBody) (s : State) :
    Host.Outcome State Fault Refusal :=
  .next (receiveFrame d t { hdr := h, body := .data b } s)

/-- OWN_DATA_RETURNED (R15, R105). -/
def execOwnDataReturned (d : Side) (t : RxTime) (h : Header) (b : DataBody) (s : State) :
    Host.Outcome State Fault Refusal :=
  .next (receiveFrame d t { hdr := h, body := .data b } s)

/-- OWN_STATUS_RETURNED (R15, R66). -/
def execOwnStatusReturned (d : Side) (t : RxTime) (h : Header) (b : StatusBody) (s : State) :
    Host.Outcome State Fault Refusal :=
  .next (receiveFrame d t { hdr := h, body := .status b } s)

/-- OWN_FRAME_REMOVED (R15). -/
def execOwnFrameRemoved (d : Side) (t : RxTime) (f : Frame) (s : State) : Host.Outcome State Fault Refusal :=
  .next (receiveFrame d t f s)

end Sys2Proof.Machine
end

