-- ==== Sys2Proof/Machine/Channels.lean ====
section
/-!
DEFINITION. What ports do with channels: configuration (R99, R116, R130), posting (R100, R132, R133), cancelling and
outcomes (R113, R114), the receive queue (R118 to R122), and the strip store (R137 to R142).
-/

namespace Sys2Proof.Machine

/-! ### Configuration (R99) -/

/-- Whether a channel holds traffic, so that a configuration write is refused with NOT_EMPTY (R99, R116, R130). -/
def State.channelBusy (s : State) (c : ChannelNo) : Bool :=
  let x := s.getChannel c
  !x.queue.isEmpty || !x.rx.isEmpty || !x.entries.isEmpty || x.store.slots.any (fun y => decide (y.state ≠ .empty)) ||
    !(s.contextsOn c).isEmpty

/-- The range of a configuration item written as a number; the stamp shaft's none apart (R99, R116, R130). -/
def ChannelItem.range : ChannelItem → Nat × Nat
  | .type => (0, 2)
  | .owner => (0, 1)
  | .rxDepth => (1, 4)
  | .flush => (0, 1)
  | .storeSize => (2, 32)
  | .stampShaft => (0, 3)
  | .tripFreeze => (0, 1)
  | .tResp => (1, 4095)

/-- The value in range that a written number is stored as. -/
def ChannelItem.stored (q : ChannelItem) (n : Nat) : Nat := clampNat n q.range.1 q.range.2

/-- Whether a write sets the clamp flag. -/
def ChannelItem.clamps (q : ChannelItem) (n : Nat) : Bool :=
  if q = .stampShaft ∧ n = 65535 then false else decide (q.stored n ≠ n)

/-- The outcome list is cleared, with its overflow flag (R99; log entry 24). -/
def Channel.clearOutcomes (x : Channel) : Channel := { x with outcomes := [], overflow := false }

/-- The SCREEN items at their RESET values (R116). -/
def Channel.freshScreen (x : Channel) : Channel :=
  { x with rx := [], readPos := 0, held := false, entries := [], flushed := 0, config := { x.config with tResp := 200 } }

/-- The store RUNNING with its gap table empty and its read position 0 (R130). -/
def StripStore.fresh (u : StripStore) : StripStore := { u with frozen := false, gaps := [], readPos := 0 }

/-- A channel takes a type (R99, R116, R130). -/
def Channel.setType (x : Channel) (t : ChannelType) : Channel :=
  let old := x.config.type
  if old = t then x
  else
    let y := if old = .screen ∨ t = .screen then x.freshScreen else x
    let y := if old = .image ∨ t = .image then { y with store := y.store.fresh } else y
    ({ y with config := { y.config with type := t } } : Channel).clearOutcomes

/-- A channel takes an owner port (R99). -/
def Channel.setOwner (x : Channel) (p : Port) : Channel :=
  if x.config.owner = p then x else ({ x with config := { x.config with owner := p } } : Channel).clearOutcomes

/-- A configuration item takes a written number (R99, R116, R130). -/
def Channel.setItem (x : Channel) (q : ChannelItem) (n : Nat) : Channel :=
  match q with
  | .type => x.setType (channelTypeOf (q.stored n))
  | .owner => x.setOwner (portOf (q.stored n))
  | .rxDepth => { x with config := { x.config with rxDepth := q.stored n } }
  | .flush => { x with config := { x.config with flush := q.stored n == 1 } }
  | .storeSize =>
    { x with config := { x.config with storeSize := q.stored n },
             store := { x.store with slots := List.replicate (q.stored n) Slot.blank } }
  | .stampShaft =>
    { x with config := { x.config with stampShaft := if n = 65535 then none else finOf 4 (q.stored n) } }
  | .tripFreeze => { x with config := { x.config with tripFreeze := q.stored n == 1 } }
  | .tResp => { x with config := { x.config with tResp := q.stored n } }

/-- A write of a channel configuration item (R99, R23). -/
def cmdChannelConfig (p : Port) (c : ChannelNo) (q : ChannelItem) (v : Word16) (s : State) : State :=
  writeByA p (channelAddr c q.off) (fun s =>
    if s.channelBusy c then s.modCyc fun u => { u with configResult := .notEmpty }
    else
      let s := s.modCyc fun u => { u with configResult := .accepted }
      let s := s.modChannel c fun x => x.setItem q v.toNat
      if q.clamps v.toNat then s.modChan fun u => { u with clampFlag := true } else s) s

/-! ### Posting (R100) -/

/-- The block numbers that a posting record lists, as far as its count goes; none where one is above 511. -/
def PostingRecord.listed (r : PostingRecord) : Option (List BlockNo) :=
  ((r.blocks.toList.take r.count.toNat).map fun w => finOf 512 w.toNat).foldr
    (fun x acc => match x, acc with
      | some n, some ns => some (n :: ns)
      | _, _ => none) (some [])

/-- Whether no block stands twice in a list. -/
def noRepeats : List BlockNo → Bool
  | [] => true
  | n :: ns => !ns.contains n && noRepeats ns

/-- Whether the listed blocks are held by the port and listed once each (R100). -/
def State.blocksPostable (s : State) (p : Port) (r : PostingRecord) : Bool :=
  match r.listed with
  | some ns => ns.all (fun n => decide (s.pool.owner n = .port p)) && noRepeats ns
  | none => false

/-- The code of a post to channel `c` (R100). -/
def State.postCode (s : State) (p : Port) (c : ChannelNo) : Code :=
  let x := s.getChannel c
  let r := (s.port p).posting
  let k := kindOf r.kind.toNat
  if x.config.type = .off then .channelOff
  else if x.config.owner ≠ p then .notOwner
  else if !x.config.type.carries k then .badKind
  else if 31 < r.dest.toNat ∨ s.cyc.address = some r.dest.toNat ∨ (r.dest.toNat = 31 ∧ (k = .request ∨ k = .response))
  then .badDest
  else if r.length.toNat < 1 ∨ 2048 < r.length.toNat ∨ r.count.toNat < 1 ∨ 8 < r.count.toNat ∨
      r.count.toNat ≠ segmentCount r.length.toNat then .badLength
  else if !s.blocksPostable p r then .badBlock
  else if x.config.type = .screen ∧ 8 ≤ x.queue.length then .queueFull
  else if k = .request ∧ 4 ≤ x.entries.length + (x.queue.filter fun m => decide (m.kind = .request)).length then
    .tooManyOutstanding
  else .accepted

/-- The stamp of a STRIP at its post (R132). -/
def State.stampFor (s : State) (c : ChannelNo) (k : MsgKind) : Option Stamp :=
  if k = .strip then
    (s.getChannel c).config.stampShaft.map fun i => { cycle := s.cyc.cycle, pos := (s.getShaft i).posInt }
  else none

/-- A STRIP accepted into an IMAGE queue of 4 supersedes the oldest message nothing of which has started (R133). -/
def supersede (c : ChannelNo) (s : State) : State :=
  if (s.getChannel c).config.type = .image ∧ 4 ≤ (s.getChannel c).queue.length then
    match (s.getChannel c).queue.findIdx? fun m => !m.started with
    | some i => finalOutcome c i .superseded 0 s
    | none => s
  else s

/-- An accepted message takes its tag, its blocks become TXQ, and it joins the tail (R100). -/
def joinQueue (p : Port) (c : ChannelNo) (s : State) : State :=
  let r := (s.port p).posting
  let k := kindOf r.kind.toNat
  let blocks := r.listed.getD []
  let tag := (s.getChannel c).nextTag
  let m : TxMsg :=
    { tag := tag, kind := k, dest := r.dest.toNat, length := r.length.toNat, blocks := blocks,
      answers := if k = .response then r.answers.setWidth 8 else 0, strip := if k = .strip then r.strip else 0,
      stamp := s.stampFor c k, tries := 0, started := false, finishing := false }
  let s := s.modChannel c fun x => { x with queue := x.queue ++ [m], nextTag := x.nextTag + 1 }
  ownBlocks blocks .txq (s.modPort p fun u => { u with postTag := tag.toNat })

/-- A write of the post word (R100). -/
def cmdPost (p : Port) (v : Word16) (s : State) : State :=
  let refuse (code : Code) : State :=
    (s.setCode p fun x => { x with post := code }).modPort p fun u => { u with postTag := 0 }
  match finOf 8 v.toNat with
  | none => refuse .channelOff
  | some c =>
    if s.postCode p c = .accepted then joinQueue p c (supersede c (s.setCode p fun x => { x with post := .accepted }))
    else refuse (s.postCode p c)

/-! ### Cancelling and outcomes (R113, R114) -/

/-- CANCEL HEAD (R114). -/
def cmdCancelHead (p : Port) (v : Word16) (s : State) : State :=
  let answer (code : Code) (s : State) : State := s.setCode p fun x => { x with cancelHead := code }
  match finOf 8 v.toNat with
  | none => answer .channelOff s
  | some c =>
    let x := s.getChannel c
    if x.config.owner ≠ p then answer .notOwner s
    else
      match x.queue with
      | [] => answer .empty s
      | m :: _ =>
        if x.attempt.any fun a => a.segs.any SegState.isOnWire then answer .inFlight s
        else if m.finishing then answer .accepted (removeMessage c 0 s)
        else answer .accepted (finalOutcome c 0 .cancelled 0 s)

/-- A port's outcome view is loaded with a record, and its first word returned; the pair's other word is the record's tag
(R172, 10.3). -/
def loadOutcome (p : Port) (c : ChannelNo) (r : OutcomeRecord) (s : State) : State :=
  (s.modChannel c fun x => { x with outView := x.outView.set p r }).drivePair p 0x38 r.outcome.num r.tag.toNat

/-- The first word of a port's outcome window (R113, R172). -/
def cmdOutcomeRead (p : Port) (c : ChannelNo) (s : State) : State :=
  match decide ((s.getChannel c).config.owner = p), (s.getChannel c).outcomes with
  | true, r :: rest => loadOutcome p c r (s.modChannel c fun x => { x with outcomes := rest })
  | _, _ => loadOutcome p c OutcomeRecord.blank s

/-! ### The receive queue (R118 to R122) -/

/-- Word `w` of the descriptor of a SCREEN channel (R118, 10.3); there is none past word 8. With the queue empty every word
reads 0 (log entry 45). -/
def Channel.descriptor (x : Channel) (w : Nat) : Nat :=
  match x.rx with
  | [] => 0
  | m :: _ =>
    match w with
    | 0 => m.origin
    | 1 => m.kind.num
    | 2 => m.tag.toNat
    | 3 => m.answers.toNat
    | 4 => boolNum m.toAll
    | 5 => m.length
    | 6 => m.cycle.toNat
    | 7 => x.rx.length
    | 8 => x.readPos
    | _ => 0

/-- The word address of a descriptor read. -/
def descriptorAddr (c : ChannelNo) (w : Fin 9) : Word16 := channelAddr c (0x20 + w.val)

/-- A read of a descriptor word (R118, R120, R161), and at a 32-bit port of its pair (R157). -/
def cmdDescriptor (p : Port) (c : ChannelNo) (w : Fin 9) (s : State) : State :=
  let x := s.getChannel c
  let addr := accessAddr (s.port p).wide (descriptorAddr c w)
  if x.config.type ≠ .screen then accessRead p addr .undefined s
  else if x.config.owner ≠ p then accessRead p addr .notOwner s
  else s.drivePair p w.val (x.descriptor w.val) (x.descriptor (pairPartner w.val))

/-- The head message leaves the receive queue, its blocks are freed in message order, and the read position returns to 0
(R119, R121). -/
def popRx (c : ChannelNo) (s : State) : State :=
  match (s.getChannel c).rx with
  | [] => s
  | m :: rest => freeBlocks m.blocks (s.modChannel c fun x => { x with rx := rest, readPos := 0 })

/-- The bytes a stream or strip read returns: up to the length, then zeros (R119, R138). -/
def streamBytes (mem : List Host.Cell) (blocks : List BlockNo) (length pos n : Nat) : List Byte :=
  (List.range n).map fun i => if pos + i < length then messageByte mem blocks (pos + i) else 0

/-- A port reads past what there is: 0, and its overread flag (R120, R138). -/
def overread (p : Port) (s : State) : State := (s.modPort p fun u => { u with overread := true }).driveNat p 0

/-- The word address of a channel's stream or strip window. -/
def streamAddr (c : ChannelNo) : Word16 := channelAddr c 0x30

/-- A stream read (R119, R120, R161). -/
def cmdStream (p : Port) (c : ChannelNo) (s : State) : State :=
  let x := s.getChannel c
  let u := s.port p
  if x.config.type ≠ .screen then accessRead p (streamAddr c) .undefined s
  else if x.config.owner ≠ p then accessRead p (streamAddr c) .notOwner s
  else
    match x.rx with
    | [] => overread p s
    | m :: _ =>
      let n := accessBytes u.wide
      let s := s.drive p (linesOfBytes u.wide u.bigEndian (streamBytes s.pool.mem m.blocks m.length x.readPos n))
      if m.length ≤ x.readPos + n then popRx c s else s.modChannel c fun y => { y with readPos := y.readPos + n }

/-- What a channel command of the owner port does once the channel is known (R114, R121, R122, R137, R139, R140). -/
def ownedChannel (p : Port) (v : Word16) (answer : Code → State → State) (f : ChannelNo → State) (s : State) : State :=
  match finOf 8 v.toNat with
  | none => answer .channelOff s
  | some c => if (s.getChannel c).config.owner ≠ p then answer .notOwner s else f c

/-- DISCARD HEAD (R121). -/
def cmdDiscardHead (p : Port) (v : Word16) (s : State) : State :=
  let answer (code : Code) (s : State) : State := s.setCode p fun x => { x with discardHead := code }
  ownedChannel p v answer (fun c =>
    if (s.getChannel c).config.type ≠ .screen then answer .notScreen s
    else if (s.getChannel c).rx.isEmpty then answer .empty s
    else answer .accepted (popRx c s)) s

/-- HOLD (R122). -/
def cmdHold (p : Port) (v : Word16) (s : State) : State :=
  let answer (code : Code) (s : State) : State := s.setCode p fun x => { x with hold := code }
  ownedChannel p v answer (fun c =>
    if (s.getChannel c).config.type ≠ .screen then answer .notScreen s
    else answer .accepted (s.modChannel c fun x => { x with held := true })) s

/-- RELEASE (R122). -/
def cmdRelease (p : Port) (v : Word16) (s : State) : State :=
  let answer (code : Code) (s : State) : State := s.setCode p fun x => { x with release := code }
  ownedChannel p v answer (fun c =>
    if (s.getChannel c).config.type ≠ .screen then answer .notScreen s
    else answer .accepted (s.modChannel c fun x => { x with held := false })) s

/-! ### The strip store (R137 to R142) -/

/-- The open slot: the one in READING (R130, R131). -/
def StripStore.openSlot (u : StripStore) : Option Nat := u.slots.findIdx? fun x => decide (x.state = .reading)

/-- The code of an OPEN SLOT past ownership and type, with the slot it opens (R137). -/
def StripStore.openCode (u : StripStore) (slot : Word16) : Code × Nat :=
  if u.openSlot.isSome then (.busy, 0)
  else if slot = 0xFFFF#16 then
    match u.oldestReady with
    | some i => (.accepted, i)
    | none => (.empty, 0)
  else
    match u.slots[slot.toNat]? with
    | none => (.badSlot, 0)
    | some x => if x.state = SlotState.ready then (.accepted, slot.toNat) else (.notReady, 0)

/-- Slot `i` takes a state. -/
def StripStore.setSlotState (u : StripStore) (i : Nat) (st : SlotState) : StripStore :=
  { u with slots := modifyNth u.slots i fun x => { x with state := st }, readPos := 0 }

/-- OPEN SLOT (R137). -/
def cmdOpenSlot (p : Port) (v : Word16) (slot : Word16) (s : State) : State :=
  let answer (code : Code) (s : State) : State := s.setCode p fun x => { x with openSlot := code }
  ownedChannel p v answer (fun c =>
    if (s.getChannel c).config.type ≠ .image then answer .notImage s
    else
      let r := (s.getChannel c).store.openCode slot
      if r.1 = .accepted then
        answer .accepted <| (s.modChannel c fun x => { x with store := x.store.setSlotState r.2 .reading }).modPort p
          fun u => { u with slotOpened := r.2 }
      else answer r.1 s) s

/-- A strip read (R138, R161). -/
def cmdStrip (p : Port) (c : ChannelNo) (s : State) : State :=
  let x := s.getChannel c
  let u := s.port p
  if x.config.type ≠ .image then accessRead p (streamAddr c) .undefined s
  else if x.config.owner ≠ p then accessRead p (streamAddr c) .notOwner s
  else
    match x.store.slots.find? fun y => decide (y.state = .reading) with
    | none => overread p s
    | some y =>
      if y.length ≤ x.store.readPos then overread p s
      else
        let n := accessBytes u.wide
        (s.drive p (linesOfBytes u.wide u.bigEndian
            (streamBytes s.pool.mem y.blocks y.length x.store.readPos n))).modChannel c fun z =>
          { z with store := { z.store with readPos := min (z.store.readPos + n) y.length } }

/-- CLOSE SLOT (R139). -/
def cmdCloseSlot (p : Port) (v : Word16) (s : State) : State :=
  let answer (code : Code) (s : State) : State := s.setCode p fun x => { x with closeSlot := code }
  ownedChannel p v answer (fun c =>
    if (s.getChannel c).config.type ≠ .image then answer .notImage s
    else
      match (s.getChannel c).store.openSlot with
      | none => answer .notOpen s
      | some i => answer .accepted (s.modChannel c fun x => { x with store := x.store.setSlotState i .ready })) s

/-- RELEASE SLOT (R139). -/
def cmdReleaseSlot (p : Port) (v : Word16) (s : State) : State :=
  let answer (code : Code) (s : State) : State := s.setCode p fun x => { x with releaseSlot := code }
  ownedChannel p v answer (fun c =>
    if (s.getChannel c).config.type ≠ .image then answer .notImage s
    else
      match (s.getChannel c).store.openSlot with
      | none => answer .notOpen s
      | some i =>
        let blocks := match (s.getChannel c).store.slots[i]? with
          | some x => x.blocks
          | none => []
        answer .accepted <| freeBlocks blocks <| s.modChannel c fun x =>
          { x with store := { x.store with slots := modifyNth x.store.slots i fun _ => Slot.blank, readPos := 0 } }) s

/-- FREEZE (R140). -/
def cmdFreeze (p : Port) (v : Word16) (s : State) : State :=
  let answer (code : Code) (s : State) : State := s.setCode p fun x => { x with freeze := code }
  ownedChannel p v answer (fun c =>
    if (s.getChannel c).config.type ≠ .image then answer .notImage s
    else answer .accepted (freezeStore c s)) s

/-- RESUME (R142). -/
def cmdResume (p : Port) (v : Word16) (s : State) : State :=
  let answer (code : Code) (s : State) : State := s.setCode p fun x => { x with resume := code }
  ownedChannel p v answer (fun c =>
    if (s.getChannel c).config.type ≠ .image then answer .notImage s
    else answer .accepted (s.modChannel c fun x => { x with store := { x.store with frozen := false } })) s

/-! ### The commands -/

/-- CHANNEL_CONFIG_WRITE (R99). -/
def execChannelConfigWrite (p : Port) (c : ChannelNo) (q : ChannelItem) (v : Word16) (s : State) :
    Host.Outcome State Fault Refusal :=
  .next (portWrite p s (cmdChannelConfig p c q v))

/-- POST (R100). -/
def execPost (p : Port) (v : Word16) (s : State) : Host.Outcome State Fault Refusal :=
  .next (portWrite p s (cmdPost p v))

/-- CANCEL_HEAD (R114). -/
def execCancelHead (p : Port) (v : Word16) (s : State) : Host.Outcome State Fault Refusal :=
  .next (portWrite p s (cmdCancelHead p v))

/-- OUTCOME_READ (R113). -/
def execOutcomeRead (p : Port) (c : ChannelNo) (s : State) : Host.Outcome State Fault Refusal :=
  .next (portRead p s (cmdOutcomeRead p c))

/-- DESCRIPTOR_READ (R118, R120). -/
def execDescriptorRead (p : Port) (c : ChannelNo) (w : Fin 9) (s : State) : Host.Outcome State Fault Refusal :=
  .next (portRead p s (cmdDescriptor p c w))

/-- STREAM_READ (R119). -/
def execStreamRead (p : Port) (c : ChannelNo) (s : State) : Host.Outcome State Fault Refusal :=
  .next (portRead p s (cmdStream p c))

/-- DISCARD_HEAD (R121). -/
def execDiscardHead (p : Port) (v : Word16) (s : State) : Host.Outcome State Fault Refusal :=
  .next (portWrite p s (cmdDiscardHead p v))

/-- HOLD (R122). -/
def execHold (p : Port) (v : Word16) (s : State) : Host.Outcome State Fault Refusal :=
  .next (portWrite p s (cmdHold p v))

/-- RELEASE (R122). -/
def execRelease (p : Port) (v : Word16) (s : State) : Host.Outcome State Fault Refusal :=
  .next (portWrite p s (cmdRelease p v))

/-- OPEN_SLOT (R137). -/
def execOpenSlot (p : Port) (v : Word16) (slot : Word16) (s : State) : Host.Outcome State Fault Refusal :=
  .next (portWrite p s (cmdOpenSlot p v slot))

/-- STRIP_READ (R138). -/
def execStripRead (p : Port) (c : ChannelNo) (s : State) : Host.Outcome State Fault Refusal :=
  .next (portRead p s (cmdStrip p c))

/-- CLOSE_SLOT (R139). -/
def execCloseSlot (p : Port) (v : Word16) (s : State) : Host.Outcome State Fault Refusal :=
  .next (portWrite p s (cmdCloseSlot p v))

/-- RELEASE_SLOT (R139). -/
def execReleaseSlot (p : Port) (v : Word16) (s : State) : Host.Outcome State Fault Refusal :=
  .next (portWrite p s (cmdReleaseSlot p v))

/-- FREEZE (R140). -/
def execFreeze (p : Port) (v : Word16) (s : State) : Host.Outcome State Fault Refusal :=
  .next (portWrite p s (cmdFreeze p v))

/-- RESUME (R142). -/
def execResume (p : Port) (v : Word16) (s : State) : Host.Outcome State Fault Refusal :=
  .next (portWrite p s (cmdResume p v))

end Sys2Proof.Machine
end

