-- ==== Sys2Proof/Machine/Locks.lean ====
section
/-!
DEFINITION. Locks (R145 to R148), signals (R151, R152), event flags (R153), the access capture (R161) and a port's soft
reset (R166).
-/

namespace Sys2Proof.Machine

/-! ### Locks -/

/-- What a read of a take word answers for a lock (R145). -/
def LockRec.takeCode (l : LockRec) (p : Port) : Code :=
  match l.holder with
  | none => .granted
  | some q => if q = p then .alreadyHeld else .heldByOther

/-- A lock after a take read of a port, given the port's notify option for it (R145). -/
def LockRec.take (l : LockRec) (p : Port) (notify : Bool) : LockRec :=
  match l.holder with
  | none => { l with holder := some p }
  | some q => if q = p then l else if notify then { l with waiter := some p } else l

/-- A lock's status word: the holder's code in bits 0 and 1, the waiter's in bits 2 and 3 (log entry 15). -/
def LockRec.status (l : LockRec) : Nat := holderNum l.holder + 4 * holderNum l.waiter

/-- What the other word of a take word's pair reads (R157, 10.3): below an odd lock's take word stands the status word of
the lock before it, and above an even lock's its give word, which reads 0 (log entry 15). -/
def State.besideTake (s : State) (j : LockNo) : Nat :=
  if j.val % 2 = 0 then 0
  else match finOf 16 (j.val - 1) with
    | some i => (s.getLock i).status
    | none => 0

/-- A read of a lock's take word, at 1000h + 3j (R145, 10.3). -/
def cmdLockTake (p : Port) (j : LockNo) (s : State) : State :=
  (s.modLock j fun l => l.take p ((s.locks.notify.get p).getLsbD j.val)).drivePair p (0x1000 + 3 * j.val)
    ((s.getLock j).takeCode p).num (s.besideTake j)

/-- A lock becomes FREE; LOCKFREE is raised at a waiter's port (R146, R148). -/
def freeLock (j : LockNo) (s : State) : State :=
  let waiter := (s.getLock j).waiter
  let s := s.modLock j fun _ => { holder := none, waiter := none }
  match waiter with
  | some q => raise q .lockfree s
  | none => s

/-- A write of a lock's give word (R146). -/
def cmdLockGive (p : Port) (j : LockNo) (s : State) : State :=
  if (s.getLock j).holder = some p then freeLock j s
  else s.modLocks fun u => { u with giveRefused := u.giveRefused.set p true }

/-- A port stops waiting for a lock (R147, R148). -/
def LockRec.unwait (l : LockRec) (p : Port) : LockRec := if l.waiter = some p then { l with waiter := none } else l

/-- A write of a port's notify options (R147). -/
def cmdNotify (p : Port) (v : Word16) (s : State) : State :=
  s.modLocks fun u =>
    { u with
      notify := u.notify.set p v
      locks := Vector.ofFn fun j => if v.getLsbD j.val then u.locks[j.val] else (u.locks[j.val]).unwait p }

/-! ### Signals -/

/-- A write of the signal set word (R151, R152). -/
def cmdSignalSet (p : Port) (v : Word16) (s : State) : State :=
  let q := p.other
  let old := s.locks.signals.get q
  let s' := s.modLocks fun u => { u with signals := u.signals.set q (old ||| v) }
  if v &&& ~~~old &&& s.locks.enables.get q ≠ 0 then raise q .signal s' else s'

/-- A write of the signal clear word (R151). -/
def cmdSignalClear (p : Port) (v : Word16) (s : State) : State :=
  s.modLocks fun u => { u with signals := u.signals.set p (u.signals.get p &&& ~~~v) }

/-- A write of the signal enable word (R152). -/
def cmdSignalEnable (p : Port) (v : Word16) (s : State) : State :=
  let old := s.locks.enables.get p
  let s' := s.modLocks fun u => { u with enables := u.enables.set p v }
  if v &&& ~~~old &&& s.locks.signals.get p ≠ 0 then raise p .signal s' else s'

/-! ### Event flags and the capture -/

/-- A write of the event clear word (R153). -/
def cmdEventClear (p : Port) (v : Word16) (s : State) : State :=
  s.modPort p fun u => { u with flags := u.flags &&& ~~~(v.setWidth 12) }

/-- A write of the event enable word (R153). -/
def cmdEventEnable (p : Port) (v : Word16) (s : State) : State := s.modPort p fun u => { u with enables := v.setWidth 12 }

/-- A write of the capture clear word (R161). -/
def cmdCaptureClear (p : Port) (s : State) : State := s.modPort p fun u => { u with capture := none }

/-! ### Port soft reset (R166) -/

/-- The locks at a port's soft reset: those it holds become FREE, and it waits for none (R148). -/
def resetLocks (p : Port) (s : State) : State :=
  let s := allLocks.foldl (fun s j => if (s.getLock j).holder = some p then freeLock j s else s) s
  s.modLocks fun u =>
    { u with
      locks := u.locks.map fun l => l.unwait p
      notify := u.notify.set p 0
      giveRefused := u.giveRefused.set p false
      signals := u.signals.set p 0
      enables := u.enables.set p 0 }

/-- Whether the head of a channel finishes its attempt at its owner's soft reset: a segment of it is on the wire, or it is
finishing already (R115, R166). -/
def Channel.headFinishes (x : Channel) : Bool :=
  match x.queue with
  | [] => false
  | m :: _ => m.finishing || x.attempt.any fun a => a.segs.any SegState.isOnWire

/-- The transmit queue at the owner's soft reset (R115). -/
def resetQueue (c : ChannelNo) (s : State) : State :=
  let x := s.getChannel c
  if x.headFinishes then
    freeBlocks (x.queue.drop 1 |>.map TxMsg.blocks).flatten <| s.modChannel c fun y =>
      { y with queue := (y.queue.take 1).map fun m => { m with finishing := true } }
  else
    freeBlocks (x.queue.map TxMsg.blocks).flatten <| idleHead false c <| withdraw c <| s.modChannel c fun y =>
      { y with queue := [] }

/-- Every context of a channel is discarded (R109). -/
def discardContexts (c : ChannelNo) (s : State) : State := (s.contextsOn c).foldl (fun s k => discardContext k s) s

/-- The receive queue is emptied and the hold opened (R115, R129). -/
def resetRx (c : ChannelNo) (s : State) : State :=
  freeBlocks ((s.getChannel c).rx.map RxMsg.blocks).flatten <| s.modChannel c fun y =>
    { y with rx := [], readPos := 0, held := false }

/-- The strip store returns to RUNNING with every slot EMPTY and no gap entry (R143). -/
def resetStore (c : ChannelNo) (s : State) : State :=
  freeBlocks ((s.getChannel c).store.slots.map Slot.blocks).flatten <| s.modChannel c fun y =>
    { y with store := { y.store.fresh with slots := y.store.slots.map fun _ => Slot.blank } }

/-- One channel of the resetting port (R115, R129, R143). -/
def resetChannel (c : ChannelNo) (s : State) : State :=
  (resetStore c (resetRx c (discardContexts c (resetQueue c s)))).modChannel c fun y =>
    { y with entries := [], outcomes := [], overflow := false }

/-- The port's own words and views of every channel (R131, R172). -/
def resetViews (p : Port) (s : State) : State :=
  s.modChan fun u =>
    { u with channels := u.channels.map fun x =>
        { x with slotSelect := x.slotSelect.set p 0, outView := x.outView.set p OutcomeRecord.blank } }

/-- What port A's soft reset alone resets: the snapshot (R70) and the configuration result word (R23). -/
def resetPortA (p : Port) (s : State) : State :=
  match p with
  | .a => (s.modAxisUnit fun u => { u with snapshot := none }).modCyc fun u => { u with configResult := .none }
  | .b => s

/-- The channels a port owns. -/
def State.ownedChannels (s : State) (p : Port) : List ChannelNo :=
  allChannels.filter fun c => decide ((s.getChannel c).config.owner = p)

/-- PORT SOFT RESET (R166). The port's channels are worked in ascending number, the contexts of one in ascending number and
its queues from the head, which orders their blocks in the free list: DESIGN CHOICE (log entry 59). -/
def cmdSoftReset (p : Port) (s : State) : State :=
  let s := resetLocks p s
  let s := freeBlocks (s.pool.heldBy p) s
  let s := (s.ownedChannels p).foldl (fun s c => resetChannel c s) s
  let s := resetViews p (resetPortA p s)
  let s := s.modAxisUnit fun u => { u with outbox := u.outbox.filter fun e => decide (e.port ≠ p) }
  s.modPort p fun u => { PortUnit.reset u.wide with lines := u.lines }

/-- Whether a message of a channel of the port is still finishing (R166). -/
def State.finishing (s : State) (p : Port) : Bool :=
  (s.ownedChannels p).any fun c => (s.getChannel c).queue.any fun m => m.finishing

/-! ### The commands -/

/-- LOCK_TAKE (R145). -/
def execLockTake (p : Port) (j : LockNo) (s : State) : Host.Outcome State Fault Refusal :=
  .next (portRead p s (cmdLockTake p j))

/-- LOCK_GIVE (R146). -/
def execLockGive (p : Port) (j : LockNo) (s : State) : Host.Outcome State Fault Refusal :=
  .next (portWrite p s (cmdLockGive p j))

/-- NOTIFY_OPTIONS_WRITE (R147). -/
def execNotifyOptionsWrite (p : Port) (v : Word16) (s : State) : Host.Outcome State Fault Refusal :=
  .next (portWrite p s (cmdNotify p v))

/-- SIGNAL_SET (R151). -/
def execSignalSet (p : Port) (v : Word16) (s : State) : Host.Outcome State Fault Refusal :=
  .next (portWrite p s (cmdSignalSet p v))

/-- SIGNAL_CLEAR (R151). -/
def execSignalClear (p : Port) (v : Word16) (s : State) : Host.Outcome State Fault Refusal :=
  .next (portWrite p s (cmdSignalClear p v))

/-- SIGNAL_ENABLE_WRITE (R152). -/
def execSignalEnableWrite (p : Port) (v : Word16) (s : State) : Host.Outcome State Fault Refusal :=
  .next (portWrite p s (cmdSignalEnable p v))

/-- EVENT_CLEAR (R153). -/
def execEventClear (p : Port) (v : Word16) (s : State) : Host.Outcome State Fault Refusal :=
  .next (portWrite p s (cmdEventClear p v))

/-- EVENT_ENABLE_WRITE (R153). -/
def execEventEnableWrite (p : Port) (v : Word16) (s : State) : Host.Outcome State Fault Refusal :=
  .next (portWrite p s (cmdEventEnable p v))

/-- CAPTURE_CLEAR (R161). -/
def execCaptureClear (p : Port) (s : State) : Host.Outcome State Fault Refusal :=
  .next (portWrite p s (cmdCaptureClear p))

/-- PORT_SOFT_RESET (R166). -/
def execPortSoftReset (p : Port) (s : State) : Host.Outcome State Fault Refusal :=
  .next (portWrite p s (cmdSoftReset p))

end Sys2Proof.Machine
end

