-- ==== Sys2Proof/Machine/Startup.lean ====
section
/-!
DEFINITION. RESET and the stabilisation wait (R162), node configuration (R23, R163), ATTACH and DETACH (R164, R165), and
the clock fault and restart (R167, R168).
-/

namespace Sys2Proof.Machine

/-! ### RESET and the wait (R162) -/

/-- RESET (R162): every block at its RESET values; the signal-detect pins stay as the transceivers drive them and the
waiting commands wait on (log entry 13). -/
def resetPart (widA widB : Bool) (s : State) : State :=
  State.afterReset s.links.west.signalDetect s.links.east.signalDetect widA widB s.pending

/-- All TRIPIN pins. -/
def allPins : List (Fin 8) := [0, 1, 2, 3, 4, 5, 6, 7]

/-- The TRIPIN pins are sensed as the wait ends (R74): bit n says that TRIPINn is low. -/
def senseTripins (low : BitVec 8) (s : State) : State :=
  allPins.foldl (fun s n => if low.getLsbD n.val then conditionAppears (pinSource n) s else s) s

/-- The wait ends on the crystal (R162, R167). -/
def waitEnds (low : BitVec 8) (s : State) : State :=
  senseTripins low (s.modClock fun u => { u with ready := true, state := .crystal, faults := 0, periods := 65536 })

/-- The wait ends on the internal oscillator: FALLBACK, with one fault and source 9 present (R162, R167, R76). The TRIPIN
sources latch first, in ascending number, and source 9 last; the spec gives no order of their trip records. DESIGN CHOICE
(log entry 54). -/
def waitTimesOut (low : BitVec 8) (s : State) : State :=
  conditionAppears 9 (senseTripins low (s.modClock fun u => { u with ready := true, state := .fallback, faults := 1 }))

/-! ### Configuration (R23, R163) -/

/-- A write of the node address (R163). -/
def cmdNodeAddress (p : Port) (v : Word16) (s : State) : State :=
  writeByA p 0x0002 (fun s =>
    if s.cyc.attached then s.setCode .a fun c => { c with nodeAddress := .attached }
    else if 30 < v.toNat then s.setCode .a fun c => { c with nodeAddress := .badAddress }
    else (s.setCode .a fun c => { c with nodeAddress := .accepted }).modCyc fun u => { u with address := some v.toNat }) s

/-- Whether a role write is refused with ATTACHED (R23). -/
def CycleUnit.refusesRole (u : CycleUnit) (r : Role) : Bool :=
  u.attached && (decide (u.role = .leader) || decide (r = .leader))

/-- A write of the role; a value above 2 is stored as LEADER under the clamp flag (R23). -/
def cmdRole (p : Port) (v : Word16) (s : State) : State :=
  writeByA p 0x000A (fun s =>
    let r := roleOf (clampNat v.toNat 0 2)
    if s.cyc.refusesRole r then s.modCyc fun u => { u with configResult := .attached }
    else
      s.modCyc fun u =>
        { u with role := r, configResult := .accepted, clampFlag := u.clampFlag || decide (2 < v.toNat) }) s

/-- The range of a configuration word (R23). -/
def ConfigItem.range : ConfigItem → Nat × Nat
  | .period => (250, 4000)
  | .holdLimit => (1, 32)
  | .captureWindow => (1, 50)
  | .lockCount => (4, 64)
  | .takeCount => (1, 32)
  | .allowance => (0, 65535)

/-- A written value before it is held against its range: P_c is first rounded down to a multiple of 125 (R23). -/
def ConfigItem.rounded (q : ConfigItem) (n : Nat) : Nat := if q = .period then n - n % 125 else n

/-- The value in range that a written number is stored as (R23). -/
def ConfigItem.stored (q : ConfigItem) (n : Nat) : Nat := clampNat (q.rounded n) q.range.1 q.range.2

def NodeConfig.setItem (x : NodeConfig) (q : ConfigItem) (n : Nat) : NodeConfig :=
  match q with
  | .period => { x with periodMicros := n }
  | .holdLimit => { x with holdLimit := n }
  | .captureWindow => { x with captureMicros := n }
  | .lockCount => { x with lockCount := n }
  | .takeCount => { x with takeCount := n }
  | .allowance => { x with allowance := n }

/-- A write of a configuration word (R23). -/
def cmdConfig (p : Port) (q : ConfigItem) (v : Word16) (s : State) : State :=
  writeByA p q.addr (fun s =>
    if q = .period ∧ s.cyc.attached then s.modCyc fun u => { u with configResult := .attached }
    else
      s.modCyc fun u =>
        { u with
          config := u.config.setItem q (q.stored v.toNat)
          configResult := .accepted
          clampFlag := u.clampFlag || decide (q.stored v.toNat ≠ q.rounded v.toNat) }) s

/-! ### ATTACH and DETACH -/

/-- What ATTACH, DETACH and a clock fault all set in the cycle unit (R22). -/
def CycleUnit.unlocked (u : CycleUnit) (phase : LeaderPhase) : CycleUnit :=
  { u with
    phase := phase, leader := none, runningDown := false, reference := none, refTransit := 0, period := u.periodNs,
    good := 0, missed := 0, pendingSwitch := none }

/-- The leader phase of an attached node that does not yet lead (R22, R24). -/
def CycleUnit.waitingPhase (u : CycleUnit) : LeaderPhase := if u.role = .leader then .waiting else .none

/-- A link's laser goes on and the link enters DOWN anew (R1, R2). -/
def LinkUnit.startUp (l : LinkUnit) : LinkUnit := { l.enterDown .none with laser := true }

/-- A link goes DOWN with its laser off (R1). -/
def LinkUnit.shutDown (reason : DownReason) (l : LinkUnit) : LinkUnit := { l.enterDown reason with laser := false }

/-- Both links change. -/
def bothLinks (f : LinkUnit → LinkUnit) (s : State) : State := (s.modLink .west f).modLink .east f

/-- The code of an ATTACH (R164). -/
def State.attachCode (s : State) : Code :=
  if s.cyc.attached then .attached
  else if s.cyc.address.isNone then .noAddress
  else if s.clock.state ≠ .crystal then .clockFault
  else .accepted

/-- The node becomes ATTACHED (R164, R22, R39, R45, R56). -/
def attachNode (s : State) : State :=
  let s := axesOff (shaftsAttach (bothLinks LinkUnit.startUp s))
  let s := setLock .unlocked <| setMode .isolated <| s.modCyc fun u =>
    { u.unlocked u.waitingPhase with attached := true, ring := .closed, missing := Vector.replicate 31 0 }
  clearPresence s

/-- ATTACH (R164). -/
def cmdAttach (p : Port) (s : State) : State :=
  writeByA p 0x0003 (fun s =>
    let t := s.setCode .a fun c => { c with attach := s.attachCode }
    if s.attachCode = .accepted then attachNode t else t) s

/-- Every attempt in progress is abandoned without a result (R101); a message that was only finishing leaves (log entry
23). The attempt that follows an abandoned re-offer of a held message is no re-offer and raises the tries, DESIGN CHOICE
(log entry 72). -/
def abandonAttempt (c : ChannelNo) (s : State) : State :=
  match (s.getChannel c).attempt, (s.getChannel c).queue with
  | some _, m :: _ => if m.finishing then removeMessage c 0 s else idleHead false c s
  | _, _ => s

/-- The channel unit at DETACH (R101, R107, R125, R135): the blocks of finishing heads are freed in ascending channel number,
then those of the contexts in ascending number. DESIGN CHOICE (log entry 59). -/
def detachChannels (s : State) : State :=
  let s := allChannels.foldl (fun s c => abandonAttempt c s) s
  let s := allContexts.foldl (fun s k => discardContext k s) s
  s.modChan fun u => { u with openPhase := false }

/-- The node becomes DETACHED (R165). -/
def detachNode (s : State) : State :=
  let s := withdrawAny (bothLinks (LinkUnit.shutDown .detached) s)
  let s := s.modRing fun u => { u with buffer := [], ownFlash := [], ownCycleStart := none, ownStatus := none }
  let s := setMode .isolated s
  let s := setLock .unlocked (s.modCyc fun u => { u.unlocked .none with attached := false })
  let s := dropStagedReset (shaftsRest s)
  detachChannels (setOutbox (loseSent s.axis.outbox) s)

/-- The code of a DETACH (R165). -/
def State.detachCode (s : State) : Code :=
  if !s.cyc.attached then .notAttached else if s.axis.anyActive then .axesActive else .accepted

/-- DETACH (R165). -/
def cmdDetach (p : Port) (s : State) : State :=
  writeByA p 0x0004 (fun s =>
    let t := s.setCode .a fun c => { c with detach := s.detachCode }
    if s.detachCode = .accepted then detachNode t else t) s

/-! ### Clock fault and restart (R167, R168) -/

/-- The crystal fails in CRYSTAL (R167). The through buffer is emptied without a count (R21; log entry 12).
A view that source 9 raises through STOP freezes stores under R140, beside R130's word that a clock fault leaves every item
unchanged. DESIGN CHOICE (log entry 60). -/
def clockFault (s : State) : State :=
  let s := s.modClock fun u => { u with state := .fallback, faults := bump u.faults, periods := 0 }
  let s := bothLinks (LinkUnit.shutDown .clock) s
  let s := setMode .isolated (s.modRing fun u => { u with buffer := [] })
  let s := setLock .unlocked <| s.modCyc fun u => u.unlocked (if u.attached then u.waitingPhase else .none)
  let s := dropStagedReset (shaftsRest (axesOff s))
  let s := s.modChan fun u => { u with openPhase := false }
  if (s.getSource 9).present then s else conditionAppears 9 s

/-- The address of the CLOCK RESTART word (10.3, R171). -/
def clockRestartAddr : Word16 := 0x0009

/-- CLOCK RESTART (R168). -/
def cmdClockRestart (p : Port) (s : State) : State :=
  writeByA p clockRestartAddr (fun s =>
    match s.clock.state with
    | .crystal => s.setCode .a fun c => { c with clockRestart := .notFaulted }
    | .restarting => s.setCode .a fun c => { c with clockRestart := .busy }
    | .fallback =>
      (s.setCode .a fun c => { c with clockRestart := .accepted }).modClock fun u =>
        { u with state := .restarting, periods := 0 }) s

/-- The count of crystal periods completes (R168). -/
def restartCompletes (s : State) : State :=
  let s := conditionGoes 9 (s.modClock fun u => { u with state := .crystal, periods := 65536 })
  if s.cyc.attached then bothLinks LinkUnit.startUp s else s

/-- The crystal gives no period for 1 µs during RESTARTING (R168). -/
def restartFails (s : State) : State :=
  s.modClock fun u => { u with state := .fallback, faults := bump u.faults, periods := 0 }

/-! ### The commands -/

/-- RESET (R162). -/
def execReset (widA widB : Bool) (s : State) : Host.Outcome State Fault Refusal := .next (resetPart widA widB s)

/-- WAIT_COUNT_RESTART (R162). -/
def execWaitCountRestart (s : State) : Host.Outcome State Fault Refusal :=
  .next (if s.clock.ready then s else s.modClock fun u => { u with periods := 0 })

/-- STABILISATION_WAIT_END (R162). -/
def execStabilisationWaitEnd (low : BitVec 8) (s : State) : Host.Outcome State Fault Refusal :=
  .next (if s.clock.ready then s else waitEnds low s)

/-- STABILISATION_TIMEOUT (R162). -/
def execStabilisationTimeout (low : BitVec 8) (s : State) : Host.Outcome State Fault Refusal :=
  .next (if s.clock.ready then s else waitTimesOut low s)

/-- CLOCK_FAULT (R167). -/
def execClockFault (s : State) : Host.Outcome State Fault Refusal :=
  .next (if s.clock.ready && decide (s.clock.state = .crystal) then clockFault s else s)

/-- CLOCK_RESTART (R168). -/
def execClockRestart (p : Port) (s : State) : Host.Outcome State Fault Refusal :=
  .next (portWrite p s (cmdClockRestart p))

/-- CLOCK_RESTART_COMPLETE (R168). -/
def execClockRestartComplete (s : State) : Host.Outcome State Fault Refusal :=
  .next (if s.clock.state = .restarting then restartCompletes s else s)

/-- RESTART_FAILED (R168). -/
def execRestartFailed (s : State) : Host.Outcome State Fault Refusal :=
  .next (if s.clock.state = .restarting then restartFails s else s)

/-- NODE_ADDRESS (R163). -/
def execNodeAddress (p : Port) (v : Word16) (s : State) : Host.Outcome State Fault Refusal :=
  .next (portWrite p s (cmdNodeAddress p v))

/-- ROLE_WRITE (R23). -/
def execRoleWrite (p : Port) (v : Word16) (s : State) : Host.Outcome State Fault Refusal :=
  .next (portWrite p s (cmdRole p v))

/-- CONFIGURATION_WRITE (R23). -/
def execConfigurationWrite (p : Port) (q : ConfigItem) (v : Word16) (s : State) : Host.Outcome State Fault Refusal :=
  .next (portWrite p s (cmdConfig p q v))

/-- ATTACH (R164). -/
def execAttach (p : Port) (s : State) : Host.Outcome State Fault Refusal := .next (portWrite p s (cmdAttach p))

/-- DETACH (R165). -/
def execDetach (p : Port) (s : State) : Host.Outcome State Fault Refusal := .next (portWrite p s (cmdDetach p))

end Sys2Proof.Machine
end

