-- ==== Sys2Proof/Machine/Map.lean ====
section
/-!
DEFINITION. The port window map (10.3, R171): what stands at each word address for a port, how it reads and what a write to
it does. Where the map lists items without addresses, they stand as R171 places them (log entry 15).
-/

namespace Sys2Proof.Machine

/-- How a word judges an access (R155, R161): it takes it, or refuses it with a reason. -/
inductive Judged (α : Type) where
  | takes (f : α)
  | refuses (r : AccessReason)

/-- What a port meets at a word address. A word reads a number; an acting word does something as it is read, and drives the
port's lines itself; a field of `parts` words from `base` is reached under R158 and R170, `stand` being what a write of its
last part alone completes; payload is carried under R159. -/
inductive Reg where
  | undefined
  | reserved
  | word (read : Nat) (write : Judged (Word16 → State → State))
  | acting (read : Judged (State → State))
  | field (base parts : Nat) (value stand : BitVec 48) (write : Judged (BitVec 48 → State → State))
  | payload (read : State → State) (write : Judged (BitVec 32 → State → State))

/-! ### Forms -/

def Judged.map {α β : Type} (j : Judged α) (g : α → β) : Judged β :=
  match j with
  | .takes f => .takes (g f)
  | .refuses r => .refuses r

/-- A write that port A alone makes, where `open_` says that its guard lets it through: refused READ_ONLY at port B, and
GUARDED at port A (R150, R155, R161). -/
def judgeA {α : Type} (p : Port) (open_ : Bool) (f : α) : Judged α :=
  match p, open_ with
  | .a, true => .takes f
  | .a, false => .refuses .guarded
  | .b, _ => .refuses .readOnly

/-- A word that only reads. -/
def Reg.shows (v : Nat) : Reg := .word v (.refuses .readOnly)

/-- A word that either port writes. -/
def Reg.either (v : Nat) (f : Word16 → State → State) : Reg := .word v (.takes f)

/-- A counter or flag that any port write clears (00_scope.md, Counters). -/
def Reg.clears (v : Nat) (f : State → State) : Reg := .word v (.takes fun _ => f)

/-- A word that port A alone writes, under a guard (10.3, R150). -/
def Reg.guarded (p : Port) (open_ : Bool) (v : Nat) (f : Word16 → State → State) : Reg := .word v (judgeA p open_ f)

/-- A word that port A alone writes (10.3). -/
def Reg.byA (p : Port) (v : Nat) (f : Word16 → State → State) : Reg := .guarded p true v f

/-- A field of 32 bits. -/
def Reg.pair (base : Nat) (v : BitVec 32) (w : Judged (BitVec 32 → State → State)) : Reg :=
  .field base 2 (v.setWidth 48) (v.setWidth 48) (w.map fun g x => g (x.setWidth 32))

/-- A field of 32 bits that only reads. -/
def Reg.showsPair (base : Nat) (v : BitVec 32) : Reg := .pair base v (.refuses .readOnly)

/-- A field of 32 bits that port A alone writes, under a guard. -/
def Reg.guardedPair (p : Port) (open_ : Bool) (base : Nat) (v : BitVec 32) (f : BitVec 32 → State → State) : Reg :=
  .pair base v (judgeA p open_ f)

/-- A field of 32 bits that port A alone writes. -/
def Reg.pairByA (p : Port) (base : Nat) (v : BitVec 32) (f : BitVec 32 → State → State) : Reg :=
  .guardedPair p true base v f

/-- A number as a field of 32 bits, two's complement. -/
def bits32 (v : Int) : BitVec 32 := BitVec.ofInt 32 v

/-- What a number that may be none reads as a field of 32 bits: R171's FFFFh stands in both words for none. DESIGN CHOICE
(log entry 15). -/
def optBits32 : Option (BitVec 32) → BitVec 32
  | some v => v
  | none => 0xFFFFFFFF#32

/-! ### The node region, 0000h to 003Fh -/

/-- The node region in the order of its row and of R22's table (R171). R22 gives the reference send time and the last ε no
width: both stand as pairs, modulo 2^32, which places the items behind them. DESIGN CHOICE (log entry 15). -/
def nodeReg (s : State) (p : Port) (a : Nat) : Reg :=
  let u := s.cyc
  let k := (s.port p).codes
  match a with
  | 0x00 => .shows (if s.clock.ready then Code.ready.num else Code.starting.num)
  | 0x01 => .shows (boolNum u.attached)
  | 0x02 => .byA p k.nodeAddress.num fun v => cmdNodeAddress p v
  | 0x03 => .byA p k.attach.num fun _ => cmdAttach p
  | 0x04 => .byA p k.detach.num fun _ => cmdDetach p
  | 0x05 => .either (if s.finishing p then Code.finishing.num else Code.done.num) fun _ => cmdSoftReset p
  | 0x06 => .either (boolNum (s.port p).bigEndian) fun v s =>
      s.modPort p fun u => { u with bigEndian := listedBool v.toNat }
  | 0x07 => .shows s.clock.state.num
  | 0x08 => .clears s.clock.faults fun s => s.modClock fun u => { u with faults := 0 }
  | 0x09 => .byA p k.clockRestart.num fun _ => cmdClockRestart p
  | 0x0A => .byA p u.role.num fun v => cmdRole p v
  | 0x0B => .byA p u.config.periodMicros fun v => cmdConfig p .period v
  | 0x0C => .byA p u.config.holdLimit fun v => cmdConfig p .holdLimit v
  | 0x0D => .byA p u.config.captureMicros fun v => cmdConfig p .captureWindow v
  | 0x0E => .byA p u.config.lockCount fun v => cmdConfig p .lockCount v
  | 0x0F => .byA p u.config.takeCount fun v => cmdConfig p .takeCount v
  | 0x10 => .byA p u.config.allowance fun v => cmdConfig p .allowance v
  | 0x11 => .shows u.phase.num
  | 0x12 => .shows u.epoch.toNat
  | 0x13 => .shows (optNum u.leader)
  | 0x14 => .shows u.lock.num
  | 0x15 => .shows (boolNum u.runningDown)
  | 0x16 => .shows u.cycle.toNat
  | 0x17 => .shows (optNum (u.reference.map fun r => r.cycle.toNat))
  | 0x18 => .showsPair 0x18 (optBits32 (u.reference.map fun r => bits32 r.send))
  | 0x19 => .showsPair 0x18 (optBits32 (u.reference.map fun r => bits32 r.send))
  | 0x1A => .showsPair 0x1A (bits32 u.refTransit)
  | 0x1B => .showsPair 0x1A (bits32 u.refTransit)
  | 0x1C => .showsPair 0x1C (bits32 u.period)
  | 0x1D => .showsPair 0x1C (bits32 u.period)
  | 0x1E => .shows u.good
  | 0x1F => .shows u.missed
  | 0x20 => .showsPair 0x20 (bits32 u.lastEps)
  | 0x21 => .showsPair 0x20 (bits32 u.lastEps)
  | 0x22 => .shows u.activePlan.val
  | 0x23 => .shows (optNum (u.pendingSwitch.map fun w => w.plan.val))
  | 0x24 => .shows (optNum (u.pendingSwitch.map fun w => w.cycle.toNat))
  | 0x25 => .shows u.ring.num
  | 0x26 => .clears u.outOfWindow fun s => s.modCyc fun u => { u with outOfWindow := 0 }
  | 0x27 => .clears u.foreign fun s => s.modCyc fun u => { u with foreign := 0 }
  | 0x28 => .clears u.holdovers fun s => s.modCyc fun u => { u with holdovers := 0 }
  | 0x29 => .clears (boolNum u.clampFlag) fun s => s.modCyc fun u => { u with clampFlag := false }
  | 0x2A => .clears (boolNum s.axis.clampFlag) fun s => s.modAxisUnit fun u => { u with clampFlag := false }
  | 0x2B => .clears (boolNum s.chan.clampFlag) fun s => s.modChan fun u => { u with clampFlag := false }
  | 0x2C => .clears (boolNum s.pool.clampFlag) fun s => s.modPool fun u => { u with clampFlag := false }
  | 0x2D => .shows u.configResult.num
  | _ => .undefined

/-! ### Links and ring path, 0040h to 007Fh -/

def linkReg (s : State) (d : Side) (base off : Nat) : Reg :=
  let l := s.link d
  match off with
  | 0 => .shows l.state.num
  | 2 => .showsPair (base + 2) (bits32 l.delay)
  | 3 => .showsPair (base + 2) (bits32 l.delay)
  | 4 => .clears l.downCount fun s => s.modLink d fun l => { l with downCount := 0 }
  | 5 => .clears l.crcErrors fun s => s.modLink d fun l => { l with crcErrors := 0 }
  | _ => .undefined

def ringReg (s : State) (off : Nat) : Reg :=
  let u := s.ring
  match off with
  | 0 => .shows u.mode.num
  | 1 => .shows u.freeSpace
  | 2 => .clears u.hopDrops fun s => s.modRing fun u => { u with hopDrops := 0 }
  | 3 => .clears u.overflows fun s => s.modRing fun u => { u with overflows := 0 }
  | 4 => .clears u.wrapDiscards fun s => s.modRing fun u => { u with wrapDiscards := 0 }
  | 5 => .clears u.unusedInputs fun s => s.modRing fun u => { u with unusedInputs := 0 }
  | 6 => .clears u.replacedFrames fun s => s.modRing fun u => { u with replacedFrames := 0 }
  | _ => .undefined

/-! ### Rosters and plans, 0080h to 00FFh -/

/-- A remote axis state word: the code of axis a in bits 2a and 2a + 1 (R39). -/
def axisStatesWord (v : Vector AxisState 8) : Nat := v.toList.foldr (fun x acc => x.num + 4 * acc) 0

def planReg (s : State) (p : Port) (off : Nat) : Reg :=
  let u := s.cyc
  if off < 8 then
    match finOf 4 (off / 2) with
    | some q => .pairByA p (0x80 + 2 * (off / 2)) (u.rosters[q.val].setWidth 32) fun v => cmdRoster p q v
    | none => .undefined
  else if 0x10 ≤ off ∧ off < 0x2F then
    match finOf 31 (off - 0x10) with
    | some n => .shows u.missing[n.val]
    | none => .undefined
  else if off = 0x30 ∨ off = 0x31 then
    .pairByA p 0xB0 (u.stagingCycle ++ u.stagingPlan) fun v =>
      cmdStaging p (v.extractLsb' 0 16) (v.extractLsb' 16 16)
  else if off = 0x32 then .shows (s.port p).codes.staging.num
  else if off = 0x34 then .byA p (s.port p).codes.cancelPlan.num fun _ => cmdCancelPlan p
  else if off = 0x38 then .shows u.planRecord.outcome.num
  else if off = 0x39 then .shows u.planRecord.plan.val
  else if off = 0x3A then .shows u.planRecord.cycle.toNat
  else if 0x40 ≤ off ∧ off < 0x5F then
    match finOf 31 (off - 0x40) with
    | some n => .shows (axisStatesWord u.remoteAxes[n.val])
    | none => .undefined
  else .undefined

/-! ### Line shafts, 0100h to 0184h -/

def shaftReg (s : State) (p : Port) (i : ShaftNo) (off : Nat) : Reg :=
  let x := s.getShaft i
  let base := 0x100 + 0x20 * i.val
  match off with
  | 0x00 => .showsPair base x.posInt
  | 0x01 => .showsPair base x.posInt
  | 0x02 => .shows x.posFrac.toNat
  | 0x04 => .showsPair (base + 4) (bits32 x.step)
  | 0x05 => .showsPair (base + 4) (bits32 x.step)
  | 0x08 => .field (base + 8) 3 (BitVec.ofInt 48 x.vel) (BitVec.ofInt 48 x.vel) (.refuses .readOnly)
  | 0x09 => .field (base + 8) 3 (BitVec.ofInt 48 x.vel) (BitVec.ofInt 48 x.vel) (.refuses .readOnly)
  | 0x0A => .field (base + 8) 3 (BitVec.ofInt 48 x.vel) (BitVec.ofInt 48 x.vel) (.refuses .readOnly)
  | 0x0B => .reserved
  | 0x0C => target x base
  | 0x0D => target x base
  | 0x0E => target x base
  | 0x0F => .reserved
  | 0x10 => limit base .aUp x.aUp
  | 0x11 => limit base .aUp x.aUp
  | 0x12 => limit base .aDn x.aDn
  | 0x13 => limit base .aDn x.aDn
  | 0x14 => limit base .aStop x.aStop
  | 0x15 => limit base .aStop x.aStop
  | 0x16 => limit base .aQuick x.aQuick
  | 0x17 => limit base .aQuick x.aQuick
  | 0x18 => .shows (boolNum x.stepFault)
  | 0x19 => .shows (boolNum s.shafts.resyncPending)
  | _ => .undefined
where
  target (x : Shaft) (base : Nat) : Reg :=
    .field (base + 0x0C) 3 (BitVec.ofInt 48 x.target) (BitVec.ofInt 48 x.target)
      (judgeA p true fun v => cmdTargetVelocity p i v)
  limit (base : Nat) (l : ShaftLimit) (n : Nat) : Reg :=
    .pairByA p (base + l.off) (bits32 n) fun v => cmdShaftLimit p i l v

def shaftUnitReg (s : State) (p : Port) (a : Nat) : Reg :=
  let u := s.shafts
  match a with
  | 0x180 => .pairByA p 0x180 (bits32 u.resyncWindow) fun v => cmdResyncWindow p v
  | 0x181 => .pairByA p 0x180 (bits32 u.resyncWindow) fun v => cmdResyncWindow p v
  | 0x182 => .clears (boolNum u.clampFlag) fun s => s.modShafts fun u => { u with clampFlag := false }
  | 0x183 => .shows (optNum (u.lastTaken.map fun t => t.epoch.toNat))
  | 0x184 => .shows (optNum (u.lastTaken.map fun t => t.node))
  | _ => .undefined

/-! ### Axes, 0200h to 065Fh -/

def entryReg (s : State) (p : Port) (i : AxisNo) (plan : PlanNo) (base off : Nat) : Reg :=
  let e := (s.getAxis i).entries[plan.val]
  let open_ := s.guardOpen .a (s.getAxis i).guardLock
  let write (f : EntryField) : Word16 → State → State := fun v => cmdPlanEntry p i plan f (v.setWidth 32)
  match off with
  | 0 => .guarded p open_ (boolNum e.valid) (write .valid)
  | 1 => .guarded p open_ e.shaft.val (write .shaft)
  | 2 => .guarded p open_ (BitVec.ofInt 16 e.num).toNat (write .numerator)
  | 3 => .guarded p open_ e.den (write .denominator)
  | 4 => .guardedPair p open_ (base + 8 * plan.val + 4) (bits32 e.phase) fun v => cmdPlanEntry p i plan .phase v
  | 5 => .guardedPair p open_ (base + 8 * plan.val + 4) (bits32 e.phase) fun v => cmdPlanEntry p i plan .phase v
  | _ => .undefined

def paramReg (s : State) (p : Port) (i : AxisNo) (base off : Nat) : Reg :=
  let x := s.getAxis i
  let open_ := s.guardOpen .a x.guardLock
  let write (q : AxisParam) : Word16 → State → State := fun v => cmdAxisParam p i q (v.setWidth 32)
  match off with
  | 0x20 => .guarded p open_ (boolNum x.enabled) (write .enabled)
  | 0x21 => .guarded p open_ x.corrSlew (write .corrSlew)
  | 0x22 => .guardedPair p open_ (base + 0x22) (bits32 x.engageSlew) fun v => cmdAxisParam p i .engageSlew v
  | 0x23 => .guardedPair p open_ (base + 0x22) (bits32 x.engageSlew) fun v => cmdAxisParam p i .engageSlew v
  | 0x24 => .guarded p open_ x.decel (write .decel)
  | 0x26 => .guardedPair p open_ (base + 0x26) (bits32 x.window) fun v => cmdAxisParam p i .window v
  | 0x27 => .guardedPair p open_ (base + 0x26) (bits32 x.window) fun v => cmdAxisParam p i .window v
  | 0x28 => .guarded p open_ x.followCount (write .followCount)
  | 0x29 => .guarded p open_ x.lag (write .lag)
  | 0x2A => .guarded p open_ (boolNum x.actualReport) (write .actualReport)
  | 0x2B => .guarded p open_ (optNum (x.guardLock.map fun j => j.val)) (write .guardLock)
  | 0x2C => .guarded p open_ (s.getSource (followSource i)).cls.word (write .followClass)
  | 0x2D => .guarded p open_ (s.getSource (stepSource i)).cls.word (write .stepClass)
  | _ => .undefined

/-- The pair of a history entry, newest last; FFFFh where there is none (R171). -/
def historyReg (x : Axis) (base off : Nat) : Reg :=
  .showsPair (base + 0x3E + 2 * ((off - 0x3E) / 2)) (optBits32 x.history[(off - 0x3E) / 2]?)

def runningReg (s : State) (p : Port) (i : AxisNo) (base off : Nat) : Reg :=
  let x := s.getAxis i
  match off with
  | 0x2E => .shows x.state.num
  | 0x30 => .showsPair (base + 0x30) x.g
  | 0x31 => .showsPair (base + 0x30) x.g
  | 0x32 => .shows (x.r.toNat)
  | 0x34 => .showsPair (base + 0x34) x.k
  | 0x35 => .showsPair (base + 0x34) x.k
  | 0x36 => .showsPair (base + 0x36) (bits32 x.cp)
  | 0x37 => .showsPair (base + 0x36) (bits32 x.cp)
  | 0x38 => .showsPair (base + 0x38) (bits32 x.u)
  | 0x39 => .showsPair (base + 0x38) (bits32 x.u)
  | 0x3A => .showsPair (base + 0x3A) x.p
  | 0x3B => .showsPair (base + 0x3A) x.p
  | 0x3C => .showsPair (base + 0x3C) (bits32 x.velOut)
  | 0x3D => .showsPair (base + 0x3C) (bits32 x.velOut)
  | 0x46 => .pairByA p (base + 0x46) x.actual fun v => cmdActual p i v
  | 0x47 => .pairByA p (base + 0x46) x.actual fun v => cmdActual p i v
  | 0x48 => .shows (boolNum x.fresh)
  | 0x49 => .shows x.run
  | 0x4A => .clears x.actualMissing fun s => s.modAxis i fun x => { x with actualMissing := 0 }
  | 0x4C => .showsPair (base + 0x4C) (bits32 x.lastError)
  | 0x4D => .showsPair (base + 0x4C) (bits32 x.lastError)
  | _ => if 0x3E ≤ off ∧ off < 0x46 then historyReg x base off else .undefined

def axisReg (s : State) (p : Port) (i : AxisNo) (off : Nat) : Reg :=
  let base := 0x200 + 0x80 * i.val
  if off < 0x20 then
    match finOf 4 (off / 8) with
    | some plan => entryReg s p i plan base (off % 8)
    | none => .undefined
  else if off < 0x2E then paramReg s p i base off
  else runningReg s p i base off

/-- The setpoint set, the axis commands and the correction words, 0600h to 065Fh. A 16-bit port B reads the set's pairs
word by word from the live set (R70), without the field latch of R158: DESIGN CHOICE (log entry 52). -/
def setpointReg (s : State) (p : Port) (a : Nat) : Reg :=
  let u := s.port p
  let k := u.codes
  if a = 0x600 then .acting (.takes (cmdSetpointFirst p))
  else if a = 0x631 then .acting (.takes (cmdSetpointFinal p))
  else if a < 0x632 then
    if a = 0x601 ∨ (a - 0x602) % 6 = 1 then .reserved
    else .shows (s.setpointWord p (a - 0x600)).toNat
  else
    match a with
    | 0x638 => .byA p k.engage.num fun v => cmdEngage p v
    | 0x639 => .byA p k.disengage.num fun v => cmdDisengage p v
    | 0x63A => .byA p k.drop.num fun v => cmdDrop p v
    | 0x640 => .either u.corrPosting.target.toNat fun v s =>
        s.modPort p fun u => { u with corrPosting := { u.corrPosting with target := v } }
    | 0x641 => .either u.corrPosting.axis.toNat fun v s =>
        s.modPort p fun u => { u with corrPosting := { u.corrPosting with axis := v } }
    | 0x642 => .pair 0x642 u.corrPosting.delta (.takes setDelta)
    | 0x643 => .pair 0x642 u.corrPosting.delta (.takes setDelta)
    | 0x644 => .either k.corrPost.num fun _ => cmdCorrectionPost p
    | 0x650 => .acting (.takes (cmdCorrectionResultRead p))
    | 0x651 => .shows u.corrView.target
    | 0x652 => .shows u.corrView.axis
    | 0x653 => .reserved
    | 0x654 => .showsPair 0x654 (bits32 u.corrView.delta)
    | 0x655 => .showsPair 0x654 (bits32 u.corrView.delta)
    | _ => .undefined
where
  setDelta (v : BitVec 32) (s : State) : State :=
    s.modPort p fun u => { u with corrPosting := { u.corrPosting with delta := v } }

/-! ### Trip unit, 0700h to 07FFh -/

def sourceReg (s : State) (p : Port) (n : SourceNo) (off : Nat) : Reg :=
  let x := s.getSource n
  match off with
  | 0 => .shows (boolNum x.present + 2 * boolNum x.latched)
  | 1 => .guarded p (s.classGuardOpen n) x.cls.word fun v => cmdSourceClass p n v
  | 2 => .byA p (boolNum x.enabled) fun v => cmdSourceEnable p n v
  | _ => .clears x.raises fun s => s.modSource n fun x => { x with raises := 0 }

/-- Word `i` of a trip record window (10.3); FFFFh for an origin without an address. -/
def recordWord (own : Option Nat) (r : TripRecord) (i : Nat) : Nat :=
  match i with
  | 0 => optNum (r.node own)
  | 1 => r.source.val
  | 2 => r.cls.word
  | _ => r.cycle.toNat

/-- A word of a record that may be absent, and then reads FFFFh (R171). -/
def recordReg (own : Option Nat) (r : Option TripRecord) (i : Nat) : Reg :=
  .shows (optNum (r.map fun q => recordWord own q i))

/-- The trip unit's region after R171: 'counters' is read as the ignored count alone, since the overflow count stands with the
trip list, and so TRIP RESET stands at 0784h. DESIGN CHOICE (log entry 15). -/
def tripReg (s : State) (p : Port) (off : Nat) : Reg :=
  let u := s.trip
  let k := (s.port p).codes
  if off < 0x80 then
    match finOf 32 (off / 4) with
    | some n => sourceReg s p n (off % 4)
    | none => .undefined
  else
    match off with
    | 0x80 => .shows u.localClass.word
    | 0x81 => .shows u.view.word
    | 0x82 => .shows u.resetNo.toNat
    | 0x83 => .clears u.ignored fun s => s.modTrip fun u => { u with ignored := 0 }
    | 0x84 => .either k.tripReset.num fun _ => cmdTripReset p
    | 0x85 => .byA p k.localClear fun _ => cmdLocalClear p
    | 0x86 => .either k.tripRequest.num fun _ => cmdTripRequest p
    | 0x87 => .either k.tripRelease.num fun _ => cmdTripRelease p
    | 0x90 => .shows (boolNum u.firstFault.isSome)
    | 0x91 => recordReg s.cyc.address u.firstFault 0
    | 0x92 => recordReg s.cyc.address u.firstFault 1
    | 0x93 => recordReg s.cyc.address u.firstFault 2
    | 0x94 => recordReg s.cyc.address u.firstFault 3
    | 0xA0 => .shows u.list.length
    | 0xA1 => .clears u.overflows fun s => s.modTrip fun u => { u with overflows := 0 }
    | _ =>
      if 0xA4 ≤ off ∧ off < 0xE4 then recordReg s.cyc.address u.list[(off - 0xA4) / 4]? ((off - 0xA4) % 4)
      else .undefined

/-! ### Packet memory, 0800h to 0BFFh -/

/-- A write of R_s (R95). -/
def cmdReserve (p : Port) (v : Word16) (s : State) : State :=
  writeByA p 0x0805 (fun s =>
    s.modPool fun u =>
      { u with reserve := clampNat v.toNat 0 128, clampFlag := u.clampFlag || decide (128 < v.toNat) }) s

/-- The packet memory words (R95 to R97). The 'take and give flags and counts' are read as the two flags, take and give, then
the two counts, take and give. DESIGN CHOICE (log entry 15). -/
def poolReg (s : State) (p : Port) (off : Nat) : Reg :=
  let u := s.port p
  match off with
  | 0 => .acting (.takes (cmdBlockTake p))
  | 1 => .acting (.takes (cmdScreenTake p))
  | 2 => .either 0 fun v => cmdBlockGive p v
  | 3 => .either (optNum (u.select.map fun n => n.val)) fun v s =>
      s.modPort p fun u => { u with select := finOf 512 v.toNat }
  | 4 => .shows s.pool.free.length
  | 5 => .byA p s.pool.reserve fun v => cmdReserve p v
  | 6 => .clears (boolNum u.takeRefused) fun s => s.modPort p fun u => { u with takeRefused := false }
  | 7 => .clears (boolNum u.giveRefused) fun s => s.modPort p fun u => { u with giveRefused := false }
  | 8 => .clears u.takeRefusedCount fun s => s.modPort p fun u => { u with takeRefusedCount := 0 }
  | 9 => .clears u.giveRefusedCount fun s => s.modPort p fun u => { u with giveRefusedCount := 0 }
  | _ =>
    if 0x200 ≤ off ∧ off < 0x400 then
      match finOf 512 (off - 0x200) with
      | some n => .shows (s.pool.owner n).num
      | none => .undefined
    else .undefined

/-! ### Posting and channel commands, 0C00h to 0C2Fh -/

/-- A word of a port's posting record takes a value. -/
def setPosting (p : Port) (f : PostingRecord → PostingRecord) (s : State) : State :=
  s.modPort p fun u => { u with posting := f u.posting }

def postReg (s : State) (p : Port) (off : Nat) : Reg :=
  let u := s.port p
  let r := u.posting
  let k := u.codes
  match off with
  | 0x00 => .either r.dest.toNat fun v => setPosting p fun r => { r with dest := v }
  | 0x01 => .either r.kind.toNat fun v => setPosting p fun r => { r with kind := v }
  | 0x02 => .either r.length.toNat fun v => setPosting p fun r => { r with length := v }
  | 0x03 => .either r.count.toNat fun v => setPosting p fun r => { r with count := v }
  | 0x04 => .either r.answers.toNat fun v => setPosting p fun r => { r with answers := v }
  | 0x05 => .either r.strip.toNat fun v => setPosting p fun r => { r with strip := v }
  | 0x10 => .either k.post.num fun v => cmdPost p v
  | 0x11 => .shows u.postTag
  | 0x20 => .either k.cancelHead.num fun v => cmdCancelHead p v
  | 0x21 => .either k.discardHead.num fun v => cmdDiscardHead p v
  | 0x22 => .either k.hold.num fun v => cmdHold p v
  | 0x23 => .either k.release.num fun v => cmdRelease p v
  | 0x24 => .either k.freeze.num fun v => cmdFreeze p v
  | 0x25 => .either k.resume.num fun v => cmdResume p v
  | 0x26 => .either k.closeSlot.num fun v => cmdCloseSlot p v
  | 0x27 => .either k.releaseSlot.num fun v => cmdReleaseSlot p v
  | 0x2A => openSlotPair k
  | 0x2B => openSlotPair k
  | 0x2C => .shows u.slotOpened
  | _ =>
    if 0x08 ≤ off ∧ off < 0x10 then
      match finOf 8 (off - 0x08) with
      | some i => .either r.blocks[i.val].toNat fun v =>
          setPosting p fun r => { r with blocks := modifyAt r.blocks i fun _ => v }
      | none => .undefined
    else .undefined
where
  /-- OPEN SLOT: the pair reads the code; its last part written alone stands with a channel number that names none. -/
  openSlotPair (k : ReadBacks) : Reg :=
    .field 0xC2A 2 (BitVec.ofNat 48 k.openSlot.num) 0xFFFF#48
      (.takes fun v => cmdOpenSlot p (v.extractLsb' 0 16) (v.extractLsb' 16 16))

/-! ### Locks, signals and events, 1000h to 107Fh -/

def lockReg (s : State) (p : Port) (off : Nat) : Reg :=
  if off < 0x30 then
    match finOf 16 (off / 3) with
    | some j =>
      match off % 3 with
      | 0 => .acting (.takes (cmdLockTake p j))
      | 1 => .either 0 fun _ => cmdLockGive p j
      | _ => .shows (s.getLock j).status
    | none => .undefined
  else
    match off with
    | 0x30 => .either (s.locks.notify.get p).toNat fun v => cmdNotify p v
    | 0x31 => .either (s.locks.signals.get p.other).toNat fun v => cmdSignalSet p v
    | 0x32 => .either (s.locks.signals.get p).toNat fun v => cmdSignalClear p v
    | 0x33 => .either (s.locks.enables.get p).toNat fun v => cmdSignalEnable p v
    | _ => .undefined

/-- The event words and the access capture. The capture's second word reads 0 for a read and 1 for a write: 10.1 lists no
code. DESIGN CHOICE (log entry 15). -/
def eventReg (s : State) (p : Port) (off : Nat) : Reg :=
  let u := s.port p
  match off with
  | 0 => .shows u.flags.toNat
  | 1 => .either 0 fun v => cmdEventClear p v
  | 2 => .either u.enables.toNat fun v => cmdEventEnable p v
  | 3 => .shows (optNum (u.capture.map fun c => c.addr.toNat))
  | 4 => .shows (optNum (u.capture.map fun c => boolNum c.write))
  | 5 => .shows (optNum (u.capture.map fun c => c.reason.num))
  | 6 => .either 0 fun _ => cmdCaptureClear p
  | 7 => .clears u.accessCount fun s => s.modPort p fun u => { u with accessCount := 0 }
  | _ => .undefined

/-! ### Channels, 1400h to 17FFh -/

def channelConfigReg (s : State) (p : Port) (c : ChannelNo) (off : Nat) : Reg :=
  let x := (s.getChannel c).config
  match off with
  | 0 => .byA p x.type.num fun v => cmdChannelConfig p c .type v
  | 1 => .byA p x.owner.num fun v => cmdChannelConfig p c .owner v
  | 2 => .byA p x.rxDepth fun v => cmdChannelConfig p c .rxDepth v
  | 3 => .byA p (boolNum x.flush) fun v => cmdChannelConfig p c .flush v
  | 4 => .byA p x.storeSize fun v => cmdChannelConfig p c .storeSize v
  | 5 => .byA p (optNum (x.stampShaft.map fun i => i.val)) fun v => cmdChannelConfig p c .stampShaft v
  | 6 => .byA p (boolNum x.tripFreeze) fun v => cmdChannelConfig p c .tripFreeze v
  | 7 => .byA p x.tResp fun v => cmdChannelConfig p c .tResp v
  | _ => .undefined

/-- The running state of a channel that 10.3 gives words. It places none for Hold, the read positions or the rest of the
strip store's state: both ports read those as items without an address, DESIGN CHOICE (`ChannelStateItem`, log entry 14).
The 'queue counts' are read as the numbers of messages in the transmit and the receive queue: no word counts the outcome
list or shows a queued message's fields. DESIGN CHOICE (log entry 15). -/
def channelStateReg (s : State) (c : ChannelNo) (off : Nat) : Reg :=
  let x := s.getChannel c
  match off with
  | 0x10 => .shows x.nextTag.toNat
  | 0x11 => .shows x.attemptNo.toNat
  | 0x12 => .shows x.queue.length
  | 0x13 => .shows x.rx.length
  | 0x14 => .shows x.head.num
  | 0x15 => .clears x.flushed fun s => s.modChannel c fun x => { x with flushed := 0 }
  | 0x16 => .clears x.store.overwrites fun s =>
      s.modChannel c fun x => { x with store := { x.store with overwrites := 0 } }
  | 0x17 => .clears x.store.missed fun s => s.modChannel c fun x => { x with store := { x.store with missed := 0 } }
  | 0x18 => .clears x.store.outOfOrder fun s =>
      s.modChannel c fun x => { x with store := { x.store with outOfOrder := 0 } }
  | _ => .undefined

/-- The stream or strip window: at a 16-bit port one word, at a 32-bit port a pair (10.3). -/
def streamReg (s : State) (p : Port) (c : ChannelNo) (off : Nat) : Reg :=
  if off = 0x31 ∧ !(s.port p).wide then .undefined
  else
    match (s.getChannel c).config.type with
    | .screen => .payload (cmdStream p c) (.refuses .readOnly)
    | .image => .payload (cmdStrip p c) (.refuses .readOnly)
    | .off => .undefined

def outcomeReg (s : State) (p : Port) (c : ChannelNo) (off : Nat) : Reg :=
  let r := (s.getChannel c).outView.get p
  match off with
  | 0x38 => .acting (.takes (cmdOutcomeRead p c))
  | 0x39 => .shows r.tag.toNat
  | 0x3A => .shows r.kind.num
  | 0x3B => .shows r.dest
  | 0x3C => .shows r.tries
  | 0x3D => .shows r.takers
  | _ => .reserved

/-- A word of the slot record view; zeros where the select word names no slot (R131, 10.3). -/
def slotViewReg (slot : Option Slot) (base off : Nat) : Reg :=
  match off with
  | 0x41 => .shows (num fun x => x.state.num)
  | 0x42 => .shows (num fun x => x.source)
  | 0x43 => .shows (num fun x => x.strip.toNat)
  | 0x44 => .shows (num fun x => x.length)
  | 0x45 => .shows (num fun x => x.arrival.toNat)
  | 0x46 => .shows (num fun x => optNum (x.stamp.map fun t => t.cycle.toNat))
  | 0x47 => .reserved
  | 0x48 => .showsPair (base + 0x48) stampPos
  | 0x49 => .showsPair (base + 0x48) stampPos
  | 0x4A => .shows (num fun x => boolNum x.toAll)
  | 0x4B => .shows (num fun x => x.seq)
  | _ => .undefined
where
  num (f : Slot → Nat) : Nat := match slot with
    | some x => f x
    | none => 0
  stampPos : BitVec 32 := match slot with
    | some x => optBits32 (x.stamp.map fun t => t.pos)
    | none => 0

/-- The slot select word and the slot record view of 10.3. The word holds and reads the number last written, which selects no
slot while it is S or more. DESIGN CHOICE (log entry 70). -/
def slotReg (s : State) (p : Port) (c : ChannelNo) (base off : Nat) : Reg :=
  let x := s.getChannel c
  if x.config.type ≠ .image then .undefined
  else if off = 0x40 then
    .either (x.slotSelect.get p).toNat fun v s => s.modChannel c fun x => { x with slotSelect := x.slotSelect.set p v }
  else slotViewReg x.store.slots[(x.slotSelect.get p).toNat]? base off

/-- A word of the outstanding table; state in bit 12 and age in bits 0 to 11 of the fourth word, FFFFh where there is no
entry. -/
def outstandingReg (s : State) (c : ChannelNo) (off : Nat) : Reg :=
  let x := s.getChannel c
  if x.config.type ≠ .screen then .undefined
  else
    .shows <| optNum <| (x.entries[(off - 0x50) / 4]?).map fun e =>
      match (off - 0x50) % 4 with
      | 0 => e.dest
      | 1 => e.tag.toNat
      | 2 => e.cycle.toNat
      | _ => e.state.num * 4096 + e.age

def channelReg (s : State) (p : Port) (c : ChannelNo) (off : Nat) : Reg :=
  if off < 0x10 then channelConfigReg s p c off
  else if off < 0x20 then channelStateReg s c off
  else if off < 0x29 then
    match finOf 9 (off - 0x20) with
    | some w =>
      if (s.getChannel c).config.type ≠ .screen then .undefined
      else if (s.getChannel c).config.owner ≠ p then .acting (.refuses .notOwner)
      else .acting (.takes (cmdDescriptor p c w))
    | none => .undefined
  else if off = 0x30 ∨ off = 0x31 then streamReg s p c off
  else if 0x38 ≤ off ∧ off < 0x3F then outcomeReg s p c off
  else if 0x40 ≤ off ∧ off < 0x4C then slotReg s p c (0x1400 + 0x80 * c.val) off
  else if 0x50 ≤ off ∧ off < 0x60 then outstandingReg s c off
  else .undefined

/-! ### Payload windows -/

/-- A read of a common area (R98). -/
def cmdAreaRead (p : Port) (a : AreaNo) (word : Fin 512) (s : State) : State :=
  let u := s.port p
  s.drive p (linesOfBytes u.wide u.bigEndian
    (Memory.readBytes s.pool.mem (areaAddr a (windowOffset u.wide word.val)) (accessBytes u.wide)))

def areaReg (p : Port) (off : Nat) : Reg :=
  match finOf 8 (off / 0x200), finOf 512 (off % 0x200) with
  | some a, some w => .payload (cmdAreaRead p a w) (.takes fun v => cmdAreaWrite p a w v)
  | _, _ => .undefined

def blockWindowReg (p : Port) (off : Nat) : Reg :=
  match finOf 128 off with
  | some w => .payload (cmdBlockWindow p w none) (.takes fun v => cmdBlockWindow p w (some v))
  | none => .undefined

/-! ### The whole map (10.3) -/

/-- What port `p` meets at word address `a`. -/
def State.regAt (s : State) (p : Port) (a : Nat) : Reg :=
  if a < 0x40 then nodeReg s p a
  else if a < 0x60 then linkReg s .west 0x40 (a - 0x40)
  else if a < 0x78 then linkReg s .east 0x60 (a - 0x60)
  else if a < 0x80 then ringReg s (a - 0x78)
  else if a < 0x100 then planReg s p (a - 0x80)
  else if a < 0x180 then
    match finOf 4 ((a - 0x100) / 0x20) with
    | some i => shaftReg s p i ((a - 0x100) % 0x20)
    | none => .undefined
  else if a < 0x190 then shaftUnitReg s p a
  else if a < 0x200 then .undefined
  else if a < 0x600 then
    match finOf 8 ((a - 0x200) / 0x80) with
    | some i => axisReg s p i ((a - 0x200) % 0x80)
    | none => .undefined
  else if a < 0x660 then setpointReg s p a
  else if a < 0x700 then .undefined
  else if a < 0x800 then tripReg s p (a - 0x700)
  else if a < 0xC00 then poolReg s p (a - 0x800)
  else if a < 0xC30 then postReg s p (a - 0xC00)
  else if a < 0x1000 then .undefined
  else if a < 0x1040 then lockReg s p (a - 0x1000)
  else if a < 0x1080 then eventReg s p (a - 0x1040)
  else if a < 0x1400 then .undefined
  else if a < 0x1800 then
    match finOf 8 ((a - 0x1400) / 0x80) with
    | some c => channelReg s p c ((a - 0x1400) % 0x80)
    | none => .undefined
  else if a < 0x2000 then .undefined
  else if a < 0x2080 then blockWindowReg p (a - 0x2000)
  else if a < 0x3000 then .undefined
  else if a < 0x4000 then areaReg p (a - 0x3000)
  else .undefined

end Sys2Proof.Machine
end

