-- ==== Sys2Proof/Machine/Unplaced.lean ====
section
/-!
DEFINITION. The registers that the rules let a port read or write and to which the window map gives no word (R1, R23, R71,
R74, R94, R99, R116, R120, R130, R144, R149): what they read and what a write does (log entry 14).
-/

namespace Sys2Proof.Machine

/-! ### What they read -/

/-- A word of the error window: entries 16i to 16i + 15, the oldest in bit 0, a fail being 1. -/
def windowWordOf (window : List Bool) (i : Nat) : Nat :=
  ((window.drop (16 * i)).take 16).foldr (fun b acc => boolNum b + 2 * acc) 0

/-- An item of a link (R1). -/
def LinkUnit.item (l : LinkUnit) : LinkItem → Nat
  | .laser => boolNum l.laser
  | .downReason => l.downReason.num
  | .delayMeasured => boolNum l.delayMeasured
  | .neighbour => optNum l.neighbour
  | .heard => boolNum l.heard
  | .goodRun => l.run
  | .upRun => l.upCount
  | .windowLength => l.window.length
  | .windowWord i => windowWordOf l.window i.val

/-- An item of the trip unit (R74); a lapsed guard reads FFFFh. -/
def TripUnit.item (u : TripUnit) : TripItem → Nat
  | .topSource => optNum (u.topSource.map fun n => n.val)
  | .announced => u.announced.word
  | .guardCycle => optNum (u.guard.map fun g => g.cycle.toNat)
  | .guardLeft => optNum (u.guard.map fun g => g.left)
  | .leaderEpoch => optNum (u.tripLeader.map fun t => t.epoch.toNat)
  | .leaderNode => optNum (u.tripLeader.map fun t => t.node)
  | .stagedReset => boolNum u.stagedReset
  | .request p => boolNum (u.requests.get p)

/-- An item of a channel (R116, R130); no open slot and no gap entry read FFFFh. The gap entry heard least recently is
entry 0. -/
def Channel.item (x : Channel) : ChannelStateItem → Nat
  | .hold => boolNum x.held
  | .readPosition => x.readPos
  | .storeState => boolNum x.store.frozen
  | .openSlot => optNum x.store.openSlot
  | .storeReadPosition => x.store.readPos
  | .completionSequence => x.store.nextSeq
  | .gapSource i => optNum ((x.store.gaps[i.val]?).map fun e => e.source)
  | .gapLast i => optNum ((x.store.gaps[i.val]?).map fun e => e.last.toNat)

/-- What a port reads of a register without an address. -/
def State.unplacedValue (s : State) (p : Port) : Unplaced → Nat
  | .areaBinding a => optNum ((s.locks.bindings[a.val]).map fun j => j.val)
  | .staleLimit => s.axis.staleLimit
  | .overreadFlag => boolNum (s.port p).overread
  | .lockGiveRefused => boolNum (s.locks.giveRefused.get p)
  | .axisRangeFlag => boolNum s.axis.rangeFlag
  | .outcomeOverflow c => boolNum (s.getChannel c).overflow
  | .lateReturnCount => s.chan.lateReturns
  | .busyMarkCount => s.chan.busyMarks
  | .discardCount => s.chan.discards
  | .staleCount => s.axis.stale
  | .blocksHeld q => (s.pool.heldBy q).length
  | .link d i => (s.link d).item i
  | .trip i => s.trip.item i
  | .channel c i => (s.getChannel c).item i

/-- A read of a register without an address: its word on lines 0 to 15, at either width. -/
def readUnplaced (p : Port) (q : Unplaced) (s : State) : State := s.driveNat p (s.unplacedValue p q % 65536)

/-! ### What a write does -/

/-- A write of S_lim, 1 to 15, clamped under the axis unit's clamp flag (R71). -/
def cmdStaleLimit (p : Port) (v : Word16) (s : State) : State :=
  match p with
  | .a =>
    s.modAxisUnit fun u =>
      { u with staleLimit := clampNat v.toNat 1 15,
               clampFlag := u.clampFlag || decide (clampNat v.toNat 1 15 ≠ v.toNat) }
  | .b => refuseUnplaced .b .staleLimit .readOnly s

/-- A write of a register that the map gives no address; those that only read refuse it (R161). -/
def writeUnplaced (p : Port) (q : Unplaced) (v : Word16) (s : State) : State :=
  match q with
  | .areaBinding a => cmdBindingWrite p a v s
  | .staleLimit => cmdStaleLimit p v s
  | .overreadFlag => s.modPort p fun u => { u with overread := false }
  | .lockGiveRefused => s.modLocks fun u => { u with giveRefused := u.giveRefused.set p false }
  | .axisRangeFlag => s.modAxisUnit fun u => { u with rangeFlag := false }
  | .outcomeOverflow c => s.modChannel c fun x => { x with overflow := false }
  | .lateReturnCount => s.modChan fun u => { u with lateReturns := 0 }
  | .busyMarkCount => s.modChan fun u => { u with busyMarks := 0 }
  | .discardCount => s.modChan fun u => { u with discards := 0 }
  | .staleCount => refuseUnplaced p q .readOnly s
  | .blocksHeld _ => refuseUnplaced p q .readOnly s
  | .link _ _ => refuseUnplaced p q .readOnly s
  | .trip _ => refuseUnplaced p q .readOnly s
  | .channel _ _ => refuseUnplaced p q .readOnly s

end Sys2Proof.Machine
end

