-- ==== Sys2Proof/Machine/Bus.lean ====
section
/-!
DEFINITION. Accesses of a port to a word address (R157, R158, R161, R162, R170): the width, the field latch, pairs of two
words, and refused accesses.
-/

namespace Sys2Proof.Machine

/-! ### Parts of a field -/

/-- Word `i` of a field, lowest first. -/
def fieldWord (v : BitVec 48) (i : Nat) : Word16 := v.extractLsb' (16 * i) 16

/-- A field's words, lowest first. -/
def fieldWords (parts : Nat) (v : BitVec 48) : List Word16 := (List.range parts).map (fieldWord v)

/-- The field that words spell, lowest first. -/
def ofWords (ws : List Word16) : BitVec 48 := BitVec.ofNat 48 (ws.foldr (fun w acc => w.toNat + 65536 * acc) 0)

/-- The port's latch is loaded (R158). -/
def setLatch (p : Port) (l : Latch) (s : State) : State := s.modPort p fun u => { u with latch := l }

/-- The latch that waits for the rest of a read; empty where nothing is left. -/
def Latch.ofRest (next : Nat) (rest : List Word16) : Latch :=
  match rest with
  | [] => .empty
  | _ :: _ => .reading next rest

/-! ### A 16-bit port -/

/-- A 16-bit read of word `a` of a field: the first loads the latch, a following one is answered from it, and any other
reads live (R158, R170). `latch` is the port's latch as the access found it. -/
def readFieldWord (p : Port) (latch : Latch) (a base parts : Nat) (v : BitVec 48) (s : State) : State :=
  if a = base then
    (setLatch p (Latch.ofRest (base + 1) ((fieldWords parts v).drop 1)) s).drive p ((fieldWord v 0).setWidth 32)
  else
    match latch with
    | .reading next (w :: rest) =>
      if next = a then (setLatch p (Latch.ofRest (a + 1) rest) s).drive p (w.setWidth 32)
      else s.drive p ((fieldWord v (a - base)).setWidth 32)
    | _ => s.drive p ((fieldWord v (a - base)).setWidth 32)

/-- A 16-bit write of word `a` of a field (R158, R170; log entry 26 for a part out of turn). -/
def writeFieldWord (p : Port) (latch : Latch) (a base parts : Nat) (stand : BitVec 48)
    (f : BitVec 48 → State → State) (v : Word16) (s : State) : State :=
  if a = base then setLatch p (.writing base (base + 1) [v]) s
  else
    let sent := match latch with
      | .writing b next ws => if b = base ∧ next = a then some (ws ++ [v]) else none
      | _ => none
    match sent, decide (a + 1 = base + parts) with
    | some ws, true => f (ofWords ws) s
    | some ws, false => setLatch p (.writing base (a + 1) ws) s
    | none, true => f (ofWords ((fieldWords (parts - 1) stand) ++ [v])) s
    | none, false => s

/-- A 16-bit read (R157, R161). -/
def read16 (p : Port) (latch : Latch) (a : Word16) (s : State) : State :=
  match s.regAt p a.toNat with
  | .undefined => accessRead p a .undefined s
  | .reserved => s.driveNat p 0
  | .word v _ => s.driveNat p (v % 65536)
  | .acting (.takes f) => f s
  | .acting (.refuses r) => accessRead p a r s
  | .field base parts v _ _ => readFieldWord p latch a.toNat base parts v s
  | .payload f _ => f s

/-- A 16-bit write (R157, R161). A guard judges the one write of a field that its last word completes (R158): the words
before it load the latch. -/
def write16 (p : Port) (latch : Latch) (a : Word16) (v : BitVec 32) (s : State) : State :=
  match s.regAt p a.toNat with
  | .undefined => access p a true .undefined s
  | .reserved => s
  | .word _ (.takes f) => f (v.setWidth 16) s
  | .word _ (.refuses r) => access p a true r s
  | .acting _ => access p a true .readOnly s
  | .field base parts _ stand (.takes f) => writeFieldWord p latch a.toNat base parts stand f (v.setWidth 16) s
  | .field base parts _ stand (.refuses .guarded) =>
    writeFieldWord p latch a.toNat base parts stand (fun _ => access p a true .guarded) (v.setWidth 16) s
  | .field _ _ _ _ (.refuses r) => access p a true r s
  | .payload _ (.takes f) => f v s
  | .payload _ (.refuses r) => access p a true r s

/-! ### A 32-bit port -/

/-- The low 32 bits of a 48-bit field, and its high word on lines 0 to 15 (R170). -/
def lowPair (v : BitVec 48) : BitVec 32 := v.setWidth 32
def highPair (v : BitVec 48) : BitVec 32 := (fieldWord v 2).setWidth 32

/-- A 32-bit read of a pair of a field: whole, or for a 48-bit field in two steps (R158, R170). -/
def readFieldPair (p : Port) (latch : Latch) (a base parts : Nat) (v : BitVec 48) (s : State) : State :=
  if parts = 2 then s.drive p (lowPair v)
  else if a = base then (setLatch p (.reading (base + 2) [fieldWord v 2]) s).drive p (lowPair v)
  else
    match latch with
    | .reading next (w :: _) =>
      if next = a then s.drive p (w.setWidth 32) else s.drive p (highPair v)
    | _ => s.drive p (highPair v)

/-- A 32-bit write of a pair of a field. -/
def writeFieldPair (p : Port) (latch : Latch) (a base parts : Nat) (stand : BitVec 48) (f : BitVec 48 → State → State)
    (v : BitVec 32) (s : State) : State :=
  if parts = 2 then f (v.setWidth 48) s
  else if a = base then setLatch p (.writing base (base + 2) [v.extractLsb' 0 16, v.extractLsb' 16 16]) s
  else
    let low := match latch with
      | .writing b next ws => if b = base ∧ next = a then ws else fieldWords 2 stand
      | _ => fieldWords 2 stand
    f (ofWords (low ++ [v.extractLsb' 0 16])) s

/-- A half of a pair read as its word judges it (R157): none where a reserved word ignores it, a refusal, or what it
answers. An acting word drives the pair's lines, of which the half takes its own. -/
def Reg.halfRead (p : Port) (a : Nat) : Reg → Option (Judged (State → Word16 × State))
  | .undefined => some (.refuses .undefined)
  | .reserved => none
  | .word v _ => some (.takes fun s => (BitVec.ofNat 16 v, s))
  | .acting j => some (j.map fun f s => (((f s).port p).lines.extractLsb' (16 * (a % 2)) 16, f s))
  | .field base _ v _ _ => some (.takes fun s => (fieldWord v (a - base), s))
  | .payload f _ => some (.takes fun s => (((f s).port p).lines.setWidth 16, f s))

/-- A half of a pair write as its word judges it (R157). Fields and payload that take a write take it as a pair, not here. -/
def Reg.halfWrite : Reg → Option (Judged (Word16 → State → State))
  | .undefined => some (.refuses .undefined)
  | .reserved => none
  | .word _ w => some w
  | .acting _ => some (.refuses .readOnly)
  | .field _ _ _ _ w => some (w.map fun _ _ s => s)
  | .payload _ w => some (w.map fun _ _ s => s)

/-- Whether a half of a pair is taken. -/
def isTaken {α : Type} : Option (Judged α) → Bool
  | some (.takes _) => true
  | _ => false

/-- The reason a half of a pair is refused with, if it is refused. -/
def refusal {α : Type} : Option (Judged α) → Option AccessReason
  | some (.refuses r) => some r
  | _ => none

/-- Whether a reason tells of a lock or an owner rather than of the map (R155). -/
def AccessReason.strong : AccessReason → Bool
  | .guarded => true
  | .notOwner => true
  | _ => false

/-- The reason of the one ACCESS of a pair neither half of which is taken (R157): GUARDED or NOT_OWNER where one half
gives it, and otherwise the even word's reason, or the odd one's where the even word is reserved. DESIGN CHOICE (log
entry 15). -/
def pairReason (even odd : Option AccessReason) : Option AccessReason :=
  match odd with
  | some r => if r.strong && !even.any AccessReason.strong then some r else even.or odd
  | none => even

/-- What is left of a pair's access once each half has been judged: nothing where one was taken or both are reserved, and
otherwise one ACCESS with the even word's address (R157). -/
def refusePair {α : Type} (p : Port) (a : Nat) (write : Bool) (x y : Option (Judged α)) (s : State) : State :=
  if isTaken x || isTaken y then s
  else
    match pairReason (refusal x) (refusal y) with
    | some r => access p (BitVec.ofNat 16 a) write r s
    | none => s

/-- What a half reads: 0 where it is not taken. -/
def runRead (j : Option (Judged (State → Word16 × State))) (s : State) : Word16 × State :=
  match j with
  | some (.takes f) => f s
  | _ => (0, s)

/-- What a half writes: nothing where it is not taken. -/
def runWrite (j : Option (Judged (Word16 → State → State))) (v : Word16) (s : State) : State :=
  match j with
  | some (.takes f) => f v s
  | _ => s

/-- A read of a pair of two words: the even one first, then the odd as the map stands after it (R157). -/
def readTwo (p : Port) (a : Nat) (s : State) : State :=
  let x := (s.regAt p a).halfRead p a
  let r := runRead x s
  let y := (r.2.regAt p (a + 1)).halfRead p (a + 1)
  let q := runRead y r.2
  (refusePair p a false x y q.2).drive p (q.1 ++ r.1)

/-- A write of a pair of two words, the even one first (R157). -/
def writeTwo (p : Port) (a : Nat) (v : BitVec 32) (s : State) : State :=
  let x := (s.regAt p a).halfWrite
  let t := runWrite x (v.extractLsb' 0 16) s
  let y := (t.regAt p (a + 1)).halfWrite
  refusePair p a true x y (runWrite y (v.extractLsb' 16 16) t)

/-- A 32-bit read of the pair at the even address `a` (R157). The setpoint set's first and final pairs act whole (R70). -/
def read32 (p : Port) (latch : Latch) (a : Nat) (s : State) : State :=
  if a = 0x600 then cmdSetpointFirst p s
  else if a = 0x630 then cmdSetpointFinal p s
  else
    match s.regAt p a with
    | .payload f _ => f s
    | .field base parts v _ _ => readFieldPair p latch a base parts v s
    | _ => readTwo p a s

/-- A 32-bit write of the pair at the even address `a` (R157). -/
def write32 (p : Port) (latch : Latch) (a : Nat) (v : BitVec 32) (s : State) : State :=
  match s.regAt p a with
  | .payload _ (.takes f) => f v s
  | .field base parts _ stand (.takes f) => writeFieldPair p latch a base parts stand f v s
  | _ => writeTwo p a v s

/-! ### An access -/

/-- What a port's access found in its field latch; every access but the awaited one empties it (R158). -/
def emptyLatch (p : Port) (s : State) : State := setLatch p .empty s

/-- A read of a word address (R157, R162): during the stabilisation wait the ready word answers STARTING and every other
read 0. -/
def busRead (p : Port) (a : Word16) (s : State) : State :=
  let u := s.port p
  if !s.clock.ready then
    s.driveNat p (if a = 0 ∨ (u.wide ∧ a = 1) then Code.starting.num else 0)
  else if u.wide then read32 p u.latch (a.toNat - a.toNat % 2) (emptyLatch p s)
  else read16 p u.latch a (emptyLatch p s)

/-- A write of a word address (R157, R162): ignored during the stabilisation wait. -/
def busWrite (p : Port) (a : Word16) (v : BitVec 32) (s : State) : State :=
  let u := s.port p
  if !s.clock.ready then s
  else if u.wide then write32 p u.latch (a.toNat - a.toNat % 2) v (emptyLatch p s)
  else write16 p u.latch a v (emptyLatch p s)

/-- An access to a word address: a write of the given lines, or a read. -/
def busAccess (p : Port) (a : Word16) (w : Option (BitVec 32)) (s : State) : State :=
  match w with
  | some v => busWrite p a v s
  | none => busRead p a s

/-! ### The commands -/

/-- REGISTER_WRITE (R157): a write of a word address, or of a register that the map does not place. -/
def execRegisterWrite (p : Port) (target : RegTarget) (w : BitVec 32) (s : State) : Host.Outcome State Fault Refusal :=
  .next (match target with
    | .addr a => busWrite p a w s
    | .unplaced q => portWrite p s (writeUnplaced p q (w.setWidth 16)))

/-- UNDEFINED_ACCESS (R161): an access that the map judges. -/
def execUndefinedAccess (p : Port) (a : Word16) (w : Option (BitVec 32)) (s : State) :
    Host.Outcome State Fault Refusal :=
  .next (busAccess p a w s)

/-- WIDE_FIELD_LOW_WORD_READ (R158, R170): a read of a word address, or of a register that the map does not place. -/
def execWideFieldLowWordRead (p : Port) (target : RegTarget) (s : State) : Host.Outcome State Fault Refusal :=
  .next (match target with
    | .addr a => busRead p a s
    | .unplaced q => portRead p s (readUnplaced p q))

end Sys2Proof.Machine
end

