-- ==== Sys2Proof/Machine/Dispatch.lean ====
section
/-!
DEFINITION. One arm per command (spec/opcode_table.json, in its order), each one call of that command's meaning.
-/

namespace Sys2Proof.Machine

/-- A command's effect on everything but the queue. -/
def exec (i : Instr) (s : State) : Host.Outcome State Fault Refusal :=
  match i with
  | .reset widA widB => Sys2Proof.Machine.execReset widA widB s
  | .waitCountRestart => Sys2Proof.Machine.execWaitCountRestart s
  | .stabilisationWaitEnd tripinLow => Sys2Proof.Machine.execStabilisationWaitEnd tripinLow s
  | .stabilisationTimeout tripinLow => Sys2Proof.Machine.execStabilisationTimeout tripinLow s
  | .clockFault => Sys2Proof.Machine.execClockFault s
  | .clockRestart p => Sys2Proof.Machine.execClockRestart p s
  | .clockRestartComplete => Sys2Proof.Machine.execClockRestartComplete s
  | .restartFailed => Sys2Proof.Machine.execRestartFailed s
  | .tripinConditionAppears n => Sys2Proof.Machine.execTripinConditionAppears n s
  | .tripinConditionGoes n => Sys2Proof.Machine.execTripinConditionGoes n s
  | .signalDetectAsserted side => Sys2Proof.Machine.execSignalDetectAsserted side s
  | .holdOffEnd side => Sys2Proof.Machine.execHoldOffEnd side s
  | .signalDetectLost side => Sys2Proof.Machine.execSignalDetectLost side s
  | .linkSilent side => Sys2Proof.Machine.execLinkSilent side s
  | .linkIdleReceived side t f => Sys2Proof.Machine.execLinkIdleReceived side t f s
  | .frameDiscardedNotUp side t f => Sys2Proof.Machine.execFrameDiscardedNotUp side t f s
  | .frameCrcFail side t bytes => Sys2Proof.Machine.execFrameCrcFail side t bytes s
  | .frameOnUnusedInput side t f => Sys2Proof.Machine.execFrameOnUnusedInput side t f s
  | .frameForwarded side t f => Sys2Proof.Machine.execFrameForwarded side t f s
  | .outputIdle side now => Sys2Proof.Machine.execOutputIdle side now s
  | .cycleStartReceived side t h c => Sys2Proof.Machine.execCycleStartReceived side t h c s
  | .statusReceived side t h b => Sys2Proof.Machine.execStatusReceived side t h b s
  | .tripFlashReceived side t h f => Sys2Proof.Machine.execTripFlashReceived side t h f s
  | .dataSegmentReceived side t h d => Sys2Proof.Machine.execDataSegmentReceived side t h d s
  | .ownDataReturned side t h d => Sys2Proof.Machine.execOwnDataReturned side t h d s
  | .ownStatusReturned side t h b => Sys2Proof.Machine.execOwnStatusReturned side t h b s
  | .ownFrameRemoved side t f => Sys2Proof.Machine.execOwnFrameRemoved side t f s
  | .listenEnd => Sys2Proof.Machine.execListenEnd s
  | .leaderBoundary => Sys2Proof.Machine.execLeaderBoundary s
  | .acquireMiss => Sys2Proof.Machine.execAcquireMiss s
  | .holdoverEntry => Sys2Proof.Machine.execHoldoverEntry s
  | .holdoverEvent => Sys2Proof.Machine.execHoldoverEvent s
  | .runningDownEvent => Sys2Proof.Machine.execRunningDownEvent s
  | .openPhaseEnd => Sys2Proof.Machine.execOpenPhaseEnd s
  | .segmentOffer => Sys2Proof.Machine.execSegmentOffer s
  | .segmentTimeout c index => Sys2Proof.Machine.execSegmentTimeout c index s
  | .retryWaitEnd c => Sys2Proof.Machine.execRetryWaitEnd c s
  | .heldWaitEnd c => Sys2Proof.Machine.execHeldWaitEnd c s
  | .contextStale k => Sys2Proof.Machine.execContextStale k s
  | .outstandingEntryTimeout c dest tag => Sys2Proof.Machine.execOutstandingEntryTimeout c dest tag s
  | .resetGuardLapse => Sys2Proof.Machine.execResetGuardLapse s
  | .nodeAddress p v => Sys2Proof.Machine.execNodeAddress p v s
  | .roleWrite p v => Sys2Proof.Machine.execRoleWrite p v s
  | .configurationWrite p item v => Sys2Proof.Machine.execConfigurationWrite p item v s
  | .attach p => Sys2Proof.Machine.execAttach p s
  | .detach p => Sys2Proof.Machine.execDetach p s
  | .portSoftReset p => Sys2Proof.Machine.execPortSoftReset p s
  | .rosterWrite p plan set => Sys2Proof.Machine.execRosterWrite p plan set s
  | .planStagingWrite p plan cycle => Sys2Proof.Machine.execPlanStagingWrite p plan cycle s
  | .cancelPlan p => Sys2Proof.Machine.execCancelPlan p s
  | .targetVelocityWrite p shaft v => Sys2Proof.Machine.execTargetVelocityWrite p shaft v s
  | .shaftLimitWrite p shaft limit v => Sys2Proof.Machine.execShaftLimitWrite p shaft limit v s
  | .planEntryWrite p axis plan field v => Sys2Proof.Machine.execPlanEntryWrite p axis plan field v s
  | .axisParameterWrite p axis param v => Sys2Proof.Machine.execAxisParameterWrite p axis param v s
  | .engage p axis => Sys2Proof.Machine.execEngage p axis s
  | .disengage p axis => Sys2Proof.Machine.execDisengage p axis s
  | .drop p axis => Sys2Proof.Machine.execDrop p axis s
  | .correctionPost p => Sys2Proof.Machine.execCorrectionPost p s
  | .correctionResultRead p => Sys2Proof.Machine.execCorrectionResultRead p s
  | .actualPositionWrite p axis v => Sys2Proof.Machine.execActualPositionWrite p axis v s
  | .setpointSetFirstRead p => Sys2Proof.Machine.execSetpointSetFirstRead p s
  | .setpointSetFinalRead p => Sys2Proof.Machine.execSetpointSetFinalRead p s
  | .sourceClassWrite p source v => Sys2Proof.Machine.execSourceClassWrite p source v s
  | .sourceEnableWrite p source v => Sys2Proof.Machine.execSourceEnableWrite p source v s
  | .tripRequest p => Sys2Proof.Machine.execTripRequest p s
  | .tripRelease p => Sys2Proof.Machine.execTripRelease p s
  | .tripReset p => Sys2Proof.Machine.execTripReset p s
  | .localClear p => Sys2Proof.Machine.execLocalClear p s
  | .blockTake p => Sys2Proof.Machine.execBlockTake p s
  | .screenTake p => Sys2Proof.Machine.execScreenTake p s
  | .blockGive p v => Sys2Proof.Machine.execBlockGive p v s
  | .blockWindowAccess p word w => Sys2Proof.Machine.execBlockWindowAccess p word w s
  | .commonAreaWrite p area word w => Sys2Proof.Machine.execCommonAreaWrite p area word w s
  | .areaBindingWrite p area v => Sys2Proof.Machine.execAreaBindingWrite p area v s
  | .channelConfigWrite p c item v => Sys2Proof.Machine.execChannelConfigWrite p c item v s
  | .post p v => Sys2Proof.Machine.execPost p v s
  | .cancelHead p v => Sys2Proof.Machine.execCancelHead p v s
  | .outcomeRead p c => Sys2Proof.Machine.execOutcomeRead p c s
  | .descriptorRead p c word => Sys2Proof.Machine.execDescriptorRead p c word s
  | .streamRead p c => Sys2Proof.Machine.execStreamRead p c s
  | .discardHead p v => Sys2Proof.Machine.execDiscardHead p v s
  | .hold p v => Sys2Proof.Machine.execHold p v s
  | .release p v => Sys2Proof.Machine.execRelease p v s
  | .openSlot p v slot => Sys2Proof.Machine.execOpenSlot p v slot s
  | .stripRead p c => Sys2Proof.Machine.execStripRead p c s
  | .closeSlot p v => Sys2Proof.Machine.execCloseSlot p v s
  | .releaseSlot p v => Sys2Proof.Machine.execReleaseSlot p v s
  | .freeze p v => Sys2Proof.Machine.execFreeze p v s
  | .resume p v => Sys2Proof.Machine.execResume p v s
  | .lockTake p lock => Sys2Proof.Machine.execLockTake p lock s
  | .lockGive p lock => Sys2Proof.Machine.execLockGive p lock s
  | .notifyOptionsWrite p v => Sys2Proof.Machine.execNotifyOptionsWrite p v s
  | .signalSet p v => Sys2Proof.Machine.execSignalSet p v s
  | .signalClear p v => Sys2Proof.Machine.execSignalClear p v s
  | .signalEnableWrite p v => Sys2Proof.Machine.execSignalEnableWrite p v s
  | .eventClear p v => Sys2Proof.Machine.execEventClear p v s
  | .eventEnableWrite p v => Sys2Proof.Machine.execEventEnableWrite p v s
  | .captureClear p => Sys2Proof.Machine.execCaptureClear p s
  | .undefinedAccess p addr w => Sys2Proof.Machine.execUndefinedAccess p addr w s
  | .registerWrite p target w => Sys2Proof.Machine.execRegisterWrite p target w s
  | .wideFieldLowWordRead p target => Sys2Proof.Machine.execWideFieldLowWordRead p target s

end Sys2Proof.Machine
end

