-- ==== Sys2Proof/Safety.lean ====
section
/-!
DEFINITION. What counts as a safe state: the invariants that the data book states of the whole part, each as a predicate
on the state, and the words that statements use for what an access leaves alone.
-/

namespace Sys2Proof.Machine

/-! ### Invariants -/

/-- The packet memory holds its canonical form. -/
def State.MemoryOk (s : State) : Prop := Memory.wf s.pool.mem = true

/-- The local class is the highest class among the latched sources (R79), the view is never below it (R84), and no axis
is out of OFF while the view is INSTANT (R87). -/
def State.TripsOk (s : State) : Prop :=
  s.trip.localClass = s.trip.highest ∧ s.trip.localClass.rank ≤ s.trip.view.rank ∧
    (s.trip.view = .instant → ∀ i : AxisNo, (s.getAxis i).state = .off)

/-- A lock's waiter is the port that does not hold it, and a lock has a waiter only while it is held (R145). -/
def State.LocksOk (s : State) : Prop :=
  ∀ (j : LockNo) (q : Port), (s.getLock j).waiter = some q → (s.getLock j).holder = some q.other

/-- What the rules keep of an axis: 0 ≤ r < d (R57), a pending correction within ±2^19 (R62), a denominator of 1 or more
in every entry (R53), a run count of at most 16 and a history of at most 4 values (R55). -/
def Axis.Ok (x : Axis) : Prop :=
  0 ≤ x.r ∧ x.r < x.work.den ∧ -524288 ≤ x.cp ∧ x.cp ≤ 524288 ∧ (∀ k : PlanNo, 1 ≤ (x.entries[k.val]).den) ∧
    x.run ≤ 16 ∧ x.history.length ≤ 4

def State.AxesOk (s : State) : Prop := ∀ i : AxisNo, (s.getAxis i).Ok

/-- A velocity within ±2^37 units, which is ±2^21 increments per cycle (R46, R47). -/
def velocityOk (v : Int) : Prop := -137438953472 ≤ v ∧ v ≤ 137438953472

def State.ShaftsOk (s : State) : Prop :=
  ∀ i : ShaftNo, velocityOk (s.getShaft i).vel ∧ velocityOk (s.getShaft i).target

/-! ### Owners of packet memory blocks (R94) -/

/-- The blocks of every transmit queue, of every receive queue, of every strip store and of every assembly context. -/
def State.txBlocks (s : State) : List BlockNo := s.chan.channels.toList.flatMap fun x => x.queue.flatMap TxMsg.blocks

def State.rxBlocks (s : State) : List BlockNo := s.chan.channels.toList.flatMap fun x => x.rx.flatMap RxMsg.blocks

def State.storeBlocks (s : State) : List BlockNo :=
  s.chan.channels.toList.flatMap fun x => x.store.slots.flatMap Slot.blocks

def State.assemblyBlocks (s : State) : List BlockNo :=
  s.chan.contexts.toList.flatMap fun k => match k with
    | some c => c.blocks
    | none => []

/-- A list holds exactly the blocks of one owner, each once. -/
def State.Holds (s : State) (bs : List BlockNo) (o : BlockOwner) : Prop :=
  bs.Nodup ∧ ∀ n : BlockNo, n ∈ bs ↔ s.pool.owner n = o

/-- A context that fills a slot fills a FILLING slot of its channel's store, no other context fills the same one, and a slot
that is EMPTY or FILLING has no blocks (R131, R134, R135). -/
def State.SlotsOk (s : State) : Prop :=
  (∀ (k : Fin 4) (c : Context) (i : Nat), s.getContext k = some c → c.slot = some i →
    (∃ x : Slot, (s.getChannel c.channel).store.slots[i]? = some x ∧ x.state = .filling) ∧
    ∀ (l : Fin 4) (d : Context), l ≠ k → s.getContext l = some d → d.channel = c.channel → d.slot ≠ some i) ∧
  ∀ (c : ChannelNo), ∀ x ∈ (s.getChannel c).store.slots, x.state = .empty ∨ x.state = .filling → x.blocks = []

/-- Every block has one owner and stands once where that owner keeps it: the free list holds exactly the FREE blocks, the
transmit queues the TXQ ones, the assembly contexts the ASSEMBLY ones, the receive queues the RXQ ones and the strip stores
the STORE ones (R94). -/
def State.BlocksOk (s : State) : Prop :=
  s.Holds s.pool.free .free ∧ s.Holds s.txBlocks .txq ∧ s.Holds s.assemblyBlocks .assembly ∧
    s.Holds s.rxBlocks .rxq ∧ s.Holds s.storeBlocks .store ∧ s.SlotsOk

/-- A state in which every invariant above holds. -/
def State.Safe (s : State) : Prop :=
  s.MemoryOk ∧ s.TripsOk ∧ s.LocksOk ∧ s.AxesOk ∧ s.ShaftsOk ∧ s.BlocksOk

/-! ### Words for statements -/

/-- The state as a port's access finds it: the port's field latch is emptied (R158). -/
def State.touched (s : State) (p : Port) : State := s.modPort p fun u => { u with latch := .empty }

/-- One byte of the packet memory: blocks from 0 on, common areas from 131,072 on. -/
def State.byte (s : State) (x : Nat) : Byte := Memory.read s.pool.mem x

/-- Whether an event's flag is set at a port. -/
def State.flag (s : State) (p : Port) (e : Event) : Bool := (s.port p).hasFlag e

/-- What the pins sensed at the end of the wait do (R74, R78): a low pin's condition is present, and latches its source if
that is enabled; a high pin's condition stays as it was. Bit n of `low` is pin n. -/
def State.SensedAs (low : BitVec 8) (s t : State) : Prop :=
  ∀ n : Fin 8,
    (low.getLsbD n.val = true → (t.getSource (pinSource n)).present = true ∧
      ((s.getSource (pinSource n)).enabled = true → (t.getSource (pinSource n)).latched = true)) ∧
    (low.getLsbD n.val = false → (t.getSource (pinSource n)).present = (s.getSource (pinSource n)).present)

/-- The state with a received frame's pass in the error window of its link (R7, R8). -/
def State.passed (s : State) (d : Side) : State :=
  s.modLink d fun l => { l with window := pushBounded l.window false 64 }

/-- Whether a ring frame received on a link reaches the ring path unit: the link is UP and no field of the frame is out of
its range (R6, R8). -/
def State.Reaches (s : State) (d : Side) (f : Frame) : Prop := (s.link d).state = .up ∧ f.inRange = true

/-- Whether a ring frame received on a link is processed at this node: it reaches the processing input, and another node
sent it (R14). -/
def State.Processes (s : State) (d : Side) (f : Frame) : Prop :=
  s.Reaches d f ∧ s.ring.mode.procInput = some d ∧ s.cyc.address ≠ some f.hdr.origin

/-- Whether a ring frame received on a link is removed at this node: it reaches the processing input of its origin (R15). -/
def State.Removes (s : State) (d : Side) (f : Frame) : Prop :=
  s.Reaches d f ∧ s.ring.mode.procInput = some d ∧ s.cyc.address = some f.hdr.origin

/-- Whether a frame forwarded on the processed-frame output `o` at a local time is sent at once (R17, R25). -/
def State.OutputFree (s : State) (o : Side) (now : Nat) : Prop :=
  s.ring.mode.ownOutput = some o ∧ (s.link o).wire = none ∧ s.waitingFor o = false ∧ s.quiet o now = false

/-- A CYCLE_START as it is handed over at its arrival: the input's link delay is added to its transit (R20). -/
def CycleStart.arrived (c : CycleStart) (delay : Nat) : CycleStart :=
  { c with transit := c.transit + BitVec.ofNat 32 delay }

/-- A frame as it leaves on another output: its hop count is one higher (R16), and a CYCLE_START's transit has gained the
input's link delay and the residence, rounded down to a multiple of 4 ns (R20). -/
def Frame.leaving (f : Frame) (delay arrival now : Nat) : Frame :=
  { hdr := { f.hdr with hops := f.hdr.hops + 1 }
    body := match f.body with
      | .cycleStart c =>
        .cycleStart { c with transit := c.transit + BitVec.ofNat 32 delay +
                               BitVec.ofInt 32 ((now : Int) - arrival - ((now : Int) - arrival) % 4) }
      | b => b }

/-- What only port commands and messages change: the packet memory, and the locks with their signals and bindings. -/
def State.SharedKept (s t : State) : Prop := t.pool = s.pool ∧ t.locks = s.locks ∧ t.pending = s.pending

end Sys2Proof.Machine
end

