-- ==== Sys2Proof/WellFormed.lean ====
section
/-!
DEFINITION. Which commands can be sent: the checks on a command's operands that its sender meets. exec has a meaning for
every command, well-formed or not.
-/

namespace Sys2Proof

open Machine

/-- The port that makes an access (00_scope.md, Port views), for the commands that are accesses of a port. -/
def Instr.port : Instr → Option Port
  | .clockRestart p | .nodeAddress p _ | .roleWrite p _ | .configurationWrite p _ _ | .attach p | .detach p
  | .portSoftReset p | .rosterWrite p _ _ | .planStagingWrite p _ _ | .cancelPlan p | .targetVelocityWrite p _ _
  | .shaftLimitWrite p _ _ _ | .planEntryWrite p _ _ _ _ | .axisParameterWrite p _ _ _ | .engage p _ | .disengage p _
  | .drop p _ | .correctionPost p | .correctionResultRead p | .actualPositionWrite p _ _ | .setpointSetFirstRead p
  | .setpointSetFinalRead p | .sourceClassWrite p _ _ | .sourceEnableWrite p _ _ | .tripRequest p | .tripRelease p
  | .tripReset p | .localClear p | .blockTake p | .screenTake p | .blockGive p _ | .blockWindowAccess p _ _
  | .commonAreaWrite p _ _ _ | .areaBindingWrite p _ _ | .channelConfigWrite p _ _ _ | .post p _ | .cancelHead p _
  | .outcomeRead p _ | .descriptorRead p _ _ | .streamRead p _ | .discardHead p _ | .hold p _ | .release p _
  | .openSlot p _ _ | .stripRead p _ | .closeSlot p _ | .releaseSlot p _ | .freeze p _ | .resume p _ | .lockTake p _
  | .lockGive p _ | .notifyOptionsWrite p _ | .signalSet p _ | .signalClear p _ | .signalEnableWrite p _
  | .eventClear p _ | .eventEnableWrite p _ | .captureClear p | .undefinedAccess p _ _ | .registerWrite p _ _
  | .wideFieldLowWordRead p _ => some p
  | .reset _ _ | .waitCountRestart | .stabilisationWaitEnd _ | .stabilisationTimeout _ | .clockFault
  | .clockRestartComplete | .restartFailed | .tripinConditionAppears _ | .tripinConditionGoes _
  | .signalDetectAsserted _ | .holdOffEnd _ | .signalDetectLost _ | .linkSilent _ | .linkIdleReceived _ _ _
  | .frameDiscardedNotUp _ _ _ | .frameCrcFail _ _ _ | .frameOnUnusedInput _ _ _ | .frameForwarded _ _ _
  | .outputIdle _ _ | .cycleStartReceived _ _ _ _ | .statusReceived _ _ _ _ | .tripFlashReceived _ _ _ _
  | .dataSegmentReceived _ _ _ _ | .ownDataReturned _ _ _ _ | .ownStatusReturned _ _ _ _ | .ownFrameRemoved _ _ _
  | .listenEnd | .leaderBoundary | .acquireMiss | .holdoverEntry | .holdoverEvent | .runningDownEvent | .openPhaseEnd
  | .segmentOffer | .segmentTimeout _ _ | .retryWaitEnd _ | .heldWaitEnd _ | .contextStale _
  | .outstandingEntryTimeout _ _ _ | .resetGuardLapse => none

/-- When the frame of a frame arrival arrived and was received. -/
def Instr.rxTime : Instr → Option RxTime
  | .linkIdleReceived _ t _ | .frameDiscardedNotUp _ t _ | .frameCrcFail _ t _ | .frameOnUnusedInput _ t _
  | .frameForwarded _ t _ | .cycleStartReceived _ t _ _ | .statusReceived _ t _ _ | .tripFlashReceived _ t _ _
  | .dataSegmentReceived _ t _ _ | .ownDataReturned _ t _ _ | .ownStatusReturned _ t _ _ | .ownFrameRemoved _ t _ =>
    some t
  | _ => none

/-- The ring frame that a frame arrival brings. -/
def Instr.frame : Instr → Option Frame
  | .frameDiscardedNotUp _ _ f | .frameOnUnusedInput _ _ f | .frameForwarded _ _ f | .ownFrameRemoved _ _ f => some f
  | .cycleStartReceived _ _ h c => some { hdr := h, body := .cycleStart c }
  | .statusReceived _ _ h b | .ownStatusReturned _ _ h b => some { hdr := h, body := .status b }
  | .tripFlashReceived _ _ h f => some { hdr := h, body := .tripFlash f }
  | .dataSegmentReceived _ _ h d | .ownDataReturned _ _ h d => some { hdr := h, body := .data d }
  | _ => none

/-- The input that the ring frame of a frame arrival comes in on. -/
def Instr.input : Instr → Option Side
  | .frameDiscardedNotUp d _ _ | .frameOnUnusedInput d _ _ | .frameForwarded d _ _ | .ownFrameRemoved d _ _
  | .cycleStartReceived d _ _ _ | .statusReceived d _ _ _ | .ownStatusReturned d _ _ _ | .tripFlashReceived d _ _ _
  | .dataSegmentReceived d _ _ _ | .ownDataReturned d _ _ _ => some d
  | _ => none

/-- A frame's last byte does not arrive before its first (R8). -/
def Instr.timesOrdered (i : Instr) : Bool :=
  match i.rxTime with
  | some t => decide (t.arrival ≤ t.received)
  | none => true

/-- A frame that is said to have passed its checks has every field in its range (R8, R170). -/
def Instr.frameInRange (i : Instr) : Bool :=
  match i, i.frame with
  | .linkIdleReceived _ _ f, _ => f.inRange
  | _, some f => f.inRange
  | _, none => true

/-- The numbers of one object lie in its range: a segment of a message (R104), a destination that an outstanding entry
can hold (R100), an address of a roster (R38). -/
def Instr.numbersInRange : Instr → Bool
  | .segmentTimeout _ index => decide (index < 8)
  | .outstandingEntryTimeout _ dest _ => decide (dest ≤ 30)
  | .rosterWrite _ _ set => !set.getLsbD 31
  | _ => true

/-- Whether a command can be sent. -/
def Instr.wellFormed (i : Instr) : Bool := i.timesOrdered && i.frameInRange && i.numbersInRange

end Sys2Proof
end

