-- ==== Sys2Proof/Certificates/Slice0/Obligations.lean ====
section
/-!
DEFINITION. The statements for the provers: the step and the queue, the invariants, start-up and clock, the links and the ring
path, cycle events, shafts and axes, trips, packet memory and channels, locks and port accesses. Each says which rule or
section of spec/ it formalises; a clause that rests on the model's own choice names its log entry.
-/

open Sys2Proof Sys2Proof.Machine

/-! ### The step, the queue and the invariants -/

/-- The step runs the command at the front of the queue on the state with the queue's rest; an empty queue idles (the model's
choice, log entry 4). -/
def Obligations.StepRunsFrontCommand : Prop :=
  (∀ (s : State) (c : Instr) (rest : List Instr),
    s.pending = c :: rest → step s = exec c { s with pending := rest }) ∧
  ∀ s : State, s.pending = [] → step s = .next s

/-- Every command answers a next state, and no command touches the queue of waiting commands. That a command whose event
cannot happen in the state leaves it (log entry 2) and that RESET keeps the waiting commands (log entry 13) are the model's
choices. -/
def Obligations.CommandsLeaveTheQueue : Prop :=
  ∀ (c : Instr) (s : State), ∃ t, exec c s = .next t ∧ t.pending = s.pending

/-- The state after reset meets every invariant of Safety.lean. -/
def Obligations.ResetStateIsSafe : Prop := State.reset.Safe

/-- Every step keeps the packet memory in its canonical form, from every state that has it. -/
def Obligations.StepKeepsMemoryForm : Prop :=
  ∀ s t : State, s.MemoryOk → step s = .next t → t.MemoryOk

/-- Every step keeps what R79, R84 and R87 say of the trip classes: the local class is the highest latched class, the view
is never below it, and while the view is INSTANT no axis is out of OFF. -/
def Obligations.StepKeepsTripClasses : Prop :=
  ∀ s t : State, s.TripsOk → step s = .next t → t.TripsOk

/-- Every step keeps what R145 says of a lock's waiter: it is the port that does not hold the lock, and it waits only while
the lock is held. -/
def Obligations.StepKeepsLockWaiters : Prop :=
  ∀ s t : State, s.LocksOk → step s = .next t → t.LocksOk

/-- Every step keeps every axis's remainder within 0 to d − 1 (R57), its pending correction within ±2^19 (R62) and the bounds of
its entries, run count and history (R53, R55), and every shaft's velocity and target within ±2^37 units (R46, R47). -/
def Obligations.StepKeepsShaftAndAxisBounds : Prop :=
  (∀ s t : State, s.AxesOk → step s = .next t → t.AxesOk) ∧
  ∀ s t : State, s.ShaftsOk → step s = .next t → t.ShaftsOk

/-- Every step keeps what R94 says of the owners of packet memory blocks: each block has one owner, the free list holds
exactly the FREE blocks, each once, and the transmit queues, assemblies, receive queues and strip stores hold exactly the
blocks of theirs, each once; with what R131, R134 and R135 say of the slots that an assembly fills. -/
def Obligations.StepKeepsBlockOwners : Prop :=
  ∀ s t : State, s.BlocksOk → step s = .next t → t.BlocksOk

/-! ### Start-up and clock -/

/-- RESET gives every item of every block the RESET value that the spec states for it, among them the counts, flags, records
and gearing values, the strip stores, and the ports' read-backs, views and posting words (R166, R172), and starts the
stabilisation wait, with the widths sampled; the queue and the signal-detect pins stay (log entry 13). -/
def Obligations.ResetGivesResetValues : Prop :=
  ∀ (wideA wideB : Bool) (s : State), ∃ t, exec (.reset wideA wideB) s = .next t ∧
    t.clock.ready = false ∧ t.clock.periods = 0 ∧ t.stopout = true ∧ t.tripout = false ∧
    (∀ d : Side, (t.link d).state = .down ∧ (t.link d).laser = false ∧ (t.link d).downReason = .none ∧
      (t.link d).delay = 0 ∧ (t.link d).delayMeasured = false ∧ (t.link d).neighbour = none ∧
      (t.link d).heard = false ∧ (t.link d).run = 0 ∧ (t.link d).window = [] ∧ (t.link d).downCount = 0 ∧
      (t.link d).upCount = 0 ∧ (t.link d).echo = none ∧ (t.link d).crcErrors = 0 ∧
      (t.link d).signalDetect = (s.link d).signalDetect) ∧
    t.ring.mode = .isolated ∧ t.ring.buffer = [] ∧ t.ring.hopDrops = 0 ∧ t.ring.overflows = 0 ∧
    t.ring.wrapDiscards = 0 ∧ t.ring.unusedInputs = 0 ∧ t.ring.replacedFrames = 0 ∧
    t.cyc.attached = false ∧ t.cyc.address = none ∧ t.cyc.role = .follower ∧ t.cyc.phase = .none ∧ t.cyc.epoch = 0 ∧
    t.cyc.leader = none ∧ t.cyc.lock = .unlocked ∧ t.cyc.runningDown = false ∧ t.cyc.cycle = 0 ∧
    t.cyc.reference = none ∧ t.cyc.refTransit = 0 ∧ t.cyc.period = 500000 ∧ t.cyc.good = 0 ∧ t.cyc.missed = 0 ∧
    t.cyc.lastEps = 0 ∧ t.cyc.activePlan = 0 ∧ t.cyc.pendingSwitch = none ∧ t.cyc.ring = .closed ∧
    t.cyc.config = { periodMicros := 500, holdLimit := 8, captureMicros := 2, lockCount := 16, takeCount := 3,
                     allowance := 2048 } ∧
    t.cyc.outOfWindow = 0 ∧ t.cyc.foreign = 0 ∧ t.cyc.holdovers = 0 ∧ t.cyc.clampFlag = false ∧
    t.cyc.configResult = .none ∧ t.cyc.stagingPlan = 0 ∧ t.cyc.stagingCycle = 0 ∧
    t.cyc.planRecord = { outcome := .none, plan := 0, cycle := 0 } ∧
    (∀ k : PlanNo, t.cyc.rosters[k.val] = 0) ∧
    (∀ a : Fin 31, t.cyc.missing[a.val] = 0 ∧ t.cyc.presence[a.val] = none ∧
      ∀ i : AxisNo, (t.cyc.remoteAxes[a.val])[i.val] = .off) ∧
    (∀ i : ShaftNo, t.getShaft i = { pos := 0, vel := 0, target := 0, aUp := 65536, aDn := 65536, aStop := 131072,
                                     aQuick := 262144, step := 0, stepFault := false }) ∧
    t.shafts.resyncWindow = 4096 ∧ t.shafts.lastTaken = none ∧ t.shafts.resyncPending = false ∧ t.shafts.clampFlag = false ∧
    (∀ i : AxisNo, (t.getAxis i).state = .off ∧ (t.getAxis i).enabled = false ∧ (t.getAxis i).corrSlew = 256 ∧
      (t.getAxis i).engageSlew = 4096 ∧ (t.getAxis i).decel = 64 ∧ (t.getAxis i).window = 8192 ∧
      (t.getAxis i).followCount = 3 ∧ (t.getAxis i).lag = 2 ∧ (t.getAxis i).actualReport = false ∧
      (t.getAxis i).guardLock = none ∧ (t.getAxis i).p = 0 ∧ (t.getAxis i).history = [] ∧
      (t.getAxis i).g = 0 ∧ (t.getAxis i).r = 0 ∧ (t.getAxis i).k = 0 ∧ (t.getAxis i).cp = 0 ∧ (t.getAxis i).u = 0 ∧
      (t.getAxis i).velOut = 0 ∧ (t.getAxis i).actual = 0 ∧ (t.getAxis i).fresh = false ∧ (t.getAxis i).run = 0 ∧
      (t.getAxis i).actualMissing = 0 ∧ (t.getAxis i).lastError = 0 ∧
      ∀ k : PlanNo, (t.getAxis i).entries[k.val] = { valid := false, shaft := 0, num := 1, den := 1, phase := 0 }) ∧
    t.axis.outbox = [] ∧ t.axis.staleLimit = 3 ∧ t.axis.stale = 0 ∧ t.axis.taken = none ∧ t.axis.clampFlag = false ∧
    t.axis.rangeFlag = false ∧ t.axis.snapshot = some t.axis.live ∧ t.axis.live.cycle = 0 ∧
    (∀ i : AxisNo, t.axis.live.axes[i.val] = { state := .off, p := 0, velOut := 0 }) ∧
    (∀ n : SourceNo, (t.getSource n).present = false ∧ (t.getSource n).latched = false ∧ (t.getSource n).enabled = true ∧
      (t.getSource n).raises = 0 ∧ (t.getSource n).cls =
        if n.val ≤ 10 ∨ n.val = 12 then .quick else if n.val = 15 then .notice else .stop) ∧
    t.trip.localClass = .none ∧ t.trip.view = .none ∧ t.trip.announced = .none ∧ t.trip.list = [] ∧
    t.trip.firstFault = none ∧ t.trip.resetNo = 0 ∧ t.trip.guard = none ∧ t.trip.stagedReset = false ∧
    t.trip.topSource = none ∧ t.trip.overflows = 0 ∧ t.trip.ignored = 0 ∧ t.trip.tripLeader = none ∧
    (∀ p : Port, t.trip.requests.get p = false) ∧
    t.pool.free = List.finRange 512 ∧ t.pool.reserve = 32 ∧ t.pool.clampFlag = false ∧ (∀ n : BlockNo, t.pool.owner n = .free) ∧
    (∀ x : Nat, t.byte x = 0) ∧
    (∀ c : ChannelNo, (t.getChannel c).config =
        { type := .off, owner := .a, rxDepth := 2, flush := true, storeSize := 8, stampShaft := none,
          tripFreeze := true, tResp := 200 } ∧
      (t.getChannel c).queue = [] ∧ (t.getChannel c).rx = [] ∧ (t.getChannel c).entries = [] ∧
      (t.getChannel c).outcomes = [] ∧ (t.getChannel c).overflow = false ∧ (t.getChannel c).nextTag = 0 ∧
      (t.getChannel c).attemptNo = 0 ∧ (t.getChannel c).readPos = 0 ∧ (t.getChannel c).held = false ∧
      (t.getChannel c).flushed = 0 ∧
      (∀ p : Port, (t.getChannel c).slotSelect.get p = 0 ∧ (t.getChannel c).outView.get p =
        { outcome := .none, tag := 0, kind := .none, dest := 0, tries := 0, takers := 0 }) ∧
      let x := (t.getChannel c).store
      x.frozen = false ∧ x.slots.length = 8 ∧ (∀ y ∈ x.slots, y.state = .empty ∧ y.blocks = []) ∧ x.readPos = 0 ∧
      x.nextSeq = 0 ∧ x.gaps = [] ∧ x.overwrites = 0 ∧ x.missed = 0 ∧ x.outOfOrder = 0) ∧
    t.chan.lateReturns = 0 ∧ t.chan.busyMarks = 0 ∧ t.chan.discards = 0 ∧ t.chan.clampFlag = false ∧
    (∀ k : Fin 4, t.getContext k = none) ∧
    (∀ j : LockNo, (t.getLock j).holder = none ∧ (t.getLock j).waiter = none) ∧
    (∀ a : AreaNo, t.locks.bindings[a.val] = none) ∧
    (∀ p : Port, t.locks.notify.get p = 0 ∧ t.locks.signals.get p = 0 ∧ t.locks.enables.get p = 0 ∧
      t.locks.giveRefused.get p = false ∧
      (t.port p).flags = 0 ∧ (t.port p).enables = 0 ∧ (t.port p).capture = none ∧ (t.port p).accessCount = 0 ∧
      (t.port p).bigEndian = false ∧ (t.port p).select = some 0 ∧ (t.port p).latch = .empty ∧
      (t.port p).takeRefused = false ∧ (t.port p).takeRefusedCount = 0 ∧ (t.port p).giveRefused = false ∧
      (t.port p).giveRefusedCount = 0 ∧ (t.port p).overread = false ∧
      (t.port p).codes =
        { nodeAddress := .none, attach := .none, detach := .none, clockRestart := .none, staging := .none,
          cancelPlan := .none, engage := .none, disengage := .none, drop := .none, corrPost := .none,
          tripReset := .none, localClear := 0, tripRequest := .none, tripRelease := .none, post := .none,
          cancelHead := .none, discardHead := .none, hold := .none, release := .none, freeze := .none,
          resume := .none, closeSlot := .none, releaseSlot := .none, openSlot := .none } ∧
      (t.port p).postTag = 0 ∧ (t.port p).slotOpened = 0 ∧
      (t.port p).posting = { dest := 0, kind := 0, length := 0, count := 0, answers := 0, strip := 0,
                             blocks := #v[0, 0, 0, 0, 0, 0, 0, 0] } ∧
      (t.port p).corrPosting = { target := 0, axis := 0, delta := 0 } ∧
      (t.port p).corrView = { outcome := .none, target := 0, axis := 0, delta := 0 }) ∧
    (t.port .a).wide = wideA ∧ (t.port .b).wide = wideB ∧ t.pending = s.pending

/-- During the stabilisation wait every access of a port changes at most the port's data lines, which carry 0 or, for the ready
word, STARTING; the wait's count starts again, and the wait ends on the crystal or on the internal oscillator, with the clock
state and fault count of R167 and the TRIPIN pins and source 9 sensed (R162, R74). That the count of periods stands between
commands as the last one left it is log entry 36. -/
def Obligations.StabilisationWait : Prop :=
  (∀ (c : Instr) (p : Port) (s : State), c.port = some p → s.clock.ready = false →
     exec c s = .next s ∨ exec c s = .next (s.drive p 0) ∨ exec c s = .next (s.drive p 0x60)) ∧
  ∀ s : State, s.clock.ready = false →
    exec .waitCountRestart s = .next { s with clock := { s.clock with periods := 0 } } ∧
    (∀ low : BitVec 8, ∃ t, exec (.stabilisationWaitEnd low) s = .next t ∧ t.clock.ready = true ∧
      t.clock.state = .crystal ∧ t.clock.faults = 0 ∧ s.SensedAs low t ∧ t.links = s.links ∧ s.SharedKept t) ∧
    ∀ low : BitVec 8, ∃ t, exec (.stabilisationTimeout low) s = .next t ∧ t.clock.ready = true ∧
      t.clock.state = .fallback ∧ t.clock.faults = 1 ∧ s.SensedAs low t ∧ (t.getSource 9).present = true ∧
      ((s.getSource 9).enabled = true → (t.getSource 9).latched = true) ∧ t.links = s.links ∧ s.SharedKept t

/-- A clock fault in CRYSTAL: FALLBACK, one fault more, both links DOWN with their lasers off, ISOLATED, UNLOCKED, the shafts at
rest where they stand, the axes OFF, and source 9 present (R167). CLOCK RESTART at port A in each clock state, the end of its
count, and a crystal that fails again (R168; the count of periods, log entry 36). -/
def Obligations.ClockFaultAndRestart : Prop :=
  (∀ s : State, s.clock.ready = true → s.clock.state = .crystal → ∃ t, exec .clockFault s = .next t ∧
     t.clock.state = .fallback ∧ t.clock.faults = bump s.clock.faults ∧
     (∀ d : Side, (t.link d).state = .down ∧ (t.link d).laser = false ∧ (t.link d).heard = false ∧
       (t.link d).delay = (s.link d).delay ∧
       ((s.link d).state ≠ .down →
         (t.link d).downReason = .clock ∧ (t.link d).downCount = bump (s.link d).downCount) ∧
       ((s.link d).state = .down →
         (t.link d).downReason = (s.link d).downReason ∧ (t.link d).downCount = (s.link d).downCount)) ∧
     t.ring.mode = .isolated ∧ (s.ring.mode ≠ .isolated → ∀ p : Port, t.flag p .ring = true) ∧
     t.cyc.lock = .unlocked ∧ (s.cyc.lock ≠ .unlocked → ∀ p : Port, t.flag p .timelock = true) ∧
     t.cyc.leader = none ∧ t.cyc.reference = none ∧ t.cyc.pendingSwitch = none ∧ t.cyc.attached = s.cyc.attached ∧
     (s.cyc.attached = true → s.cyc.role = .leader → t.cyc.phase = .waiting) ∧
     (∀ i : ShaftNo, (t.getShaft i).pos = (s.getShaft i).pos ∧ (t.getShaft i).vel = 0 ∧ (t.getShaft i).target = 0 ∧
       (t.getShaft i).step = 0) ∧
     (∀ i : AxisNo, (t.getAxis i).state = .off) ∧ t.trip.stagedReset = false ∧ (t.getSource 9).present = true ∧
     ((s.getSource 9).present = false → (s.getSource 9).enabled = true → (t.getSource 9).latched = true) ∧
     s.SharedKept t) ∧
  ∀ s : State, s.clock.ready = true →
    (s.clock.state = .fallback → exec (.clockRestart .a) s =
      .next (((s.touched .a).setCode .a fun c => { c with clockRestart := .accepted }).modClock fun u =>
        { u with state := .restarting, periods := 0 })) ∧
    (s.clock.state = .crystal → exec (.clockRestart .a) s =
      .next ((s.touched .a).setCode .a fun c => { c with clockRestart := .notFaulted })) ∧
    (s.clock.state = .restarting → exec (.clockRestart .a) s =
      .next ((s.touched .a).setCode .a fun c => { c with clockRestart := .busy })) ∧
    (s.clock.state = .restarting → exec .restartFailed s =
      .next { s with clock := { s.clock with state := .fallback, faults := bump s.clock.faults, periods := 0 } }) ∧
    (s.clock.state = .restarting → ∃ t, exec .clockRestartComplete s = .next t ∧ t.clock.state = .crystal ∧
      (t.getSource 9).present = false ∧ (t.getSource 9).latched = (s.getSource 9).latched ∧
      (s.cyc.attached = true → ∀ d : Side, (t.link d).state = .down ∧ (t.link d).laser = true ∧
        (t.link d).holdOff = true ∧ (t.link d).heard = false) ∧
      (s.cyc.attached = false → t.links = s.links) ∧ t.ring = s.ring ∧ t.cyc = s.cyc ∧ t.shafts = s.shafts ∧
      t.axis = s.axis ∧ t.chan = s.chan ∧ t.ports = s.ports ∧ s.SharedKept t)

/-- A TRIPIN condition that appears latches its enabled source, with its record, its TRIP_FLASH where it raises the local
class, and its class in the view (R78 to R80, R84, R85); a disabled source only shows it; a condition that goes leaves the
latch (R76). That a record made before an address is written has origin none is the model's reading (log entry 17). -/
def Obligations.TripinLatchesItsSource : Prop :=
  ∀ (s : State) (n : Fin 8), s.clock.ready = true →
    ((s.getSource (pinSource n)).present = false → (s.getSource (pinSource n)).enabled = true →
      (s.getSource (pinSource n)).latched = false → ∃ t, exec (.tripinConditionAppears n) s = .next t ∧
        (t.getSource (pinSource n)).present = true ∧ (t.getSource (pinSource n)).latched = true ∧
        (∀ k : SourceNo, k ≠ pinSource n → t.getSource k = s.getSource k) ∧
        (s.getSource (pinSource n)).cls.rank ≤ t.trip.localClass.rank ∧ t.trip.localClass.rank ≤ t.trip.view.rank ∧
        s.trip.view.rank ≤ t.trip.view.rank ∧
        (s.trip.list.length < 16 →
          (∀ q ∈ s.trip.list, ¬(q.node s.cyc.address = s.cyc.address ∧ q.source = pinSource n)) →
          t.trip.list = s.trip.list ++ [{ origin := s.cyc.address, source := pinSource n,
                                          cls := (s.getSource (pinSource n)).cls, cycle := s.cyc.cycle }]) ∧
        (s.cyc.attached = true → s.ring.mode ≠ .isolated →
          s.trip.localClass.rank < t.trip.localClass.rank →
          t.ring.ownFlash = s.ring.ownFlash ++
            [{ hdr := { origin := s.own, dest := 31, hops := 0, mark := .none, takers := 0 },
               body := .tripFlash { source := pinSource n, cls := t.trip.localClass, cycle := s.cyc.cycle } }]) ∧
        t.links = s.links ∧ t.cyc = s.cyc ∧ s.SharedKept t) ∧
    ((s.getSource (pinSource n)).present = false → (s.getSource (pinSource n)).enabled = false →
      exec (.tripinConditionAppears n) s = .next (s.modSource (pinSource n) fun x => { x with present := true })) ∧
    exec (.tripinConditionGoes n) s = .next (s.modSource (pinSource n) fun x => { x with present := false })

/-! ### Links -/

/-- A DOWN link enters TRAINING when its hold-off has run out and signal-detect is asserted, at whichever comes last (R2). Loss
of signal-detect or 32 µs of silence takes a link DOWN with its reason, and a link in use wraps the path at once, with the
frames bound for its output discarded and counted and RING raised (R5, R6, R10). -/
def Obligations.LinksTrainAndFall : Prop :=
  (∀ (s : State) (d : Side),
     exec (.signalDetectAsserted d) s = .next (s.modLink d fun l =>
       { l with
         signalDetect := true
         state := if l.state = .down ∧ l.laser = true ∧ l.holdOff = false then .training else l.state }) ∧
     ((s.link d).state = .down → exec (.holdOffEnd d) s = .next (s.modLink d fun l =>
       { l with
         holdOff := false
         state := if l.laser = true ∧ l.signalDetect = true then .training else .down }))) ∧
  ∀ (s : State) (d : Side), (s.link d).state ≠ .down →
    ∀ (c : Instr) (reason : DownReason),
      (c = .signalDetectLost d ∧ reason = .loss) ∨ (c = .linkSilent d ∧ reason = .silent) →
      ∃ t, exec c s = .next t ∧
        (t.link d).state = .down ∧ (t.link d).holdOff = true ∧ (t.link d).downReason = reason ∧
        (t.link d).downCount = bump (s.link d).downCount ∧ (t.link d).heard = false ∧ (t.link d).run = 0 ∧
        (t.link d).neighbour = none ∧ (t.link d).delayMeasured = false ∧ (t.link d).window = [] ∧
        (t.link d).delay = (s.link d).delay ∧ (t.link d).laser = (s.link d).laser ∧
        t.link d.other = s.link d.other ∧ t.shafts = s.shafts ∧ t.trip = s.trip ∧ t.cyc = s.cyc ∧ s.SharedKept t ∧
        (((s.link d).state = .training ∨ s.ring.mode.uses d = false) →
          t.ring = s.ring ∧ t.ports = s.ports ∧ t.chan = s.chan ∧ t.axis = s.axis) ∧
        ((s.link d).state = .up → s.ring.mode.uses d = true →
          t.ring.mode =
            (if s.ring.mode = .through then (if d = .west then .wrapWest else .wrapEast) else .isolated) ∧
          t.ring.buffer = s.ring.buffer.filter (fun e => decide (e.out ≠ d)) ∧
          t.ring.wrapDiscards =
            bumpBy s.ring.wrapDiscards (s.ring.buffer.filter fun e => decide (e.out = d)).length ∧
          ∀ p : Port, t.flag p .ring = true)

/-- A good LINK_IDLE: in TRAINING the run, the neighbour and the heard flag (R4), the measurement (R3), the count toward UP and
the move to UP (R5; log entry 9); in UP the measurement (R3) again, and one from the neighbour with its heard flag set keeps
the link UP, while one with the flag clear or from another address takes it DOWN with reason FAR_END and the delay-measured
mark clear (R6). -/
def Obligations.LinkIdlesTrainAndHoldTheLink : Prop :=
  let measured (t : RxTime) (f : LinkIdle) (old new : LinkUnit) : Prop :=
    (∀ e : BitVec 32, f.echo = some e →
      let trip : Int := (BitVec.ofNat 32 t.arrival - e).toNat
      let half : Int := (trip - f.turnaround.toNat) / 2
      (0 ≤ half - half % 4 ∧ half - half % 4 ≤ 100000 →
        (new.delay : Int) = half - half % 4 ∧ (new.state ≠ .down → new.delayMeasured = true)) ∧
      (half - half % 4 < 0 ∨ 100000 < half - half % 4 →
        new.delay = old.delay ∧ (new.state ≠ .down → new.delayMeasured = old.delayMeasured))) ∧
    (f.echo = none → new.delay = old.delay ∧ (new.state ≠ .down → new.delayMeasured = old.delayMeasured))
  (∀ (s : State) (d : Side) (t : RxTime) (f : LinkIdle), f.sender ≤ 30 → s.cyc.address ≠ some f.sender →
     (s.link d).state = .training → ∃ u, exec (.linkIdleReceived d t f) s = .next u ∧
       (u.link d).neighbour = some f.sender ∧
       (u.link d).run =
         (if (s.link d).neighbour = some f.sender ∨ (s.link d).neighbour = none then bump (s.link d).run else 1) ∧
       (u.link d).heard = ((s.link d).heard || decide (4 ≤ (u.link d).run)) ∧
       (u.link d).upCount =
         (if f.heard = true ∧ ((s.link d).neighbour = some f.sender ∨ (s.link d).neighbour = none)
           then bump (s.link d).upCount else 0) ∧
       measured t f (s.link d) (u.link d) ∧
       (u.link d).state =
         (if 16 ≤ (u.link d).upCount ∧ (u.link d).heard = true ∧ (s.link d).delayMeasured = true then .up
           else .training) ∧
       u.link d.other = s.link d.other ∧ u.shafts = s.shafts ∧ u.trip = s.trip ∧ s.SharedKept u) ∧
  ∀ (s : State) (d : Side) (t : RxTime) (f : LinkIdle), f.sender ≤ 30 → s.cyc.address ≠ some f.sender →
    (s.link d).state = .up → ∃ u, exec (.linkIdleReceived d t f) s = .next u ∧ u.link d.other = s.link d.other ∧
      measured t f (s.link d) (u.link d) ∧
      (f.heard = true → (s.link d).neighbour = some f.sender →
        (u.link d).state = .up ∧ (u.link d).window = pushBounded (s.link d).window false 64 ∧
        (u.link d).downCount = (s.link d).downCount ∧ u.ring = s.ring ∧ u.ports = s.ports) ∧
      ((f.heard = false ∨ (s.link d).neighbour ≠ some f.sender) →
        (u.link d).state = .down ∧ (u.link d).downReason = .farEnd ∧ (u.link d).heard = false ∧
        (u.link d).downCount = bump (s.link d).downCount ∧ (u.link d).holdOff = true ∧
        (u.link d).delayMeasured = false)

/-- The error window of R7: each received frame joins as its newest entry and the oldest of 64 leaves: a ring frame (by
whichever row it comes, log entry 5) or a LINK_IDLE that passes as a pass, bytes that fail as a fail; a frame that fails when 3
of the entries it joins have failed takes the link DOWN with reason DEGRADED; every entry to DOWN and to UP empties the window:
by loss, silence, errors or a far end, at ATTACH, DETACH, a clock fault and the end of a clock restart (R2, R5, R6). That the
oldest of 64 leaves before the 3 fails are counted is an inference from R7's last sentences, which let any 64 consecutive
frames hold 3. -/
def Obligations.ErrorWindowDegradesTheLink : Prop :=
  (∀ (s : State) (d : Side) (t : RxTime) (bytes : List Byte), parseFrame bytes = none →
    (s.link d).state = .up → (s.link d).window.length ≤ 64 → ∃ u, exec (.frameCrcFail d t bytes) s = .next u ∧
      u.link d.other = s.link d.other ∧ (u.link d).crcErrors = bump (s.link d).crcErrors ∧
      let kept := if (s.link d).window.length < 64 then (s.link d).window else (s.link d).window.drop 1
      ((kept.filter fun b => b).length < 3 → (u.link d).state = .up ∧ (u.link d).window = kept ++ [true] ∧
        u.ring = s.ring ∧ u.ports = s.ports ∧ s.SharedKept u) ∧
      (3 ≤ (kept.filter fun b => b).length → (u.link d).state = .down ∧ (u.link d).downReason = .degraded ∧
        (u.link d).downCount = bump (s.link d).downCount ∧ (u.link d).window = [])) ∧
  (∀ (s : State) (d : Side) (t : RxTime) (bytes : List Byte) (f : Frame), parseFrame bytes = some (.ring f) →
    f.inRange = true → (s.link d).state = .up → (s.link d).window.length ≤ 64 →
    ∃ u, exec (.frameCrcFail d t bytes) s = .next u ∧ (u.link d).window =
      (if (s.link d).window.length < 64 then (s.link d).window else (s.link d).window.drop 1) ++ [false]) ∧
  (∀ (s : State) (c : Instr) (d : Side) (f : Frame), c.input = some d → c.frame = some f → s.Reaches d f →
    (s.link d).window.length ≤ 64 → ∃ u, exec c s = .next u ∧ (u.link d).window =
      (if (s.link d).window.length < 64 then (s.link d).window else (s.link d).window.drop 1) ++ [false]) ∧
  (∀ (s : State) (d : Side) (t : RxTime) (f : LinkIdle), f.sender ≤ 30 → (s.link d).state = .up →
    (s.cyc.address ≠ some f.sender → f.heard = true ∧ (s.link d).neighbour = some f.sender) →
    (s.link d).window.length ≤ 64 → ∃ u, exec (.linkIdleReceived d t f) s = .next u ∧ (u.link d).window =
      (if (s.link d).window.length < 64 then (s.link d).window else (s.link d).window.drop 1) ++ [false]) ∧
  (∀ (s : State) (d : Side) (reason : DownReason), ((linkDrop d reason s).link d).window = []) ∧
  (∀ (l : LinkUnit) (reason : DownReason), (l.enterDown reason).window = []) ∧
  (∀ s : State, s.clock.ready = true → s.cyc.attached = false → s.cyc.address ≠ none → s.clock.state = .crystal →
    ∃ u, exec (.attach .a) s = .next u ∧ ∀ d : Side, (u.link d).window = []) ∧
  (∀ s : State, s.clock.ready = true → s.cyc.attached = true → (∀ i : AxisNo, (s.getAxis i).state = .off) →
    ∃ u, exec (.detach .a) s = .next u ∧ ∀ d : Side, (u.link d).window = []) ∧
  (∀ s : State, s.clock.ready = true → s.clock.state = .crystal →
    ∃ u, exec .clockFault s = .next u ∧ ∀ d : Side, (u.link d).window = []) ∧
  (∀ s : State, s.clock.ready = true → s.clock.state = .restarting → s.cyc.attached = true →
    ∃ u, exec .clockRestartComplete s = .next u ∧ ∀ d : Side, (u.link d).window = []) ∧
  ∀ (s : State) (d : Side) (now : Nat), ((linkUp d now s).link d).window = []

/-- Frames without effect on the ring: bytes that fail their check on a link in DOWN or TRAINING (R2, R4, R5, R8), a ring frame
on a link that is not UP (R2, R4), and a node's own CYCLE_START or TRIP_FLASH, removed at its processing input whatever its
hop count (R15, R16). That a bad frame in TRAINING leaves the error window alone is the model's reading of R7 and R8 (log
entry 33). -/
def Obligations.FramesWithoutEffect : Prop :=
  (∀ (s : State) (d : Side) (t : RxTime) (bytes : List Byte), parseFrame bytes = none →
     ((s.link d).state = .down → exec (.frameCrcFail d t bytes) s = .next s) ∧
     ((s.link d).state = .training → exec (.frameCrcFail d t bytes) s = .next (s.modLink d fun l =>
       { l with run := 0, upCount := 0, crcErrors := bump l.crcErrors }))) ∧
  (∀ (s : State) (d : Side) (t : RxTime) (f : Frame), f.inRange = true → (s.link d).state ≠ .up →
    exec (.frameDiscardedNotUp d t f) s = .next s) ∧
  ∀ (s : State) (d : Side) (t : RxTime) (f : Frame), s.Removes d f →
    (∃ c, f.body = .cycleStart c) ∨ (∃ b, f.body = .tripFlash b) →
    exec (.ownFrameRemoved d t f) s = .next (s.passed d)

/-! ### The ring path -/

/-- A ring frame on an input that the path mode does not use is discarded and counted (R13). -/
def Obligations.UnusedInputDiscards : Prop :=
  ∀ (s : State) (d : Side) (t : RxTime) (f : Frame), s.Reaches d f → s.ring.mode.uses d = false →
    exec (.frameOnUnusedInput d t f) s =
      .next ((s.passed d).modRing fun u => { u with unusedInputs := bump u.unusedInputs })

/-- A frame on the secondary input of THROUGH is forwarded unprocessed to the West output: at once with its hop count raised
where that output is idle and nothing waits for it, else into the through buffer while it fits in 1,024 bytes, else it is
dropped and counted; at hop count 64 it is dropped and counted (R14, R16, R17, R20; 'at once' as log entry 37 reads it). A
transit that passes 32 bits wraps, the model's choice (log entry 62). -/
def Obligations.SecondaryFramesAreForwarded : Prop :=
  ∀ (s : State) (t : RxTime) (f : Frame), s.Reaches .east f → s.ring.mode = .through →
    (f.hdr.hops = 64 → exec (.frameForwarded .east t f) s =
      .next ((s.passed .east).modRing fun u => { u with hopDrops := bump u.hopDrops })) ∧
    (f.hdr.hops < 64 → (s.link .west).wire = none → (∀ e ∈ s.ring.buffer, e.out ≠ .west) →
      exec (.frameForwarded .east t f) s =
        .next ((s.passed .east).modLink .west fun l =>
          { l with wire := some (.ring (f.leaving (s.link .east).delay t.arrival t.received)) })) ∧
    (f.hdr.hops < 64 → ((s.link .west).wire ≠ none ∨ ∃ e ∈ s.ring.buffer, e.out = .west) →
      (s.ring.used + f.len ≤ 1024 → ∃ u, exec (.frameForwarded .east t f) s = .next u ∧
        (∃ e : BufEntry, u.ring = { s.ring with buffer := s.ring.buffer ++ [e] } ∧ e.out = .west ∧
          e.arrival = t.arrival ∧ e.frame.hdr = { f.hdr with hops := f.hdr.hops + 1 } ∧
          e.frame.departTransit t.arrival t.received = f.leaving (s.link .east).delay t.arrival t.received) ∧
        u.links = (s.passed .east).links ∧ u.ports = s.ports ∧ u.cyc = s.cyc ∧ u.chan = s.chan ∧ s.SharedKept u) ∧
      (1024 < s.ring.used + f.len → exec (.frameForwarded .east t f) s =
        .next ((s.passed .east).modRing fun u => { u with overflows := bump u.overflows })))

/-- The order of service of an output in use (R18): own TRIP_FLASH frames in the order emitted, own CYCLE_START, the oldest
buffered frame bound for the output, own STATUS, own DATA in its open phase, and a LINK_IDLE where nothing waits; the other
output serves buffered frames alone. That a node still LISTENING keeps no quiet time before its first boundary is log entry 63.
-/
def Obligations.OutputOrderOfService : Prop :=
  ∀ (s : State) (d : Side) (now : Nat), (s.link d).laser = true → (s.link d).state = .up →
    s.ring.mode.uses d = true → s.quiet d now = false →
    (s.ring.mode.ownOutput = some d →
      (∀ f rest, s.ring.ownFlash = f :: rest → exec (.outputIdle d now) s =
        .next ((s.modRing fun u => { u with ownFlash := rest }).modLink d fun l =>
          { l with wire := some (.ring f) })) ∧
      (∀ f, s.ring.ownFlash = [] → s.ring.ownCycleStart = some f → exec (.outputIdle d now) s =
        .next ((s.modRing fun u => { u with ownCycleStart := none }).modLink d fun l =>
          { l with wire := some (.ring f) })) ∧
      (∀ f, s.ring.ownFlash = [] → s.ring.ownCycleStart = none → (∀ e ∈ s.ring.buffer, e.out ≠ d) →
        s.ring.ownStatus = some f → exec (.outputIdle d now) s =
          .next ((s.modRing fun u => { u with ownStatus := none }).modLink d fun l =>
            { l with wire := some (.ring f) })) ∧
      (∀ o, s.ring.ownFlash = [] → s.ring.ownCycleStart = none → (∀ e ∈ s.ring.buffer, e.out ≠ d) →
        s.ring.ownStatus = none → s.chan.offered = some o → s.chan.openPhase = true →
        ∃ u, exec (.outputIdle d now) s = .next u ∧ (u.link d).wire = some (.ring o.frame) ∧ u.chan.offered = none ∧
          u.chan.allowance = s.chan.allowance ∧ u.ring = s.ring ∧ u.ports = s.ports ∧ s.SharedKept u)) ∧
    (s.ring.mode.ownOutput = some d ∧ s.ring.ownFlash = [] ∧ s.ring.ownCycleStart = none ∨
        s.ring.mode.ownOutput ≠ some d →
      ∀ before e after, s.ring.buffer = before ++ e :: after → (∀ x ∈ before, x.out ≠ d) → e.out = d →
        exec (.outputIdle d now) s =
          .next ((s.modRing fun u => { u with buffer := before ++ after }).modLink d fun l =>
            { l with wire := some (.ring (e.frame.departTransit e.arrival now)) })) ∧
    (s.waitingFor d = false → exec (.outputIdle d now) s =
      .next (s.modLink d fun l => { l with wire := some (.idle (s.linkIdle d now)) }))

/-! ### Cycle events, time lock and leadership -/

/-- The first CYCLE_START of an unlocked node that follows nobody: it enters ACQUIRING on the frame, takes its cycle, epoch,
leader, plan and ring state, takes the shafts with step 0, and makes a cycle event (R29 to R31, R35, R41, R44, R49, R56). A
transit that passes 32 bits wraps (log entry 62), and a frame to a destination other than 31 counts as one to 31 (log entry
64): the model's choices. -/
def Obligations.FirstCycleStartStartsAcquiring : Prop :=
  ∀ (s : State) (d : Side) (t : RxTime) (h : Header) (c : CycleStart),
    s.Processes d { hdr := h, body := .cycleStart c } → s.cyc.role ≠ .leader → s.cyc.leader = none →
    s.cyc.lock = .unlocked → ∃ u, exec (.cycleStartReceived d t h c) s = .next u ∧
      u.cyc.lock = .acquiring ∧ u.cyc.cycle = c.cycle ∧ u.cyc.epoch = c.epoch ∧ u.cyc.leader = some c.leader ∧
      u.cyc.reference = some { cycle := c.cycle,
                               send := (t.arrival : Int) - (c.arrived (s.link d).delay).transit.toNat } ∧
      u.cyc.refTransit = (c.arrived (s.link d).delay).transit.toNat ∧
      u.cyc.period = s.cyc.config.periodMicros * 1000 ∧ u.cyc.good = 0 ∧ u.cyc.missed = 0 ∧
      u.cyc.runningDown = false ∧ u.cyc.activePlan = c.activePlan ∧ u.cyc.pendingSwitch = c.pendingSwitch ∧
      u.cyc.ring = c.ring ∧ u.cyc.config = s.cyc.config ∧ u.cyc.address = s.cyc.address ∧
      u.cyc.attached = s.cyc.attached ∧ u.cyc.role = s.cyc.role ∧ u.cyc.rosters = s.cyc.rosters ∧
      u.cyc.missing = s.cyc.missing ∧ (∀ a : Fin 31, u.cyc.presence[a.val] = none) ∧
      (∀ i : ShaftNo, (u.getShaft i).pos = c.shafts[i.val].posInt ++ c.shafts[i.val].posFrac ∧
        (u.getShaft i).vel = c.shafts[i.val].vel ∧ (u.getShaft i).step = 0 ∧ (u.getShaft i).stepFault = false ∧
        (u.getShaft i).aUp = (s.getShaft i).aUp ∧ (u.getShaft i).aQuick = (s.getShaft i).aQuick) ∧
      u.shafts.lastTaken = some { epoch := c.epoch, node := c.leader } ∧
      (∀ i : AxisNo, (u.getAxis i).state = .off ∧ (u.getAxis i).entries = (s.getAxis i).entries) ∧
      u.trip.tripLeader = some { epoch := c.epoch, node := c.leader } ∧
      (∀ p : Port, u.flag p .cycle = true ∧ u.flag p .timelock = true) ∧
      u.locks = s.locks ∧ u.pool.mem = s.pool.mem ∧ u.pending = s.pending

/-- A CYCLE_START of the followed leader, one cycle from the reference and within the capture window, in LOCKED: the node stays
LOCKED, anchors on it, corrects its local period by an eighth of ε within its bounds, takes the shafts and publishes (R30, R33,
R35, R49, R69). In ACQUIRING each one makes a cycle event: one a cycle from the reference and within half a period corrects,
anchors and ends the missed count, any other anchors without a correction, the good count counts those within the capture
window, and at N_lock the node is LOCKED and publishes (R31, R32). A transit that passes 32 bits wraps (log entry 62), and a
frame to a destination other than 31 counts as one to 31 (log entry 64): the model's choices. -/
def Obligations.GoodCycleStartsGainAndKeepTheLock : Prop :=
  (∀ (s : State) (d : Side) (t : RxTime) (h : Header) (c : CycleStart) (r : Reference),
      s.Processes d { hdr := h, body := .cycleStart c } → s.cyc.role ≠ .leader → s.cyc.runningDown = false →
      s.cyc.leader = some c.leader → s.cyc.epoch = c.epoch → s.cyc.lock = .locked → s.cyc.reference = some r →
      (c.cycle - r.cycle).toNat = 1 →
      let est : Int := (t.arrival : Int) - (c.arrived (s.link d).delay).transit.toNat
      let eps : Int := est - (r.send + s.cyc.period);
      -(s.cyc.config.captureMicros * 1000 : Int) ≤ eps → eps ≤ s.cyc.config.captureMicros * 1000 →
      ∃ u, exec (.cycleStartReceived d t h c) s = .next u ∧
        u.cyc.lock = .locked ∧ u.cyc.cycle = c.cycle ∧ u.cyc.reference = some { cycle := c.cycle, send := est } ∧
        u.cyc.lastEps = eps ∧
        u.cyc.period = s.cyc.config.periodMicros * 1000 +
          clampInt (s.cyc.period + clampInt (eps.tdiv 8) 500 - s.cyc.config.periodMicros * 1000) 4000 ∧
        u.cyc.missed = s.cyc.missed ∧ u.cyc.good = s.cyc.good ∧ u.cyc.leader = s.cyc.leader ∧
        u.cyc.epoch = s.cyc.epoch ∧ u.cyc.activePlan = c.activePlan ∧ u.cyc.pendingSwitch = c.pendingSwitch ∧
        u.cyc.ring = c.ring ∧ u.cyc.outOfWindow = s.cyc.outOfWindow ∧
        (∀ i : ShaftNo, (u.getShaft i).pos = c.shafts[i.val].posInt ++ c.shafts[i.val].posFrac ∧
          (u.getShaft i).vel = c.shafts[i.val].vel ∧
          (u.getShaft i).step = (c.shafts[i.val].posInt - (s.getShaft i).posInt).toInt) ∧
        u.axis.live.cycle = c.cycle ∧ (∀ p : Port, u.flag p .cycle = true) ∧
        u.locks = s.locks ∧ u.pool.mem = s.pool.mem ∧ u.pending = s.pending) ∧
  ∀ (s : State) (d : Side) (t : RxTime) (h : Header) (c : CycleStart) (r : Reference),
    s.Processes d { hdr := h, body := .cycleStart c } → s.cyc.role ≠ .leader → s.cyc.runningDown = false →
    s.cyc.leader = some c.leader → s.cyc.epoch = c.epoch → s.cyc.lock = .acquiring → s.cyc.reference = some r →
    let k : Nat := (c.cycle - r.cycle).toNat
    let est : Int := (t.arrival : Int) - (c.arrived (s.link d).delay).transit.toNat
    let eps : Int := est - (r.send + k * s.cyc.period)
    let near : Prop := k = 1 ∧ -s.cyc.period ≤ 2 * eps ∧ 2 * eps ≤ s.cyc.period
    let good : Nat :=
      if near ∧ -(s.cyc.config.captureMicros * 1000 : Int) ≤ eps ∧ eps ≤ s.cyc.config.captureMicros * 1000 then
        min (s.cyc.good + 1) 64 else 0
    ∃ u, exec (.cycleStartReceived d t h c) s = .next u ∧
      u.cyc.good = good ∧ u.cyc.lastEps = eps ∧ u.cyc.reference = some { cycle := c.cycle, send := est } ∧
      u.cyc.refTransit = (c.arrived (s.link d).delay).transit.toNat ∧
      (near → u.cyc.missed = 0 ∧ u.cyc.period = s.cyc.config.periodMicros * 1000 +
        clampInt (s.cyc.period + clampInt (eps.tdiv 8) 500 - s.cyc.config.periodMicros * 1000) 4000) ∧
      (¬ near → u.cyc.missed = s.cyc.missed ∧ u.cyc.period = s.cyc.period) ∧
      (s.cyc.config.lockCount ≤ good → u.cyc.lock = .locked ∧ u.axis.live.cycle = c.cycle ∧
        ∀ p : Port, u.flag p .timelock = true) ∧
      (good < s.cyc.config.lockCount → u.cyc.lock = .acquiring ∧ u.axis.live = s.axis.live) ∧
      u.cyc.cycle = c.cycle ∧ u.cyc.leader = s.cyc.leader ∧ u.cyc.epoch = s.cyc.epoch ∧ u.cyc.role = s.cyc.role ∧
      u.cyc.activePlan = c.activePlan ∧ u.cyc.pendingSwitch = c.pendingSwitch ∧ u.cyc.ring = c.ring ∧
      u.cyc.outOfWindow = s.cyc.outOfWindow ∧ u.cyc.config = s.cyc.config ∧
      (∀ i : ShaftNo, (u.getShaft i).pos = c.shafts[i.val].posInt ++ c.shafts[i.val].posFrac ∧
        (u.getShaft i).vel = c.shafts[i.val].vel ∧
        (u.getShaft i).step = (c.shafts[i.val].posInt - (s.getShaft i).posInt).toInt) ∧
      (∀ p : Port, u.flag p .cycle = true) ∧ u.locks = s.locks ∧ u.pool.mem = s.pool.mem ∧ u.pending = s.pending

/-- The return from HOLDOVER (R34): a frame within the capture window whose distance from the reference is the missed count or
one more makes the node LOCKED with no missed cycle; one more is a cycle event and a take, the missed count itself is neither
and leaves a resync pending. A transit that passes 32 bits wraps (log entry 62), and a frame to a destination other than 31
counts as one to 31 (log entry 64): the model's choices. -/
def Obligations.HoldoverReturnsToLocked : Prop :=
  ∀ (s : State) (d : Side) (t : RxTime) (h : Header) (c : CycleStart) (r : Reference),
    s.Processes d { hdr := h, body := .cycleStart c } → s.cyc.role ≠ .leader → s.cyc.runningDown = false →
    s.cyc.leader = some c.leader → s.cyc.epoch = c.epoch → s.cyc.lock = .holdover → s.cyc.reference = some r →
    let k : Nat := (c.cycle - r.cycle).toNat
    let est : Int := (t.arrival : Int) - (c.arrived (s.link d).delay).transit.toNat
    let eps : Int := est - (r.send + k * s.cyc.period);
    -(s.cyc.config.captureMicros * 1000 : Int) ≤ eps → eps ≤ s.cyc.config.captureMicros * 1000 →
    k = s.cyc.missed ∨ k = s.cyc.missed + 1 → ∃ u, exec (.cycleStartReceived d t h c) s = .next u ∧
      u.cyc.lock = .locked ∧ u.cyc.missed = 0 ∧ u.cyc.lastEps = eps ∧
      u.cyc.reference = some { cycle := c.cycle, send := est } ∧
      u.cyc.period = (if k = 1 then s.cyc.config.periodMicros * 1000 +
          clampInt (s.cyc.period + clampInt (eps.tdiv 8) 500 - s.cyc.config.periodMicros * 1000) 4000
        else s.cyc.period) ∧
      (∀ p : Port, u.flag p .timelock = true) ∧
      (k = s.cyc.missed + 1 → u.cyc.cycle = c.cycle ∧ u.axis.live.cycle = c.cycle ∧ u.cyc.activePlan = c.activePlan ∧
        (∀ p : Port, u.flag p .cycle = true) ∧
        ∀ i : ShaftNo, (u.getShaft i).pos = c.shafts[i.val].posInt ++ c.shafts[i.val].posFrac ∧
          (u.getShaft i).vel = c.shafts[i.val].vel ∧
          (u.getShaft i).step = (c.shafts[i.val].posInt - (s.getShaft i).posInt).toInt) ∧
      (k = s.cyc.missed → u.cyc.cycle = s.cyc.cycle ∧ u.shafts.resyncPending = true ∧
        u.cyc.activePlan = s.cyc.activePlan ∧ u.axis.live = s.axis.live ∧
        ∀ i : ShaftNo, (u.getShaft i).pos = (s.getShaft i).pos ∧ (u.getShaft i).vel = (s.getShaft i).vel ∧
          (u.getShaft i).step = (s.getShaft i).step) ∧
      u.locks = s.locks ∧ u.pool.mem = s.pool.mem ∧ u.pending = s.pending

/-- CYCLE_STARTs that a node does not take change one count: out of the window or of a wrong cycle in LOCKED (R33), from
another leader without a newer epoch (R29), and at a leading node one of an older epoch, or one from no lower address where
neither epoch is newer (R37). A leading node yields to a newer epoch, or from a lower address where neither epoch is newer,
because they are equal or differ by 128: FOLLOWER, ACQUIRING on the frame, its staged reset dropped, source 15 raised. That the
raise follows a trip reset the frame brings, so that the latch stays, is the model's order (log entry 7, from R90). A transit
that passes 32 bits wraps (log entry 62), and a frame to a destination other than 31 counts as one to 31 (log entry 64): the
model's choices. -/
def Obligations.CycleStartsOfOtherLeaders : Prop :=
  (∀ (s : State) (d : Side) (t : RxTime) (h : Header) (c : CycleStart),
     s.Processes d { hdr := h, body := .cycleStart c } →
     let kept (u : State) : Prop := u.shafts = s.shafts ∧ u.axis = s.axis ∧ u.trip = s.trip ∧ u.chan = s.chan ∧
       u.ports = s.ports ∧ u.clock = s.clock ∧ s.SharedKept u
     let est : Int := (t.arrival : Int) - (c.arrived (s.link d).delay).transit.toNat
     (∀ r : Reference, s.cyc.role ≠ .leader → s.cyc.leader = some c.leader → s.cyc.epoch = c.epoch →
       s.cyc.lock = .locked → s.cyc.reference = some r →
       let k : Nat := (c.cycle - r.cycle).toNat
       let eps : Int := est - (r.send + k * s.cyc.period)
       (k ≠ 1 ∨ eps < -(s.cyc.config.captureMicros * 1000 : Int) ∨ s.cyc.config.captureMicros * 1000 < eps) →
       ∃ u, exec (.cycleStartReceived d t h c) s = .next u ∧
         u.cyc = { s.cyc with lastEps := eps, outOfWindow := bump s.cyc.outOfWindow } ∧ kept u) ∧
     (∀ l : Nat, s.leading = false → s.cyc.leader = some l → (c.epoch ≠ s.cyc.epoch ∨ c.leader ≠ l) →
       newer c.epoch s.cyc.epoch = false → ∃ u, exec (.cycleStartReceived d t h c) s = .next u ∧
         u.cyc = { s.cyc with foreign := bump s.cyc.foreign } ∧ kept u) ∧
     (s.leading = true → newer c.epoch s.cyc.epoch = false →
       (newer s.cyc.epoch c.epoch = true ∨ s.own ≤ c.leader) → ∃ u, exec (.cycleStartReceived d t h c) s = .next u ∧
       u.cyc = { s.cyc with foreign := bump s.cyc.foreign } ∧ kept u)) ∧
  ∀ (s : State) (d : Side) (t : RxTime) (h : Header) (c : CycleStart),
    s.Processes d { hdr := h, body := .cycleStart c } → s.leading = true →
    (newer c.epoch s.cyc.epoch = true ∨ (newer s.cyc.epoch c.epoch = false ∧ c.leader < s.own)) →
    ∃ u, exec (.cycleStartReceived d t h c) s = .next u ∧
      u.cyc.role = .follower ∧ u.cyc.phase = .none ∧ u.cyc.lock = .acquiring ∧ u.cyc.leader = some c.leader ∧
      u.cyc.epoch = c.epoch ∧ u.cyc.cycle = c.cycle ∧ u.cyc.good = 0 ∧ u.cyc.missed = 0 ∧
      u.cyc.activePlan = c.activePlan ∧ u.cyc.pendingSwitch = c.pendingSwitch ∧ u.trip.stagedReset = false ∧
      (u.getSource 15).raises = bump (s.getSource 15).raises ∧
      ((s.getSource 15).enabled = true → (u.getSource 15).latched = true) ∧
      (∀ i : AxisNo, (u.getAxis i).state = .off) ∧
      (∀ i : ShaftNo, (u.getShaft i).pos = c.shafts[i.val].posInt ++ c.shafts[i.val].posFrac ∧
        (u.getShaft i).vel = c.shafts[i.val].vel) ∧
      (∀ p : Port, u.flag p .cycle = true) ∧ u.locks = s.locks ∧ u.pool.mem = s.pool.mem ∧ u.pending = s.pending

/-- The end of a listen: the node leads from the listen's end on, with the next epoch, LOCKED and EMITTING, its presence and
missing counts fresh (R38, R39), and announces its view (R24, R74, R84). That the first-fault record becomes the oldest record
of the list at once is the model's reading of R86 in 04, section 4.4 (log entry 19). That the reference, its transit and the
last ε stay as they were is log entry 66. -/
def Obligations.ListenEndStartsLeading : Prop :=
  ∀ s : State, s.cyc.role = .leader → s.cyc.phase = .listening → ∃ u, exec .listenEnd s = .next u ∧
    u.cyc = { s.cyc with
      phase := .emitting, epoch := s.cyc.epoch + 1, leader := s.cyc.address, lock := .locked, missed := 0,
      timerPeriod := s.cyc.config.periodMicros * 1000, nextBoundary := s.cyc.listenEnd,
      missing := Vector.replicate 31 0, added := Vector.replicate 4 0, presence := Vector.replicate 31 none,
      freshLead := true } ∧
    u.trip = { s.trip with announced := s.trip.view, firstFault := s.trip.list.head? } ∧
    (s.cyc.lock ≠ .locked → ∀ p : Port, u.flag p .timelock = true) ∧
    (s.cyc.lock = .locked → u.ports = s.ports) ∧
    u.links = s.links ∧ u.ring = s.ring ∧ u.shafts = s.shafts ∧ u.axis = s.axis ∧ u.chan = s.chan ∧
    u.clock = s.clock ∧ s.SharedKept u

/-- A boundary of a leading node: the next cycle number, the generator's step of every shaft, a pending switch applied at
its cycle, with the addresses that its roster had gained starting from 0 (R38), one two cycles off that stands where every
member of its roster is ready and is vetoed where not (R42), a staged reset applied after the shafts
stepped under the view as it stood (R88), and the CYCLE_START of the boundary waiting for the output (R25, R26, R35, R44,
R47). That an address added to another plan's roster starts from 0 as that plan comes into use is log entry 28. -/
def Obligations.LeaderBoundaryStartsACycle : Prop :=
  ∀ s : State, s.leading = true → ∃ u, exec .leaderBoundary s = .next u ∧
    u.cyc.cycle = s.cyc.cycle + 1 ∧ u.cyc.nextBoundary = s.cyc.nextBoundary + s.cyc.timerPeriod ∧
    u.cyc.cycleSend = s.cyc.nextBoundary ∧ u.cyc.lock = s.cyc.lock ∧ u.cyc.role = .leader ∧
    u.cyc.phase = .emitting ∧ u.cyc.epoch = s.cyc.epoch ∧ u.cyc.leader = s.cyc.leader ∧ u.cyc.freshLead = false ∧
    u.cyc.rosters = s.cyc.rosters ∧ u.cyc.config = s.cyc.config ∧ u.ring.mode = s.calledMode ∧
    (∀ i : ShaftNo,
      (u.getShaft i).pos = (s.getShaft i).pos + BitVec.ofInt 48 ((s.getShaft i).generatorVel s.trip.view) ∧
      ((u.trip.view ≠ .instant ∨ s.trip.view = .instant) →
        (u.getShaft i).vel = (s.getShaft i).generatorVel s.trip.view) ∧
      (u.getShaft i).step = ((u.getShaft i).posInt - (s.getShaft i).posInt).toInt ∧
      (u.getShaft i).stepFault = false ∧ (u.getShaft i).aUp = (s.getShaft i).aUp) ∧
    (s.cyc.pendingSwitch = none → u.cyc.activePlan = s.cyc.activePlan ∧ u.cyc.pendingSwitch = none ∧
      u.cyc.planRecord = s.cyc.planRecord) ∧
    (∀ w : PlanSwitch, s.cyc.pendingSwitch = some w → w.cycle = s.cyc.cycle + 1 →
      u.cyc.activePlan = w.plan ∧ u.cyc.pendingSwitch = none ∧
      u.cyc.planRecord = { outcome := .done, plan := w.plan, cycle := s.cyc.cycle + 1 } ∧
      (w.plan ≠ s.cyc.activePlan → u.cyc.added[w.plan.val] = 0 ∧
        ∀ a : Fin 31, (s.cyc.added[w.plan.val]).getLsbD a.val = true →
          (s.cyc.rosters[s.cyc.activePlan.val]).getLsbD a.val = false → u.cyc.missing[a.val] = 0) ∧
      ∀ p : Port, u.flag p .plan = true) ∧
    (∀ w : PlanSwitch, s.cyc.pendingSwitch = some w →
      ((w.cycle - (s.cyc.cycle + 1)).toNat = 1 ∨ 3 ≤ (w.cycle - (s.cyc.cycle + 1)).toNat) →
      u.cyc.activePlan = s.cyc.activePlan ∧ u.cyc.pendingSwitch = some w ∧ u.cyc.planRecord = s.cyc.planRecord) ∧
    (∀ w : PlanSwitch, s.cyc.pendingSwitch = some w → (w.cycle - (s.cyc.cycle + 1)).toNat = 2 →
      let stands : Prop := s.cyc.rosters[w.plan.val] ≠ 0 ∧
        ∀ a : Fin 31, (s.cyc.rosters[w.plan.val]).getLsbD a.val = true →
          (s.cyc.address = some a.val → u.cyc.planReady = true) ∧
          (s.cyc.address ≠ some a.val →
            ((s.cyc.presence[a.val]).map fun q => q.planReady) = some true)
      u.cyc.activePlan = s.cyc.activePlan ∧
      (s.calledMode = s.ring.mode → (u.cyc.planReady = true ↔ ∀ i : AxisNo, (s.getAxis i).state = .off ∨
        ((s.getAxis i).entries[w.plan.val]).valid = true)) ∧
      (stands → u.cyc.pendingSwitch = some w ∧ u.cyc.planRecord = s.cyc.planRecord) ∧
      (¬ stands → u.cyc.pendingSwitch = none ∧ (∀ p : Port, u.flag p .plan = true) ∧
        u.cyc.planRecord = { outcome := .vetoed, plan := w.plan, cycle := s.cyc.cycle + 1 })) ∧
    u.trip.stagedReset = false ∧
    u.trip.resetNo = (if s.trip.stagedReset = true then s.trip.resetNo + 1 else s.trip.resetNo) ∧
    (s.calledMode ≠ .isolated → ∃ c : CycleStart,
      u.ring.ownCycleStart = some { hdr := { origin := s.own, dest := 31, hops := 0, mark := .none, takers := 0 },
                                    body := .cycleStart c } ∧
      c.cycle = s.cyc.cycle + 1 ∧ c.leader = s.own ∧ c.epoch = s.cyc.epoch ∧ c.ring = u.cyc.ring ∧
      c.resetNo = u.trip.resetNo ∧ c.activePlan = u.cyc.activePlan ∧ c.pendingSwitch = u.cyc.pendingSwitch ∧
      c.transit = 0 ∧ ∀ i : ShaftNo, c.shafts[i.val] =
        { posInt := (u.getShaft i).posInt, posFrac := (u.getShaft i).posFrac,
          vel := (s.getShaft i).generatorVel s.trip.view }) ∧
    (∀ p : Port, u.flag p .cycle = true) ∧ u.locks = s.locks ∧ u.pool.mem = s.pool.mem ∧ u.pending = s.pending

/-- Missed CYCLE_STARTs: in ACQUIRING a miss counts, and past H the node gives up (R32); in LOCKED the deadline starts
HOLDOVER with a cycle event on the local timer, the shafts extrapolated and a set published (R33, R35, R50, R69). That
giving up closes the open phase is read from R28 in 02, section 2.3 (log entry 47). -/
def Obligations.MissedCycleStarts : Prop :=
  ∀ s : State,
    (s.cyc.lock = .acquiring → s.cyc.missed + 1 ≤ s.cyc.config.holdLimit →
      exec .acquireMiss s = .next { s with cyc := { s.cyc with good := 0, missed := s.cyc.missed + 1 } }) ∧
    (s.cyc.lock = .acquiring → s.cyc.config.holdLimit < s.cyc.missed + 1 → ∃ u, exec .acquireMiss s = .next u ∧
      u.cyc = { s.cyc with
        good := 0, missed := s.cyc.missed + 1, lock := .unlocked, leader := none, reference := none } ∧
      (∀ p : Port, u.flag p .timelock = true) ∧ u.chan.openPhase = false ∧ u.chan.channels = s.chan.channels ∧
      u.shafts = s.shafts ∧ u.axis = s.axis ∧ u.trip = s.trip ∧ u.ring = s.ring ∧ u.links = s.links ∧
      s.SharedKept u) ∧
    (s.cyc.lock = .locked → s.leading = false → s.cyc.runningDown = false → ∃ u, exec .holdoverEntry s = .next u ∧
      u.cyc.lock = .holdover ∧ u.cyc.missed = 1 ∧ u.cyc.holdovers = bump s.cyc.holdovers ∧
      u.cyc.cycle = s.cyc.cycle + 1 ∧ u.cyc.reference = s.cyc.reference ∧ u.cyc.role = s.cyc.role ∧
      u.cyc.leader = s.cyc.leader ∧ u.cyc.period = s.cyc.period ∧
      (∀ p : Port, u.flag p .timelock = true ∧ u.flag p .cycle = true) ∧
      (u.trip.view ≠ .instant → ∀ i : ShaftNo,
        (u.getShaft i).vel =
          (if 2 ≤ s.trip.view.rank then ramp (s.getShaft i).vel 0 (s.getShaft i).aQuick else (s.getShaft i).vel) ∧
        (u.getShaft i).pos = (s.getShaft i).pos + BitVec.ofInt 48 (u.getShaft i).vel) ∧
      u.axis.live.cycle = s.cyc.cycle + 1 ∧ u.locks = s.locks ∧ u.pool.mem = s.pool.mem ∧ u.pending = s.pending)

/-- A holdover event counts; past H the node is UNLOCKED and runs down, with source 8 raised; a standby takes over at its
take count on a link in use; a running-down event goes on ramping under a_quick (R31, R34 to R36, R50, R52, R77); sets are
published on (R69, 03, section 3.8). That the missed count stays as it stands at expiry is the model's reading (log entry
21). -/
def Obligations.HoldoverRunsOut : Prop :=
  ∀ s : State,
    (s.cyc.lock = .holdover → s.cyc.missed + 1 ≤ s.cyc.config.holdLimit → s.cyc.role = .follower →
      ∃ u, exec .holdoverEvent s = .next u ∧ u.cyc.lock = .holdover ∧ u.cyc.missed = s.cyc.missed + 1 ∧
        u.cyc.cycle = s.cyc.cycle + 1 ∧ u.cyc.reference = s.cyc.reference ∧ u.cyc.role = .follower ∧
        u.axis.live.cycle = s.cyc.cycle + 1 ∧ (∀ p : Port, u.flag p .cycle = true) ∧ u.locks = s.locks ∧
        u.pool.mem = s.pool.mem ∧ u.pending = s.pending) ∧
    (s.cyc.lock = .holdover → s.cyc.config.holdLimit < s.cyc.missed + 1 →
      ∃ u, exec .holdoverEvent s = .next u ∧ u.cyc.lock = .unlocked ∧ u.cyc.runningDown = true ∧
        u.cyc.leader = none ∧ u.cyc.missed = s.cyc.missed ∧ u.cyc.cycle = s.cyc.cycle + 1 ∧
        (u.getSource 8).raises = bump (s.getSource 8).raises ∧
        ((s.getSource 8).enabled = true → (u.getSource 8).latched = true) ∧
        (∀ p : Port, u.flag p .timelock = true ∧ u.flag p .cycle = true) ∧
        (u.trip.view ≠ .instant → ∀ i : ShaftNo,
          (u.getShaft i).vel = ramp (s.getShaft i).vel 0 (s.getShaft i).aQuick ∧
          (u.getShaft i).pos = (s.getShaft i).pos + BitVec.ofInt 48 (u.getShaft i).vel) ∧
        u.locks = s.locks ∧ u.pool.mem = s.pool.mem ∧ u.pending = s.pending) ∧
    (s.cyc.lock = .holdover → s.cyc.missed + 1 ≤ s.cyc.config.holdLimit → s.cyc.role = .standby →
      s.cyc.config.takeCount ≤ s.cyc.missed + 1 ∨ s.cyc.config.holdLimit ≤ s.cyc.missed + 1 →
      s.calledMode ≠ .isolated → ∃ u, exec .holdoverEvent s = .next u ∧ u.cyc.role = .leader ∧
        u.cyc.phase = .emitting ∧ u.cyc.lock = .locked ∧ u.cyc.epoch = s.cyc.epoch + 1 ∧
        u.cyc.leader = s.cyc.address ∧ u.cyc.missed = 0 ∧ u.cyc.timerPeriod = s.cyc.period ∧
        u.cyc.freshLead = true ∧ u.cyc.cycle = s.cyc.cycle + 1 ∧
        (u.getSource 15).raises = bump (s.getSource 15).raises ∧
        (∀ p : Port, u.flag p .timelock = true ∧ u.flag p .cycle = true) ∧
        (u.trip.view.rank < 2 → ∀ i : ShaftNo, (u.getShaft i).target = (u.getShaft i).vel) ∧
        u.locks = s.locks ∧ u.pool.mem = s.pool.mem ∧ u.pending = s.pending) ∧
    (s.cyc.runningDown = true → ∃ u, exec .runningDownEvent s = .next u ∧ u.cyc.runningDown = true ∧
      u.cyc.lock = s.cyc.lock ∧ u.cyc.cycle = s.cyc.cycle + 1 ∧ u.cyc.missed = s.cyc.missed ∧
      (∀ p : Port, u.flag p .cycle = true) ∧
      (u.trip.view ≠ .instant → ∀ i : ShaftNo,
        (u.getShaft i).vel = ramp (s.getShaft i).vel 0 (s.getShaft i).aQuick ∧
        (u.getShaft i).pos = (s.getShaft i).pos + BitVec.ofInt 48 (u.getShaft i).vel) ∧
      u.locks = s.locks ∧ u.pool.mem = s.pool.mem ∧ u.pending = s.pending)

/-! ### STATUS, TRIP_FLASH and DATA of other nodes, and own frames that return -/

/-- A STATUS of another node: presence and axis states are kept (R39), its class reaches the view and its top source the trip
list unless its reset number is older (R82), and one correction entry for an axis of this node in FOLLOW is applied and marked
in the frame that goes on (R14, R62, R65). That a reset number exactly 128 apart counts as not older is log entry 49; that a
class none, or a class with no top source, adds no record is log entries 18 and 50. That an older one of class none raises the
ignored count is log entry 68, and that one to a destination other than 31 counts as one to 31 log entry 64. -/
def Obligations.StatusIsReadAndMarked : Prop :=
  ∀ (s : State) (d : Side) (t : RxTime) (h : Header) (b : StatusBody),
    s.Processes d { hdr := h, body := .status b } → ∃ u, exec (.statusReceived d t h b) s = .next u ∧
      (∀ a : Fin 31,
        (a.val = h.origin → u.cyc.presence[a.val] = some { mode := b.mode, planReady := b.planReady } ∧
          u.cyc.remoteAxes[a.val] = b.axisStates) ∧
        (a.val ≠ h.origin → u.cyc.presence[a.val] = s.cyc.presence[a.val] ∧
          u.cyc.remoteAxes[a.val] = s.cyc.remoteAxes[a.val])) ∧
      u.cyc = { s.cyc with presence := u.cyc.presence, remoteAxes := u.cyc.remoteAxes } ∧
      (newer s.trip.resetNo b.resetNo = true →
        u.trip = { s.trip with ignored := bump s.trip.ignored } ∧ u.ports = s.ports ∧ u.shafts = s.shafts) ∧
      (newer s.trip.resetNo b.resetNo = false →
        u.trip.view.rank = max s.trip.view.rank b.cls.rank ∧ u.trip.localClass = s.trip.localClass ∧
        u.trip.sources = s.trip.sources ∧ u.trip.ignored = s.trip.ignored ∧
        (s.trip.view.rank < b.cls.rank → ∀ p : Port, u.flag p .trip = true) ∧
        (∀ n : SourceNo, b.cls ≠ .none → b.topSource = some n → s.trip.list.length < 16 →
          (∀ q ∈ s.trip.list, ¬(q.node s.cyc.address = some h.origin ∧ q.source = n)) →
          u.trip.list = s.trip.list ++
            [{ origin := some h.origin, source := n, cls := b.cls, cycle := s.cyc.cycle }]) ∧
        ((b.cls = .none ∨ b.topSource = none) → u.trip.list = s.trip.list)) ∧
      ((∀ e ∈ b.entries, ¬(s.cyc.address = some e.target ∧ e.outcome = .none)) → b.cls ≠ .instant →
        u.axis = s.axis) ∧
      (∀ (e : CorrEntry) (i : AxisNo), b.entries = [e] → s.cyc.address = some e.target → e.outcome = .none →
        e.axis = i.val → b.cls ≠ .instant → (s.getAxis i).enabled = true → (s.getAxis i).state = .follow →
        -524288 ≤ (s.getAxis i).cp + e.delta → (s.getAxis i).cp + e.delta ≤ 524288 →
        u.getAxis i = { s.getAxis i with cp := (s.getAxis i).cp + e.delta } ∧
        (∀ j : AxisNo, j ≠ i → u.getAxis j = s.getAxis j) ∧
        ∀ o : Side, h.hops < 64 → s.OutputFree o t.received →
          (u.link o).wire = some (.ring
            { hdr := { h with hops := h.hops + 1 },
              body := .status { b with entries := [{ e with outcome := .applied }] } })) ∧
      s.SharedKept u

/-- A TRIP_FLASH of another node: inside the reset guard it is only counted; otherwise the view rises to its class if that is
higher, with the effects on shafts and axes, and its record joins the trip list (R48, R56, R81, R84, R85; of a class none too,
log entry 18). That one to a destination other than 31 counts as one to 31 is log entry 64. -/
def Obligations.TripFlashReachesTheView : Prop :=
  ∀ (s : State) (d : Side) (t : RxTime) (h : Header) (b : TripFlash),
    s.Processes d { hdr := h, body := .tripFlash b } → ∃ u, exec (.tripFlashReceived d t h b) s = .next u ∧
      (∀ g : ResetGuard, s.trip.guard = some g → 1 ≤ (g.cycle - b.cycle).toNat → (g.cycle - b.cycle).toNat ≤ 4 →
        u.trip = { s.trip with ignored := bump s.trip.ignored } ∧ u.shafts = s.shafts ∧ u.axis = s.axis ∧
        u.ports = s.ports) ∧
      ((∀ g : ResetGuard, s.trip.guard = some g → g.cycle = b.cycle ∨ 4 < (g.cycle - b.cycle).toNat) →
        u.trip.view.rank = max s.trip.view.rank b.cls.rank ∧ u.trip.localClass = s.trip.localClass ∧
        u.trip.sources = s.trip.sources ∧ u.trip.ignored = s.trip.ignored ∧ u.trip.resetNo = s.trip.resetNo ∧
        (s.trip.list.length < 16 →
          (∀ q ∈ s.trip.list, ¬(q.node s.cyc.address = some h.origin ∧ q.source = b.source)) →
          u.trip.list = s.trip.list ++
            [{ origin := some h.origin, source := b.source, cls := b.cls, cycle := s.cyc.cycle }]) ∧
        (s.trip.view.rank < b.cls.rank → (∀ p : Port, u.flag p .trip = true) ∧
          (2 ≤ b.cls.rank → ∀ i : ShaftNo, (u.getShaft i).target = 0) ∧
          (b.cls = .instant → (∀ i : AxisNo, (u.getAxis i).state = .off) ∧
            (s.leading = true → ∀ i : ShaftNo, (u.getShaft i).vel = 0))) ∧
        (∀ i : ShaftNo, (u.getShaft i).pos = (s.getShaft i).pos) ∧
        (b.cls.rank ≤ s.trip.view.rank → u.shafts = s.shafts ∧ u.axis = s.axis)) ∧
      u.cyc = s.cyc ∧ u.clock = s.clock ∧ s.SharedKept u

/-- DATA that is taken (R104, R106 to R108, R110). A message of one segment on a SCREEN channel with room: it takes the head
free block, its bytes are stored there, the message joins the receive queue with RX raised (R117), and the frame goes on marked
TAKEN; a RESPONSE takes the entry it answers with it (R124), and a REQUEST that meets no RESPONSE to flush does no more (R128).
A later segment that follows its context joins it, and the last one of an EVENT or a REQUEST completes the message; where that
REQUEST meets the flush on and unstarted RESPONSEs to its origin, these leave the transmit queue and their blocks join the tail
of the free list (R128). A STRIP of one segment fills the first EMPTY slot as a READY record and meets the gap table (R134 to
R136); that the completion sequence counts without bound is log entry 20. That a message of a kind other than RESPONSE is
queued with the answers-tag that came, zero or not, is log entry 61. -/
def Obligations.MessagesAreReceived : Prop :=
  (∀ (s : State) (d : Side) (t : RxTime) (h : Header) (b : DataBody) (n : BlockNo) (rest : List BlockNo)
    (left : List OutEntry),
    s.Processes d { hdr := h, body := .data b } → (h.dest = 31 ∨ s.cyc.address = some h.dest) →
    (b.kind = .event ∧ left = (s.getChannel b.channel).entries ∨
     b.kind = .request ∧ left = (s.getChannel b.channel).entries ∧
       ((s.getChannel b.channel).config.flush = false ∨
         ∀ m ∈ (s.getChannel b.channel).queue, ¬(m.kind = .response ∧ m.dest = h.origin ∧ m.started = false)) ∨
     b.kind = .response ∧ ∃ (before after : List OutEntry) (e : OutEntry),
       (s.getChannel b.channel).entries = before ++ e :: after ∧ left = before ++ after ∧ e.dest = h.origin ∧
       e.tag = b.answers ∧ e.state = .waiting ∧
       ∀ y ∈ before ++ after, ¬(y.dest = h.origin ∧ y.tag = b.answers)) →
    b.index = 0 → b.count = 1 → (s.getChannel b.channel).config.type = .screen →
    (s.getChannel b.channel).held = false → s.contextOf h.origin b.channel = none →
    (s.getChannel b.channel).rx.length + (s.contextsOn b.channel).length < (s.getChannel b.channel).config.rxDepth →
    (s.freeContext .screen).isSome = true → s.pool.free = n :: rest → s.MemoryOk →
    ∃ u, exec (.dataSegmentReceived d t h b) s = .next u ∧
      u.getChannel b.channel = { s.getChannel b.channel with
        entries := left
        rx := (s.getChannel b.channel).rx ++
          [{ origin := h.origin, kind := b.kind, tag := b.tag, answers := b.answers, toAll := h.dest == 31,
             length := b.length, cycle := s.cyc.cycle, blocks := [n] }] } ∧
      (∀ c : ChannelNo, c ≠ b.channel → u.getChannel c = s.getChannel c) ∧
      (∀ k : Fin 4, u.getContext k = s.getContext k) ∧
      u.pool.free = rest ∧ u.pool.owner n = .rxq ∧ (∀ m : BlockNo, m ≠ n → u.pool.owner m = s.pool.owner m) ∧
      (∀ j : Nat, j < b.payload.length → b.payload[j]? = some (u.byte (256 * n.val + j))) ∧
      (∀ x : Nat, (x < 256 * n.val ∨ 256 * n.val + b.payload.length ≤ x) → u.byte x = s.byte x) ∧
      u.flag (s.getChannel b.channel).config.owner .rx = true ∧
      (∀ o : Side, h.hops < 64 → s.OutputFree o t.received →
        (u.link o).wire = some (.ring
          { hdr := { h with
              hops := h.hops + 1, mark := .taken, takers := if h.dest = 31 then h.takers + 1 else h.takers },
            body := .data b })) ∧
      u.cyc = s.cyc ∧ u.shafts = s.shafts ∧ u.axis = s.axis ∧ u.trip = s.trip ∧ u.locks = s.locks ∧
      u.pending = s.pending) ∧
  (∀ (s : State) (d : Side) (t : RxTime) (h : Header) (b : DataBody) (n : BlockNo) (rest : List BlockNo) (k : Fin 4)
    (x : Context),
    s.Processes d { hdr := h, body := .data b } → (h.dest = 31 ∨ s.cyc.address = some h.dest) → b.index ≠ 0 →
    s.contextOf h.origin b.channel = some k → s.getContext k = some x → b.index = x.next → b.tag = x.tag →
    b.attempt = x.attempt → b.count = x.count → s.pool.free = n :: rest →
    (x.kind = .strip → s.pool.reserve < s.pool.free.length) → s.MemoryOk →
    let y := s.getChannel x.channel
    let stale (m : TxMsg) : Prop := m.kind = .response ∧ m.dest = x.origin ∧ m.started = false
    let flushes : Prop :=
      x.kind = .request ∧ x.count ≤ x.next + 1 ∧ x.slot = none ∧ y.config.flush = true ∧ ∃ m ∈ y.queue, stale m
    let whole : RxMsg :=
      { origin := x.origin, kind := x.kind, tag := x.tag, answers := x.answers, toAll := x.toAll, length := x.length,
        cycle := s.cyc.cycle, blocks := x.blocks ++ [n] }
    ∃ u, exec (.dataSegmentReceived d t h b) s = .next u ∧
      (¬flushes → u.pool.free = rest ∧
        ∀ m : BlockNo, m ≠ n → m ∉ x.blocks → u.pool.owner m = s.pool.owner m) ∧
      (flushes → u.getContext k = none ∧ (u.getChannel x.channel).rx = y.rx ++ [whole] ∧
        (u.getChannel x.channel).queue = y.queue.filter (fun m => ¬stale m) ∧
        (∀ c : ChannelNo, c ≠ x.channel → u.getChannel c = s.getChannel c) ∧
        u.pool.free = rest ++ ((y.queue.filter fun m => stale m).map fun m => m.blocks).flatten ∧
        u.flag y.config.owner .outcome = true ∧ u.flag y.config.owner .rx = true) ∧
      (∀ j : Nat, j < b.payload.length → b.payload[j]? = some (u.byte (256 * n.val + j))) ∧
      (∀ z : Nat, (z < 256 * n.val ∨ 256 * n.val + b.payload.length ≤ z) → u.byte z = s.byte z) ∧
      (∀ l : Fin 4, l ≠ k → u.getContext l = s.getContext l) ∧
      (x.next + 1 < x.count →
        u.getContext k = some { x with next := x.next + 1, blocks := x.blocks ++ [n], idle := 0 } ∧
        u.pool.owner n = .assembly ∧ (n ∉ x.blocks → ∀ m ∈ x.blocks, u.pool.owner m = s.pool.owner m) ∧
        (∀ c : ChannelNo, u.getChannel c = s.getChannel c) ∧ u.ports = s.ports) ∧
      (x.count ≤ x.next + 1 → x.slot = none → x.kind = .event ∨ x.kind = .request → ¬flushes → u.getContext k = none ∧
        (∀ m ∈ x.blocks ++ [n], u.pool.owner m = .rxq) ∧
        u.getChannel x.channel = { y with rx := y.rx ++ [whole] } ∧
        (∀ c : ChannelNo, c ≠ x.channel → u.getChannel c = s.getChannel c) ∧
        u.flag y.config.owner .rx = true) ∧
      (∀ o : Side, h.hops < 64 → s.OutputFree o t.received →
        (u.link o).wire = some (.ring
          { hdr := { h with
              hops := h.hops + 1, mark := .taken, takers := if h.dest = 31 then h.takers + 1 else h.takers },
            body := .data b })) ∧
      u.cyc = s.cyc ∧ u.shafts = s.shafts ∧ u.axis = s.axis ∧ u.trip = s.trip ∧ u.locks = s.locks ∧
      u.pending = s.pending) ∧
  ∀ (s : State) (d : Side) (t : RxTime) (h : Header) (b : DataBody) (n : BlockNo) (rest : List BlockNo) (i : Nat)
    (y : Slot),
    s.Processes d { hdr := h, body := .data b } → (h.dest = 31 ∨ s.cyc.address = some h.dest) → b.kind = .strip →
    b.index = 0 → b.count = 1 → (s.getChannel b.channel).config.type = .image →
    s.contextOf h.origin b.channel = none → (s.freeContext .image).isSome = true → s.pool.free = n :: rest →
    s.pool.reserve < s.pool.free.length → s.MemoryOk →
    let x := (s.getChannel b.channel).store
    x.frozen = false → x.slots[i]? = some y → y.state = .empty → y.blocks = [] →
    (∀ (j : Nat) (z : Slot), j < i → x.slots[j]? = some z → z.state ≠ .empty) →
    ∃ u, exec (.dataSegmentReceived d t h b) s = .next u ∧
      let w := (u.getChannel b.channel).store
      w.slots[i]? = some
        { state := .ready, source := h.origin, strip := b.strip, length := b.length, blocks := [n],
          arrival := s.cyc.cycle, stamp := b.stamp, toAll := h.dest == 31, seq := x.nextSeq } ∧
      (∀ j : Nat, j ≠ i → w.slots[j]? = x.slots[j]?) ∧ w.nextSeq = x.nextSeq + 1 ∧ w.frozen = false ∧
      w.readPos = x.readPos ∧ w.overwrites = x.overwrites ∧
      ((∀ e ∈ x.gaps, e.source ≠ h.origin) → x.gaps.length < 4 →
        w.gaps = x.gaps ++ [{ source := h.origin, last := b.strip }] ∧ w.missed = x.missed ∧
        w.outOfOrder = x.outOfOrder) ∧
      (∀ (before after : List GapEntry) (e : GapEntry), x.gaps = before ++ e :: after → e.source = h.origin →
        (∀ g ∈ before ++ after, g.source ≠ h.origin) →
        let ahead : Nat := (b.strip - e.last).toNat
        (1 ≤ ahead → ahead ≤ 32767 → w.missed = bumpBy x.missed (ahead - 1) ∧ w.outOfOrder = x.outOfOrder ∧
          w.gaps = before ++ after ++ [{ source := h.origin, last := b.strip }]) ∧
        (ahead = 0 ∨ 32768 ≤ ahead → w.missed = x.missed ∧ w.outOfOrder = bump x.outOfOrder ∧
          w.gaps = before ++ after ++ [e])) ∧
      u.getChannel b.channel = { s.getChannel b.channel with store := w } ∧
      (∀ c : ChannelNo, c ≠ b.channel → u.getChannel c = s.getChannel c) ∧
      (∀ k : Fin 4, u.getContext k = s.getContext k) ∧
      u.pool.free = rest ∧ u.pool.owner n = .store ∧ (∀ m : BlockNo, m ≠ n → u.pool.owner m = s.pool.owner m) ∧
      (∀ j : Nat, j < b.payload.length → b.payload[j]? = some (u.byte (256 * n.val + j))) ∧
      (∀ z : Nat, (z < 256 * n.val ∨ 256 * n.val + b.payload.length ≤ z) → u.byte z = s.byte z) ∧
      u.flag (s.getChannel b.channel).config.owner .rx = true ∧
      (∀ o : Side, h.hops < 64 → s.OutputFree o t.received →
        (u.link o).wire = some (.ring
          { hdr := { h with
              hops := h.hops + 1, mark := .taken, takers := if h.dest = 31 then h.takers + 1 else h.takers },
            body := .data b })) ∧
      u.cyc = s.cyc ∧ u.shafts = s.shafts ∧ u.axis = s.axis ∧ u.trip = s.trip ∧ u.locks = s.locks ∧
      u.pending = s.pending

/-- A segment 0 for this node alone that is not taken goes on with its mark and leaves the channel as it is: HELD while the
channel is held, LATE for a RESPONSE that no WAITING entry matches, BUSY for a kind the channel does not carry, a full
receive queue or an empty free list (R106, R122, R124). -/
def Obligations.RefusedSegmentsAreMarked : Prop :=
  ∀ (s : State) (d : Side) (t : RxTime) (h : Header) (b : DataBody) (o : Side),
    s.Processes d { hdr := h, body := .data b } → s.cyc.address = some h.dest → h.dest ≤ 30 → b.index = 0 →
    s.contextOf h.origin b.channel = none → h.hops < 64 → s.OutputFree o t.received →
    let x := s.getChannel b.channel
    let goesOn (m : Mark) : Prop := ∃ u, exec (.dataSegmentReceived d t h b) s = .next u ∧
      (u.link o).wire = some (.ring { hdr := { h with hops := h.hops + 1, mark := m }, body := .data b }) ∧
      u.chan = (if m = .busy then { s.chan with busyMarks := bump s.chan.busyMarks } else s.chan) ∧
      u.cyc = s.cyc ∧ u.trip = s.trip ∧ u.ring = s.ring ∧ u.ports = s.ports ∧ s.SharedKept u
    (x.config.type = .off ∨ (x.config.type = .image ∧ b.kind ≠ .strip) → goesOn .busy) ∧
    (x.config.type = .screen → b.kind = .event →
      (x.held = true → goesOn .held) ∧
      (x.held = false → x.config.rxDepth ≤ x.rx.length → goesOn .busy) ∧
      (x.held = false → s.pool.free = [] → goesOn .busy)) ∧
    (x.config.type = .screen → b.kind = .response → x.held = false →
      (∀ e ∈ x.entries, ¬(e.dest = h.origin ∧ e.tag = b.answers ∧ e.state = .waiting)) → goesOn .late)

/-- An own DATA segment comes back (R15, R105, R111, R113): TAKEN ends a message of one segment with its outcome record and
frees its blocks, and a REQUEST leaves a WAITING entry with the cycle (R123); BUSY puts the head in retry wait; while another
segment is on the wire a TAKEN one is only kept with its mark and takers; and a segment that matches no attempt is counted. An
own STATUS comes back (R66): an outbox entry SENT under its cycle number whose correction it carries becomes DONE with the
outcome the ring marked, or UNDELIVERED; a STATUS that carries the correction of none of them, as where a soft reset removed
them (R67), changes nothing. That the entry's correction is looked for at the entry's own place in the STATUS is the model's
reading (log entry 38). -/
def Obligations.OwnFramesReturn : Prop :=
  (∀ (s : State) (d : Side) (t : RxTime) (h : Header) (b : DataBody), s.Removes d { hdr := h, body := .data b } →
     let x := s.getChannel b.channel
     (x.attempt = none → exec (.ownDataReturned d t h b) s =
       .next ((s.passed d).modChan fun u => { u with lateReturns := bump u.lateReturns })) ∧
     (∀ (m : TxMsg) (rest : List TxMsg) (a : Attempt) (j n o : Nat), x.queue = m :: rest → m.tag = b.tag →
       x.attemptNo = b.attempt → x.attempt = some a → a.segs[b.index]? = some (.onWire n) → j ≠ b.index →
       a.segs[j]? = some (.onWire o) → h.mark = .taken → ∃ u, exec (.ownDataReturned d t h b) s = .next u ∧
         u.getChannel b.channel = { x with
           attempt := some { a with segs := a.segs.set b.index (.returned .taken h.takers) } } ∧
         (∀ c : ChannelNo, c ≠ b.channel → u.getChannel c = s.getChannel c) ∧ u.chan.offered = s.chan.offered ∧
         u.ports = s.ports ∧ u.ring = s.ring ∧ u.cyc = s.cyc ∧ u.trip = s.trip ∧ s.SharedKept u) ∧
     ∀ (m : TxMsg) (rest : List TxMsg) (n : Nat), x.queue = m :: rest → m.finishing = false → m.dest ≠ 31 →
       (m.kind = .event ∨ m.kind = .request) → m.tag = b.tag → x.attemptNo = b.attempt → b.index = 0 →
       x.attempt = some { segs := [.onWire n], stopped := false } →
       (h.mark = .taken → x.outcomes.length < 8 →
         (m.kind = .request → ∀ e ∈ x.entries, ¬(e.dest = m.dest ∧ e.tag = m.tag)) →
         ∃ u, exec (.ownDataReturned d t h b) s = .next u ∧
         u.getChannel b.channel = { x with
           queue := rest, head := .idle, attempt := none, reoffer := false,
           entries := if m.kind = .request then
               x.entries ++ [{ dest := m.dest, tag := m.tag, cycle := s.cyc.cycle, state := .waiting, age := 0 }]
             else x.entries,
           outcomes := x.outcomes ++ [{ outcome := .taken, tag := m.tag, kind := m.kind, dest := m.dest,
                                        tries := m.tries, takers := 0 }] } ∧
         (∀ c : ChannelNo, c ≠ b.channel → u.getChannel c = s.getChannel c) ∧
         u.pool.free = s.pool.free ++ m.blocks ∧ (∀ k ∈ m.blocks, u.pool.owner k = .free) ∧
         (∀ k : BlockNo, k ∉ m.blocks → u.pool.owner k = s.pool.owner k) ∧ u.pool.mem = s.pool.mem ∧
         u.flag x.config.owner .outcome = true ∧ u.ring = s.ring ∧ u.cyc = s.cyc ∧ u.trip = s.trip ∧
         u.locks = s.locks ∧ u.pending = s.pending) ∧
       (h.mark = .busy → m.tries < 8 → ∃ u, exec (.ownDataReturned d t h b) s = .next u ∧
         u.getChannel b.channel = { x with head := .retryWait, attempt := none } ∧
         (∀ c : ChannelNo, c ≠ b.channel → u.getChannel c = s.getChannel c) ∧ u.ports = s.ports ∧ u.ring = s.ring ∧
         u.cyc = s.cyc ∧ u.trip = s.trip ∧ s.SharedKept u)) ∧
  ∀ (s : State) (d : Side) (t : RxTime) (h : Header) (b : StatusBody), s.Removes d { hdr := h, body := .status b } →
    ((∀ e ∈ s.axis.outbox, e.state = .sent → e.cycle = b.cycle → ∀ c : CorrEntry, b.entries[e.place]? = some c →
        ¬(c.target = e.target ∧ c.axis = min e.axis 255 ∧ c.delta = e.delta)) →
      exec (.ownStatusReturned d t h b) s = .next (s.passed d)) ∧
    ∀ (before after : List OutboxEntry) (e : OutboxEntry) (c : CorrEntry),
      s.axis.outbox = before ++ e :: after → (∀ x ∈ before ++ after, ¬(x.state = .sent ∧ x.cycle = b.cycle)) →
      e.state = .sent → e.cycle = b.cycle → e.axis ≤ 255 → b.entries[e.place]? = some c → c.target = e.target →
      c.axis = e.axis → c.delta = e.delta → ∃ u, exec (.ownStatusReturned d t h b) s = .next u ∧
        u.axis = { s.axis with outbox := before ++
          { e with state := .done, outcome := if c.outcome = .none then .undelivered else c.outcome } :: after } ∧
        u.flag e.port .corr = true ∧ u.port e.port.other = s.port e.port.other ∧ u.cyc = s.cyc ∧
        u.trip = s.trip ∧ u.chan = s.chan ∧ u.ring = s.ring ∧ s.SharedKept u

/-! ### Shafts and axes -/

/-- One boundary of the generator under a ring class view (R47): the target and limit, the move that stops at zero, the
advance of P and the step. -/
def Obligations.GeneratorMovesTowardTheTarget : Prop :=
  ∀ (x : Shaft) (view : TripClass),
    let y := x.generate view
    y.pos = x.pos + BitVec.ofInt 48 y.vel ∧ y.step = (y.posInt - x.posInt).toInt ∧ y.target = x.target ∧
    y.aUp = x.aUp ∧ y.aDn = x.aDn ∧ y.aStop = x.aStop ∧ y.aQuick = x.aQuick ∧
    (view = .instant → y.vel = 0) ∧
    (view = .quick ∨ view = .stop →
      let limit : Int := if view = .quick then x.aQuick else x.aStop
      (0 ≤ x.vel → y.vel = max (x.vel - limit) 0) ∧ (x.vel ≤ 0 → y.vel = min (x.vel + limit) 0)) ∧
    (view = .notice ∨ view = .none →
      (x.vel = x.target → y.vel = x.target) ∧
      (0 ≤ x.vel → x.vel < x.target → y.vel = min (x.vel + x.aUp) x.target) ∧
      (x.vel ≤ 0 → x.target < x.vel → y.vel = max (x.vel - x.aUp) x.target) ∧
      (0 < x.vel → 0 ≤ x.target → x.target < x.vel → y.vel = max (x.vel - x.aDn) x.target) ∧
      (x.vel < 0 → x.target ≤ 0 → x.vel < x.target → y.vel = min (x.vel + x.aDn) x.target) ∧
      (0 < x.vel → x.target < 0 → y.vel = max (x.vel - x.aDn) 0) ∧
      (x.vel < 0 → 0 < x.target → y.vel = min (x.vel + x.aDn) 0))

/-- Over any run of gearing events with one working copy, n times the sum of the shaft's steps is the sum of the quotients
times d plus the change of the remainder, and the remainder stays within 0 to d − 1 (R57). -/
def Obligations.GearingConservesTheAngle : Prop :=
  ∀ (x : Axis) (steps : List Int), 0 ≤ x.r → x.r < x.work.den →
    let y := steps.foldl Axis.gear x
    0 ≤ y.r ∧ y.r < y.work.den ∧ y.work = x.work ∧ y.k = x.k ∧ y.cp = x.cp ∧ y.state = x.state ∧
    (steps ≠ [] → y.p = y.g + y.k) ∧
    ∃ q : Int, y.g = x.g + BitVec.ofInt 32 q ∧ q * x.work.den + y.r - x.r = x.work.num * steps.sum

/-- What corrections and slews do to an axis: the table of R62, and the bounded moves of R59 and R62 that keep k + c_p
together. -/
def Obligations.CorrectionsAndSlews : Prop :=
  (∀ (x : Axis) (delta : Int),
    (x.enabled = false → x.correct delta = (.noAxis, x)) ∧
    (x.enabled = true → x.state ≠ .follow → x.correct delta = (.notFollowing, x)) ∧
    (x.enabled = true → x.state = .follow →
      (-524288 ≤ x.cp + delta → x.cp + delta ≤ 524288 →
        x.correct delta = (.applied, { x with cp := x.cp + delta })) ∧
      (524288 < x.cp + delta → x.correct delta = (.clamped, { x with cp := 524288 })) ∧
      (x.cp + delta < -524288 → x.correct delta = (.clamped, { x with cp := -524288 })))) ∧
  ∀ (x : Axis) (limit : Nat), (x.state = .follow ∧ limit = x.corrSlew) ∨ (x.state = .engaging ∧ limit = x.engageSlew) →
    let y := x.slew
    ∃ a : Int, -(limit : Int) ≤ a ∧ a ≤ limit ∧ y.cp = x.cp - a ∧ y.k = x.k + BitVec.ofInt 32 a ∧ y.p = y.g + y.k ∧
      y.g = x.g ∧ y.r = x.r ∧ y.cp.natAbs = x.cp.natAbs - limit ∧
      y.state = (if x.state = .engaging ∧ y.cp = 0 then .follow else x.state)

/-- A publication (R69, R71): the live set holds the cycle number and each axis's state, setpoint and velocity output, the
history its setpoint as newest of at most 4, the fresh marks clear, and the stale count follows what port A has taken. -/
def Obligations.PublicationWritesTheLiveSet : Prop :=
  ∀ (x : AxisUnit) (n : Cycle),
    let y := x.publish n
    y.live.cycle = n ∧
    (∀ i : AxisNo,
      y.live.axes[i.val] = { state := x.axes[i.val].state, p := x.axes[i.val].p, velOut := y.axes[i.val].velOut } ∧
      y.axes[i.val].velOut =
        (if x.axes[i.val].state = .off then 0 else if x.axes[i.val].state = .disengaging then x.axes[i.val].u
          else (x.axes[i.val].p - x.live.axes[i.val].p).toInt) ∧
      y.axes[i.val].fresh = false ∧ y.axes[i.val].p = x.axes[i.val].p ∧ y.axes[i.val].state = x.axes[i.val].state ∧
      y.axes[i.val].history.getLast? = some x.axes[i.val].p ∧
      (x.axes[i.val].history.length ≤ 3 → y.axes[i.val].history = x.axes[i.val].history ++ [x.axes[i.val].p]) ∧
      (x.axes[i.val].history.length = 4 →
        y.axes[i.val].history = x.axes[i.val].history.drop 1 ++ [x.axes[i.val].p])) ∧
    ((∀ i : AxisNo, x.axes[i.val].state = .off) → y.stale = 0) ∧
    ((∃ i : AxisNo, x.axes[i.val].state ≠ .off) → x.taken = some x.live.cycle → y.stale = 0) ∧
    ((∃ i : AxisNo, x.axes[i.val].state ≠ .off) → x.taken ≠ some x.live.cycle → y.stale = min (x.stale + 1) 15) ∧
    y.taken = x.taken ∧ y.snapshot = x.snapshot ∧ y.outbox = x.outbox ∧ y.staleLimit = x.staleLimit

/-- Port A's writes of shafts and axes: a target velocity and limits clamped under the clamp flag (R46); a plan entry's fields,
a denominator of 0 refused under the range flag (R53); each of the axis parameters in its range, a value outside it stored as
the nearest in range under the clamp flag (R54), the two classes as the classes of sources 16 + axis and 24 + axis; Enabled =
no takes the axis to OFF (R61); and a bound guard lock that port A does not hold refuses each axis write and class write with
GUARDED (R75, R150, R161), captured with its word's address, with a field's high word at a 16-bit port, and with the pair's
even word at a 32-bit port (R157, R158). A number outside a code list leaves one of the listed codes (log entry 16), that a
guard lock of 16 to 65,534 is stored as 15 and not as none is the model's reading (log entry 25), and that a source's class is
the second word of its record, beside its condition and latch, is its placement (log entry 15). -/
def Obligations.ShaftAndAxisWrites : Prop :=
  (∀ (s : State) (i : ShaftNo), s.clock.ready = true →
     (∀ v : BitVec 48, ∃ u, exec (.targetVelocityWrite .a i v) s = .next u ∧
       u.getShaft i = { s.getShaft i with target := max (-137438953472) (min v.toInt 137438953472) } ∧
       (∀ j : ShaftNo, j ≠ i → u.getShaft j = s.getShaft j) ∧
       u.shafts.clampFlag = (s.shafts.clampFlag || decide (v.toInt < -137438953472 ∨ 137438953472 < v.toInt)) ∧
       u = { s.touched .a with shafts := u.shafts }) ∧
     ∀ (l : ShaftLimit) (v : BitVec 32), ∃ u, exec (.shaftLimitWrite .a i l v) s = .next u ∧
       u.getShaft i =
         (match l with
           | .aUp => { s.getShaft i with aUp := max 1 (min v.toNat 16777216) }
           | .aDn => { s.getShaft i with aDn := max 1 (min v.toNat 16777216) }
           | .aStop => { s.getShaft i with aStop := max 1 (min v.toNat 16777216) }
           | .aQuick => { s.getShaft i with aQuick := max 1 (min v.toNat 16777216) }) ∧
       (∀ j : ShaftNo, j ≠ i → u.getShaft j = s.getShaft j) ∧
       u.shafts.clampFlag = (s.shafts.clampFlag || decide (v.toNat < 1 ∨ 16777216 < v.toNat)) ∧
       u = { s.touched .a with shafts := u.shafts }) ∧
  ∀ (s : State) (i : AxisNo) (plan : PlanNo) (v : BitVec 32), s.clock.ready = true →
    ((∀ j : LockNo, (s.getAxis i).guardLock = some j → (s.getLock j).holder = some .a) →
      let entry (e : PlanEntry) (u : State) : Prop :=
        (u.getAxis i).entries[plan.val] = e ∧
        (∀ k : PlanNo, k ≠ plan → (u.getAxis i).entries[k.val] = (s.getAxis i).entries[k.val]) ∧
        u.getAxis i = { s.getAxis i with entries := (u.getAxis i).entries } ∧
        (∀ j : AxisNo, j ≠ i → u.getAxis j = s.getAxis j) ∧
        u = { s.touched .a with axis := { s.axis with axes := u.axis.axes } }
      let e := (s.getAxis i).entries[plan.val]
      (∃ u, exec (.planEntryWrite .a i plan .numerator v) s = .next u ∧
        entry { e with num := (v.setWidth 16).toInt } u) ∧
      (v.setWidth 16 ≠ 0#16 → ∃ u, exec (.planEntryWrite .a i plan .denominator v) s = .next u ∧
        entry { e with den := (v.setWidth 16).toNat } u) ∧
      (v.setWidth 16 = 0#16 → exec (.planEntryWrite .a i plan .denominator v) s =
        .next ((s.touched .a).modAxisUnit fun u => { u with rangeFlag := true })) ∧
      (∃ u, exec (.planEntryWrite .a i plan .phase v) s = .next u ∧ entry { e with phase := v.toNat % 1048576 } u) ∧
      (v.toNat ≤ 1 → ∃ u, exec (.planEntryWrite .a i plan .valid v) s = .next u ∧
        entry { e with valid := decide (v.toNat = 1) } u) ∧
      (∀ k : ShaftNo, v.toNat = k.val → ∃ u, exec (.planEntryWrite .a i plan .shaft v) s = .next u ∧
        entry { e with shaft := k } u) ∧
      (∃ u, exec (.planEntryWrite .a i plan .valid v) s = .next u ∧
        entry { e with valid := ((u.getAxis i).entries[plan.val]).valid } u) ∧
      (∃ u, exec (.planEntryWrite .a i plan .shaft v) s = .next u ∧
        entry { e with shaft := ((u.getAxis i).entries[plan.val]).shaft } u) ∧
      let x := s.getAxis i
      let w := (v.setWidth 16).toNat
      let param (q : AxisParam) (y : Axis) (clamped : Bool) : Prop :=
        ∃ u, exec (.axisParameterWrite .a i q v) s = .next u ∧ u.getAxis i = y ∧
          (∀ j : AxisNo, j ≠ i → u.getAxis j = s.getAxis j) ∧ u.axis.clampFlag = (s.axis.clampFlag || clamped) ∧
          u = { s.touched .a with axis := { s.axis with axes := u.axis.axes, clampFlag := u.axis.clampFlag } }
      param .corrSlew { x with corrSlew := max 1 (min w 65535) } (decide (w < 1)) ∧
      param .engageSlew { x with engageSlew := max 1 (min v.toNat 1048576) } (decide (v.toNat < 1 ∨ 1048576 < v.toNat)) ∧
      param .decel { x with decel := max 1 (min w 65535) } (decide (w < 1)) ∧
      param .window { x with window := max 1 (min v.toNat 1048576) } (decide (v.toNat < 1 ∨ 1048576 < v.toNat)) ∧
      param .followCount { x with followCount := max 1 (min w 16) } (decide (w < 1 ∨ 16 < w)) ∧
      param .lag { x with lag := max 1 (min w 4) } (decide (w < 1 ∨ 4 < w)) ∧
      param .actualReport { x with actualReport := decide (1 ≤ w) } (decide (1 < w)) ∧
      (1 ≤ w → param .enabled { x with enabled := true } (decide (1 < w))) ∧
      (w = 65535 → param .guardLock { x with guardLock := none } false) ∧
      (∀ j : LockNo, w = j.val → param .guardLock { x with guardLock := some j } false) ∧
      (15 < w → w < 65535 → param .guardLock { x with guardLock := some 15 } true) ∧
      (∀ (q : AxisParam) (n : SourceNo),
        (q = .followClass ∧ n.val = 16 + i.val) ∨ (q = .stepClass ∧ n.val = 24 + i.val) →
        (∃ u, exec (.sourceClassWrite .a n (BitVec.ofNat 16 (min w 3))) s = .next u ∧
          exec (.axisParameterWrite .a i q v) s =
            .next (u.modAxisUnit fun a => { a with clampFlag := a.clampFlag || decide (3 < w) })) ∧
        ((s.getSource n).latched = false → ∃ u, exec (.axisParameterWrite .a i q v) s = .next u ∧
          (u.getSource n).cls.word = min w 3 ∧ u.getSource n = { s.getSource n with cls := (u.getSource n).cls } ∧
          (∀ k : SourceNo, k ≠ n → u.getSource k = s.getSource k) ∧
          u = { s.touched .a with
            trip := { s.trip with sources := u.trip.sources },
            axis := { s.axis with clampFlag := s.axis.clampFlag || decide (3 < w) } })) ∧
      (v.setWidth 16 = 0#16 → ∃ u, exec (.axisParameterWrite .a i .enabled v) s = .next u ∧
        (u.getAxis i).enabled = false ∧ (u.getAxis i).state = .off ∧ (u.getAxis i).p = (s.getAxis i).p ∧
        (u.getAxis i).g = (s.getAxis i).g ∧ (u.getAxis i).entries = (s.getAxis i).entries ∧
        (∀ j : AxisNo, j ≠ i → u.getAxis j = s.getAxis j) ∧ u.axis.clampFlag = s.axis.clampFlag ∧
        u = { s.touched .a with axis := u.axis })) ∧
    ∀ j : LockNo, (s.getAxis i).guardLock = some j → (s.getLock j).holder ≠ some .a →
      ∀ (f : EntryField) (q : AxisParam),
        let captured (off : Nat) (field : Bool) : Word16 :=
          if (s.port .a).wide = true then axisAddr i (off - off % 2) else axisAddr i (if field = true then off + 1 else off)
        exec (.planEntryWrite .a i plan f v) s =
          .next (access .a (captured (8 * plan.val + f.off) (decide (f = .phase))) true .guarded (s.touched .a)) ∧
        exec (.axisParameterWrite .a i q v) s =
          .next (access .a (captured q.off (decide (q = .engageSlew ∨ q = .window))) true .guarded (s.touched .a)) ∧
        ∀ (n : SourceNo) (w : Word16), (n.val = 16 + i.val ∨ n.val = 24 + i.val) →
          exec (.sourceClassWrite .a n w) s = .next (access .a
            (if (s.port .a).wide = true then sourceAddr n 0 else sourceAddr n 1) true .guarded (s.touched .a))

/-- ENGAGE: the first code of its table that applies, and an accepted one's working copy, start position, geared position,
remainder, offset and alignment (R58). DISENGAGE takes an axis to DISENGAGING with u at its velocity output (R60); DROP takes
it to OFF at once with p, g, r and k kept (R61); an axis number above 7 names no axis (R172). -/
def Obligations.EngageDisengageDrop : Prop :=
  (∀ (s : State) (i : AxisNo) (v : Word16), s.clock.ready = true → v.toNat = i.val →
     let x := s.getAxis i
     let e := x.entries[s.cyc.activePlan.val]
     let answers (c : Code) : Prop :=
       exec (.engage .a v) s = .next ((s.touched .a).setCode .a fun k => { k with engage := c })
     (x.enabled = false → answers .noAxis) ∧
     (x.enabled = true → x.state ≠ .off → answers .busy) ∧
     (x.enabled = true → x.state = .off → s.cyc.lock ≠ .locked → answers .notLocked) ∧
     (x.enabled = true → x.state = .off → s.cyc.lock = .locked → s.trip.view = .instant → answers .tripped) ∧
     (x.enabled = true → x.state = .off → s.cyc.lock = .locked → s.trip.view ≠ .instant → e.valid = false →
       answers .noEntry) ∧
     (x.enabled = true → x.state = .off → s.cyc.lock = .locked → s.trip.view ≠ .instant → e.valid = true →
       1 ≤ e.den → ∃ u, exec (.engage .a v) s = .next u ∧ (u.port .a).codes.engage = .accepted ∧
         let y := u.getAxis i
         let start : Pos := if x.actualReport = true ∧ x.fresh = true then x.actual else (s.axis.live.axes[i.val]).p
         let theta : Nat := (s.getShaft e.shaft).posInt.toNat
         y.state = .engaging ∧ y.work = { shaft := e.shaft, num := e.num, den := e.den, phase := e.phase } ∧
         y.p = start ∧ y.g + y.k = start ∧ 0 ≤ y.r ∧ y.r < e.den ∧
         (∃ q : Int, q * e.den + y.r = theta * e.num ∧ y.g = BitVec.ofInt 32 q) ∧
         -524287 ≤ y.cp ∧ y.cp ≤ 524288 ∧
         (y.cp - ((y.g.toNat : Int) + e.phase - start.toNat)) % 1048576 = 0 ∧
         y.entries = x.entries ∧ y.actual = x.actual ∧ y.history = x.history ∧
         (∀ j : AxisNo, j ≠ i → u.getAxis j = s.getAxis j) ∧
         u = { (s.touched .a).setCode .a fun k => { k with engage := .accepted } with axis := u.axis })) ∧
  ∀ (s : State) (v : Word16), s.clock.ready = true →
    (8 ≤ v.toNat →
      exec (.engage .a v) s = .next ((s.touched .a).setCode .a fun k => { k with engage := .noAxis }) ∧
      exec (.disengage .a v) s = .next ((s.touched .a).setCode .a fun k => { k with disengage := .noAxis }) ∧
      exec (.drop .a v) s = .next ((s.touched .a).setCode .a fun k => { k with drop := .noAxis })) ∧
    ∀ i : AxisNo, v.toNat = i.val →
      ((s.getAxis i).state = .off ∨ (s.getAxis i).state = .disengaging → exec (.disengage .a v) s =
        .next ((s.touched .a).setCode .a fun k => { k with disengage := .notEngaged })) ∧
      ((s.getAxis i).state = .engaging ∨ (s.getAxis i).state = .follow → exec (.disengage .a v) s =
        .next (((s.touched .a).setCode .a fun k => { k with disengage := .accepted }).modAxis i fun x =>
          { x with state := .disengaging, u := x.velOut, cp := 0, run := 0 })) ∧
      exec (.drop .a v) s =
        .next (((s.touched .a).setCode .a fun k => { k with drop := .accepted }).modAxis i fun x =>
          { x with state := .off, velOut := 0, cp := 0, u := 0, run := 0 })

/-- A correction post: FULL, BAD_TARGET, QUEUED for another node, or applied at once and DONE with CORR for the node itself;
and the read that takes the oldest DONE entry of the port, with its target beside the outcome at a 32-bit port (R62, R63, R67,
R157). That a delta sets the clamp flag at an accepted post alone is the model's choice (log entry 48). -/
def Obligations.CorrectionsArePostedAndRead : Prop :=
  ∀ (s : State) (p : Port), s.clock.ready = true →
    let w := (s.port p).corrPosting
    let delta : Int := max (-524288) (min w.delta.toInt 524288)
    (8 ≤ s.axis.outbox.length → exec (.correctionPost p) s =
      .next ((s.touched p).setCode p fun c => { c with corrPost := .full })) ∧
    (s.axis.outbox.length < 8 → 30 < w.target.toNat → exec (.correctionPost p) s =
      .next ((s.touched p).setCode p fun c => { c with corrPost := .badTarget })) ∧
    (s.axis.outbox.length < 8 → w.target.toNat ≤ 30 → s.cyc.address ≠ some w.target.toNat →
      exec (.correctionPost p) s =
        .next (((s.touched p).setCode p fun c => { c with corrPost := .accepted }).modAxisUnit fun u =>
          { u with
            clampFlag := u.clampFlag || decide (delta ≠ w.delta.toInt)
            outbox := u.outbox ++ [{ port := p, target := w.target.toNat, axis := w.axis.toNat, delta := delta,
                                     state := .queued, outcome := .none, cycle := 0, place := 0 }] })) ∧
    (s.axis.outbox.length < 8 → w.target.toNat ≤ 30 → s.cyc.address = some w.target.toNat →
      ∃ u, exec (.correctionPost p) s = .next u ∧ (u.port p).codes.corrPost = .accepted ∧
        u.flag p .corr = true ∧
        (8 ≤ w.axis.toNat → u.axis.axes = s.axis.axes ∧ u.axis.outbox = s.axis.outbox ++
          [{ port := p, target := w.target.toNat, axis := w.axis.toNat, delta := delta, state := .done,
             outcome := .noAxis, cycle := 0, place := 0 }]) ∧
        (∀ i : AxisNo, w.axis.toNat = i.val →
          u.getAxis i = ((s.getAxis i).correct delta).2 ∧ (∀ j : AxisNo, j ≠ i → u.getAxis j = s.getAxis j) ∧
          u.axis.outbox = s.axis.outbox ++
            [{ port := p, target := w.target.toNat, axis := w.axis.toNat, delta := delta, state := .done,
               outcome := ((s.getAxis i).correct delta).1, cycle := 0, place := 0 }]) ∧
        u.port p.other = s.port p.other ∧ u.cyc = s.cyc ∧ u.trip = s.trip ∧ u.chan = s.chan ∧ s.SharedKept u) ∧
    (∀ (before after : List OutboxEntry) (e : OutboxEntry), s.axis.outbox = before ++ e :: after →
      (∀ x ∈ before, ¬(x.state = .done ∧ x.port = p)) → e.state = .done → e.port = p →
      exec (.correctionResultRead p) s =
        .next (((s.touched p).modAxisUnit fun u => { u with outbox := before ++ after }).modPort p fun u =>
          { u with
            corrView := { outcome := e.outcome, target := e.target, axis := e.axis, delta := e.delta }
            lines := if u.wide = true then BitVec.ofNat 16 e.target ++ BitVec.ofNat 16 e.outcome.num
              else BitVec.ofNat 32 e.outcome.num })) ∧
    ((∀ x ∈ s.axis.outbox, ¬(x.state = .done ∧ x.port = p)) → exec (.correctionResultRead p) s =
      .next ((s.touched p).modPort p fun u =>
        { u with corrView := { outcome := .none, target := 0, axis := 0, delta := 0 }, lines := 0 }))

/-- Port A's actual position (R72), and the reads of the setpoint set's first and final words: at port A they copy the live
set into the snapshot and record it as taken, at port B they only read (R70). -/
def Obligations.ActualsAndSetpointReads : Prop :=
  ∀ s : State, s.clock.ready = true →
    (∀ (i : AxisNo) (v : Pos),
      ((s.getAxis i).actualReport = true → exec (.actualPositionWrite .a i v) s =
        .next ((s.touched .a).modAxis i fun x => { x with actual := v, fresh := true })) ∧
      ((s.getAxis i).actualReport = false → exec (.actualPositionWrite .a i v) s = .next (s.touched .a))) ∧
    (∃ w : BitVec 32, exec (.setpointSetFirstRead .a) s =
        .next (((s.touched .a).modAxisUnit fun u => { u with snapshot := some u.live }).drive .a w) ∧
      w.setWidth 16 = s.axis.live.cycle) ∧
    (∃ w : BitVec 32, exec (.setpointSetFirstRead .b) s = .next ((s.touched .b).drive .b w) ∧
      w.setWidth 16 = s.axis.live.cycle) ∧
    (∀ x : SetpointSet, s.axis.snapshot = some x → ∃ w : BitVec 32, exec (.setpointSetFinalRead .a) s =
        .next (((s.touched .a).modAxisUnit fun u => { u with taken := some x.cycle }).drive .a w) ∧
      ((s.port .a).wide = false → w = ((BitVec.ofInt 32 x.axes[7].velOut).extractLsb' 16 16).setWidth 32) ∧
      ((s.port .a).wide = true → w = BitVec.ofInt 32 x.axes[7].velOut)) ∧
    (s.axis.snapshot = none → exec (.setpointSetFinalRead .a) s = .next ((s.touched .a).drive .a 0)) ∧
    ∃ w : BitVec 32, exec (.setpointSetFinalRead .b) s = .next ((s.touched .b).drive .b w)

/-! ### Trips at the ports -/

/-- The trip unit's port words (R75, R76, R88, R78): a class written for a source that is not latched only stands there; one
written for a latched source recomputes local class and top source at once, raises TRIP where the local class changes, queues a
TRIP_FLASH where it rises at an attached node outside ISOLATED, and raises the view to it (R79, R80, R84); a source enabled
while its condition is absent only stands enabled and latches while it is present, a request raises the port's source, a
release leaves its latch, and TRIP RESET is staged at a leading node alone. That a class number above 3 leaves one of the four
classes is the model's choice (log entry 16). -/
def Obligations.TripWordsOfThePorts : Prop :=
  ∀ s : State, s.clock.ready = true →
    (∀ (n : SourceNo) (v : Word16),
      (∀ i : AxisNo, n.val = 16 + i.val ∨ n.val = 24 + i.val →
        ∀ j : LockNo, (s.getAxis i).guardLock = some j → (s.getLock j).holder = some .a) →
      ∃ u, exec (.sourceClassWrite .a n v) s = .next u ∧ (v.toNat < 4 → (u.getSource n).cls.word = v.toNat) ∧
        (u.getSource n).cls ≠ .none ∧ u.getSource n = { s.getSource n with cls := (u.getSource n).cls } ∧
        (∀ k : SourceNo, k ≠ n → u.getSource k = s.getSource k) ∧
        ((s.getSource n).latched = false →
          u = { s.touched .a with trip := { s.trip with sources := u.trip.sources } }) ∧
        ((s.getSource n).latched = true →
          let cls := u.trip.localClass
          (∀ k : SourceNo, (u.getSource k).latched = true → (u.getSource k).cls.rank ≤ cls.rank) ∧
          (∃ k : SourceNo, u.trip.topSource = some k ∧ (u.getSource k).latched = true ∧ (u.getSource k).cls = cls ∧
            ∀ j : SourceNo, j.val < k.val → ¬((u.getSource j).latched = true ∧ (u.getSource j).cls = cls)) ∧
          (cls ≠ s.trip.localClass → ∀ p : Port, u.flag p .trip = true) ∧
          u.trip.view = (if s.trip.view.rank < cls.rank then cls else s.trip.view) ∧
          u.ring = (if s.trip.localClass.rank < cls.rank ∧ s.cyc.attached = true ∧ s.ring.mode ≠ .isolated then
            { s.ring with ownFlash := s.ring.ownFlash ++
                [{ hdr := { origin := s.own, dest := 31, hops := 0, mark := .none, takers := 0 }
                   body := .tripFlash { source := n, cls := cls, cycle := s.cyc.cycle } }] }
            else s.ring) ∧
          u.trip.list = s.trip.list ∧ u.trip.resetNo = s.trip.resetNo ∧ u.links = s.links ∧ u.cyc = s.cyc ∧
          s.SharedKept u)) ∧
    (∀ (n : SourceNo) (v : Word16), v.toNat ≤ 1 → ((s.getSource n).present = false ∨ v.toNat = 0) →
      exec (.sourceEnableWrite .a n v) s =
        .next ((s.touched .a).modSource n fun x => { x with enabled := decide (v.toNat = 1) })) ∧
    (∀ n : SourceNo, (s.getSource n).present = true → ∃ u, exec (.sourceEnableWrite .a n 1) s = .next u ∧
      (u.getSource n).enabled = true ∧ (u.getSource n).latched = true ∧
      ((s.getSource n).latched = false → (s.getSource n).cls.rank ≤ u.trip.localClass.rank ∧
        u.trip.localClass.rank ≤ u.trip.view.rank) ∧ u.cyc = s.cyc ∧ s.SharedKept u) ∧
    (∀ p : Port,
      let n : SourceNo := if p = .a then 13 else 14
      ((s.getSource n).enabled = true → (s.getSource n).present = false → (s.getSource n).latched = false →
        ∃ u, exec (.tripRequest p) s = .next u ∧ u.trip.requests.get p = true ∧ (u.getSource n).present = true ∧
          (u.getSource n).latched = true ∧ (u.port p).codes.tripRequest = .accepted ∧
          (s.getSource n).cls.rank ≤ u.trip.localClass.rank ∧ u.trip.localClass.rank ≤ u.trip.view.rank ∧
          u.trip.requests.get p.other = s.trip.requests.get p.other ∧ u.cyc = s.cyc ∧ s.SharedKept u) ∧
      (∃ u, exec (.tripRelease p) s = .next u ∧ u.trip.requests.get p = false ∧ (u.getSource n).present = false ∧
        (u.getSource n).latched = (s.getSource n).latched ∧ (u.port p).codes.tripRelease = .accepted ∧
        u.trip.view = s.trip.view ∧ u.trip.localClass = s.trip.localClass ∧ u.trip.list = s.trip.list ∧
        u = { s with trip := u.trip, ports := u.ports }) ∧
      (s.leading = true → exec (.tripReset p) s =
        .next (((s.touched p).setCode p fun c => { c with tripReset := .accepted }).modTrip fun u =>
          { u with stagedReset := true })) ∧
      (s.leading = false → exec (.tripReset p) s =
        .next ((s.touched p).setCode p fun c => { c with tripReset := .notLeader })))

/-- LOCAL CLEAR (R92): exactly the latched NOTICE sources without their condition clear, the read-back counts them, the local
class is recomputed, and the list, view and reset number stay; at port B the word is read-only, and a 32-bit access raises
nothing, since TRIP RESET takes its other half (R157; log entry 55). That the word stands at 0785h, beside TRIP RESET, is the
model's placement (log entry 15). -/
def Obligations.LocalClearClearsNotices : Prop :=
  ∀ s : State, s.clock.ready = true → s.TripsOk →
    (∃ u, exec (.localClear .a) s = .next u ∧
      (∀ n : SourceNo, u.getSource n =
        if (s.getSource n).latched = true ∧ (s.getSource n).cls = .notice ∧ (s.getSource n).present = false then
          { s.getSource n with latched := false } else s.getSource n) ∧
      (u.port .a).codes.localClear =
        (allSources.filter fun n =>
          (s.getSource n).latched && decide ((s.getSource n).cls = .notice) && !(s.getSource n).present).length ∧
      u.trip.localClass = u.trip.highest ∧
      (u.trip.localClass ≠ s.trip.localClass → ∀ p : Port, u.flag p .trip = true) ∧
      u.trip.list = s.trip.list ∧ u.trip.view = s.trip.view ∧ u.trip.resetNo = s.trip.resetNo ∧
      u.shafts = s.shafts ∧ u.axis = s.axis ∧ u.ring = s.ring ∧ u.cyc = s.cyc ∧ u.chan = s.chan ∧ s.SharedKept u) ∧
    ((s.port .b).wide = false →
      exec (.localClear .b) s = .next (access .b 0x0785 true .readOnly (s.touched .b))) ∧
    ((s.port .b).wide = true → exec (.localClear .b) s = .next (s.touched .b))

/-- A trip reset applied at a node (R89): every latch without its present condition clears, the list holds the sources still
latched in ascending order, local class and view are their highest class, the number is taken and the guard set; a guard at
its last event lapses (log entry 3 for that row). That its own records have origin none before an address is written is log
entry 17. -/
def Obligations.TripResetIsApplied : Prop :=
  (∀ (s : State) (number : BitVec 8) (cycle : Cycle),
    let u := applyReset number cycle s
    (∀ n : SourceNo, u.getSource n = { s.getSource n with
      latched := (s.getSource n).latched && (s.getSource n).enabled && (s.getSource n).present }) ∧
    u.trip.list = (allSources.filter fun n => (u.getSource n).latched).map (fun n =>
      { origin := s.cyc.address, source := n, cls := (s.getSource n).cls, cycle := cycle }) ∧
    u.trip.localClass = u.trip.highest ∧ u.trip.view = u.trip.localClass ∧ u.trip.resetNo = number ∧
    u.trip.guard = some { cycle := cycle, left := 4 } ∧ u.trip.overflows = s.trip.overflows ∧
    ((u.trip.localClass ≠ s.trip.localClass ∨ u.trip.view ≠ s.trip.view) → ∀ p : Port, u.flag p .trip = true) ∧
    u.shafts = s.shafts ∧ u.axis = s.axis ∧ u.cyc = s.cyc ∧ s.SharedKept u) ∧
  ∀ (s : State) (g : ResetGuard), s.trip.guard = some g → g.left = 1 →
    exec .resetGuardLapse s = .next (s.modTrip fun u => { u with guard := none })

/-! ### Packet memory -/

/-- Taking and giving blocks (R95 to R97): the head of the free list, unless the port holds 64, the list is empty or, for
Block Take, the reserve is reached; a block given by its holder joins the tail, any other give is refused and counted. At a
32-bit port the answer of SCREEN Take stands on lines 16 to 31 (R157; log entry 1). -/
def Obligations.BlocksAreTakenAndGiven : Prop :=
  ∀ (s : State) (p : Port), s.clock.ready = true →
    let screenLines (v : BitVec 16) : BitVec 32 := if (s.port p).wide = true then v ++ 0#16 else v.setWidth 32
    let refused (lines : BitVec 32) : State := (s.touched p).modPort p fun u =>
      { u with takeRefused := true, takeRefusedCount := bump u.takeRefusedCount, lines := lines }
    let held : Nat := ((List.finRange 512).filter fun n => decide (s.pool.owner n = .port p)).length
    let taken (n : BlockNo) (rest : List BlockNo) (lines : BitVec 32) (u : State) : Prop :=
      u.pool.free = rest ∧ u.pool.owner n = .port p ∧ (∀ m : BlockNo, m ≠ n → u.pool.owner m = s.pool.owner m) ∧
      u.pool.mem = s.pool.mem ∧ u.pool.reserve = s.pool.reserve ∧
      u = { (s.touched p).drive p lines with pool := u.pool }
    (64 ≤ held ∨ s.pool.free = [] → exec (.screenTake p) s = .next (refused (screenLines 0xFFFF))) ∧
    (64 ≤ held ∨ s.pool.free.length ≤ s.pool.reserve → exec (.blockTake p) s = .next (refused 0xFFFF)) ∧
    (∀ (n : BlockNo) (rest : List BlockNo), held < 64 → s.pool.free = n :: rest →
      (∃ u, exec (.screenTake p) s = .next u ∧ taken n rest (screenLines (BitVec.ofNat 16 n.val)) u) ∧
      (s.pool.reserve < s.pool.free.length →
        ∃ u, exec (.blockTake p) s = .next u ∧ taken n rest (BitVec.ofNat 32 n.val) u)) ∧
    (∀ (n : BlockNo) (v : Word16), v.toNat = n.val → s.pool.owner n = .port p →
      ∃ u, exec (.blockGive p v) s = .next u ∧ u.pool.free = s.pool.free ++ [n] ∧ u.pool.owner n = .free ∧
        (∀ m : BlockNo, m ≠ n → u.pool.owner m = s.pool.owner m) ∧ u.pool.mem = s.pool.mem ∧
        u = { s.touched p with pool := u.pool }) ∧
    ∀ v : Word16, (∀ n : BlockNo, v.toNat = n.val → s.pool.owner n ≠ .port p) → exec (.blockGive p v) s =
      .next ((s.touched p).modPort p fun u =>
        { u with giveRefused := true, giveRefusedCount := bump u.giveRefusedCount })

/-- Payload words (R98, R149, R157, R159, R160): at a little-endian 16-bit port a write of the block window or of a common area
stores its two bytes, low byte first, and no other, and a read returns them; without the block or the bound lock the access
is refused and changes no byte; and the byte lanes of a write at either width and in either byte order. -/
def Obligations.PayloadReachesMemory : Prop :=
  (∀ (s : State) (p : Port) (w : BitVec 32), s.clock.ready = true → (s.port p).wide = false →
     (s.port p).bigEndian = false → s.MemoryOk →
     let stored (x : Nat) (u : State) : Prop :=
       u.byte x = w.extractLsb' 0 8 ∧ u.byte (x + 1) = w.extractLsb' 8 8 ∧
       (∀ y : Nat, y ≠ x → y ≠ x + 1 → u.byte y = s.byte y) ∧
       u = { s.touched p with pool := { s.pool with mem := u.pool.mem } }
     (∀ (word : Fin 128) (n : BlockNo), (s.port p).select = some n → s.pool.owner n = .port p →
       (∃ u, exec (.blockWindowAccess p word (some w)) s = .next u ∧ stored (256 * n.val + 2 * word.val) u) ∧
       exec (.blockWindowAccess p word none) s = .next ((s.touched p).drive p
         ((s.byte (256 * n.val + 2 * word.val + 1) ++ s.byte (256 * n.val + 2 * word.val)).setWidth 32))) ∧
     (∀ word : Fin 128, (∀ n : BlockNo, (s.port p).select = some n → s.pool.owner n ≠ .port p) →
       exec (.blockWindowAccess p word (some w)) s =
         .next (access p (BitVec.ofNat 16 (0x2000 + word.val)) true .notHeld (s.touched p)) ∧
       exec (.blockWindowAccess p word none) s =
         .next ((access p (BitVec.ofNat 16 (0x2000 + word.val)) false .notHeld (s.touched p)).drive p 0)) ∧
     ∀ (a : AreaNo) (word : Fin 512),
       ((∀ j : LockNo, s.locks.bindings[a.val] = some j → (s.getLock j).holder = some p) →
         ∃ u, exec (.commonAreaWrite p a word w) s = .next u ∧
           stored (131072 + 1024 * a.val + 2 * word.val) u) ∧
       ∀ j : LockNo, s.locks.bindings[a.val] = some j → (s.getLock j).holder ≠ some p →
         exec (.commonAreaWrite p a word w) s =
           .next (access p (BitVec.ofNat 16 (0x3000 + 512 * a.val + word.val)) true .guarded (s.touched p))) ∧
  ∀ (s : State) (p : Port) (w : BitVec 32) (a : AreaNo) (word : Fin 512), s.clock.ready = true →
    s.locks.bindings[a.val] = none → s.MemoryOk →
    let x : Nat := 131072 + 1024 * a.val + (if (s.port p).wide = true then 4 * (word.val / 2) else 2 * word.val)
    let count : Nat := if (s.port p).wide = true then 4 else 2
    ∃ u, exec (.commonAreaWrite p a word w) s = .next u ∧
      (∀ j : Nat, j < count → u.byte (x + j) =
        w.extractLsb' (8 * (if (s.port p).bigEndian = true then count - 1 - j else j)) 8) ∧
      (∀ y : Nat, y < x ∨ x + count ≤ y → u.byte y = s.byte y) ∧
      u = { s.touched p with pool := { s.pool with mem := u.pool.mem } }

/-! ### Channels -/

/-- Port A's channel configuration (R99, R116, R130): refused with NOT_EMPTY while the channel holds traffic; otherwise every
item takes its value in range, clamped under the clamp flag. A store size gives that many EMPTY slots; a new owner or type
empties the outcome list, its overflow flag with it (the model's choice, log entry 24); a type changed from or to SCREEN starts
with the SCREEN items at their RESET values, and one from or to IMAGE with the store RUNNING, its gap table empty and its read
position 0. That a stamp shaft of 4 to 65,534 is stored as 3 and not as none is the model's reading (log entry 25), and what
the record of an EMPTY slot holds its choice (log entry 53). -/
def Obligations.ChannelConfigurationWrites : Prop :=
  ∀ (s : State) (c : ChannelNo) (v : Word16), s.clock.ready = true →
    let x := s.getChannel c
    ((x.queue ≠ [] ∨ x.rx ≠ [] ∨ x.entries ≠ [] ∨ (∃ y ∈ x.store.slots, y.state ≠ .empty) ∨ s.contextsOn c ≠ []) →
      ∀ q : ChannelItem, exec (.channelConfigWrite .a c q v) s =
        .next ((s.touched .a).modCyc fun u => { u with configResult := .notEmpty })) ∧
    (x.queue = [] → x.rx = [] → x.entries = [] → (∀ y ∈ x.store.slots, y.state = .empty) → s.contextsOn c = [] →
      let stored (q : ChannelItem) (y : Channel) (clamped : Bool) : Prop :=
        ∃ u, exec (.channelConfigWrite .a c q v) s = .next u ∧ u.getChannel c = y ∧
          (∀ k : ChannelNo, k ≠ c → u.getChannel k = s.getChannel k) ∧ u.cyc.configResult = .accepted ∧
          u.chan.clampFlag = (s.chan.clampFlag || clamped) ∧
          u = { s.touched .a with
            cyc := { s.cyc with configResult := .accepted },
            chan := { s.chan with channels := u.chan.channels, clampFlag := u.chan.clampFlag } }
      stored .rxDepth { x with config := { x.config with rxDepth := max 1 (min v.toNat 4) } }
        (decide (v.toNat < 1 ∨ 4 < v.toNat)) ∧
      stored .tResp { x with config := { x.config with tResp := max 1 (min v.toNat 4095) } }
        (decide (v.toNat < 1 ∨ 4095 < v.toNat)) ∧
      stored .owner
        (if x.config.owner = (if v.toNat = 0 then .a else .b) then x
          else { x with
            config := { x.config with owner := if v.toNat = 0 then .a else .b }, outcomes := [], overflow := false })
        (decide (1 < v.toNat)) ∧
      stored .flush { x with config := { x.config with flush := decide (1 ≤ v.toNat) } } (decide (1 < v.toNat)) ∧
      stored .tripFreeze { x with config := { x.config with tripFreeze := decide (1 ≤ v.toNat) } }
        (decide (1 < v.toNat)) ∧
      stored .storeSize
        { x with
          config := { x.config with storeSize := max 2 (min v.toNat 32) }
          store := { x.store with slots := List.replicate (max 2 (min v.toNat 32)) Slot.blank } }
        (decide (v.toNat < 2 ∨ 32 < v.toNat)) ∧
      (v.toNat = 65535 → stored .stampShaft { x with config := { x.config with stampShaft := none } } false) ∧
      (∀ i : ShaftNo, v.toNat = i.val →
        stored .stampShaft { x with config := { x.config with stampShaft := some i } } false) ∧
      (3 < v.toNat → v.toNat < 65535 →
        stored .stampShaft { x with config := { x.config with stampShaft := some 3 } } true) ∧
      let type : ChannelType := if v.toNat = 0 then .off else if v.toNat = 1 then .screen else .image
      (x.config.type = type → stored .type x (decide (2 < v.toNat))) ∧
      (x.config.type ≠ type →
        let screen : Prop := x.config.type = .screen ∨ type = .screen
        let image : Prop := x.config.type = .image ∨ type = .image
        stored .type
          { x with
            config := { x.config with type := type, tResp := if screen then 200 else x.config.tResp }
            rx := [], entries := [], outcomes := [], overflow := false
            readPos := if screen then 0 else x.readPos
            held := if screen then false else x.held
            flushed := if screen then 0 else x.flushed
            store := if image then { x.store with frozen := false, gaps := [], readPos := 0 } else x.store }
          (decide (2 < v.toNat))))

/-- Posting (R100): the first condition of its table that applies answers with its code: CHANNEL_OFF, NOT_OWNER, BAD_KIND,
BAD_DEST, BAD_LENGTH, BAD_BLOCK, QUEUE_FULL, TOO_MANY_OUTSTANDING. A post that meets none takes the next tag, its blocks become
TXQ, and it joins the tail of the queue: a RESPONSE with its answers-tag, a STRIP with its strip number and the stamp of its
post (R132). A STRIP posted to an IMAGE queue of 4 supersedes the oldest message of which nothing has started: its blocks are
freed, its record is added, and if it was the head, an offered segment of it is withdrawn and the next head is idle (R133).
That the record of a superseded message to 31 holds 0 takers is log entry 58. That the answers-tag word gives its low 8 bits is
log entry 15. -/
def Obligations.MessagesArePosted : Prop :=
  (∀ (s : State) (p : Port) (v : Word16), s.clock.ready = true → 8 ≤ v.toNat →
    exec (.post p v) s = .next ((s.touched p).modPort p fun u =>
      { u with codes := { u.codes with post := .channelOff }, postTag := 0 })) ∧
  ∀ (s : State) (p : Port) (v : Word16) (c : ChannelNo), s.clock.ready = true → v.toNat = c.val →
    let x := s.getChannel c
    let r := (s.port p).posting
    let answers (code : Code) : Prop := exec (.post p v) s = .next ((s.touched p).modPort p fun u =>
      { u with codes := { u.codes with post := code }, postTag := 0 })
    (x.config.type = .off → answers .channelOff) ∧
    (x.config.type ≠ .off → x.config.owner ≠ p → answers .notOwner) ∧
    (x.config.type = .screen → x.config.owner = p → (r.kind.toNat = 0 ∨ 4 ≤ r.kind.toNat) → answers .badKind) ∧
    (x.config.type = .image → x.config.owner = p → r.kind.toNat ≠ 4 → answers .badKind) ∧
    ∀ kd : MsgKind, (x.config.type = .screen ∧ (kd = .request ∨ kd = .response ∨ kd = .event) ∨
        x.config.type = .image ∧ kd = .strip) → x.config.owner = p → r.kind.toNat = kd.num →
      let badDest : Prop := 31 < r.dest.toNat ∨ s.cyc.address = some r.dest.toNat ∨
        r.dest.toNat = 31 ∧ (kd = .request ∨ kd = .response)
      let listed := (r.blocks.toList.take r.count.toNat).map fun w => w.toNat
      (badDest → answers .badDest) ∧
      (¬badDest → (r.length.toNat = 0 ∨ 2048 < r.length.toNat ∨ r.count.toNat ≠ (r.length.toNat + 255) / 256) →
        answers .badLength) ∧
      (¬badDest → 1 ≤ r.length.toNat → r.length.toNat ≤ 2048 → r.count.toNat = (r.length.toNat + 255) / 256 →
        ((∃ n ∈ listed, 512 ≤ n) → answers .badBlock) ∧
        ∀ bs : List BlockNo, listed = bs.map Fin.val →
          let held : Prop := (∀ n ∈ bs, s.pool.owner n = .port p) ∧ bs.Nodup
          let outstanding := x.entries.length + (x.queue.filter fun m => m.kind = .request).length
          let m : TxMsg :=
            { tag := x.nextTag, kind := kd, dest := r.dest.toNat, length := r.length.toNat, blocks := bs,
              answers := if kd = .response then r.answers.setWidth 8 else 0, strip := if kd = .strip then r.strip else 0,
              stamp := if kd = .strip then
                x.config.stampShaft.map fun i => { cycle := s.cyc.cycle, pos := (s.getShaft i).posInt } else none,
              tries := 0, started := false, finishing := false }
          let joins (u : State) : Prop :=
            (∀ k : ChannelNo, k ≠ c → u.getChannel k = s.getChannel k) ∧ (∀ n ∈ bs, u.pool.owner n = .txq) ∧
            u.pool.mem = s.pool.mem ∧ (u.port p).codes.post = .accepted ∧ (u.port p).postTag = x.nextTag.toNat ∧
            (u.port p).posting = r ∧ u.port p.other = s.port p.other ∧ (∀ k : Fin 4, u.getContext k = s.getContext k) ∧
            u.cyc = s.cyc ∧ u.ring = s.ring ∧ u.links = s.links ∧ u.shafts = s.shafts ∧ u.axis = s.axis ∧
            u.trip = s.trip ∧ u.locks = s.locks ∧ u.pending = s.pending
          (¬held → answers .badBlock) ∧
          (held → kd ≠ .strip → 8 ≤ x.queue.length → answers .queueFull) ∧
          (held → kd = .request → x.queue.length < 8 → 4 ≤ outstanding → answers .tooManyOutstanding) ∧
          (held → (kd = .strip → x.queue.length < 4) → x.queue.length < 8 → (kd = .request → outstanding < 4) →
            ∃ u, exec (.post p v) s = .next u ∧ joins u ∧
              u.getChannel c = { x with nextTag := x.nextTag + 1, queue := x.queue ++ [m] } ∧
              (∀ n : BlockNo, n ∉ bs → u.pool.owner n = s.pool.owner n) ∧ u.pool.free = s.pool.free ∧
              u.chan.offered = s.chan.offered) ∧
          (∀ (before after : List TxMsg) (o : TxMsg), held → kd = .strip → x.queue = before ++ o :: after →
            let gone : OutcomeRecord :=
              { outcome := .superseded, tag := o.tag, kind := o.kind, dest := o.dest, tries := o.tries, takers := 0 };
            4 ≤ x.queue.length → (∀ e ∈ before, e.started = true) → o.started = false →
            ∃ u, exec (.post p v) s = .next u ∧ joins u ∧
              u.getChannel c = { x with
                nextTag := x.nextTag + 1
                queue := before ++ after ++ [m]
                outcomes := (x.outcomes ++ [gone]).drop (x.outcomes.length - 7)
                overflow := x.overflow || decide (8 ≤ x.outcomes.length)
                head := if before.isEmpty then .idle else x.head
                attempt := if before.isEmpty then none else x.attempt
                reoffer := if before.isEmpty then false else x.reoffer } ∧
              u.flag p .outcome = true ∧ u.pool.free = s.pool.free ++ o.blocks ∧
              (∀ n ∈ o.blocks, n ∉ bs → u.pool.owner n = .free) ∧
              (∀ n : BlockNo, n ∉ bs → n ∉ o.blocks → u.pool.owner n = s.pool.owner n) ∧
              u.chan.offered = if before.isEmpty && s.chan.offered.any (fun f => f.channel == c) then none
                else s.chan.offered))

/-- The arbiter of the allowance (R101 to R105): the first segment of the lowest-numbered ready channel is offered and
charged, and its attempt begins; one that does not fit shuts the arbiter; the end of the open phase stops own DATA (R28). -/
def Obligations.ArbiterOffersSegments : Prop :=
  (∀ s : State, exec .openPhaseEnd s = .next { s with chan := { s.chan with openPhase := false } }) ∧
  ∀ (s : State) (c : ChannelNo) (m : TxMsg) (rest : List TxMsg) (n : BlockNo) (bs : List BlockNo),
    let x := s.getChannel c
    s.chan.offered = none → s.chan.openPhase = true → s.ring.mode ≠ .isolated → s.chan.shut = false →
    0 < s.chan.allowance → (∀ k : ChannelNo, k.val < c.val → (s.getChannel k).isReady = false) →
    x.config.type ≠ .off → x.queue = m :: rest → x.head = .idle → x.attempt = none → m.blocks = n :: bs →
    1 ≤ m.length →
    let bytes : Nat := min m.length 256
    let charge : Nat :=
      if x.config.type = .image ∧ (s.ring.mode ≠ .through ∨ s.cyc.ring = .wrapped) then 2 * (bytes + 36)
      else bytes + 36
    (s.chan.allowance < charge →
      exec .segmentOffer s = .next { s with chan := { s.chan with shut := true } }) ∧
    (charge ≤ s.chan.allowance → ∃ u, exec .segmentOffer s = .next u ∧
      u.chan.offered = some
        { channel := c, index := 0,
          frame := { hdr := { origin := s.own, dest := m.dest, hops := 0, mark := .none, takers := 0 },
                     body := .data
                       { channel := c, tag := m.tag, attempt := x.attemptNo + 1, index := 0,
                         count := (m.length + 255) / 256, kind := m.kind, answers := m.answers, length := m.length,
                         strip := m.strip, stamp := m.stamp,
                         payload := Memory.readBytes s.pool.mem (256 * n.val) bytes } } } ∧
      u.chan.allowance = s.chan.allowance - charge ∧
      u.getChannel c = { x with
        attemptNo := x.attemptNo + 1, head := .inAttempt, reoffer := false,
        queue := { m with tries := if x.reoffer = true then m.tries else m.tries + 1 } :: rest,
        attempt := some { segs := List.replicate ((m.length + 255) / 256) .unsent, stopped := false } } ∧
      (∀ k : ChannelNo, k ≠ c → u.getChannel k = s.getChannel k) ∧ u = { s with chan := u.chan })

/-- The events of one object: the second cycle event since its start takes a segment as not returned (R105, R111), retry and
held wait end (R111), a context two cycle events without a segment is discarded with its blocks, slot and count (R109, R135),
and an outstanding entry whose age reaches T_resp leaves with NO_RESPONSE (R126). That each of these rows is a command of
its own for one object is the model's reading of the table (log entry 3); that the record of the EMPTY slot holds zeros and
no stamp is its choice (log entry 53). -/
def Obligations.WaitsAndTimeouts : Prop :=
  (∀ (s : State) (c : ChannelNo),
     let x := s.getChannel c
     (∀ (m : TxMsg) (rest : List TxMsg) (n : Nat), x.queue = m :: rest → m.finishing = false → m.dest ≠ 31 →
       m.kind = .event → x.attempt = some { segs := [.onWire n], stopped := false } → 1 ≤ n →
       (m.tries < 8 → exec (.segmentTimeout c 0) s = .next (s.modChannel c fun y =>
         { y with head := .idle, attempt := none, reoffer := false })) ∧
       (8 ≤ m.tries → x.outcomes.length < 8 → ∃ u, exec (.segmentTimeout c 0) s = .next u ∧
         u.getChannel c = { x with
           queue := rest, head := .idle, attempt := none, reoffer := false,
           outcomes := x.outcomes ++ [{ outcome := .failedLost, tag := m.tag, kind := .event, dest := m.dest,
                                        tries := m.tries, takers := 0 }] } ∧
         (∀ k : ChannelNo, k ≠ c → u.getChannel k = s.getChannel k) ∧ u.pool.free = s.pool.free ++ m.blocks ∧
         u.pool.mem = s.pool.mem ∧ u.flag x.config.owner .outcome = true ∧ u.cyc = s.cyc ∧ u.trip = s.trip ∧
         u.links = s.links ∧ u.ring = s.ring ∧ u.locks = s.locks ∧ u.pending = s.pending)) ∧
     (x.head = .retryWait → exec (.retryWaitEnd c) s =
       .next (s.modChannel c fun y => { y with head := .idle, reoffer := false })) ∧
     (x.head = .heldWait 15 → exec (.heldWaitEnd c) s =
       .next (s.modChannel c fun y => { y with head := .idle, reoffer := true }))) ∧
  ∀ s : State,
    (∀ (k : Fin 4) (c : Context), s.getContext k = some c → c.idle = 1 → c.kind ≠ .response →
      ∃ u, exec (.contextStale k) s = .next u ∧ u.getContext k = none ∧
        (∀ j : Fin 4, j ≠ k → u.getContext j = s.getContext j) ∧ u.pool.free = s.pool.free ++ c.blocks ∧
        (∀ n ∈ c.blocks, u.pool.owner n = .free) ∧ (∀ n : BlockNo, n ∉ c.blocks → u.pool.owner n = s.pool.owner n) ∧
        u.pool.mem = s.pool.mem ∧ u.chan.discards = bump s.chan.discards ∧
        (c.slot = none → u.chan.channels = s.chan.channels) ∧
        (∀ i : Nat, c.slot = some i → i < (s.getChannel c.channel).store.slots.length →
          (u.getChannel c.channel).store.slots[i]? = some Slot.blank ∧
          ∀ j : Nat, j ≠ i →
            (u.getChannel c.channel).store.slots[j]? = (s.getChannel c.channel).store.slots[j]?) ∧
        u = { s with chan := u.chan, pool := u.pool }) ∧
    ∀ (c : ChannelNo) (before after : List OutEntry) (e : OutEntry),
      (s.getChannel c).entries = before ++ e :: after → (∀ y ∈ before, ¬(y.dest = e.dest ∧ y.tag = e.tag)) →
      e.state = .waiting → e.age + 1 = (s.getChannel c).config.tResp → (s.getChannel c).outcomes.length < 8 →
      ∃ u, exec (.outstandingEntryTimeout c e.dest e.tag) s = .next u ∧
        u.getChannel c = { s.getChannel c with
          entries := before ++ after
          outcomes := (s.getChannel c).outcomes ++
            [{ outcome := .noResponse, tag := e.tag, kind := .request, dest := e.dest, tries := 0, takers := 0 }] } ∧
        (∀ k : ChannelNo, k ≠ c → u.getChannel k = s.getChannel k) ∧
        u.flag (s.getChannel c).config.owner .outcome = true ∧ u.cyc = s.cyc ∧ u.trip = s.trip ∧ s.SharedKept u

/-- CANCEL HEAD ends a head with no segment on the wire (R114), and the first word of the outcome window takes the oldest
record of the owner's list (R113, R172), with its tag beside it at a 32-bit port (R157). That the CANCELLED record of a head to
31 holds 0 takers is log entry 58. -/
def Obligations.CancelAndOutcomes : Prop :=
  ∀ (s : State) (p : Port) (v : Word16) (c : ChannelNo), s.clock.ready = true → v.toNat = c.val →
    let x := s.getChannel c
    let answers (code : Code) : Prop :=
      exec (.cancelHead p v) s = .next ((s.touched p).setCode p fun k => { k with cancelHead := code })
    (x.config.owner ≠ p → answers .notOwner) ∧
    (x.config.owner = p → x.queue = [] → answers .empty) ∧
    (∀ (m : TxMsg) (rest : List TxMsg), x.config.owner = p → x.queue = m :: rest →
      (∀ (a : Attempt) (n : Nat), x.attempt = some a → .onWire n ∈ a.segs → answers .inFlight) ∧
      (x.attempt = none → m.finishing = false → x.outcomes.length < 8 → ∃ u, exec (.cancelHead p v) s = .next u ∧
        u.getChannel c = { x with
          queue := rest, head := .idle, attempt := none, reoffer := false,
          outcomes := x.outcomes ++ [{ outcome := .cancelled, tag := m.tag, kind := m.kind, dest := m.dest,
                                       tries := m.tries, takers := 0 }] } ∧
        (∀ k : ChannelNo, k ≠ c → u.getChannel k = s.getChannel k) ∧ u.pool.free = s.pool.free ++ m.blocks ∧
        u.pool.mem = s.pool.mem ∧ u.flag p .outcome = true ∧ (u.port p).codes.cancelHead = .accepted ∧
        u.cyc = s.cyc ∧ u.ring = s.ring ∧ u.trip = s.trip ∧ u.locks = s.locks ∧ u.pending = s.pending)) ∧
    (∀ (r : OutcomeRecord) (rest : List OutcomeRecord), x.config.owner = p → x.outcomes = r :: rest →
      exec (.outcomeRead p c) s = .next (((s.touched p).modChannel c fun y =>
        { y with outcomes := rest, outView := y.outView.set p r }).drive p
          (if (s.port p).wide = true then r.tag.setWidth 16 ++ BitVec.ofNat 16 r.outcome.num
            else BitVec.ofNat 32 r.outcome.num))) ∧
    ((x.config.owner ≠ p ∨ x.outcomes = []) → exec (.outcomeRead p c) s =
      .next (((s.touched p).modChannel c fun y =>
        { y with outView := y.outView.set p { outcome := .none, tag := 0, kind := .none, dest := 0, tries := 0,
                                              takers := 0 } }).drive p 0))

/-- The receive queue at its owner port (R118 to R122): the descriptor reads the head, at a 32-bit port two words of it
(R157), a stream read at a 16-bit little-endian port returns its next two bytes, the last one and DISCARD HEAD free its
blocks, and HOLD and RELEASE act at once; with the queue empty a stream read is an overread. -/
def Obligations.ReceiveQueueIsRead : Prop :=
  ∀ (s : State) (p : Port) (v : Word16) (c : ChannelNo), s.clock.ready = true → v.toNat = c.val →
    let x := s.getChannel c
    let word (own : Nat) : BitVec 32 :=
      if (s.port p).wide = true then (BitVec.ofNat 16 own).setWidth 32 else BitVec.ofNat 32 own
    x.config.type = .screen → x.config.owner = p →
    (∀ (m : RxMsg) (rest : List RxMsg), x.rx = m :: rest →
      exec (.descriptorRead p c 0) s = .next ((s.touched p).drive p
        (if (s.port p).wide = true then BitVec.ofNat 16 m.kind.num ++ BitVec.ofNat 16 m.origin
          else BitVec.ofNat 32 m.origin)) ∧
      exec (.descriptorRead p c 5) s = .next ((s.touched p).drive p
        (if (s.port p).wide = true then BitVec.ofNat 16 m.length ++ (if m.toAll = true then 1#16 else 0#16)
          else BitVec.ofNat 32 m.length)) ∧
      exec (.descriptorRead p c 8) s = .next ((s.touched p).drive p (word x.readPos)) ∧
      (∃ u, exec (.discardHead p v) s = .next u ∧ u.getChannel c = { x with rx := rest, readPos := 0 } ∧
        u.pool.free = s.pool.free ++ m.blocks ∧ u.pool.mem = s.pool.mem ∧
        (u.port p).codes.discardHead = .accepted ∧ u.cyc = s.cyc ∧ u.locks = s.locks) ∧
      ∀ n : BlockNo, m.blocks = [n] → m.length ≤ 256 → (s.port p).wide = false → (s.port p).bigEndian = false →
        let lines : BitVec 32 :=
          ((if x.readPos + 1 < m.length then s.byte (256 * n.val + x.readPos + 1) else 0) ++
            (if x.readPos < m.length then s.byte (256 * n.val + x.readPos) else 0)).setWidth 32
        (x.readPos + 2 < m.length → exec (.streamRead p c) s =
          .next (((s.touched p).drive p lines).modChannel c fun y => { y with readPos := y.readPos + 2 })) ∧
        (m.length ≤ x.readPos + 2 → ∃ u, exec (.streamRead p c) s = .next u ∧ (u.port p).lines = lines ∧
          u.getChannel c = { x with rx := rest, readPos := 0 } ∧ u.pool.free = s.pool.free ++ [n] ∧
          u.pool.owner n = .free ∧ u.pool.mem = s.pool.mem ∧ u.cyc = s.cyc ∧ u.locks = s.locks)) ∧
    (x.rx = [] → exec (.discardHead p v) s =
        .next ((s.touched p).setCode p fun k => { k with discardHead := .empty }) ∧
      exec (.streamRead p c) s = .next (((s.touched p).modPort p fun u => { u with overread := true }).drive p 0)) ∧
    exec (.hold p v) s = .next (((s.touched p).modChannel c fun y => { y with held := true }).setCode p fun k =>
      { k with hold := .accepted }) ∧
    exec (.release p v) s = .next (((s.touched p).modChannel c fun y => { y with held := false }).setCode p fun k =>
      { k with release := .accepted })

/-- The strip store at its owner port (R137 to R140, R142): a READY slot is opened, read from its first byte on, closed as
READY or released with its blocks freed; FREEZE and RESUME set the store's state, STORE marking a new freeze. That the record
of a released slot holds zeros and no stamp is the model's choice (log entry 53). -/
def Obligations.StripStoreIsRead : Prop :=
  ∀ (s : State) (p : Port) (v : Word16) (c : ChannelNo), s.clock.ready = true → v.toNat = c.val →
    let x := s.getChannel c
    let store (u : State) : List Slot := (u.getChannel c).store.slots
    x.config.type = .image → x.config.owner = p →
    (∀ (i : Fin 32) (y : Slot), (∀ z ∈ x.store.slots, z.state ≠ .reading) → x.store.slots[i.val]? = some y →
      y.state = .ready → ∃ u, exec (.openSlot p v (BitVec.ofNat 16 i.val)) s = .next u ∧
        (store u)[i.val]? = some { y with state := .reading } ∧
        (∀ j : Nat, j ≠ i.val → (store u)[j]? = x.store.slots[j]?) ∧ (u.getChannel c).store.readPos = 0 ∧
        (u.port p).codes.openSlot = .accepted ∧ (u.port p).slotOpened = i.val ∧ u.cyc = s.cyc ∧ s.SharedKept u) ∧
    (∀ (i : Nat) (y : Slot), x.store.slots[i]? = some y → y.state = .reading →
      (∀ (j : Nat) (z : Slot), x.store.slots[j]? = some z → z.state = .reading → j = i) →
      (∀ slot : Word16, exec (.openSlot p v slot) s =
        .next ((s.touched p).setCode p fun k => { k with openSlot := .busy })) ∧
      (∀ n : BlockNo, y.blocks = [n] → y.length ≤ 256 → x.store.readPos + 2 ≤ y.length → (s.port p).wide = false →
        (s.port p).bigEndian = false → exec (.stripRead p c) s =
          .next (((s.touched p).drive p ((s.byte (256 * n.val + x.store.readPos + 1) ++
            s.byte (256 * n.val + x.store.readPos)).setWidth 32)).modChannel c fun z =>
              { z with store := { z.store with readPos := z.store.readPos + 2 } })) ∧
      (y.length ≤ x.store.readPos → exec (.stripRead p c) s =
        .next (((s.touched p).modPort p fun u => { u with overread := true }).drive p 0)) ∧
      (∃ u, exec (.closeSlot p v) s = .next u ∧ (store u)[i]? = some { y with state := .ready } ∧
        (∀ j : Nat, j ≠ i → (store u)[j]? = x.store.slots[j]?) ∧ (u.port p).codes.closeSlot = .accepted ∧
        u.cyc = s.cyc ∧ s.SharedKept u) ∧
      (∃ u, exec (.releaseSlot p v) s = .next u ∧ (store u)[i]? = some Slot.blank ∧
        (∀ j : Nat, j ≠ i → (store u)[j]? = x.store.slots[j]?) ∧ u.pool.free = s.pool.free ++ y.blocks ∧
        u.pool.mem = s.pool.mem ∧ (u.port p).codes.releaseSlot = .accepted ∧ u.cyc = s.cyc ∧ u.locks = s.locks)) ∧
    (x.store.frozen = true → exec (.freeze p v) s =
      .next ((s.touched p).setCode p fun k => { k with freeze := .accepted })) ∧
    (x.store.frozen = false → ∃ u, exec (.freeze p v) s = .next u ∧
      u.getChannel c = { x with store := { x.store with frozen := true } } ∧ u.flag p .store = true ∧
      (u.port p).codes.freeze = .accepted ∧ u.cyc = s.cyc ∧ s.SharedKept u) ∧
    exec (.resume p v) s = .next (((s.touched p).modChannel c fun y =>
      { y with store := { y.store with frozen := false } }).setCode p fun k => { k with resume := .accepted })

/-! ### Node configuration, attachment and plans -/

/-- Port A's node address, role and configuration words (R23, R163): refused while attached where the rules say so, else
stored in range under the clamp flag, P_c rounded down to a multiple of 125 first. -/
def Obligations.ConfigurationWordsAreStored : Prop :=
  ∀ (s : State) (v : Word16), s.clock.ready = true →
    (s.cyc.attached = true → exec (.nodeAddress .a v) s =
      .next ((s.touched .a).setCode .a fun c => { c with nodeAddress := .attached })) ∧
    (s.cyc.attached = false → 30 < v.toNat → exec (.nodeAddress .a v) s =
      .next ((s.touched .a).setCode .a fun c => { c with nodeAddress := .badAddress })) ∧
    (s.cyc.attached = false → v.toNat ≤ 30 → exec (.nodeAddress .a v) s =
      .next (((s.touched .a).setCode .a fun c => { c with nodeAddress := .accepted }).modCyc fun u =>
        { u with address := some v.toNat })) ∧
    ((s.cyc.attached = true ∧ (s.cyc.role = .leader ∨ 2 ≤ v.toNat)) → exec (.roleWrite .a v) s =
      .next ((s.touched .a).modCyc fun u => { u with configResult := .attached })) ∧
    ((s.cyc.attached = false ∨ (s.cyc.role ≠ .leader ∧ v.toNat < 2)) → exec (.roleWrite .a v) s =
      .next ((s.touched .a).modCyc fun u =>
        { u with
          role := if v.toNat = 0 then .follower else if v.toNat = 1 then .standby else .leader
          configResult := .accepted
          clampFlag := u.clampFlag || decide (2 < v.toNat) })) ∧
    (s.cyc.attached = true → exec (.configurationWrite .a .period v) s =
      .next ((s.touched .a).modCyc fun u => { u with configResult := .attached })) ∧
    (let stored (n lo hi : Nat) (f : Nat → NodeConfig) : State := (s.touched .a).modCyc fun u =>
        { u with
          config := f (max lo (min n hi))
          configResult := .accepted
          clampFlag := u.clampFlag || decide (n < lo ∨ hi < n) }
      let x := s.cyc.config
      (s.cyc.attached = false → exec (.configurationWrite .a .period v) s =
        .next (stored (v.toNat - v.toNat % 125) 250 4000 fun n => { x with periodMicros := n })) ∧
      exec (.configurationWrite .a .holdLimit v) s =
        .next (stored v.toNat 1 32 fun n => { x with holdLimit := n }) ∧
      exec (.configurationWrite .a .captureWindow v) s =
        .next (stored v.toNat 1 50 fun n => { x with captureMicros := n }) ∧
      exec (.configurationWrite .a .lockCount v) s =
        .next (stored v.toNat 4 64 fun n => { x with lockCount := n }) ∧
      exec (.configurationWrite .a .takeCount v) s =
        .next (stored v.toNat 1 32 fun n => { x with takeCount := n }) ∧
      exec (.configurationWrite .a .allowance v) s =
        .next (stored v.toNat 0 65535 fun n => { x with allowance := n }))

/-- ATTACH at port A (R164): refused while attached, without an address or off the crystal; accepted, the lasers go on with
both links DOWN in their hold-off, and the node is ISOLATED, UNLOCKED and follows nobody, its axes OFF. -/
def Obligations.AttachStartsTheNode : Prop :=
  ∀ s : State, s.clock.ready = true →
    let answers (c : Code) : Prop :=
      exec (.attach .a) s = .next ((s.touched .a).setCode .a fun k => { k with attach := c })
    (s.cyc.attached = true → answers .attached) ∧
    (s.cyc.attached = false → s.cyc.address = none → answers .noAddress) ∧
    (s.cyc.attached = false → s.cyc.address ≠ none → s.clock.state ≠ .crystal → answers .clockFault) ∧
    (s.cyc.attached = false → s.cyc.address ≠ none → s.clock.state = .crystal → ∃ u, exec (.attach .a) s = .next u ∧
      (u.port .a).codes.attach = .accepted ∧ u.cyc.attached = true ∧ u.cyc.address = s.cyc.address ∧
      u.cyc.role = s.cyc.role ∧ u.cyc.phase = (if s.cyc.role = .leader then .waiting else .none) ∧
      u.cyc.lock = .unlocked ∧ u.cyc.leader = none ∧ u.cyc.reference = none ∧ u.cyc.pendingSwitch = none ∧
      u.cyc.runningDown = false ∧ u.cyc.period = s.cyc.config.periodMicros * 1000 ∧ u.cyc.good = 0 ∧
      u.cyc.missed = 0 ∧ u.cyc.ring = .closed ∧ u.cyc.epoch = s.cyc.epoch ∧ u.cyc.config = s.cyc.config ∧
      u.cyc.rosters = s.cyc.rosters ∧ u.cyc.activePlan = s.cyc.activePlan ∧
      (∀ a : Fin 31, u.cyc.presence[a.val] = none ∧ u.cyc.missing[a.val] = 0) ∧ u.ring.mode = .isolated ∧
      (∀ d : Side, (u.link d).state = .down ∧ (u.link d).laser = true ∧ (u.link d).holdOff = true ∧
        (u.link d).delay = (s.link d).delay ∧ (u.link d).delayMeasured = false ∧ (u.link d).heard = false ∧
        (u.link d).window = []) ∧
      (∀ i : ShaftNo, u.getShaft i = { s.getShaft i with stepFault := false }) ∧ u.shafts.resyncPending = false ∧
      (∀ i : AxisNo, (u.getAxis i).state = .off ∧ (u.getAxis i).p = (s.getAxis i).p) ∧ u.trip = s.trip ∧
      u.clock = s.clock ∧ s.SharedKept u)

/-- DETACH at port A (R165): refused while detached or while an axis is not OFF; accepted, the links go DOWN with their
lasers off, the frames and own frames waiting are dropped, the node is ISOLATED and UNLOCKED, its shafts rest where they
stand, SENT corrections are LOST and assemblies are discarded. -/
def Obligations.DetachStopsTheNode : Prop :=
  ∀ s : State, s.clock.ready = true →
    let answers (c : Code) : Prop :=
      exec (.detach .a) s = .next ((s.touched .a).setCode .a fun k => { k with detach := c })
    (s.cyc.attached = false → answers .notAttached) ∧
    (s.cyc.attached = true → (∃ i : AxisNo, (s.getAxis i).state ≠ .off) → answers .axesActive) ∧
    (s.cyc.attached = true → (∀ i : AxisNo, (s.getAxis i).state = .off) → ∃ u, exec (.detach .a) s = .next u ∧
      (u.port .a).codes.detach = .accepted ∧ u.cyc.attached = false ∧ u.cyc.phase = .none ∧ u.cyc.role = s.cyc.role ∧
      u.cyc.lock = .unlocked ∧ u.cyc.leader = none ∧ u.cyc.reference = none ∧ u.cyc.pendingSwitch = none ∧
      u.cyc.runningDown = false ∧ u.cyc.address = s.cyc.address ∧ u.cyc.config = s.cyc.config ∧
      u.cyc.cycle = s.cyc.cycle ∧
      (∀ d : Side, (u.link d).state = .down ∧ (u.link d).laser = false ∧ (u.link d).heard = false ∧
        ((s.link d).state ≠ .down → (u.link d).downReason = .detached ∧
          (u.link d).downCount = bump (s.link d).downCount) ∧
        ((s.link d).state = .down → (u.link d).downReason = (s.link d).downReason ∧
          (u.link d).downCount = (s.link d).downCount)) ∧
      u.ring = { s.ring with
        mode := .isolated, buffer := [], ownFlash := [], ownCycleStart := none, ownStatus := none } ∧
      (∀ i : ShaftNo, u.getShaft i = { s.getShaft i with vel := 0, target := 0, step := 0, stepFault := false }) ∧
      u.axis = { s.axis with outbox := s.axis.outbox.map fun e =>
        if e.state = .sent then { e with state := .done, outcome := .lost } else e } ∧
      (∀ k : Fin 4, u.getContext k = none) ∧ u.chan.offered = none ∧ u.chan.openPhase = false ∧
      (∀ c : ChannelNo, (u.getChannel c).rx = (s.getChannel c).rx ∧
        (u.getChannel c).outcomes = (s.getChannel c).outcomes) ∧
      u.trip = { s.trip with stagedReset := false } ∧ u.pool.mem = s.pool.mem ∧ u.locks = s.locks ∧
      u.clock = s.clock ∧ u.pending = s.pending)

/-- A port's soft reset (R115, R129, R148, R166): its blocks are FREE, its locks free with LOCKFREE to a waiter, its signals
and enables clear, its outbox entries gone, its channels' queues empty but for a head with a segment on the wire, and its own
unit at its RESET values; memory, the other port's channels and, where the blocks are owned as R94 says, its blocks stay. -/
def Obligations.SoftResetReturnsThePort : Prop :=
  ∀ (s : State) (p : Port), s.clock.ready = true → ∃ u, exec (.portSoftReset p) s = .next u ∧
    (∀ n : BlockNo, s.pool.owner n = .port p → u.pool.owner n = .free) ∧
    (s.BlocksOk → ∀ n : BlockNo, s.pool.owner n = .port p.other → u.pool.owner n = .port p.other) ∧
    u.pool.mem = s.pool.mem ∧
    (∀ j : LockNo,
      ((s.getLock j).holder = some p → u.getLock j = { holder := none, waiter := none } ∧
        ((s.getLock j).waiter = some p.other → u.flag p.other .lockfree = true)) ∧
      ((s.getLock j).holder ≠ some p → (u.getLock j).holder = (s.getLock j).holder ∧
        (u.getLock j).waiter = if (s.getLock j).waiter = some p then none else (s.getLock j).waiter)) ∧
    u.locks.notify.get p = 0 ∧ u.locks.signals.get p = 0 ∧ u.locks.enables.get p = 0 ∧
    u.locks.giveRefused.get p = false ∧ u.locks.signals.get p.other = s.locks.signals.get p.other ∧
    u.locks.enables.get p.other = s.locks.enables.get p.other ∧ u.locks.bindings = s.locks.bindings ∧
    (u.port p).flags = 0 ∧ (u.port p).enables = 0 ∧ (u.port p).capture = none ∧ (u.port p).accessCount = 0 ∧
    (u.port p).wide = (s.port p).wide ∧ (u.port p).bigEndian = false ∧ (u.port p).select = some 0 ∧
    (u.port p).latch = .empty ∧ (u.port p).takeRefusedCount = 0 ∧ (u.port p).codes.post = .none ∧
    (u.port p.other).enables = (s.port p.other).enables ∧
    u.axis.outbox = s.axis.outbox.filter (fun e => decide (e.port ≠ p)) ∧ u.axis.axes = s.axis.axes ∧
    u.axis.snapshot = (if p = .a then none else s.axis.snapshot) ∧
    (∀ c : ChannelNo,
      ((s.getChannel c).config.owner = p → (u.getChannel c).rx = [] ∧ (u.getChannel c).entries = [] ∧
        (u.getChannel c).outcomes = [] ∧ (u.getChannel c).held = false ∧
        (u.getChannel c).config = (s.getChannel c).config ∧ (u.getChannel c).store.frozen = false ∧
        (∀ y ∈ (u.getChannel c).store.slots, y.state = .empty) ∧
        (∀ (m : TxMsg) (rest : List TxMsg) (a : Attempt) (n : Nat), (s.getChannel c).queue = m :: rest →
          (s.getChannel c).attempt = some a → .onWire n ∈ a.segs →
          (u.getChannel c).queue = [{ m with finishing := true }]) ∧
        ((s.getChannel c).attempt = none → (∀ m ∈ (s.getChannel c).queue, m.finishing = false) →
          (u.getChannel c).queue = [] ∧ (u.getChannel c).head = .idle)) ∧
      ((s.getChannel c).config.owner ≠ p → (u.getChannel c).queue = (s.getChannel c).queue ∧
        (u.getChannel c).rx = (s.getChannel c).rx ∧ (u.getChannel c).outcomes = (s.getChannel c).outcomes ∧
        (u.getChannel c).store = (s.getChannel c).store)) ∧
    u.shafts = s.shafts ∧ u.trip = s.trip ∧ u.ring = s.ring ∧ u.links = s.links ∧ u.clock = s.clock ∧
    u.pending = s.pending

/-- Rosters and staging (R38, R40): a roster takes the addresses written; one added while leading starts with a missing count
of 0, at once in the active plan's roster and as the plan comes into use in another's (log entry 28); a staging answers the
first code that applies, and an accepted one stands as the pending switch. A CANCEL PLAN that cancels it reads back ACCEPTED,
the model's choice (log entry 67), and changes nothing else at the ports but the PLAN flag. -/
def Obligations.PlanSwitchesAreStaged : Prop :=
  ∀ s : State, s.clock.ready = true →
    (∀ (k : PlanNo) (set : BitVec 32), ∃ u, exec (.rosterWrite .a k set) s = .next u ∧
      u.cyc.rosters[k.val] = set.setWidth 31 ∧
      (∀ j : PlanNo, j ≠ k → u.cyc.rosters[j.val] = s.cyc.rosters[j.val]) ∧
      (∀ a : Fin 31, u.cyc.missing[a.val] =
        if s.leading = true ∧ k = s.cyc.activePlan ∧ set.getLsbD a.val = true ∧
            (s.cyc.rosters[k.val]).getLsbD a.val = false then 0 else s.cyc.missing[a.val]) ∧
      (∀ (j : PlanNo) (a : Fin 31), (u.cyc.added[j.val]).getLsbD a.val =
        if s.leading = true ∧ j = k ∧ k ≠ s.cyc.activePlan then
          set.getLsbD a.val && ((s.cyc.added[k.val]).getLsbD a.val || !(s.cyc.rosters[k.val]).getLsbD a.val)
        else (s.cyc.added[j.val]).getLsbD a.val) ∧
      u = { s.touched .a with
        cyc := { s.cyc with rosters := u.cyc.rosters, missing := u.cyc.missing, added := u.cyc.added } }) ∧
    (∀ w : PlanSwitch, s.leading = true → s.cyc.pendingSwitch = some w → 3 ≤ (w.cycle - s.cyc.cycle).toNat →
      ∃ u, exec (.cancelPlan .a) s = .next u ∧ ∀ p : Port, u.port p = { (s.touched .a).port p with
        flags := (s.port p).flags ||| Event.plan.mask
        codes := { (s.port p).codes with
          cancelPlan := if p = .a then .accepted else (s.port p).codes.cancelPlan } }) ∧
    ∀ (v : Word16) (n : Cycle),
      let ahead : Nat := (n - s.cyc.cycle).toNat
      let answers (c : Code) (w : Option PlanSwitch) : Prop := exec (.planStagingWrite .a v n) s =
        .next (((s.touched .a).setCode .a fun k => { k with staging := c }).modCyc fun u =>
          { u with stagingPlan := v, stagingCycle := n, pendingSwitch := w })
      (s.leading = false → answers .notLeader s.cyc.pendingSwitch) ∧
      (s.leading = true → s.cyc.pendingSwitch ≠ none → answers .busy s.cyc.pendingSwitch) ∧
      (s.leading = true → s.cyc.pendingSwitch = none →
        (v.toNat = s.cyc.activePlan.val → answers .noChange none) ∧
        (v.toNat ≠ s.cyc.activePlan.val → (ahead < 8 ∨ 32767 < ahead) → answers .tooSoon none) ∧
        (v.toNat ≠ s.cyc.activePlan.val → 8 ≤ ahead → ahead ≤ 32767 → ∀ k : PlanNo, v.toNat = k.val →
          (s.cyc.rosters[k.val] = 0 → answers .noRoster none) ∧
          (s.cyc.rosters[k.val] ≠ 0 → answers .accepted (some { plan := k, cycle := n }))))

/-- CANCEL PLAN (R43): its three refusing answers, what one that cancels does, and that the next CYCLE_START carries no
switch. -/
def Obligations.CancelPlanCancelsTheSwitch : Prop :=
  ∀ s : State, s.clock.ready = true →
    let answers (c : Code) : State := (s.touched .a).setCode .a fun k => { k with cancelPlan := c }
    (s.leading = false → exec (.cancelPlan .a) s = .next (answers .notLeader)) ∧
    (s.leading = true → s.cyc.pendingSwitch = none → exec (.cancelPlan .a) s = .next (answers .none)) ∧
    (∀ w : PlanSwitch, s.leading = true → s.cyc.pendingSwitch = some w →
      ((w.cycle - s.cyc.cycle).toNat < 3 → exec (.cancelPlan .a) s = .next (answers .tooLate)) ∧
      (3 ≤ (w.cycle - s.cyc.cycle).toNat → ∃ u, exec (.cancelPlan .a) s = .next u ∧
        u.cyc = { s.cyc with
          pendingSwitch := none,
          planRecord := { outcome := .cancelled, plan := w.plan, cycle := s.cyc.cycle } } ∧
        (∀ p : Port, (u.port p).flags = (s.port p).flags ||| Event.plan.mask) ∧
        u.cycleStart.pendingSwitch = none ∧ u = { s with cyc := u.cyc, ports := u.ports }))

/-! ### Locks, signals, events and accesses -/

/-- Taking and giving locks (R145, R146), the take word's answer standing in its half of a 32-bit port's pair (R157), and the
notify options (R147); signals and their enables (R151, R152), event flags and enables (R153), and the capture (R161). What
stands in the other half, the status word of the lock before an odd one and 0 beside an even one, rests on the model's
placement of status bits and its reading of a give word (log entry 15). -/
def Obligations.LocksSignalsAndEvents : Prop :=
  (∀ (s : State) (p : Port) (j : LockNo), s.clock.ready = true →
     let l := s.getLock j
     let answer (code : BitVec 16) : BitVec 32 :=
       if (s.port p).wide = true ∧ j.val % 2 = 1 then code ++ BitVec.ofNat 16 (s.besideTake j) else code.setWidth 32
     (l.holder = none → exec (.lockTake p j) s =
       .next (((s.touched p).modLock j fun l => { l with holder := some p }).drive p (answer 2))) ∧
     (l.holder = some p → exec (.lockTake p j) s = .next ((s.touched p).drive p (answer 3))) ∧
     (l.holder = some p.other → exec (.lockTake p j) s =
       .next (((s.touched p).modLock j fun l =>
         { l with waiter := if (s.locks.notify.get p).getLsbD j.val = true then some p else l.waiter }).drive p
           (answer 4))) ∧
     (l.holder = some p → l.waiter = none → exec (.lockGive p j) s =
       .next ((s.touched p).modLock j fun _ => { holder := none, waiter := none })) ∧
     (∀ q : Port, l.holder = some p → l.waiter = some q → exec (.lockGive p j) s =
       .next (((s.touched p).modLock j fun _ => { holder := none, waiter := none }).modPort q fun u =>
         { u with flags := u.flags ||| Event.lockfree.mask })) ∧
     (l.holder ≠ some p → exec (.lockGive p j) s =
       .next ((s.touched p).modLocks fun u => { u with giveRefused := u.giveRefused.set p true })) ∧
     ∀ v : Word16, ∃ u, exec (.notifyOptionsWrite p v) s = .next u ∧ u.locks.notify.get p = v ∧
       u.locks.notify.get p.other = s.locks.notify.get p.other ∧
       (∀ k : LockNo, (u.getLock k).holder = (s.getLock k).holder ∧ (u.getLock k).waiter =
         if v.getLsbD k.val = false ∧ (s.getLock k).waiter = some p then none else (s.getLock k).waiter) ∧
       u = { s.touched p with locks := { s.locks with locks := u.locks.locks, notify := u.locks.notify } }) ∧
  ∀ (s : State) (p : Port) (v : Word16), s.clock.ready = true →
    (∃ u, exec (.signalSet p v) s = .next u ∧
      u.locks = { s.locks with signals := s.locks.signals.set p.other (s.locks.signals.get p.other ||| v) } ∧
      ((∃ i : Fin 16, v.getLsbD i.val = true ∧ (s.locks.signals.get p.other).getLsbD i.val = false ∧
          (s.locks.enables.get p.other).getLsbD i.val = true) → u.flag p.other .signal = true) ∧
      ((∀ i : Fin 16, v.getLsbD i.val = true → (s.locks.enables.get p.other).getLsbD i.val = true →
          (s.locks.signals.get p.other).getLsbD i.val = true) → u.ports = (s.touched p).ports) ∧
      u = { s with locks := u.locks, ports := u.ports }) ∧
    exec (.signalClear p v) s = .next ((s.touched p).modLocks fun u =>
      { u with signals := u.signals.set p (u.signals.get p &&& ~~~v) }) ∧
    (∃ u, exec (.signalEnableWrite p v) s = .next u ∧
      u.locks = { s.locks with enables := s.locks.enables.set p v } ∧
      ((∃ i : Fin 16, v.getLsbD i.val = true ∧ (s.locks.enables.get p).getLsbD i.val = false ∧
          (s.locks.signals.get p).getLsbD i.val = true) → u.flag p .signal = true) ∧
      ((∀ i : Fin 16, v.getLsbD i.val = true → (s.locks.signals.get p).getLsbD i.val = true →
          (s.locks.enables.get p).getLsbD i.val = true) → u.ports = (s.touched p).ports) ∧
      u = { s with locks := u.locks, ports := u.ports }) ∧
    (∃ u, exec (.eventClear p v) s = .next u ∧
      (∀ e : Event, u.flag p e = (s.flag p e && !v.getLsbD e.bit)) ∧
      u = (s.touched p).modPort p fun x => { x with flags := (u.port p).flags }) ∧
    (∃ u, exec (.eventEnableWrite p v) s = .next u ∧
      (∀ e : Event, (u.port p).enables.getLsbD e.bit = v.getLsbD e.bit) ∧
      u = (s.touched p).modPort p fun x => { x with enables := (u.port p).enables }) ∧
    exec (.captureClear p) s = .next ((s.touched p).modPort p fun u => { u with capture := none })

/-- A refused access raises ACCESS, fills an empty capture and counts (R155, R161): undefined reads and writes, writes of
read-only words, port A's words written by port B, and a guarded area binding. At a 32-bit port the two halves of a pair make
one ACCESS with the even word's address, and none where the other half is taken (R157; log entry 55, and 15 for the reason of a
guarded pair). At a 16-bit port a write clears the foreign count at 0027h, the discard count by name, and sets words, and a
read of the local period's low word at 001Ch holds its high word for the read of 001Dh (R157, R158, R170). That these two items
stand there, since the reference send time and the last ε take pairs at 18h and 20h before them, is the model's placement (log
entry 15). The registers that the map gives no address, and that the rules let both ports read, are read by name, the model's
choice (log entry 14). -/
def Obligations.AccessesAtAPort : Prop :=
  ((∀ (s : State) (p : Port) (addr : Word16) (write : Bool) (reason : AccessReason),
     let u := access p addr write reason s
     u.flag p .access = true ∧ (u.port p).accessCount = bump (s.port p).accessCount ∧
     ((s.port p).capture = none → (u.port p).capture = some { addr := addr, write := write, reason := reason }) ∧
     (∀ c : Capture, (s.port p).capture = some c → (u.port p).capture = some c) ∧
     u.port p.other = s.port p.other ∧ u = { s with ports := u.ports }) ∧
   (∀ (s : State) (p : Port) (a : Word16) (w : BitVec 32), s.clock.ready = true → (s.port p).wide = false →
     0x4000 ≤ a.toNat →
     exec (.undefinedAccess p a none) s = .next ((access p a false .undefined (s.touched p)).drive p 0) ∧
     exec (.undefinedAccess p a (some w)) s = .next (access p a true .undefined (s.touched p)) ∧
     exec (.registerWrite p (.addr a) w) s = .next (access p a true .undefined (s.touched p))) ∧
   (∀ (s : State) (p : Port) (a : Word16) (w : BitVec 32), s.clock.ready = true → (s.port p).wide = true →
     0x4000 ≤ a.toNat →
     exec (.undefinedAccess p a none) s = .next ((access p (a &&& 0xFFFE) false .undefined (s.touched p)).drive p 0) ∧
     exec (.undefinedAccess p a (some w)) s = .next (access p (a &&& 0xFFFE) true .undefined (s.touched p))) ∧
   (∀ (s : State) (i : AxisNo) (j : LockNo) (odd : Bool) (w : BitVec 32), s.clock.ready = true →
     (s.port .a).wide = true → (s.getAxis i).guardLock = some j → (s.getLock j).holder ≠ some .a →
     exec (.registerWrite .a (.addr (axisAddr i (if odd = true then 0x21 else 0x20))) w) s =
       .next (access .a (axisAddr i 0x20) true .guarded (s.touched .a))) ∧
   (∀ (s : State) (p : Port) (w : BitVec 32), s.clock.ready = true → (s.port p).wide = false →
     exec (.registerWrite p (.addr 0x0016) w) s = .next (access p 0x0016 true .readOnly (s.touched p))) ∧
   (∀ (s : State) (v : Word16), s.clock.ready = true →
     let refused (word even : Word16) : State :=
       access .b (if (s.port .b).wide = true then even else word) true .readOnly (s.touched .b)
     exec (.nodeAddress .b v) s = .next (refused 0x0002 0x0002) ∧
     exec (.attach .b) s = .next (refused 0x0003 0x0002) ∧
     ((s.port .b).wide = false →
       exec (.detach .b) s = .next (refused 0x0004 0x0004) ∧ exec (.clockRestart .b) s = .next (refused 0x0009 0x0009)) ∧
     ((s.port .b).wide = true →
       exec (.detach .b) s = .next (s.touched .b) ∧ exec (.clockRestart .b) s = .next (s.touched .b)) ∧
     exec (.roleWrite .b v) s = .next (refused 0x000A 0x000A) ∧
     exec (.configurationWrite .b .period v) s = .next (refused 0x000B 0x000A) ∧
     exec (.cancelPlan .b) s = .next (refused 0x00B4 0x00B4) ∧
     exec (.engage .b v) s = .next (refused 0x0638 0x0638) ∧
     exec (.disengage .b v) s = .next (refused 0x0639 0x0638) ∧
     exec (.drop .b v) s = .next (refused 0x063A 0x063A)) ∧
   (∀ (s : State) (p : Port) (d : Side) (c : ChannelNo), s.clock.ready = true →
     let reads (q : Unplaced) (v : Nat) : Prop :=
       exec (.wideFieldLowWordRead p (.unplaced q)) s = .next ((s.touched p).drive p (BitVec.ofNat 32 (v % 65536)))
     let yes (b : Bool) : Nat := if b = true then 1 else 0
     reads (.link d .laser) (yes (s.link d).laser) ∧
     reads (.link d .neighbour) ((s.link d).neighbour.getD 0xFFFF) ∧
     reads (.link d .goodRun) (s.link d).run ∧
     reads .staleCount s.axis.stale ∧
     reads (.blocksHeld p) ((List.finRange 512).filter fun n => decide (s.pool.owner n = .port p)).length ∧
     reads (.trip .stagedReset) (yes s.trip.stagedReset) ∧
     reads (.trip .topSource) ((s.trip.topSource.map fun n => n.val).getD 0xFFFF) ∧
     reads (.channel c .hold) (yes (s.getChannel c).held) ∧
     reads (.channel c .completionSequence) (s.getChannel c).store.nextSeq ∧
     reads (.outcomeOverflow c) (yes (s.getChannel c).overflow) ∧
     reads .lockGiveRefused (yes (s.locks.giveRefused.get p)) ∧
     ∀ a : AreaNo, reads (.areaBinding a) (((s.locks.bindings[a.val]).map fun j => j.val).getD 0xFFFF)) ∧
   ∀ (s : State) (a : AreaNo) (v : Word16), s.clock.ready = true →
     ((∀ j : LockNo, s.locks.bindings[a.val] = some j → (s.getLock j).holder = some .a) →
       (∀ k : LockNo, v.toNat = k.val → exec (.areaBindingWrite .a a v) s = .next ((s.touched .a).modLocks fun u =>
         { u with bindings := u.bindings.set a.val (some k) })) ∧
       (v = 0xFFFF → exec (.areaBindingWrite .a a v) s = .next ((s.touched .a).modLocks fun u =>
         { u with bindings := u.bindings.set a.val none }))) ∧
     ∀ j : LockNo, s.locks.bindings[a.val] = some j → (s.getLock j).holder ≠ some .a →
       exec (.areaBindingWrite .a a v) s = .next (access .a
         (if (s.port .a).wide = true then (Unplaced.areaBinding a).addr &&& 0xFFFE else (Unplaced.areaBinding a).addr) true
         .guarded (s.touched .a))) ∧
  ∀ (s : State) (p : Port) (w : BitVec 32), s.clock.ready = true → (s.port p).wide = false →
    exec (.registerWrite p (.addr 0x0027) w) s =
      .next ((s.touched p).modCyc fun u => { u with foreign := 0 }) ∧
    (w.setWidth 16 = 1#16 → exec (.registerWrite p (.addr 0x0006) w) s =
      .next ((s.touched p).modPort p fun u => { u with bigEndian := true })) ∧
    exec (.registerWrite p (.addr 0x0C02) w) s =
      .next ((s.touched p).modPort p fun u => { u with posting := { u.posting with length := w.setWidth 16 } }) ∧
    exec (.registerWrite p (.unplaced .discardCount) w) s =
      .next ((s.touched p).modChan fun u => { u with discards := 0 }) ∧
    (let period : BitVec 32 := BitVec.ofInt 32 s.cyc.period
      let held : State := (s.modPort p fun u =>
        { u with latch := .reading 0x1D [period.extractLsb' 16 16] }).drive p
          ((period.extractLsb' 0 16).setWidth 32)
      exec (.wideFieldLowWordRead p (.addr 0x001C)) s = .next held ∧
      ∀ t : State, t.clock.ready = true → t.port p = held.port p →
        exec (.wideFieldLowWordRead p (.addr 0x001D)) t =
          .next ((t.touched p).drive p ((period.extractLsb' 16 16).setWidth 32)))
end

