-- ==== Sys2Proof/Laws/State.lean ====
section
/-!
SUPPORT. One lemma per field per update of the state, true by unfolding, so that no proof opens a record update; then reads
of one part after a write of another.
-/

namespace Sys2Proof.Machine

@[simp] theorem State.modClock_clock (s : State) (f : ClockUnit → ClockUnit) : (s.modClock f).clock = f s.clock := rfl
@[simp] theorem State.modClock_links (s : State) (f : ClockUnit → ClockUnit) : (s.modClock f).links = s.links := rfl
@[simp] theorem State.modClock_ring (s : State) (f : ClockUnit → ClockUnit) : (s.modClock f).ring = s.ring := rfl
@[simp] theorem State.modClock_cyc (s : State) (f : ClockUnit → ClockUnit) : (s.modClock f).cyc = s.cyc := rfl
@[simp] theorem State.modClock_shafts (s : State) (f : ClockUnit → ClockUnit) : (s.modClock f).shafts = s.shafts := rfl
@[simp] theorem State.modClock_axis (s : State) (f : ClockUnit → ClockUnit) : (s.modClock f).axis = s.axis := rfl
@[simp] theorem State.modClock_trip (s : State) (f : ClockUnit → ClockUnit) : (s.modClock f).trip = s.trip := rfl
@[simp] theorem State.modClock_pool (s : State) (f : ClockUnit → ClockUnit) : (s.modClock f).pool = s.pool := rfl
@[simp] theorem State.modClock_chan (s : State) (f : ClockUnit → ClockUnit) : (s.modClock f).chan = s.chan := rfl
@[simp] theorem State.modClock_locks (s : State) (f : ClockUnit → ClockUnit) : (s.modClock f).locks = s.locks := rfl
@[simp] theorem State.modClock_ports (s : State) (f : ClockUnit → ClockUnit) : (s.modClock f).ports = s.ports := rfl
@[simp] theorem State.modClock_pending (s : State) (f : ClockUnit → ClockUnit) : (s.modClock f).pending = s.pending := rfl

@[simp] theorem State.modLink_clock (s : State) (d : Side) (f : LinkUnit → LinkUnit) : (s.modLink d f).clock = s.clock := rfl
@[simp] theorem State.modLink_links (s : State) (d : Side) (f : LinkUnit → LinkUnit) : (s.modLink d f).links = s.links.modify d f := rfl
@[simp] theorem State.modLink_ring (s : State) (d : Side) (f : LinkUnit → LinkUnit) : (s.modLink d f).ring = s.ring := rfl
@[simp] theorem State.modLink_cyc (s : State) (d : Side) (f : LinkUnit → LinkUnit) : (s.modLink d f).cyc = s.cyc := rfl
@[simp] theorem State.modLink_shafts (s : State) (d : Side) (f : LinkUnit → LinkUnit) : (s.modLink d f).shafts = s.shafts := rfl
@[simp] theorem State.modLink_axis (s : State) (d : Side) (f : LinkUnit → LinkUnit) : (s.modLink d f).axis = s.axis := rfl
@[simp] theorem State.modLink_trip (s : State) (d : Side) (f : LinkUnit → LinkUnit) : (s.modLink d f).trip = s.trip := rfl
@[simp] theorem State.modLink_pool (s : State) (d : Side) (f : LinkUnit → LinkUnit) : (s.modLink d f).pool = s.pool := rfl
@[simp] theorem State.modLink_chan (s : State) (d : Side) (f : LinkUnit → LinkUnit) : (s.modLink d f).chan = s.chan := rfl
@[simp] theorem State.modLink_locks (s : State) (d : Side) (f : LinkUnit → LinkUnit) : (s.modLink d f).locks = s.locks := rfl
@[simp] theorem State.modLink_ports (s : State) (d : Side) (f : LinkUnit → LinkUnit) : (s.modLink d f).ports = s.ports := rfl
@[simp] theorem State.modLink_pending (s : State) (d : Side) (f : LinkUnit → LinkUnit) : (s.modLink d f).pending = s.pending := rfl

@[simp] theorem State.modRing_clock (s : State) (f : RingPath → RingPath) : (s.modRing f).clock = s.clock := rfl
@[simp] theorem State.modRing_links (s : State) (f : RingPath → RingPath) : (s.modRing f).links = s.links := rfl
@[simp] theorem State.modRing_ring (s : State) (f : RingPath → RingPath) : (s.modRing f).ring = f s.ring := rfl
@[simp] theorem State.modRing_cyc (s : State) (f : RingPath → RingPath) : (s.modRing f).cyc = s.cyc := rfl
@[simp] theorem State.modRing_shafts (s : State) (f : RingPath → RingPath) : (s.modRing f).shafts = s.shafts := rfl
@[simp] theorem State.modRing_axis (s : State) (f : RingPath → RingPath) : (s.modRing f).axis = s.axis := rfl
@[simp] theorem State.modRing_trip (s : State) (f : RingPath → RingPath) : (s.modRing f).trip = s.trip := rfl
@[simp] theorem State.modRing_pool (s : State) (f : RingPath → RingPath) : (s.modRing f).pool = s.pool := rfl
@[simp] theorem State.modRing_chan (s : State) (f : RingPath → RingPath) : (s.modRing f).chan = s.chan := rfl
@[simp] theorem State.modRing_locks (s : State) (f : RingPath → RingPath) : (s.modRing f).locks = s.locks := rfl
@[simp] theorem State.modRing_ports (s : State) (f : RingPath → RingPath) : (s.modRing f).ports = s.ports := rfl
@[simp] theorem State.modRing_pending (s : State) (f : RingPath → RingPath) : (s.modRing f).pending = s.pending := rfl

@[simp] theorem State.modCyc_clock (s : State) (f : CycleUnit → CycleUnit) : (s.modCyc f).clock = s.clock := rfl
@[simp] theorem State.modCyc_links (s : State) (f : CycleUnit → CycleUnit) : (s.modCyc f).links = s.links := rfl
@[simp] theorem State.modCyc_ring (s : State) (f : CycleUnit → CycleUnit) : (s.modCyc f).ring = s.ring := rfl
@[simp] theorem State.modCyc_cyc (s : State) (f : CycleUnit → CycleUnit) : (s.modCyc f).cyc = f s.cyc := rfl
@[simp] theorem State.modCyc_shafts (s : State) (f : CycleUnit → CycleUnit) : (s.modCyc f).shafts = s.shafts := rfl
@[simp] theorem State.modCyc_axis (s : State) (f : CycleUnit → CycleUnit) : (s.modCyc f).axis = s.axis := rfl
@[simp] theorem State.modCyc_trip (s : State) (f : CycleUnit → CycleUnit) : (s.modCyc f).trip = s.trip := rfl
@[simp] theorem State.modCyc_pool (s : State) (f : CycleUnit → CycleUnit) : (s.modCyc f).pool = s.pool := rfl
@[simp] theorem State.modCyc_chan (s : State) (f : CycleUnit → CycleUnit) : (s.modCyc f).chan = s.chan := rfl
@[simp] theorem State.modCyc_locks (s : State) (f : CycleUnit → CycleUnit) : (s.modCyc f).locks = s.locks := rfl
@[simp] theorem State.modCyc_ports (s : State) (f : CycleUnit → CycleUnit) : (s.modCyc f).ports = s.ports := rfl
@[simp] theorem State.modCyc_pending (s : State) (f : CycleUnit → CycleUnit) : (s.modCyc f).pending = s.pending := rfl

@[simp] theorem State.modShafts_clock (s : State) (f : ShaftUnit → ShaftUnit) : (s.modShafts f).clock = s.clock := rfl
@[simp] theorem State.modShafts_links (s : State) (f : ShaftUnit → ShaftUnit) : (s.modShafts f).links = s.links := rfl
@[simp] theorem State.modShafts_ring (s : State) (f : ShaftUnit → ShaftUnit) : (s.modShafts f).ring = s.ring := rfl
@[simp] theorem State.modShafts_cyc (s : State) (f : ShaftUnit → ShaftUnit) : (s.modShafts f).cyc = s.cyc := rfl
@[simp] theorem State.modShafts_shafts (s : State) (f : ShaftUnit → ShaftUnit) : (s.modShafts f).shafts = f s.shafts := rfl
@[simp] theorem State.modShafts_axis (s : State) (f : ShaftUnit → ShaftUnit) : (s.modShafts f).axis = s.axis := rfl
@[simp] theorem State.modShafts_trip (s : State) (f : ShaftUnit → ShaftUnit) : (s.modShafts f).trip = s.trip := rfl
@[simp] theorem State.modShafts_pool (s : State) (f : ShaftUnit → ShaftUnit) : (s.modShafts f).pool = s.pool := rfl
@[simp] theorem State.modShafts_chan (s : State) (f : ShaftUnit → ShaftUnit) : (s.modShafts f).chan = s.chan := rfl
@[simp] theorem State.modShafts_locks (s : State) (f : ShaftUnit → ShaftUnit) : (s.modShafts f).locks = s.locks := rfl
@[simp] theorem State.modShafts_ports (s : State) (f : ShaftUnit → ShaftUnit) : (s.modShafts f).ports = s.ports := rfl
@[simp] theorem State.modShafts_pending (s : State) (f : ShaftUnit → ShaftUnit) : (s.modShafts f).pending = s.pending := rfl

@[simp] theorem State.modAxisUnit_clock (s : State) (f : AxisUnit → AxisUnit) : (s.modAxisUnit f).clock = s.clock := rfl
@[simp] theorem State.modAxisUnit_links (s : State) (f : AxisUnit → AxisUnit) : (s.modAxisUnit f).links = s.links := rfl
@[simp] theorem State.modAxisUnit_ring (s : State) (f : AxisUnit → AxisUnit) : (s.modAxisUnit f).ring = s.ring := rfl
@[simp] theorem State.modAxisUnit_cyc (s : State) (f : AxisUnit → AxisUnit) : (s.modAxisUnit f).cyc = s.cyc := rfl
@[simp] theorem State.modAxisUnit_shafts (s : State) (f : AxisUnit → AxisUnit) : (s.modAxisUnit f).shafts = s.shafts := rfl
@[simp] theorem State.modAxisUnit_axis (s : State) (f : AxisUnit → AxisUnit) : (s.modAxisUnit f).axis = f s.axis := rfl
@[simp] theorem State.modAxisUnit_trip (s : State) (f : AxisUnit → AxisUnit) : (s.modAxisUnit f).trip = s.trip := rfl
@[simp] theorem State.modAxisUnit_pool (s : State) (f : AxisUnit → AxisUnit) : (s.modAxisUnit f).pool = s.pool := rfl
@[simp] theorem State.modAxisUnit_chan (s : State) (f : AxisUnit → AxisUnit) : (s.modAxisUnit f).chan = s.chan := rfl
@[simp] theorem State.modAxisUnit_locks (s : State) (f : AxisUnit → AxisUnit) : (s.modAxisUnit f).locks = s.locks := rfl
@[simp] theorem State.modAxisUnit_ports (s : State) (f : AxisUnit → AxisUnit) : (s.modAxisUnit f).ports = s.ports := rfl
@[simp] theorem State.modAxisUnit_pending (s : State) (f : AxisUnit → AxisUnit) : (s.modAxisUnit f).pending = s.pending := rfl

@[simp] theorem State.modTrip_clock (s : State) (f : TripUnit → TripUnit) : (s.modTrip f).clock = s.clock := rfl
@[simp] theorem State.modTrip_links (s : State) (f : TripUnit → TripUnit) : (s.modTrip f).links = s.links := rfl
@[simp] theorem State.modTrip_ring (s : State) (f : TripUnit → TripUnit) : (s.modTrip f).ring = s.ring := rfl
@[simp] theorem State.modTrip_cyc (s : State) (f : TripUnit → TripUnit) : (s.modTrip f).cyc = s.cyc := rfl
@[simp] theorem State.modTrip_shafts (s : State) (f : TripUnit → TripUnit) : (s.modTrip f).shafts = s.shafts := rfl
@[simp] theorem State.modTrip_axis (s : State) (f : TripUnit → TripUnit) : (s.modTrip f).axis = s.axis := rfl
@[simp] theorem State.modTrip_trip (s : State) (f : TripUnit → TripUnit) : (s.modTrip f).trip = f s.trip := rfl
@[simp] theorem State.modTrip_pool (s : State) (f : TripUnit → TripUnit) : (s.modTrip f).pool = s.pool := rfl
@[simp] theorem State.modTrip_chan (s : State) (f : TripUnit → TripUnit) : (s.modTrip f).chan = s.chan := rfl
@[simp] theorem State.modTrip_locks (s : State) (f : TripUnit → TripUnit) : (s.modTrip f).locks = s.locks := rfl
@[simp] theorem State.modTrip_ports (s : State) (f : TripUnit → TripUnit) : (s.modTrip f).ports = s.ports := rfl
@[simp] theorem State.modTrip_pending (s : State) (f : TripUnit → TripUnit) : (s.modTrip f).pending = s.pending := rfl

@[simp] theorem State.modPool_clock (s : State) (f : Pool → Pool) : (s.modPool f).clock = s.clock := rfl
@[simp] theorem State.modPool_links (s : State) (f : Pool → Pool) : (s.modPool f).links = s.links := rfl
@[simp] theorem State.modPool_ring (s : State) (f : Pool → Pool) : (s.modPool f).ring = s.ring := rfl
@[simp] theorem State.modPool_cyc (s : State) (f : Pool → Pool) : (s.modPool f).cyc = s.cyc := rfl
@[simp] theorem State.modPool_shafts (s : State) (f : Pool → Pool) : (s.modPool f).shafts = s.shafts := rfl
@[simp] theorem State.modPool_axis (s : State) (f : Pool → Pool) : (s.modPool f).axis = s.axis := rfl
@[simp] theorem State.modPool_trip (s : State) (f : Pool → Pool) : (s.modPool f).trip = s.trip := rfl
@[simp] theorem State.modPool_pool (s : State) (f : Pool → Pool) : (s.modPool f).pool = f s.pool := rfl
@[simp] theorem State.modPool_chan (s : State) (f : Pool → Pool) : (s.modPool f).chan = s.chan := rfl
@[simp] theorem State.modPool_locks (s : State) (f : Pool → Pool) : (s.modPool f).locks = s.locks := rfl
@[simp] theorem State.modPool_ports (s : State) (f : Pool → Pool) : (s.modPool f).ports = s.ports := rfl
@[simp] theorem State.modPool_pending (s : State) (f : Pool → Pool) : (s.modPool f).pending = s.pending := rfl

@[simp] theorem State.modChan_clock (s : State) (f : ChannelUnit → ChannelUnit) : (s.modChan f).clock = s.clock := rfl
@[simp] theorem State.modChan_links (s : State) (f : ChannelUnit → ChannelUnit) : (s.modChan f).links = s.links := rfl
@[simp] theorem State.modChan_ring (s : State) (f : ChannelUnit → ChannelUnit) : (s.modChan f).ring = s.ring := rfl
@[simp] theorem State.modChan_cyc (s : State) (f : ChannelUnit → ChannelUnit) : (s.modChan f).cyc = s.cyc := rfl
@[simp] theorem State.modChan_shafts (s : State) (f : ChannelUnit → ChannelUnit) : (s.modChan f).shafts = s.shafts := rfl
@[simp] theorem State.modChan_axis (s : State) (f : ChannelUnit → ChannelUnit) : (s.modChan f).axis = s.axis := rfl
@[simp] theorem State.modChan_trip (s : State) (f : ChannelUnit → ChannelUnit) : (s.modChan f).trip = s.trip := rfl
@[simp] theorem State.modChan_pool (s : State) (f : ChannelUnit → ChannelUnit) : (s.modChan f).pool = s.pool := rfl
@[simp] theorem State.modChan_chan (s : State) (f : ChannelUnit → ChannelUnit) : (s.modChan f).chan = f s.chan := rfl
@[simp] theorem State.modChan_locks (s : State) (f : ChannelUnit → ChannelUnit) : (s.modChan f).locks = s.locks := rfl
@[simp] theorem State.modChan_ports (s : State) (f : ChannelUnit → ChannelUnit) : (s.modChan f).ports = s.ports := rfl
@[simp] theorem State.modChan_pending (s : State) (f : ChannelUnit → ChannelUnit) : (s.modChan f).pending = s.pending := rfl

@[simp] theorem State.modLocks_clock (s : State) (f : LockUnit → LockUnit) : (s.modLocks f).clock = s.clock := rfl
@[simp] theorem State.modLocks_links (s : State) (f : LockUnit → LockUnit) : (s.modLocks f).links = s.links := rfl
@[simp] theorem State.modLocks_ring (s : State) (f : LockUnit → LockUnit) : (s.modLocks f).ring = s.ring := rfl
@[simp] theorem State.modLocks_cyc (s : State) (f : LockUnit → LockUnit) : (s.modLocks f).cyc = s.cyc := rfl
@[simp] theorem State.modLocks_shafts (s : State) (f : LockUnit → LockUnit) : (s.modLocks f).shafts = s.shafts := rfl
@[simp] theorem State.modLocks_axis (s : State) (f : LockUnit → LockUnit) : (s.modLocks f).axis = s.axis := rfl
@[simp] theorem State.modLocks_trip (s : State) (f : LockUnit → LockUnit) : (s.modLocks f).trip = s.trip := rfl
@[simp] theorem State.modLocks_pool (s : State) (f : LockUnit → LockUnit) : (s.modLocks f).pool = s.pool := rfl
@[simp] theorem State.modLocks_chan (s : State) (f : LockUnit → LockUnit) : (s.modLocks f).chan = s.chan := rfl
@[simp] theorem State.modLocks_locks (s : State) (f : LockUnit → LockUnit) : (s.modLocks f).locks = f s.locks := rfl
@[simp] theorem State.modLocks_ports (s : State) (f : LockUnit → LockUnit) : (s.modLocks f).ports = s.ports := rfl
@[simp] theorem State.modLocks_pending (s : State) (f : LockUnit → LockUnit) : (s.modLocks f).pending = s.pending := rfl

@[simp] theorem State.modPort_clock (s : State) (p : Port) (f : PortUnit → PortUnit) : (s.modPort p f).clock = s.clock := rfl
@[simp] theorem State.modPort_links (s : State) (p : Port) (f : PortUnit → PortUnit) : (s.modPort p f).links = s.links := rfl
@[simp] theorem State.modPort_ring (s : State) (p : Port) (f : PortUnit → PortUnit) : (s.modPort p f).ring = s.ring := rfl
@[simp] theorem State.modPort_cyc (s : State) (p : Port) (f : PortUnit → PortUnit) : (s.modPort p f).cyc = s.cyc := rfl
@[simp] theorem State.modPort_shafts (s : State) (p : Port) (f : PortUnit → PortUnit) : (s.modPort p f).shafts = s.shafts := rfl
@[simp] theorem State.modPort_axis (s : State) (p : Port) (f : PortUnit → PortUnit) : (s.modPort p f).axis = s.axis := rfl
@[simp] theorem State.modPort_trip (s : State) (p : Port) (f : PortUnit → PortUnit) : (s.modPort p f).trip = s.trip := rfl
@[simp] theorem State.modPort_pool (s : State) (p : Port) (f : PortUnit → PortUnit) : (s.modPort p f).pool = s.pool := rfl
@[simp] theorem State.modPort_chan (s : State) (p : Port) (f : PortUnit → PortUnit) : (s.modPort p f).chan = s.chan := rfl
@[simp] theorem State.modPort_locks (s : State) (p : Port) (f : PortUnit → PortUnit) : (s.modPort p f).locks = s.locks := rfl
@[simp] theorem State.modPort_ports (s : State) (p : Port) (f : PortUnit → PortUnit) : (s.modPort p f).ports = s.ports.modify p f := rfl
@[simp] theorem State.modPort_pending (s : State) (p : Port) (f : PortUnit → PortUnit) : (s.modPort p f).pending = s.pending := rfl

@[simp] theorem State.modShaft_clock (s : State) (i : ShaftNo) (f : Shaft → Shaft) : (s.modShaft i f).clock = s.clock := rfl
@[simp] theorem State.modShaft_links (s : State) (i : ShaftNo) (f : Shaft → Shaft) : (s.modShaft i f).links = s.links := rfl
@[simp] theorem State.modShaft_ring (s : State) (i : ShaftNo) (f : Shaft → Shaft) : (s.modShaft i f).ring = s.ring := rfl
@[simp] theorem State.modShaft_cyc (s : State) (i : ShaftNo) (f : Shaft → Shaft) : (s.modShaft i f).cyc = s.cyc := rfl
@[simp] theorem State.modShaft_shafts (s : State) (i : ShaftNo) (f : Shaft → Shaft) : (s.modShaft i f).shafts = { s.shafts with shafts := modifyAt s.shafts.shafts i f } := rfl
@[simp] theorem State.modShaft_axis (s : State) (i : ShaftNo) (f : Shaft → Shaft) : (s.modShaft i f).axis = s.axis := rfl
@[simp] theorem State.modShaft_trip (s : State) (i : ShaftNo) (f : Shaft → Shaft) : (s.modShaft i f).trip = s.trip := rfl
@[simp] theorem State.modShaft_pool (s : State) (i : ShaftNo) (f : Shaft → Shaft) : (s.modShaft i f).pool = s.pool := rfl
@[simp] theorem State.modShaft_chan (s : State) (i : ShaftNo) (f : Shaft → Shaft) : (s.modShaft i f).chan = s.chan := rfl
@[simp] theorem State.modShaft_locks (s : State) (i : ShaftNo) (f : Shaft → Shaft) : (s.modShaft i f).locks = s.locks := rfl
@[simp] theorem State.modShaft_ports (s : State) (i : ShaftNo) (f : Shaft → Shaft) : (s.modShaft i f).ports = s.ports := rfl
@[simp] theorem State.modShaft_pending (s : State) (i : ShaftNo) (f : Shaft → Shaft) : (s.modShaft i f).pending = s.pending := rfl

@[simp] theorem State.modAxis_clock (s : State) (i : AxisNo) (f : Axis → Axis) : (s.modAxis i f).clock = s.clock := rfl
@[simp] theorem State.modAxis_links (s : State) (i : AxisNo) (f : Axis → Axis) : (s.modAxis i f).links = s.links := rfl
@[simp] theorem State.modAxis_ring (s : State) (i : AxisNo) (f : Axis → Axis) : (s.modAxis i f).ring = s.ring := rfl
@[simp] theorem State.modAxis_cyc (s : State) (i : AxisNo) (f : Axis → Axis) : (s.modAxis i f).cyc = s.cyc := rfl
@[simp] theorem State.modAxis_shafts (s : State) (i : AxisNo) (f : Axis → Axis) : (s.modAxis i f).shafts = s.shafts := rfl
@[simp] theorem State.modAxis_axis (s : State) (i : AxisNo) (f : Axis → Axis) : (s.modAxis i f).axis = { s.axis with axes := modifyAt s.axis.axes i f } := rfl
@[simp] theorem State.modAxis_trip (s : State) (i : AxisNo) (f : Axis → Axis) : (s.modAxis i f).trip = s.trip := rfl
@[simp] theorem State.modAxis_pool (s : State) (i : AxisNo) (f : Axis → Axis) : (s.modAxis i f).pool = s.pool := rfl
@[simp] theorem State.modAxis_chan (s : State) (i : AxisNo) (f : Axis → Axis) : (s.modAxis i f).chan = s.chan := rfl
@[simp] theorem State.modAxis_locks (s : State) (i : AxisNo) (f : Axis → Axis) : (s.modAxis i f).locks = s.locks := rfl
@[simp] theorem State.modAxis_ports (s : State) (i : AxisNo) (f : Axis → Axis) : (s.modAxis i f).ports = s.ports := rfl
@[simp] theorem State.modAxis_pending (s : State) (i : AxisNo) (f : Axis → Axis) : (s.modAxis i f).pending = s.pending := rfl

@[simp] theorem State.modSource_clock (s : State) (i : SourceNo) (f : Source → Source) : (s.modSource i f).clock = s.clock := rfl
@[simp] theorem State.modSource_links (s : State) (i : SourceNo) (f : Source → Source) : (s.modSource i f).links = s.links := rfl
@[simp] theorem State.modSource_ring (s : State) (i : SourceNo) (f : Source → Source) : (s.modSource i f).ring = s.ring := rfl
@[simp] theorem State.modSource_cyc (s : State) (i : SourceNo) (f : Source → Source) : (s.modSource i f).cyc = s.cyc := rfl
@[simp] theorem State.modSource_shafts (s : State) (i : SourceNo) (f : Source → Source) : (s.modSource i f).shafts = s.shafts := rfl
@[simp] theorem State.modSource_axis (s : State) (i : SourceNo) (f : Source → Source) : (s.modSource i f).axis = s.axis := rfl
@[simp] theorem State.modSource_trip (s : State) (i : SourceNo) (f : Source → Source) : (s.modSource i f).trip = { s.trip with sources := modifyAt s.trip.sources i f } := rfl
@[simp] theorem State.modSource_pool (s : State) (i : SourceNo) (f : Source → Source) : (s.modSource i f).pool = s.pool := rfl
@[simp] theorem State.modSource_chan (s : State) (i : SourceNo) (f : Source → Source) : (s.modSource i f).chan = s.chan := rfl
@[simp] theorem State.modSource_locks (s : State) (i : SourceNo) (f : Source → Source) : (s.modSource i f).locks = s.locks := rfl
@[simp] theorem State.modSource_ports (s : State) (i : SourceNo) (f : Source → Source) : (s.modSource i f).ports = s.ports := rfl
@[simp] theorem State.modSource_pending (s : State) (i : SourceNo) (f : Source → Source) : (s.modSource i f).pending = s.pending := rfl

@[simp] theorem State.modChannel_clock (s : State) (i : ChannelNo) (f : Channel → Channel) : (s.modChannel i f).clock = s.clock := rfl
@[simp] theorem State.modChannel_links (s : State) (i : ChannelNo) (f : Channel → Channel) : (s.modChannel i f).links = s.links := rfl
@[simp] theorem State.modChannel_ring (s : State) (i : ChannelNo) (f : Channel → Channel) : (s.modChannel i f).ring = s.ring := rfl
@[simp] theorem State.modChannel_cyc (s : State) (i : ChannelNo) (f : Channel → Channel) : (s.modChannel i f).cyc = s.cyc := rfl
@[simp] theorem State.modChannel_shafts (s : State) (i : ChannelNo) (f : Channel → Channel) : (s.modChannel i f).shafts = s.shafts := rfl
@[simp] theorem State.modChannel_axis (s : State) (i : ChannelNo) (f : Channel → Channel) : (s.modChannel i f).axis = s.axis := rfl
@[simp] theorem State.modChannel_trip (s : State) (i : ChannelNo) (f : Channel → Channel) : (s.modChannel i f).trip = s.trip := rfl
@[simp] theorem State.modChannel_pool (s : State) (i : ChannelNo) (f : Channel → Channel) : (s.modChannel i f).pool = s.pool := rfl
@[simp] theorem State.modChannel_chan (s : State) (i : ChannelNo) (f : Channel → Channel) : (s.modChannel i f).chan = { s.chan with channels := modifyAt s.chan.channels i f } := rfl
@[simp] theorem State.modChannel_locks (s : State) (i : ChannelNo) (f : Channel → Channel) : (s.modChannel i f).locks = s.locks := rfl
@[simp] theorem State.modChannel_ports (s : State) (i : ChannelNo) (f : Channel → Channel) : (s.modChannel i f).ports = s.ports := rfl
@[simp] theorem State.modChannel_pending (s : State) (i : ChannelNo) (f : Channel → Channel) : (s.modChannel i f).pending = s.pending := rfl

@[simp] theorem State.setContext_clock (s : State) (k : Fin 4) (c : Option Context) : (s.setContext k c).clock = s.clock := rfl
@[simp] theorem State.setContext_links (s : State) (k : Fin 4) (c : Option Context) : (s.setContext k c).links = s.links := rfl
@[simp] theorem State.setContext_ring (s : State) (k : Fin 4) (c : Option Context) : (s.setContext k c).ring = s.ring := rfl
@[simp] theorem State.setContext_cyc (s : State) (k : Fin 4) (c : Option Context) : (s.setContext k c).cyc = s.cyc := rfl
@[simp] theorem State.setContext_shafts (s : State) (k : Fin 4) (c : Option Context) : (s.setContext k c).shafts = s.shafts := rfl
@[simp] theorem State.setContext_axis (s : State) (k : Fin 4) (c : Option Context) : (s.setContext k c).axis = s.axis := rfl
@[simp] theorem State.setContext_trip (s : State) (k : Fin 4) (c : Option Context) : (s.setContext k c).trip = s.trip := rfl
@[simp] theorem State.setContext_pool (s : State) (k : Fin 4) (c : Option Context) : (s.setContext k c).pool = s.pool := rfl
@[simp] theorem State.setContext_chan (s : State) (k : Fin 4) (c : Option Context) : (s.setContext k c).chan = { s.chan with contexts := modifyAt s.chan.contexts k fun _ => c } := rfl
@[simp] theorem State.setContext_locks (s : State) (k : Fin 4) (c : Option Context) : (s.setContext k c).locks = s.locks := rfl
@[simp] theorem State.setContext_ports (s : State) (k : Fin 4) (c : Option Context) : (s.setContext k c).ports = s.ports := rfl
@[simp] theorem State.setContext_pending (s : State) (k : Fin 4) (c : Option Context) : (s.setContext k c).pending = s.pending := rfl

@[simp] theorem State.modLock_clock (s : State) (j : LockNo) (f : LockRec → LockRec) : (s.modLock j f).clock = s.clock := rfl
@[simp] theorem State.modLock_links (s : State) (j : LockNo) (f : LockRec → LockRec) : (s.modLock j f).links = s.links := rfl
@[simp] theorem State.modLock_ring (s : State) (j : LockNo) (f : LockRec → LockRec) : (s.modLock j f).ring = s.ring := rfl
@[simp] theorem State.modLock_cyc (s : State) (j : LockNo) (f : LockRec → LockRec) : (s.modLock j f).cyc = s.cyc := rfl
@[simp] theorem State.modLock_shafts (s : State) (j : LockNo) (f : LockRec → LockRec) : (s.modLock j f).shafts = s.shafts := rfl
@[simp] theorem State.modLock_axis (s : State) (j : LockNo) (f : LockRec → LockRec) : (s.modLock j f).axis = s.axis := rfl
@[simp] theorem State.modLock_trip (s : State) (j : LockNo) (f : LockRec → LockRec) : (s.modLock j f).trip = s.trip := rfl
@[simp] theorem State.modLock_pool (s : State) (j : LockNo) (f : LockRec → LockRec) : (s.modLock j f).pool = s.pool := rfl
@[simp] theorem State.modLock_chan (s : State) (j : LockNo) (f : LockRec → LockRec) : (s.modLock j f).chan = s.chan := rfl
@[simp] theorem State.modLock_locks (s : State) (j : LockNo) (f : LockRec → LockRec) : (s.modLock j f).locks = { s.locks with locks := modifyAt s.locks.locks j f } := rfl
@[simp] theorem State.modLock_ports (s : State) (j : LockNo) (f : LockRec → LockRec) : (s.modLock j f).ports = s.ports := rfl
@[simp] theorem State.modLock_pending (s : State) (j : LockNo) (f : LockRec → LockRec) : (s.modLock j f).pending = s.pending := rfl

@[simp] theorem State.setCode_clock (s : State) (p : Port) (f : ReadBacks → ReadBacks) : (s.setCode p f).clock = s.clock := rfl
@[simp] theorem State.setCode_links (s : State) (p : Port) (f : ReadBacks → ReadBacks) : (s.setCode p f).links = s.links := rfl
@[simp] theorem State.setCode_ring (s : State) (p : Port) (f : ReadBacks → ReadBacks) : (s.setCode p f).ring = s.ring := rfl
@[simp] theorem State.setCode_cyc (s : State) (p : Port) (f : ReadBacks → ReadBacks) : (s.setCode p f).cyc = s.cyc := rfl
@[simp] theorem State.setCode_shafts (s : State) (p : Port) (f : ReadBacks → ReadBacks) : (s.setCode p f).shafts = s.shafts := rfl
@[simp] theorem State.setCode_axis (s : State) (p : Port) (f : ReadBacks → ReadBacks) : (s.setCode p f).axis = s.axis := rfl
@[simp] theorem State.setCode_trip (s : State) (p : Port) (f : ReadBacks → ReadBacks) : (s.setCode p f).trip = s.trip := rfl
@[simp] theorem State.setCode_pool (s : State) (p : Port) (f : ReadBacks → ReadBacks) : (s.setCode p f).pool = s.pool := rfl
@[simp] theorem State.setCode_chan (s : State) (p : Port) (f : ReadBacks → ReadBacks) : (s.setCode p f).chan = s.chan := rfl
@[simp] theorem State.setCode_locks (s : State) (p : Port) (f : ReadBacks → ReadBacks) : (s.setCode p f).locks = s.locks := rfl
@[simp] theorem State.setCode_ports (s : State) (p : Port) (f : ReadBacks → ReadBacks) : (s.setCode p f).ports = s.ports.modify p fun u => { u with codes := f u.codes } := rfl
@[simp] theorem State.setCode_pending (s : State) (p : Port) (f : ReadBacks → ReadBacks) : (s.setCode p f).pending = s.pending := rfl

@[simp] theorem State.drive_clock (s : State) (p : Port) (v : BitVec 32) : (s.drive p v).clock = s.clock := rfl
@[simp] theorem State.drive_links (s : State) (p : Port) (v : BitVec 32) : (s.drive p v).links = s.links := rfl
@[simp] theorem State.drive_ring (s : State) (p : Port) (v : BitVec 32) : (s.drive p v).ring = s.ring := rfl
@[simp] theorem State.drive_cyc (s : State) (p : Port) (v : BitVec 32) : (s.drive p v).cyc = s.cyc := rfl
@[simp] theorem State.drive_shafts (s : State) (p : Port) (v : BitVec 32) : (s.drive p v).shafts = s.shafts := rfl
@[simp] theorem State.drive_axis (s : State) (p : Port) (v : BitVec 32) : (s.drive p v).axis = s.axis := rfl
@[simp] theorem State.drive_trip (s : State) (p : Port) (v : BitVec 32) : (s.drive p v).trip = s.trip := rfl
@[simp] theorem State.drive_pool (s : State) (p : Port) (v : BitVec 32) : (s.drive p v).pool = s.pool := rfl
@[simp] theorem State.drive_chan (s : State) (p : Port) (v : BitVec 32) : (s.drive p v).chan = s.chan := rfl
@[simp] theorem State.drive_locks (s : State) (p : Port) (v : BitVec 32) : (s.drive p v).locks = s.locks := rfl
@[simp] theorem State.drive_ports (s : State) (p : Port) (v : BitVec 32) : (s.drive p v).ports = s.ports.modify p fun u => { u with lines := v } := rfl
@[simp] theorem State.drive_pending (s : State) (p : Port) (v : BitVec 32) : (s.drive p v).pending = s.pending := rfl

@[simp] theorem State.driveNat_clock (s : State) (p : Port) (v : Nat) : (s.driveNat p v).clock = s.clock := rfl
@[simp] theorem State.driveNat_links (s : State) (p : Port) (v : Nat) : (s.driveNat p v).links = s.links := rfl
@[simp] theorem State.driveNat_ring (s : State) (p : Port) (v : Nat) : (s.driveNat p v).ring = s.ring := rfl
@[simp] theorem State.driveNat_cyc (s : State) (p : Port) (v : Nat) : (s.driveNat p v).cyc = s.cyc := rfl
@[simp] theorem State.driveNat_shafts (s : State) (p : Port) (v : Nat) : (s.driveNat p v).shafts = s.shafts := rfl
@[simp] theorem State.driveNat_axis (s : State) (p : Port) (v : Nat) : (s.driveNat p v).axis = s.axis := rfl
@[simp] theorem State.driveNat_trip (s : State) (p : Port) (v : Nat) : (s.driveNat p v).trip = s.trip := rfl
@[simp] theorem State.driveNat_pool (s : State) (p : Port) (v : Nat) : (s.driveNat p v).pool = s.pool := rfl
@[simp] theorem State.driveNat_chan (s : State) (p : Port) (v : Nat) : (s.driveNat p v).chan = s.chan := rfl
@[simp] theorem State.driveNat_locks (s : State) (p : Port) (v : Nat) : (s.driveNat p v).locks = s.locks := rfl
@[simp] theorem State.driveNat_ports (s : State) (p : Port) (v : Nat) : (s.driveNat p v).ports = s.ports.modify p fun u => { u with lines := BitVec.ofNat 32 v } := rfl
@[simp] theorem State.driveNat_pending (s : State) (p : Port) (v : Nat) : (s.driveNat p v).pending = s.pending := rfl

@[simp] theorem State.withPending_clock (s : State) (q : List Instr) : (s.withPending q).clock = s.clock := rfl
@[simp] theorem State.withPending_links (s : State) (q : List Instr) : (s.withPending q).links = s.links := rfl
@[simp] theorem State.withPending_ring (s : State) (q : List Instr) : (s.withPending q).ring = s.ring := rfl
@[simp] theorem State.withPending_cyc (s : State) (q : List Instr) : (s.withPending q).cyc = s.cyc := rfl
@[simp] theorem State.withPending_shafts (s : State) (q : List Instr) : (s.withPending q).shafts = s.shafts := rfl
@[simp] theorem State.withPending_axis (s : State) (q : List Instr) : (s.withPending q).axis = s.axis := rfl
@[simp] theorem State.withPending_trip (s : State) (q : List Instr) : (s.withPending q).trip = s.trip := rfl
@[simp] theorem State.withPending_pool (s : State) (q : List Instr) : (s.withPending q).pool = s.pool := rfl
@[simp] theorem State.withPending_chan (s : State) (q : List Instr) : (s.withPending q).chan = s.chan := rfl
@[simp] theorem State.withPending_locks (s : State) (q : List Instr) : (s.withPending q).locks = s.locks := rfl
@[simp] theorem State.withPending_ports (s : State) (q : List Instr) : (s.withPending q).ports = s.ports := rfl
@[simp] theorem State.withPending_pending (s : State) (q : List Instr) : (s.withPending q).pending = q := rfl

@[simp] theorem State.touched_clock (s : State) (p : Port) : (s.touched p).clock = s.clock := rfl
@[simp] theorem State.touched_links (s : State) (p : Port) : (s.touched p).links = s.links := rfl
@[simp] theorem State.touched_ring (s : State) (p : Port) : (s.touched p).ring = s.ring := rfl
@[simp] theorem State.touched_cyc (s : State) (p : Port) : (s.touched p).cyc = s.cyc := rfl
@[simp] theorem State.touched_shafts (s : State) (p : Port) : (s.touched p).shafts = s.shafts := rfl
@[simp] theorem State.touched_axis (s : State) (p : Port) : (s.touched p).axis = s.axis := rfl
@[simp] theorem State.touched_trip (s : State) (p : Port) : (s.touched p).trip = s.trip := rfl
@[simp] theorem State.touched_pool (s : State) (p : Port) : (s.touched p).pool = s.pool := rfl
@[simp] theorem State.touched_chan (s : State) (p : Port) : (s.touched p).chan = s.chan := rfl
@[simp] theorem State.touched_locks (s : State) (p : Port) : (s.touched p).locks = s.locks := rfl
@[simp] theorem State.touched_ports (s : State) (p : Port) : (s.touched p).ports = s.ports.modify p fun u => { u with latch := .empty } := rfl
@[simp] theorem State.touched_pending (s : State) (p : Port) : (s.touched p).pending = s.pending := rfl

@[simp] theorem raise_clock (s : State) (p : Port) (e : Event) : (raise p e s).clock = s.clock := rfl
@[simp] theorem raise_links (s : State) (p : Port) (e : Event) : (raise p e s).links = s.links := rfl
@[simp] theorem raise_ring (s : State) (p : Port) (e : Event) : (raise p e s).ring = s.ring := rfl
@[simp] theorem raise_cyc (s : State) (p : Port) (e : Event) : (raise p e s).cyc = s.cyc := rfl
@[simp] theorem raise_shafts (s : State) (p : Port) (e : Event) : (raise p e s).shafts = s.shafts := rfl
@[simp] theorem raise_axis (s : State) (p : Port) (e : Event) : (raise p e s).axis = s.axis := rfl
@[simp] theorem raise_trip (s : State) (p : Port) (e : Event) : (raise p e s).trip = s.trip := rfl
@[simp] theorem raise_pool (s : State) (p : Port) (e : Event) : (raise p e s).pool = s.pool := rfl
@[simp] theorem raise_chan (s : State) (p : Port) (e : Event) : (raise p e s).chan = s.chan := rfl
@[simp] theorem raise_locks (s : State) (p : Port) (e : Event) : (raise p e s).locks = s.locks := rfl
@[simp] theorem raise_pending (s : State) (p : Port) (e : Event) : (raise p e s).pending = s.pending := rfl

@[simp] theorem raiseBoth_clock (s : State) (e : Event) : (raiseBoth e s).clock = s.clock := rfl
@[simp] theorem raiseBoth_links (s : State) (e : Event) : (raiseBoth e s).links = s.links := rfl
@[simp] theorem raiseBoth_ring (s : State) (e : Event) : (raiseBoth e s).ring = s.ring := rfl
@[simp] theorem raiseBoth_cyc (s : State) (e : Event) : (raiseBoth e s).cyc = s.cyc := rfl
@[simp] theorem raiseBoth_shafts (s : State) (e : Event) : (raiseBoth e s).shafts = s.shafts := rfl
@[simp] theorem raiseBoth_axis (s : State) (e : Event) : (raiseBoth e s).axis = s.axis := rfl
@[simp] theorem raiseBoth_trip (s : State) (e : Event) : (raiseBoth e s).trip = s.trip := rfl
@[simp] theorem raiseBoth_pool (s : State) (e : Event) : (raiseBoth e s).pool = s.pool := rfl
@[simp] theorem raiseBoth_chan (s : State) (e : Event) : (raiseBoth e s).chan = s.chan := rfl
@[simp] theorem raiseBoth_locks (s : State) (e : Event) : (raiseBoth e s).locks = s.locks := rfl
@[simp] theorem raiseBoth_pending (s : State) (e : Event) : (raiseBoth e s).pending = s.pending := rfl

@[simp] theorem access_clock (s : State) (p : Port) (x : Word16) (w : Bool) (r : AccessReason) : (access p x w r s).clock = s.clock := rfl
@[simp] theorem access_links (s : State) (p : Port) (x : Word16) (w : Bool) (r : AccessReason) : (access p x w r s).links = s.links := rfl
@[simp] theorem access_ring (s : State) (p : Port) (x : Word16) (w : Bool) (r : AccessReason) : (access p x w r s).ring = s.ring := rfl
@[simp] theorem access_cyc (s : State) (p : Port) (x : Word16) (w : Bool) (r : AccessReason) : (access p x w r s).cyc = s.cyc := rfl
@[simp] theorem access_shafts (s : State) (p : Port) (x : Word16) (w : Bool) (r : AccessReason) : (access p x w r s).shafts = s.shafts := rfl
@[simp] theorem access_axis (s : State) (p : Port) (x : Word16) (w : Bool) (r : AccessReason) : (access p x w r s).axis = s.axis := rfl
@[simp] theorem access_trip (s : State) (p : Port) (x : Word16) (w : Bool) (r : AccessReason) : (access p x w r s).trip = s.trip := rfl
@[simp] theorem access_pool (s : State) (p : Port) (x : Word16) (w : Bool) (r : AccessReason) : (access p x w r s).pool = s.pool := rfl
@[simp] theorem access_chan (s : State) (p : Port) (x : Word16) (w : Bool) (r : AccessReason) : (access p x w r s).chan = s.chan := rfl
@[simp] theorem access_locks (s : State) (p : Port) (x : Word16) (w : Bool) (r : AccessReason) : (access p x w r s).locks = s.locks := rfl
@[simp] theorem access_pending (s : State) (p : Port) (x : Word16) (w : Bool) (r : AccessReason) : (access p x w r s).pending = s.pending := rfl

@[simp] theorem accessRead_clock (s : State) (p : Port) (x : Word16) (r : AccessReason) : (accessRead p x r s).clock = s.clock := rfl
@[simp] theorem accessRead_links (s : State) (p : Port) (x : Word16) (r : AccessReason) : (accessRead p x r s).links = s.links := rfl
@[simp] theorem accessRead_ring (s : State) (p : Port) (x : Word16) (r : AccessReason) : (accessRead p x r s).ring = s.ring := rfl
@[simp] theorem accessRead_cyc (s : State) (p : Port) (x : Word16) (r : AccessReason) : (accessRead p x r s).cyc = s.cyc := rfl
@[simp] theorem accessRead_shafts (s : State) (p : Port) (x : Word16) (r : AccessReason) : (accessRead p x r s).shafts = s.shafts := rfl
@[simp] theorem accessRead_axis (s : State) (p : Port) (x : Word16) (r : AccessReason) : (accessRead p x r s).axis = s.axis := rfl
@[simp] theorem accessRead_trip (s : State) (p : Port) (x : Word16) (r : AccessReason) : (accessRead p x r s).trip = s.trip := rfl
@[simp] theorem accessRead_pool (s : State) (p : Port) (x : Word16) (r : AccessReason) : (accessRead p x r s).pool = s.pool := rfl
@[simp] theorem accessRead_chan (s : State) (p : Port) (x : Word16) (r : AccessReason) : (accessRead p x r s).chan = s.chan := rfl
@[simp] theorem accessRead_locks (s : State) (p : Port) (x : Word16) (r : AccessReason) : (accessRead p x r s).locks = s.locks := rfl
@[simp] theorem accessRead_pending (s : State) (p : Port) (x : Word16) (r : AccessReason) : (accessRead p x r s).pending = s.pending := rfl

@[simp] theorem freeBlocks_clock (s : State) (bs : List BlockNo) : (freeBlocks bs s).clock = s.clock := rfl
@[simp] theorem freeBlocks_links (s : State) (bs : List BlockNo) : (freeBlocks bs s).links = s.links := rfl
@[simp] theorem freeBlocks_ring (s : State) (bs : List BlockNo) : (freeBlocks bs s).ring = s.ring := rfl
@[simp] theorem freeBlocks_cyc (s : State) (bs : List BlockNo) : (freeBlocks bs s).cyc = s.cyc := rfl
@[simp] theorem freeBlocks_shafts (s : State) (bs : List BlockNo) : (freeBlocks bs s).shafts = s.shafts := rfl
@[simp] theorem freeBlocks_axis (s : State) (bs : List BlockNo) : (freeBlocks bs s).axis = s.axis := rfl
@[simp] theorem freeBlocks_trip (s : State) (bs : List BlockNo) : (freeBlocks bs s).trip = s.trip := rfl
@[simp] theorem freeBlocks_chan (s : State) (bs : List BlockNo) : (freeBlocks bs s).chan = s.chan := rfl
@[simp] theorem freeBlocks_locks (s : State) (bs : List BlockNo) : (freeBlocks bs s).locks = s.locks := rfl
@[simp] theorem freeBlocks_ports (s : State) (bs : List BlockNo) : (freeBlocks bs s).ports = s.ports := rfl
@[simp] theorem freeBlocks_pending (s : State) (bs : List BlockNo) : (freeBlocks bs s).pending = s.pending := rfl

@[simp] theorem ownBlocks_clock (s : State) (bs : List BlockNo) (o : BlockOwner) : (ownBlocks bs o s).clock = s.clock := rfl
@[simp] theorem ownBlocks_links (s : State) (bs : List BlockNo) (o : BlockOwner) : (ownBlocks bs o s).links = s.links := rfl
@[simp] theorem ownBlocks_ring (s : State) (bs : List BlockNo) (o : BlockOwner) : (ownBlocks bs o s).ring = s.ring := rfl
@[simp] theorem ownBlocks_cyc (s : State) (bs : List BlockNo) (o : BlockOwner) : (ownBlocks bs o s).cyc = s.cyc := rfl
@[simp] theorem ownBlocks_shafts (s : State) (bs : List BlockNo) (o : BlockOwner) : (ownBlocks bs o s).shafts = s.shafts := rfl
@[simp] theorem ownBlocks_axis (s : State) (bs : List BlockNo) (o : BlockOwner) : (ownBlocks bs o s).axis = s.axis := rfl
@[simp] theorem ownBlocks_trip (s : State) (bs : List BlockNo) (o : BlockOwner) : (ownBlocks bs o s).trip = s.trip := rfl
@[simp] theorem ownBlocks_chan (s : State) (bs : List BlockNo) (o : BlockOwner) : (ownBlocks bs o s).chan = s.chan := rfl
@[simp] theorem ownBlocks_locks (s : State) (bs : List BlockNo) (o : BlockOwner) : (ownBlocks bs o s).locks = s.locks := rfl
@[simp] theorem ownBlocks_ports (s : State) (bs : List BlockNo) (o : BlockOwner) : (ownBlocks bs o s).ports = s.ports := rfl
@[simp] theorem ownBlocks_pending (s : State) (bs : List BlockNo) (o : BlockOwner) : (ownBlocks bs o s).pending = s.pending := rfl

@[simp] theorem writePayload_clock (s : State) (x : Nat) (bs : List Byte) : (writePayload x bs s).clock = s.clock := rfl
@[simp] theorem writePayload_links (s : State) (x : Nat) (bs : List Byte) : (writePayload x bs s).links = s.links := rfl
@[simp] theorem writePayload_ring (s : State) (x : Nat) (bs : List Byte) : (writePayload x bs s).ring = s.ring := rfl
@[simp] theorem writePayload_cyc (s : State) (x : Nat) (bs : List Byte) : (writePayload x bs s).cyc = s.cyc := rfl
@[simp] theorem writePayload_shafts (s : State) (x : Nat) (bs : List Byte) : (writePayload x bs s).shafts = s.shafts := rfl
@[simp] theorem writePayload_axis (s : State) (x : Nat) (bs : List Byte) : (writePayload x bs s).axis = s.axis := rfl
@[simp] theorem writePayload_trip (s : State) (x : Nat) (bs : List Byte) : (writePayload x bs s).trip = s.trip := rfl
@[simp] theorem writePayload_chan (s : State) (x : Nat) (bs : List Byte) : (writePayload x bs s).chan = s.chan := rfl
@[simp] theorem writePayload_locks (s : State) (x : Nat) (bs : List Byte) : (writePayload x bs s).locks = s.locks := rfl
@[simp] theorem writePayload_ports (s : State) (x : Nat) (bs : List Byte) : (writePayload x bs s).ports = s.ports := rfl
@[simp] theorem writePayload_pending (s : State) (x : Nat) (bs : List Byte) : (writePayload x bs s).pending = s.pending := rfl

@[simp] theorem sendOn_clock (s : State) (d : Side) (w : WireFrame) : (sendOn d w s).clock = s.clock := rfl
@[simp] theorem sendOn_ring (s : State) (d : Side) (w : WireFrame) : (sendOn d w s).ring = s.ring := rfl
@[simp] theorem sendOn_cyc (s : State) (d : Side) (w : WireFrame) : (sendOn d w s).cyc = s.cyc := rfl
@[simp] theorem sendOn_shafts (s : State) (d : Side) (w : WireFrame) : (sendOn d w s).shafts = s.shafts := rfl
@[simp] theorem sendOn_axis (s : State) (d : Side) (w : WireFrame) : (sendOn d w s).axis = s.axis := rfl
@[simp] theorem sendOn_trip (s : State) (d : Side) (w : WireFrame) : (sendOn d w s).trip = s.trip := rfl
@[simp] theorem sendOn_pool (s : State) (d : Side) (w : WireFrame) : (sendOn d w s).pool = s.pool := rfl
@[simp] theorem sendOn_chan (s : State) (d : Side) (w : WireFrame) : (sendOn d w s).chan = s.chan := rfl
@[simp] theorem sendOn_locks (s : State) (d : Side) (w : WireFrame) : (sendOn d w s).locks = s.locks := rfl
@[simp] theorem sendOn_ports (s : State) (d : Side) (w : WireFrame) : (sendOn d w s).ports = s.ports := rfl
@[simp] theorem sendOn_pending (s : State) (d : Side) (w : WireFrame) : (sendOn d w s).pending = s.pending := rfl

@[simp] theorem withdraw_clock (s : State) (c : ChannelNo) : (withdraw c s).clock = s.clock := rfl
@[simp] theorem withdraw_links (s : State) (c : ChannelNo) : (withdraw c s).links = s.links := rfl
@[simp] theorem withdraw_ring (s : State) (c : ChannelNo) : (withdraw c s).ring = s.ring := rfl
@[simp] theorem withdraw_cyc (s : State) (c : ChannelNo) : (withdraw c s).cyc = s.cyc := rfl
@[simp] theorem withdraw_shafts (s : State) (c : ChannelNo) : (withdraw c s).shafts = s.shafts := rfl
@[simp] theorem withdraw_axis (s : State) (c : ChannelNo) : (withdraw c s).axis = s.axis := rfl
@[simp] theorem withdraw_trip (s : State) (c : ChannelNo) : (withdraw c s).trip = s.trip := rfl
@[simp] theorem withdraw_pool (s : State) (c : ChannelNo) : (withdraw c s).pool = s.pool := rfl
@[simp] theorem withdraw_locks (s : State) (c : ChannelNo) : (withdraw c s).locks = s.locks := rfl
@[simp] theorem withdraw_ports (s : State) (c : ChannelNo) : (withdraw c s).ports = s.ports := rfl
@[simp] theorem withdraw_pending (s : State) (c : ChannelNo) : (withdraw c s).pending = s.pending := rfl

@[simp] theorem withdrawAny_clock (s : State) : (withdrawAny s).clock = s.clock := rfl
@[simp] theorem withdrawAny_links (s : State) : (withdrawAny s).links = s.links := rfl
@[simp] theorem withdrawAny_ring (s : State) : (withdrawAny s).ring = s.ring := rfl
@[simp] theorem withdrawAny_cyc (s : State) : (withdrawAny s).cyc = s.cyc := rfl
@[simp] theorem withdrawAny_shafts (s : State) : (withdrawAny s).shafts = s.shafts := rfl
@[simp] theorem withdrawAny_axis (s : State) : (withdrawAny s).axis = s.axis := rfl
@[simp] theorem withdrawAny_trip (s : State) : (withdrawAny s).trip = s.trip := rfl
@[simp] theorem withdrawAny_pool (s : State) : (withdrawAny s).pool = s.pool := rfl
@[simp] theorem withdrawAny_locks (s : State) : (withdrawAny s).locks = s.locks := rfl
@[simp] theorem withdrawAny_ports (s : State) : (withdrawAny s).ports = s.ports := rfl
@[simp] theorem withdrawAny_pending (s : State) : (withdrawAny s).pending = s.pending := rfl

@[simp] theorem idleHead_clock (s : State) (b : Bool) (c : ChannelNo) : (idleHead b c s).clock = s.clock := rfl
@[simp] theorem idleHead_links (s : State) (b : Bool) (c : ChannelNo) : (idleHead b c s).links = s.links := rfl
@[simp] theorem idleHead_ring (s : State) (b : Bool) (c : ChannelNo) : (idleHead b c s).ring = s.ring := rfl
@[simp] theorem idleHead_cyc (s : State) (b : Bool) (c : ChannelNo) : (idleHead b c s).cyc = s.cyc := rfl
@[simp] theorem idleHead_shafts (s : State) (b : Bool) (c : ChannelNo) : (idleHead b c s).shafts = s.shafts := rfl
@[simp] theorem idleHead_axis (s : State) (b : Bool) (c : ChannelNo) : (idleHead b c s).axis = s.axis := rfl
@[simp] theorem idleHead_trip (s : State) (b : Bool) (c : ChannelNo) : (idleHead b c s).trip = s.trip := rfl
@[simp] theorem idleHead_pool (s : State) (b : Bool) (c : ChannelNo) : (idleHead b c s).pool = s.pool := rfl
@[simp] theorem idleHead_locks (s : State) (b : Bool) (c : ChannelNo) : (idleHead b c s).locks = s.locks := rfl
@[simp] theorem idleHead_ports (s : State) (b : Bool) (c : ChannelNo) : (idleHead b c s).ports = s.ports := rfl
@[simp] theorem idleHead_pending (s : State) (b : Bool) (c : ChannelNo) : (idleHead b c s).pending = s.pending := rfl

@[simp] theorem axesOff_clock (s : State) : (axesOff s).clock = s.clock := rfl
@[simp] theorem axesOff_links (s : State) : (axesOff s).links = s.links := rfl
@[simp] theorem axesOff_ring (s : State) : (axesOff s).ring = s.ring := rfl
@[simp] theorem axesOff_cyc (s : State) : (axesOff s).cyc = s.cyc := rfl
@[simp] theorem axesOff_shafts (s : State) : (axesOff s).shafts = s.shafts := rfl
@[simp] theorem axesOff_trip (s : State) : (axesOff s).trip = s.trip := rfl
@[simp] theorem axesOff_pool (s : State) : (axesOff s).pool = s.pool := rfl
@[simp] theorem axesOff_chan (s : State) : (axesOff s).chan = s.chan := rfl
@[simp] theorem axesOff_locks (s : State) : (axesOff s).locks = s.locks := rfl
@[simp] theorem axesOff_ports (s : State) : (axesOff s).ports = s.ports := rfl
@[simp] theorem axesOff_pending (s : State) : (axesOff s).pending = s.pending := rfl

@[simp] theorem clearTargets_clock (s : State) : (clearTargets s).clock = s.clock := rfl
@[simp] theorem clearTargets_links (s : State) : (clearTargets s).links = s.links := rfl
@[simp] theorem clearTargets_ring (s : State) : (clearTargets s).ring = s.ring := rfl
@[simp] theorem clearTargets_cyc (s : State) : (clearTargets s).cyc = s.cyc := rfl
@[simp] theorem clearTargets_axis (s : State) : (clearTargets s).axis = s.axis := rfl
@[simp] theorem clearTargets_trip (s : State) : (clearTargets s).trip = s.trip := rfl
@[simp] theorem clearTargets_pool (s : State) : (clearTargets s).pool = s.pool := rfl
@[simp] theorem clearTargets_chan (s : State) : (clearTargets s).chan = s.chan := rfl
@[simp] theorem clearTargets_locks (s : State) : (clearTargets s).locks = s.locks := rfl
@[simp] theorem clearTargets_ports (s : State) : (clearTargets s).ports = s.ports := rfl
@[simp] theorem clearTargets_pending (s : State) : (clearTargets s).pending = s.pending := rfl

@[simp] theorem stopShafts_clock (s : State) : (stopShafts s).clock = s.clock := rfl
@[simp] theorem stopShafts_links (s : State) : (stopShafts s).links = s.links := rfl
@[simp] theorem stopShafts_ring (s : State) : (stopShafts s).ring = s.ring := rfl
@[simp] theorem stopShafts_cyc (s : State) : (stopShafts s).cyc = s.cyc := rfl
@[simp] theorem stopShafts_axis (s : State) : (stopShafts s).axis = s.axis := rfl
@[simp] theorem stopShafts_trip (s : State) : (stopShafts s).trip = s.trip := rfl
@[simp] theorem stopShafts_pool (s : State) : (stopShafts s).pool = s.pool := rfl
@[simp] theorem stopShafts_chan (s : State) : (stopShafts s).chan = s.chan := rfl
@[simp] theorem stopShafts_locks (s : State) : (stopShafts s).locks = s.locks := rfl
@[simp] theorem stopShafts_ports (s : State) : (stopShafts s).ports = s.ports := rfl
@[simp] theorem stopShafts_pending (s : State) : (stopShafts s).pending = s.pending := rfl

@[simp] theorem clearPresence_clock (s : State) : (clearPresence s).clock = s.clock := rfl
@[simp] theorem clearPresence_links (s : State) : (clearPresence s).links = s.links := rfl
@[simp] theorem clearPresence_ring (s : State) : (clearPresence s).ring = s.ring := rfl
@[simp] theorem clearPresence_shafts (s : State) : (clearPresence s).shafts = s.shafts := rfl
@[simp] theorem clearPresence_axis (s : State) : (clearPresence s).axis = s.axis := rfl
@[simp] theorem clearPresence_trip (s : State) : (clearPresence s).trip = s.trip := rfl
@[simp] theorem clearPresence_pool (s : State) : (clearPresence s).pool = s.pool := rfl
@[simp] theorem clearPresence_chan (s : State) : (clearPresence s).chan = s.chan := rfl
@[simp] theorem clearPresence_locks (s : State) : (clearPresence s).locks = s.locks := rfl
@[simp] theorem clearPresence_ports (s : State) : (clearPresence s).ports = s.ports := rfl
@[simp] theorem clearPresence_pending (s : State) : (clearPresence s).pending = s.pending := rfl

@[simp] theorem guardTick_clock (s : State) : (guardTick s).clock = s.clock := rfl
@[simp] theorem guardTick_links (s : State) : (guardTick s).links = s.links := rfl
@[simp] theorem guardTick_ring (s : State) : (guardTick s).ring = s.ring := rfl
@[simp] theorem guardTick_cyc (s : State) : (guardTick s).cyc = s.cyc := rfl
@[simp] theorem guardTick_shafts (s : State) : (guardTick s).shafts = s.shafts := rfl
@[simp] theorem guardTick_axis (s : State) : (guardTick s).axis = s.axis := rfl
@[simp] theorem guardTick_pool (s : State) : (guardTick s).pool = s.pool := rfl
@[simp] theorem guardTick_chan (s : State) : (guardTick s).chan = s.chan := rfl
@[simp] theorem guardTick_locks (s : State) : (guardTick s).locks = s.locks := rfl
@[simp] theorem guardTick_ports (s : State) : (guardTick s).ports = s.ports := rfl
@[simp] theorem guardTick_pending (s : State) : (guardTick s).pending = s.pending := rfl

@[simp] theorem dropStagedReset_clock (s : State) : (dropStagedReset s).clock = s.clock := rfl
@[simp] theorem dropStagedReset_links (s : State) : (dropStagedReset s).links = s.links := rfl
@[simp] theorem dropStagedReset_ring (s : State) : (dropStagedReset s).ring = s.ring := rfl
@[simp] theorem dropStagedReset_cyc (s : State) : (dropStagedReset s).cyc = s.cyc := rfl
@[simp] theorem dropStagedReset_shafts (s : State) : (dropStagedReset s).shafts = s.shafts := rfl
@[simp] theorem dropStagedReset_axis (s : State) : (dropStagedReset s).axis = s.axis := rfl
@[simp] theorem dropStagedReset_pool (s : State) : (dropStagedReset s).pool = s.pool := rfl
@[simp] theorem dropStagedReset_chan (s : State) : (dropStagedReset s).chan = s.chan := rfl
@[simp] theorem dropStagedReset_locks (s : State) : (dropStagedReset s).locks = s.locks := rfl
@[simp] theorem dropStagedReset_ports (s : State) : (dropStagedReset s).ports = s.ports := rfl
@[simp] theorem dropStagedReset_pending (s : State) : (dropStagedReset s).pending = s.pending := rfl

@[simp] theorem shaftsRest_clock (s : State) : (shaftsRest s).clock = s.clock := rfl
@[simp] theorem shaftsRest_links (s : State) : (shaftsRest s).links = s.links := rfl
@[simp] theorem shaftsRest_ring (s : State) : (shaftsRest s).ring = s.ring := rfl
@[simp] theorem shaftsRest_cyc (s : State) : (shaftsRest s).cyc = s.cyc := rfl
@[simp] theorem shaftsRest_axis (s : State) : (shaftsRest s).axis = s.axis := rfl
@[simp] theorem shaftsRest_trip (s : State) : (shaftsRest s).trip = s.trip := rfl
@[simp] theorem shaftsRest_pool (s : State) : (shaftsRest s).pool = s.pool := rfl
@[simp] theorem shaftsRest_chan (s : State) : (shaftsRest s).chan = s.chan := rfl
@[simp] theorem shaftsRest_locks (s : State) : (shaftsRest s).locks = s.locks := rfl
@[simp] theorem shaftsRest_ports (s : State) : (shaftsRest s).ports = s.ports := rfl
@[simp] theorem shaftsRest_pending (s : State) : (shaftsRest s).pending = s.pending := rfl

@[simp] theorem shaftsAttach_clock (s : State) : (shaftsAttach s).clock = s.clock := rfl
@[simp] theorem shaftsAttach_links (s : State) : (shaftsAttach s).links = s.links := rfl
@[simp] theorem shaftsAttach_ring (s : State) : (shaftsAttach s).ring = s.ring := rfl
@[simp] theorem shaftsAttach_cyc (s : State) : (shaftsAttach s).cyc = s.cyc := rfl
@[simp] theorem shaftsAttach_axis (s : State) : (shaftsAttach s).axis = s.axis := rfl
@[simp] theorem shaftsAttach_trip (s : State) : (shaftsAttach s).trip = s.trip := rfl
@[simp] theorem shaftsAttach_pool (s : State) : (shaftsAttach s).pool = s.pool := rfl
@[simp] theorem shaftsAttach_chan (s : State) : (shaftsAttach s).chan = s.chan := rfl
@[simp] theorem shaftsAttach_locks (s : State) : (shaftsAttach s).locks = s.locks := rfl
@[simp] theorem shaftsAttach_ports (s : State) : (shaftsAttach s).ports = s.ports := rfl
@[simp] theorem shaftsAttach_pending (s : State) : (shaftsAttach s).pending = s.pending := rfl

@[simp] theorem shaftsTakeOver_clock (s : State) : (shaftsTakeOver s).clock = s.clock := rfl
@[simp] theorem shaftsTakeOver_links (s : State) : (shaftsTakeOver s).links = s.links := rfl
@[simp] theorem shaftsTakeOver_ring (s : State) : (shaftsTakeOver s).ring = s.ring := rfl
@[simp] theorem shaftsTakeOver_cyc (s : State) : (shaftsTakeOver s).cyc = s.cyc := rfl
@[simp] theorem shaftsTakeOver_axis (s : State) : (shaftsTakeOver s).axis = s.axis := rfl
@[simp] theorem shaftsTakeOver_trip (s : State) : (shaftsTakeOver s).trip = s.trip := rfl
@[simp] theorem shaftsTakeOver_pool (s : State) : (shaftsTakeOver s).pool = s.pool := rfl
@[simp] theorem shaftsTakeOver_chan (s : State) : (shaftsTakeOver s).chan = s.chan := rfl
@[simp] theorem shaftsTakeOver_locks (s : State) : (shaftsTakeOver s).locks = s.locks := rfl
@[simp] theorem shaftsTakeOver_ports (s : State) : (shaftsTakeOver s).ports = s.ports := rfl
@[simp] theorem shaftsTakeOver_pending (s : State) : (shaftsTakeOver s).pending = s.pending := rfl

@[simp] theorem markReady_clock (s : State) : (markReady s).clock = s.clock := rfl
@[simp] theorem markReady_links (s : State) : (markReady s).links = s.links := rfl
@[simp] theorem markReady_ring (s : State) : (markReady s).ring = s.ring := rfl
@[simp] theorem markReady_shafts (s : State) : (markReady s).shafts = s.shafts := rfl
@[simp] theorem markReady_axis (s : State) : (markReady s).axis = s.axis := rfl
@[simp] theorem markReady_trip (s : State) : (markReady s).trip = s.trip := rfl
@[simp] theorem markReady_pool (s : State) : (markReady s).pool = s.pool := rfl
@[simp] theorem markReady_chan (s : State) : (markReady s).chan = s.chan := rfl
@[simp] theorem markReady_locks (s : State) : (markReady s).locks = s.locks := rfl
@[simp] theorem markReady_ports (s : State) : (markReady s).ports = s.ports := rfl
@[simp] theorem markReady_pending (s : State) : (markReady s).pending = s.pending := rfl

@[simp] theorem setLatch_clock (s : State) (p : Port) (l : Latch) : (setLatch p l s).clock = s.clock := rfl
@[simp] theorem setLatch_links (s : State) (p : Port) (l : Latch) : (setLatch p l s).links = s.links := rfl
@[simp] theorem setLatch_ring (s : State) (p : Port) (l : Latch) : (setLatch p l s).ring = s.ring := rfl
@[simp] theorem setLatch_cyc (s : State) (p : Port) (l : Latch) : (setLatch p l s).cyc = s.cyc := rfl
@[simp] theorem setLatch_shafts (s : State) (p : Port) (l : Latch) : (setLatch p l s).shafts = s.shafts := rfl
@[simp] theorem setLatch_axis (s : State) (p : Port) (l : Latch) : (setLatch p l s).axis = s.axis := rfl
@[simp] theorem setLatch_trip (s : State) (p : Port) (l : Latch) : (setLatch p l s).trip = s.trip := rfl
@[simp] theorem setLatch_pool (s : State) (p : Port) (l : Latch) : (setLatch p l s).pool = s.pool := rfl
@[simp] theorem setLatch_chan (s : State) (p : Port) (l : Latch) : (setLatch p l s).chan = s.chan := rfl
@[simp] theorem setLatch_locks (s : State) (p : Port) (l : Latch) : (setLatch p l s).locks = s.locks := rfl
@[simp] theorem setLatch_pending (s : State) (p : Port) (l : Latch) : (setLatch p l s).pending = s.pending := rfl

@[simp] theorem overread_clock (s : State) (p : Port) : (overread p s).clock = s.clock := rfl
@[simp] theorem overread_links (s : State) (p : Port) : (overread p s).links = s.links := rfl
@[simp] theorem overread_ring (s : State) (p : Port) : (overread p s).ring = s.ring := rfl
@[simp] theorem overread_cyc (s : State) (p : Port) : (overread p s).cyc = s.cyc := rfl
@[simp] theorem overread_shafts (s : State) (p : Port) : (overread p s).shafts = s.shafts := rfl
@[simp] theorem overread_axis (s : State) (p : Port) : (overread p s).axis = s.axis := rfl
@[simp] theorem overread_trip (s : State) (p : Port) : (overread p s).trip = s.trip := rfl
@[simp] theorem overread_pool (s : State) (p : Port) : (overread p s).pool = s.pool := rfl
@[simp] theorem overread_chan (s : State) (p : Port) : (overread p s).chan = s.chan := rfl
@[simp] theorem overread_locks (s : State) (p : Port) : (overread p s).locks = s.locks := rfl
@[simp] theorem overread_pending (s : State) (p : Port) : (overread p s).pending = s.pending := rfl

end Sys2Proof.Machine
end

