-- ==== Sys2Proof/Laws/Access.lean ====
section
/-!
SUPPORT. Reads of a pair, a vector or a part of the state after a write of the same or another entry.
-/

namespace Sys2Proof.Machine

/-! ### Pairs -/

@[simp] theorem PortPair.get_modify_self {α : Type} (x : PortPair α) (p : Port) (f : α → α) :
    (x.modify p f).get p = f (x.get p) := by cases p <;> rfl

@[simp] theorem PortPair.get_modify_other {α : Type} (x : PortPair α) (p : Port) (f : α → α) :
    (x.modify p f).get p.other = x.get p.other := by cases p <;> rfl

theorem PortPair.get_modify {α : Type} (x : PortPair α) (p q : Port) (f : α → α) :
    (x.modify p f).get q = if q = p then f (x.get q) else x.get q := by cases p <;> cases q <;> rfl

@[simp] theorem PortPair.modify_modify {α : Type} (x : PortPair α) (p : Port) (f g : α → α) :
    (x.modify p f).modify p g = x.modify p fun u => g (f u) := by cases p <;> rfl

@[simp] theorem Port.other_other (p : Port) : p.other.other = p := by cases p <;> rfl

@[simp] theorem SidePair.get_modify_self {α : Type} (x : SidePair α) (d : Side) (f : α → α) :
    (x.modify d f).get d = f (x.get d) := by cases d <;> rfl

@[simp] theorem SidePair.get_modify_other {α : Type} (x : SidePair α) (d : Side) (f : α → α) :
    (x.modify d f).get d.other = x.get d.other := by cases d <;> rfl

theorem SidePair.get_modify {α : Type} (x : SidePair α) (d e : Side) (f : α → α) :
    (x.modify d f).get e = if e = d then f (x.get e) else x.get e := by cases d <;> cases e <;> rfl

/-! ### Vectors -/

theorem modifyAt_get {α : Type} {n : Nat} (v : Vector α n) (i j : Fin n) (f : α → α) :
    (modifyAt v i f)[j.val] = if j = i then f v[j.val] else v[j.val] := by
  simp only [modifyAt, Vector.getElem_set]
  by_cases h : i = j
  · subst h; simp
  · have : i.val ≠ j.val := fun e => h (Fin.ext e)
    simp [this, Ne.symm h]

@[simp] theorem modifyAt_get_self {α : Type} {n : Nat} (v : Vector α n) (i : Fin n) (f : α → α) :
    (modifyAt v i f)[i.val] = f v[i.val] := by simp [modifyAt_get]

theorem modifyAt_get_other {α : Type} {n : Nat} (v : Vector α n) (i j : Fin n) (f : α → α) (h : j ≠ i) :
    (modifyAt v i f)[j.val] = v[j.val] := by simp [modifyAt_get, h]

/-! ### Parts of the state -/

theorem State.modPort_port (s : State) (p q : Port) (f : PortUnit → PortUnit) :
    (s.modPort p f).port q = if q = p then f (s.port q) else s.port q := PortPair.get_modify _ _ _ _

@[simp] theorem State.modPort_port_self (s : State) (p : Port) (f : PortUnit → PortUnit) :
    (s.modPort p f).port p = f (s.port p) := by simp [State.modPort_port]

theorem State.modLink_link (s : State) (d e : Side) (f : LinkUnit → LinkUnit) :
    (s.modLink d f).link e = if e = d then f (s.link e) else s.link e := SidePair.get_modify _ _ _ _

@[simp] theorem State.modLink_link_self (s : State) (d : Side) (f : LinkUnit → LinkUnit) :
    (s.modLink d f).link d = f (s.link d) := by simp [State.modLink_link]

theorem State.modShaft_getShaft (s : State) (i j : ShaftNo) (f : Shaft → Shaft) :
    (s.modShaft i f).getShaft j = if j = i then f (s.getShaft j) else s.getShaft j := modifyAt_get _ _ _ _

theorem State.modAxis_getAxis (s : State) (i j : AxisNo) (f : Axis → Axis) :
    (s.modAxis i f).getAxis j = if j = i then f (s.getAxis j) else s.getAxis j := modifyAt_get _ _ _ _

theorem State.modSource_getSource (s : State) (i j : SourceNo) (f : Source → Source) :
    (s.modSource i f).getSource j = if j = i then f (s.getSource j) else s.getSource j := modifyAt_get _ _ _ _

theorem State.modChannel_getChannel (s : State) (i j : ChannelNo) (f : Channel → Channel) :
    (s.modChannel i f).getChannel j = if j = i then f (s.getChannel j) else s.getChannel j := modifyAt_get _ _ _ _

theorem State.setContext_getContext (s : State) (k l : Fin 4) (c : Option Context) :
    (s.setContext k c).getContext l = if l = k then c else s.getContext l := modifyAt_get _ _ _ _

theorem State.modLock_getLock (s : State) (i j : LockNo) (f : LockRec → LockRec) :
    (s.modLock i f).getLock j = if j = i then f (s.getLock j) else s.getLock j := modifyAt_get _ _ _ _

@[simp] theorem State.modShaft_getShaft_self (s : State) (i : ShaftNo) (f : Shaft → Shaft) :
    (s.modShaft i f).getShaft i = f (s.getShaft i) := by simp [State.modShaft_getShaft]

@[simp] theorem State.modAxis_getAxis_self (s : State) (i : AxisNo) (f : Axis → Axis) :
    (s.modAxis i f).getAxis i = f (s.getAxis i) := by simp [State.modAxis_getAxis]

@[simp] theorem State.modSource_getSource_self (s : State) (i : SourceNo) (f : Source → Source) :
    (s.modSource i f).getSource i = f (s.getSource i) := by simp [State.modSource_getSource]

@[simp] theorem State.modChannel_getChannel_self (s : State) (i : ChannelNo) (f : Channel → Channel) :
    (s.modChannel i f).getChannel i = f (s.getChannel i) := by simp [State.modChannel_getChannel]

@[simp] theorem State.modLock_getLock_self (s : State) (i : LockNo) (f : LockRec → LockRec) :
    (s.modLock i f).getLock i = f (s.getLock i) := by simp [State.modLock_getLock]

end Sys2Proof.Machine
end

