-- ==== Sys2Proof/Laws/Memory.lean ====
section
/-!
SUPPORT. The laws of packet memory bytes: a read after a write, and the canonical form kept by every memory operation.
-/

namespace Sys2Proof.Machine

/-! ### The canonical form -/

theorem Memory.wf_of_wfAbove {m : List Host.Cell} {x : Nat} (h : Memory.wfAbove m x = true) : Memory.wf m = true := by
  cases m with
  | nil => rfl
  | cons c rest =>
    obtain ⟨a, v⟩ := c
    simp only [Memory.wfAbove, Bool.and_eq_true] at h
    simp only [Memory.wf, Bool.and_eq_true]
    exact ⟨h.1.2, h.2⟩

theorem Memory.wfAbove_mono {m : List Host.Cell} {x y : Nat} (hxy : y ≤ x) (h : Memory.wfAbove m x = true) :
    Memory.wfAbove m y = true := by
  cases m with
  | nil => rfl
  | cons c rest =>
    obtain ⟨a, v⟩ := c
    simp only [Memory.wfAbove, Bool.and_eq_true, decide_eq_true_eq] at h ⊢
    exact ⟨⟨by omega, h.1.2⟩, h.2⟩

theorem Memory.write_wfAbove {m : List Host.Cell} {lo x : Nat} (v : Byte) (hx : lo < x)
    (h : Memory.wfAbove m lo = true) : Memory.wfAbove (Memory.write m x v) lo = true := by
  induction m generalizing lo with
  | nil => by_cases hv : v = unlistedByte <;> simp [Memory.write, Memory.wfAbove, hv, hx]
  | cons c rest ih =>
    obtain ⟨a, w⟩ := c
    simp only [Memory.wfAbove, Bool.and_eq_true, decide_eq_true_eq] at h
    obtain ⟨⟨hla, hw⟩, hr⟩ := h
    unfold Memory.write
    split
    · split
      · simp [Memory.wfAbove, hla, hw, hr]
      · rename_i hxa hv
        simp [Memory.wfAbove, hx, hv, hxa, hw, hr]
    · split
      · split
        · exact Memory.wfAbove_mono (by omega) hr
        · rename_i heq hv
          subst heq
          simp [Memory.wfAbove, hx, hv, hr]
      · simp only [Memory.wfAbove, Bool.and_eq_true, decide_eq_true_eq]
        exact ⟨⟨hla, hw⟩, ih (by omega) hr⟩

/-- A write keeps the canonical form. -/
theorem Memory.write_wf {m : List Host.Cell} (x : Nat) (v : Byte) (h : Memory.wf m = true) :
    Memory.wf (Memory.write m x v) = true := by
  cases m with
  | nil => by_cases hv : v = unlistedByte <;> simp [Memory.write, Memory.wf, Memory.wfAbove, hv]
  | cons c rest =>
    obtain ⟨a, w⟩ := c
    simp only [Memory.wf, Bool.and_eq_true, decide_eq_true_eq] at h
    unfold Memory.write
    split
    · split
      · simp [Memory.wf, h.1, h.2]
      · rename_i hxa hv
        simp [Memory.wf, Memory.wfAbove, hv, hxa, h.1, h.2]
    · split
      · split
        · exact Memory.wf_of_wfAbove h.2
        · rename_i heq hv
          subst heq
          simp [Memory.wf, hv, h.2]
      · simp only [Memory.wf, Bool.and_eq_true, decide_eq_true_eq]
        exact ⟨h.1, Memory.write_wfAbove v (by omega) h.2⟩

/-- Writing bytes from an address onward keeps the canonical form. -/
theorem Memory.writeBytes_wf {m : List Host.Cell} (x : Nat) (vs : List Byte) (h : Memory.wf m = true) :
    Memory.wf (Memory.writeBytes m x vs) = true := by
  induction vs generalizing m x with
  | nil => exact h
  | cons v vs ih => exact ih (x + 1) (Memory.write_wf x v h)

/-- The memory after RESET has the form. -/
theorem Memory.reset_wf : Memory.wf State.reset.pool.mem = true := rfl

/-! ### Reads after writes -/

theorem Memory.read_of_wfAbove {m : List Host.Cell} {lo y : Nat} (h : Memory.wfAbove m lo = true) (hy : y ≤ lo) :
    Memory.read m y = unlistedByte := by
  induction m generalizing lo with
  | nil => rfl
  | cons c rest ih =>
    obtain ⟨a, w⟩ := c
    simp only [Memory.wfAbove, Bool.and_eq_true, decide_eq_true_eq] at h
    have : a ≠ y := by omega
    simp only [Memory.read, this, if_false]
    exact ih h.2 (by omega)

/-- A read after a write of the same byte gives the byte written, in a memory of the canonical form. -/
theorem Memory.read_write_self {m : List Host.Cell} (x : Nat) (v : Byte) (h : Memory.wf m = true) :
    Memory.read (Memory.write m x v) x = v := by
  induction m with
  | nil => by_cases hv : v = unlistedByte <;> simp [Memory.write, Memory.read, hv]
  | cons c rest ih =>
    obtain ⟨a, w⟩ := c
    simp only [Memory.wf, Bool.and_eq_true] at h
    unfold Memory.write
    split
    · rename_i hxa
      split
      · rename_i hv
        have : a ≠ x := by omega
        simp only [Memory.read, this, if_false, hv]
        exact Memory.read_of_wfAbove h.2 (by omega)
      · simp [Memory.read]
    · split
      · rename_i heq
        subst heq
        split
        · rename_i hv
          rw [hv]
          exact Memory.read_of_wfAbove h.2 (Nat.le_refl _)
        · simp [Memory.read]
      · rename_i h1 h2
        have : a ≠ x := fun e => h2 e.symm
        simp only [Memory.read, this, if_false]
        exact ih (Memory.wf_of_wfAbove h.2)

/-- A write leaves every other byte alone, in any memory. -/
theorem Memory.read_write_other (m : List Host.Cell) {x y : Nat} (v : Byte) (h : y ≠ x) :
    Memory.read (Memory.write m x v) y = Memory.read m y := by
  have hxy : x ≠ y := fun e => h e.symm
  induction m with
  | nil => by_cases hv : v = unlistedByte <;> simp [Memory.write, Memory.read, hv, hxy]
  | cons c rest ih =>
    obtain ⟨a, w⟩ := c
    unfold Memory.write
    split
    · split
      · rfl
      · simp [Memory.read, hxy]
    · split
      · rename_i heq
        subst heq
        split <;> simp [Memory.read, hxy]
      · simp only [Memory.read]
        split
        · rfl
        · exact ih

/-- Bytes written from `x` onward leave every byte outside them alone. -/
theorem Memory.read_writeBytes_other (m : List Host.Cell) (x y : Nat) (vs : List Byte)
    (h : y < x ∨ x + vs.length ≤ y) : Memory.read (Memory.writeBytes m x vs) y = Memory.read m y := by
  induction vs generalizing m x with
  | nil => rfl
  | cons v vs ih =>
    simp only [List.length_cons] at h
    rw [Memory.writeBytes, ih _ _ (by omega), Memory.read_write_other _ _ (by omega)]

/-- A byte written from `x` onward reads as written, in a memory of the canonical form. -/
theorem Memory.read_writeBytes_at {m : List Host.Cell} (x i : Nat) (vs : List Byte) (h : Memory.wf m = true)
    (hi : i < vs.length) : Memory.read (Memory.writeBytes m x vs) (x + i) = vs[i] := by
  induction vs generalizing m x i with
  | nil => simp at hi
  | cons v vs ih =>
    cases i with
    | zero =>
      rw [Memory.writeBytes, Memory.read_writeBytes_other _ _ _ _ (by omega)]
      simpa using Memory.read_write_self x v h
    | succ i =>
      have := ih (x + 1) i (Memory.write_wf x v h) (by simpa using hi)
      simpa [Memory.writeBytes, Nat.add_assoc, Nat.add_comm 1 i] using this

theorem Memory.readBytes_length (m : List Host.Cell) (x n : Nat) : (Memory.readBytes m x n).length = n := by
  induction n generalizing x with
  | zero => rfl
  | succ n ih => simp [Memory.readBytes, ih]

/-! ### The state's memory -/

/-- A payload write keeps the canonical form of the state's memory. -/
theorem writePayload_memoryOk (x : Nat) (bs : List Byte) (s : State) (h : s.MemoryOk) :
    (writePayload x bs s).MemoryOk := Memory.writeBytes_wf x bs h

/-- A payload write leaves every byte outside it alone. -/
theorem writePayload_byte_other (x y : Nat) (bs : List Byte) (s : State) (h : y < x ∨ x + bs.length ≤ y) :
    (writePayload x bs s).byte y = s.byte y := Memory.read_writeBytes_other _ _ _ _ h

/-- Freeing blocks or changing their owner leaves every byte alone. -/
@[simp] theorem freeBlocks_byte (bs : List BlockNo) (s : State) (x : Nat) : (freeBlocks bs s).byte x = s.byte x := rfl

@[simp] theorem ownBlocks_byte (bs : List BlockNo) (o : BlockOwner) (s : State) (x : Nat) :
    (ownBlocks bs o s).byte x = s.byte x := rfl

end Sys2Proof.Machine
end

