-- ==== Sys2Proof/Laws/Ops.lean ====
section
/-!
SUPPORT. For each shared operation one lemma that says what it can do: event flags, port accesses, refused accesses, blocks
and their owners, changes of path mode, lock state and ring state, the trip view, the outbox, rosters, step faults and pairs.
-/

namespace Sys2Proof.Machine

/-! ### Event flags -/

/-- Each event has a bit of its own. -/
theorem Event.hasFlag_or (x : BitVec 12) (e d : Event) :
    (x ||| e.mask).getLsbD d.bit = (decide (d = e) || x.getLsbD d.bit) := by
  cases e <;> cases d <;> simp [Event.mask, Event.bit]

/-- A raised event sets its flag at its port, and changes no other flag (R153). -/
theorem raise_flag (p q : Port) (e d : Event) (s : State) :
    (raise p e s).flag q d = (decide (q = p ∧ d = e) || s.flag q d) := by
  unfold State.flag raise PortUnit.hasFlag
  rw [State.modPort_port]
  by_cases h : q = p
  · subst h
    rw [if_pos rfl]
    simpa using Event.hasFlag_or (s.port q).flags e d
  · simp [h]

theorem raiseBoth_flag (q : Port) (e d : Event) (s : State) :
    (raiseBoth e s).flag q d = (decide (d = e) || s.flag q d) := by
  unfold raiseBoth
  rw [raise_flag, raise_flag]
  cases q <;> by_cases h : d = e <;> simp [h]

/-- Raising an event touches no part of a port unit but its flags. -/
theorem raise_port (p q : Port) (e : Event) (s : State) :
    (raise p e s).port q = { s.port q with
      flags := if q = p then (s.port q).flags ||| e.mask else (s.port q).flags } := by
  unfold raise
  rw [State.modPort_port]
  by_cases h : q = p <;> simp [h]

/-! ### Accesses of a port -/

/-- A write during the stabilisation wait does nothing; otherwise the access empties the latch and acts (R158, R162). -/
theorem portWrite_eq (p : Port) (s : State) (f : State → State) :
    portWrite p s f = if s.clock.ready then f (s.touched p) else s := rfl

/-- A read during the stabilisation wait returns 0; otherwise the access empties the latch and acts (R158, R162). -/
theorem portRead_eq (p : Port) (s : State) (f : State → State) :
    portRead p s f = if s.clock.ready then f (s.touched p) else s.driveNat p 0 := rfl

@[simp] theorem portWrite_ready (p : Port) (s : State) (f : State → State) (h : s.clock.ready = true) :
    portWrite p s f = f (s.touched p) := by simp [portWrite_eq, h]

@[simp] theorem portRead_ready (p : Port) (s : State) (f : State → State) (h : s.clock.ready = true) :
    portRead p s f = f (s.touched p) := by simp [portRead_eq, h]

@[simp] theorem writeByA_a (addr : Word16) (f : State → State) (s : State) : writeByA .a addr f s = f s := rfl

@[simp] theorem writeByA_b (addr : Word16) (f : State → State) (s : State) :
    writeByA .b addr f s = refuseWord .b addr .readOnly s := rfl

/-- A refused word at a 16-bit port: one ACCESS with its own address (R161). -/
theorem refuseWord_narrow (p : Port) (addr : Word16) (r : AccessReason) (s : State) (h : (s.port p).wide = false) :
    refuseWord p addr r s = access p addr true r s := by simp [refuseWord, accessAddr, h]

/-- A refused word at a 32-bit port: nothing where the other half of the pair is taken, and otherwise one ACCESS with the
even word's address (R157). -/
theorem refuseWord_wide (p : Port) (addr : Word16) (r : AccessReason) (s : State) (h : (s.port p).wide = true) :
    refuseWord p addr r s = if partnerTaken addr.toNat then s else access p (addr &&& 0xFFFE#16) true r s := by
  simp [refuseWord, accessAddr, h]

/-- A word read at a 16-bit port stands on the lines alone; at a 32-bit port it stands in its half, beside the other word of
its pair (R157). -/
theorem drivePair_eq (s : State) (p : Port) (a own partner : Nat) :
    s.drivePair p a own partner = s.drive p
      (if (s.port p).wide then
        (if a % 2 = 0 then BitVec.ofNat 16 partner ++ BitVec.ofNat 16 own
          else BitVec.ofNat 16 own ++ BitVec.ofNat 16 partner)
      else BitVec.ofNat 32 own) := by
  unfold State.drivePair State.driveNat
  split
  · split <;> rfl
  · rfl

/-- A refused access: ACCESS is raised, an empty capture takes the record, and the count rises (R161). -/
theorem access_port_self (p : Port) (addr : Word16) (w : Bool) (r : AccessReason) (s : State) :
    (access p addr w r s).port p =
      { s.port p with
        flags := (s.port p).flags ||| Event.access.mask
        capture := (s.port p).capture.or (some { addr := addr, write := w, reason := r })
        accessCount := bump (s.port p).accessCount } := by
  unfold access
  rw [raise_port]
  cases h : (s.port p).capture <;> simp [h]

theorem access_port_other (p : Port) (addr : Word16) (w : Bool) (r : AccessReason) (s : State) :
    (access p addr w r s).port p.other = s.port p.other := by
  unfold access
  rw [raise_port, State.modPort_port]
  cases p <;> simp [Port.other]

/-! ### Blocks -/

/-- Blocks that are freed join the tail of the free list in the order given, and no byte changes (R95). -/
theorem freeBlocks_free (bs : List BlockNo) (s : State) : (freeBlocks bs s).pool.free = s.pool.free ++ bs := rfl

@[simp] theorem ownBlocks_free (bs : List BlockNo) (o : BlockOwner) (s : State) :
    (ownBlocks bs o s).pool.free = s.pool.free := rfl

/-- Giving blocks an owner gives it to those blocks and to no other. -/
theorem Pool.own_owner (u : Pool) (bs : List BlockNo) (o : BlockOwner) (n : BlockNo) :
    (u.own bs o).owner n = if n ∈ bs then o else u.owner n := by
  have key : ∀ (v : Vector BlockOwner 512) (bs : List BlockNo),
      (bs.foldl (fun v n => v.set n.val o) v)[n.val] = if n ∈ bs then o else v[n.val] := by
    intro v bs
    induction bs generalizing v with
    | nil => simp
    | cons b bs ih =>
      rw [List.foldl_cons, ih]
      by_cases hb : n = b
      · subst hb
        by_cases hm : n ∈ bs <;> simp [hm]
      · have hv : b.val ≠ n.val := fun e => hb (Fin.ext e.symm)
        by_cases hm : n ∈ bs <;> simp [hm, hb, hv]
  exact key u.owners bs

theorem freeBlocks_owner (bs : List BlockNo) (s : State) (n : BlockNo) :
    (freeBlocks bs s).pool.owner n = if n ∈ bs then .free else s.pool.owner n := Pool.own_owner _ _ _ _

theorem ownBlocks_owner (bs : List BlockNo) (o : BlockOwner) (s : State) (n : BlockNo) :
    (ownBlocks bs o s).pool.owner n = if n ∈ bs then o else s.pool.owner n := Pool.own_owner _ _ _ _

/-- A block taken from the free list is its head (R95). -/
theorem Pool.takeHead_eq (u : Pool) (o : BlockOwner) (n : BlockNo) (rest : List BlockNo) (h : u.free = n :: rest) :
    u.takeHead o = some (n, { u.own [n] o with free := rest }) := by simp [Pool.takeHead, h]

/-! ### The outbox -/

/-- The outbox takes its new content; only event flags and the outbox change (R63). -/
theorem setOutbox_outbox (new : List OutboxEntry) (s : State) : (setOutbox new s).axis.outbox = new := by
  unfold setOutbox
  simp only []
  split <;> split <;> rfl

theorem setOutbox_kept (new : List OutboxEntry) (s : State) :
    (setOutbox new s).clock = s.clock ∧ (setOutbox new s).links = s.links ∧ (setOutbox new s).ring = s.ring ∧
    (setOutbox new s).cyc = s.cyc ∧ (setOutbox new s).shafts = s.shafts ∧ (setOutbox new s).trip = s.trip ∧
    (setOutbox new s).pool = s.pool ∧ (setOutbox new s).chan = s.chan ∧ (setOutbox new s).locks = s.locks ∧
    (setOutbox new s).pending = s.pending ∧ (setOutbox new s).axis = { s.axis with outbox := new } := by
  unfold setOutbox
  simp only []
  split <;> split <;> simp

/-- The correction entry that carries an outbox entry (R64; log entry 41). -/
theorem sentEntries_cons (e : OutboxEntry) (es : List OutboxEntry) :
    sentEntries (e :: es) =
      if e.state = .sent then
        { target := e.target, axis := min e.axis 255, outcome := .none, delta := e.delta } :: sentEntries es
      else sentEntries es := by
  simp only [sentEntries, List.filter_cons]
  split <;> simp_all

/-- Where no entry was SENT, each entry that is placed stands in the STATUS at the place it keeps, counted from the entries
placed before (R64, R66; log entry 38). -/
theorem markSent_place (cyc : Cycle) (es : List OutboxEntry) (placed : Nat) (h : ∀ e ∈ es, e.state ≠ .sent) :
    ∀ e ∈ markSent cyc es placed, e.state = .sent → placed ≤ e.place ∧ e.cycle = cyc ∧
      (sentEntries (markSent cyc es placed))[e.place - placed]? =
        some { target := e.target, axis := min e.axis 255, outcome := .none, delta := e.delta } := by
  induction es generalizing placed with
  | nil => simp [markSent]
  | cons x xs ih =>
    have hx := h x (by simp)
    have hs := fun e he => h e (List.mem_cons_of_mem x he)
    intro e he hsent
    unfold markSent at he ⊢
    split
    · rename_i hc
      rw [if_pos hc] at he
      rw [sentEntries_cons, if_pos rfl]
      rcases List.mem_cons.mp he with rfl | he
      · simp
      · have := ih (placed + 1) hs e he hsent
        refine ⟨by omega, this.2.1, ?_⟩
        rw [show e.place - placed = (e.place - (placed + 1)) + 1 by omega, List.getElem?_cons_succ]
        exact this.2.2
    · rename_i hc
      rw [if_neg hc] at he
      rw [sentEntries_cons, if_neg hx]
      rcases List.mem_cons.mp he with rfl | he
      · exact absurd hsent hx
      · exact ih placed hs e he hsent

/-- What a returned STATUS can do to an outbox entry: nothing, or, to an entry SENT under its cycle whose own correction
stands at the entry's place, DONE with that correction's outcome (R66, R67). -/
theorem returnEntry_cases (cyc : Cycle) (cs : List CorrEntry) (e : OutboxEntry) :
    returnEntry cyc cs e = e ∨ ∃ c, e.state = .sent ∧ e.cycle = cyc ∧ cs[e.place]? = some c ∧ c.carries e = true ∧
      returnEntry cyc cs e = e.returned c := by
  unfold returnEntry
  split
  · rename_i h
    split
    · rename_i c hc
      cases hk : c.carries e with
      | true => exact .inr ⟨c, h.1, h.2, hc, hk, by simp⟩
      | false => exact .inl (by simp)
    · exact .inl rfl
  · exact .inl rfl

/-- An outbox entry that is not SENT under a STATUS's cycle keeps what it holds when that STATUS returns (R66). -/
theorem returnEntry_kept (cyc : Cycle) (cs : List CorrEntry) (e : OutboxEntry) (h : ¬(e.state = .sent ∧ e.cycle = cyc)) :
    returnEntry cyc cs e = e := by simp [returnEntry, h]

/-! ### Changes of path mode, lock state and ring state -/

/-- A change of path mode raises RING at both ports; only ISOLATED does more (R10, R11). -/
theorem setMode_eq (m : PathMode) (s : State) :
    setMode m s =
      if s.ring.mode = m then s
      else if m = .isolated then drainLoop (withdrawAny (raiseBoth .ring (s.modRing fun u => { u with mode := m })))
      else raiseBoth .ring (s.modRing fun u => { u with mode := m }) := by
  unfold setMode
  split
  · rfl
  · rfl

/-- A change of lock state raises TIMELOCK at both ports (R22). -/
theorem setLock_eq (l : LockState) (s : State) :
    setLock l s = if s.cyc.lock = l then s else raiseBoth .timelock (s.modCyc fun u => { u with lock := l }) := rfl

theorem setLock_cyc (l : LockState) (s : State) : (setLock l s).cyc = { s.cyc with lock := l } := by
  unfold setLock
  split
  · rename_i h; rw [← h]
  · rfl

theorem setRing_cyc (r : RingState) (s : State) : (setRing r s).cyc = { s.cyc with ring := r } := by
  unfold setRing
  split
  · rename_i h; rw [← h]
  · rfl

/-! ### Counters -/

theorem bump_le (n : Nat) : bump n ≤ 65535 := by unfold bump; split <;> omega

theorem bump_of_lt {n : Nat} (h : n < 65535) : bump n = n + 1 := by simp [bump, h]

/-! ### Arithmetic -/

/-- A clamped value lies in its range. -/
theorem clampNat_range (v lo hi : Nat) (h : lo ≤ hi) : lo ≤ clampNat v lo hi ∧ clampNat v lo hi ≤ hi := by
  unfold clampNat
  split
  · omega
  · split <;> omega

theorem clampNat_of_range {v lo hi : Nat} (h : lo ≤ v ∧ v ≤ hi) : clampNat v lo hi = v := by
  unfold clampNat
  split
  · omega
  · split <;> omega

/-- clamp(x, −m, +m) lies within ±m. -/
theorem clampInt_range (x m : Int) (h : 0 ≤ m) : -m ≤ clampInt x m ∧ clampInt x m ≤ m := by
  unfold clampInt
  split
  · omega
  · split <;> omega

/-- The shortest path lies in −2^19 + 1 to +2^19 and equals its argument modulo 2^20. -/
theorem shortestPath_range (x : Int) : -524287 ≤ shortestPath x ∧ shortestPath x ≤ 524288 := by
  unfold shortestPath
  split <;> omega

theorem shortestPath_mod (x : Int) : shortestPath x % 1048576 = x % 1048576 := by
  unfold shortestPath
  split <;> omega

/-- A ramped velocity lies between the velocity and the target. -/
theorem ramp_between (v target : Int) (limit : Nat) :
    min (min v target) 0 ≤ ramp v target limit ∧ ramp v target limit ≤ max (max v target) 0 := by
  unfold ramp
  simp only []
  split <;> split <;> omega

/-- The velocity changes by at most the limit, or becomes 0 at a move across zero (R47). -/
theorem ramp_step (v target : Int) (limit : Nat) : (ramp v target limit - v).natAbs ≤ limit := by
  unfold ramp
  simp only []
  split <;> split <;> omega

/-! ### Rosters that come into use (R38) -/

/-- An address waiting in the plan in use, and not in the roster used before, starts with 0; every other count stays. -/
theorem CycleUnit.startAdded_missing (u : CycleUnit) (before : PlanNo) (a : Fin 31) :
    (u.startAdded before).missing[a.val] =
      if (u.added[u.activePlan.val]).getLsbD a.val = true ∧ u.member before a = false then 0 else u.missing[a.val] := by
  simp [CycleUnit.startAdded]

/-- A boundary that takes no other plan into use applies its pending switch alone. -/
theorem leaderSwitch_same (s : State) (h : (applySwitch s).cyc.activePlan = s.cyc.activePlan) :
    leaderSwitch s = applySwitch s := if_pos h

/-- A boundary that takes another plan into use also starts that roster's added addresses. -/
theorem leaderSwitch_other (s : State) (h : (applySwitch s).cyc.activePlan ≠ s.cyc.activePlan) :
    leaderSwitch s = (applySwitch s).modCyc fun u => u.startAdded s.cyc.activePlan := if_neg h

/-! ### Step faults (R51) -/

/-- The movement of the shafts touches the line-shaft unit alone. -/
theorem moveShafts_eq (w : ShaftWork) (s : State) :
    moveShafts w s = { s with shafts := (moveShafts w s).shafts } := rfl

/-- Without a step fault no axis is dropped and no source raised. -/
theorem dropAllFaulted_of_no_fault (s : State) (h : ∀ i : ShaftNo, (s.getShaft i).stepFault = false) :
    dropAllFaulted s = s := by
  have one (a : AxisNo) : dropFaulted a s = s := if_neg fun c => by simp [h] at c
  have all (l : List AxisNo) : l.foldl (fun s a => dropFaulted a s) s = s := by
    induction l with
    | nil => rfl
    | cons a l ih => rw [List.foldl_cons, one a, ih]
  exact all allAxes

/-! ### A pair at a 32-bit port (R157) -/

/-- A pair of which one half is taken raises nothing. -/
theorem refusePair_taken {α : Type} (p : Port) (a : Nat) (write : Bool) (x y : Option (Judged α)) (s : State)
    (h : isTaken x = true ∨ isTaken y = true) : refusePair p a write x y s = s :=
  if_pos (by rcases h with h | h <;> simp [h])

/-- A pair of which neither half is taken raises at most one ACCESS, with the even word's address. -/
theorem refusePair_cases {α : Type} (p : Port) (a : Nat) (write : Bool) (x y : Option (Judged α)) (s : State) :
    refusePair p a write x y s = s ∨
      ∃ r, pairReason (refusal x) (refusal y) = some r ∧
        refusePair p a write x y s = access p (BitVec.ofNat 16 a) write r s := by
  unfold refusePair
  split
  · exact .inl rfl
  · cases h : pairReason (refusal x) (refusal y) with
    | none => exact .inl rfl
    | some r => exact .inr ⟨r, rfl, rfl⟩

end Sys2Proof.Machine
end

