-- ==== Sys2Proof/Laws/PerInstr.lean ====
section
/-!
SUPPORT. One lemma per command: no command has two senders. A command of a port brings no frame, and a command that brings
a ring frame says when it arrived.
-/

namespace Sys2Proof.Laws

open Machine

/-- A command has one sender (INVENTORY.md, Agents). -/
def OneSender.Statement (i : Instr) : Prop :=
  (i.port.isSome && i.rxTime.isSome) = false ∧ (!i.frame.isSome || i.rxTime.isSome) = true

theorem OneSender.reset (widA widB : Bool) : OneSender.Statement (.reset widA widB) := ⟨rfl, rfl⟩
theorem OneSender.waitCountRestart : OneSender.Statement (.waitCountRestart) := ⟨rfl, rfl⟩
theorem OneSender.stabilisationWaitEnd (tripinLow : BitVec 8) : OneSender.Statement (.stabilisationWaitEnd tripinLow) := ⟨rfl, rfl⟩
theorem OneSender.stabilisationTimeout (tripinLow : BitVec 8) : OneSender.Statement (.stabilisationTimeout tripinLow) := ⟨rfl, rfl⟩
theorem OneSender.clockFault : OneSender.Statement (.clockFault) := ⟨rfl, rfl⟩
theorem OneSender.clockRestart (p : Port) : OneSender.Statement (.clockRestart p) := ⟨rfl, rfl⟩
theorem OneSender.clockRestartComplete : OneSender.Statement (.clockRestartComplete) := ⟨rfl, rfl⟩
theorem OneSender.restartFailed : OneSender.Statement (.restartFailed) := ⟨rfl, rfl⟩
theorem OneSender.tripinConditionAppears (n : Fin 8) : OneSender.Statement (.tripinConditionAppears n) := ⟨rfl, rfl⟩
theorem OneSender.tripinConditionGoes (n : Fin 8) : OneSender.Statement (.tripinConditionGoes n) := ⟨rfl, rfl⟩
theorem OneSender.signalDetectAsserted (side : Side) : OneSender.Statement (.signalDetectAsserted side) := ⟨rfl, rfl⟩
theorem OneSender.holdOffEnd (side : Side) : OneSender.Statement (.holdOffEnd side) := ⟨rfl, rfl⟩
theorem OneSender.signalDetectLost (side : Side) : OneSender.Statement (.signalDetectLost side) := ⟨rfl, rfl⟩
theorem OneSender.linkSilent (side : Side) : OneSender.Statement (.linkSilent side) := ⟨rfl, rfl⟩
theorem OneSender.linkIdleReceived (side : Side) (t : RxTime) (f : LinkIdle) : OneSender.Statement (.linkIdleReceived side t f) := ⟨rfl, rfl⟩
theorem OneSender.frameDiscardedNotUp (side : Side) (t : RxTime) (f : Frame) : OneSender.Statement (.frameDiscardedNotUp side t f) := ⟨rfl, rfl⟩
theorem OneSender.frameCrcFail (side : Side) (t : RxTime) (bytes : List Byte) : OneSender.Statement (.frameCrcFail side t bytes) := ⟨rfl, rfl⟩
theorem OneSender.frameOnUnusedInput (side : Side) (t : RxTime) (f : Frame) : OneSender.Statement (.frameOnUnusedInput side t f) := ⟨rfl, rfl⟩
theorem OneSender.frameForwarded (side : Side) (t : RxTime) (f : Frame) : OneSender.Statement (.frameForwarded side t f) := ⟨rfl, rfl⟩
theorem OneSender.outputIdle (side : Side) (now : Nat) : OneSender.Statement (.outputIdle side now) := ⟨rfl, rfl⟩
theorem OneSender.cycleStartReceived (side : Side) (t : RxTime) (h : Header) (c : CycleStart) : OneSender.Statement (.cycleStartReceived side t h c) := ⟨rfl, rfl⟩
theorem OneSender.statusReceived (side : Side) (t : RxTime) (h : Header) (b : StatusBody) : OneSender.Statement (.statusReceived side t h b) := ⟨rfl, rfl⟩
theorem OneSender.tripFlashReceived (side : Side) (t : RxTime) (h : Header) (f : TripFlash) : OneSender.Statement (.tripFlashReceived side t h f) := ⟨rfl, rfl⟩
theorem OneSender.dataSegmentReceived (side : Side) (t : RxTime) (h : Header) (d : DataBody) : OneSender.Statement (.dataSegmentReceived side t h d) := ⟨rfl, rfl⟩
theorem OneSender.ownDataReturned (side : Side) (t : RxTime) (h : Header) (d : DataBody) : OneSender.Statement (.ownDataReturned side t h d) := ⟨rfl, rfl⟩
theorem OneSender.ownStatusReturned (side : Side) (t : RxTime) (h : Header) (b : StatusBody) : OneSender.Statement (.ownStatusReturned side t h b) := ⟨rfl, rfl⟩
theorem OneSender.ownFrameRemoved (side : Side) (t : RxTime) (f : Frame) : OneSender.Statement (.ownFrameRemoved side t f) := ⟨rfl, rfl⟩
theorem OneSender.listenEnd : OneSender.Statement (.listenEnd) := ⟨rfl, rfl⟩
theorem OneSender.leaderBoundary : OneSender.Statement (.leaderBoundary) := ⟨rfl, rfl⟩
theorem OneSender.acquireMiss : OneSender.Statement (.acquireMiss) := ⟨rfl, rfl⟩
theorem OneSender.holdoverEntry : OneSender.Statement (.holdoverEntry) := ⟨rfl, rfl⟩
theorem OneSender.holdoverEvent : OneSender.Statement (.holdoverEvent) := ⟨rfl, rfl⟩
theorem OneSender.runningDownEvent : OneSender.Statement (.runningDownEvent) := ⟨rfl, rfl⟩
theorem OneSender.openPhaseEnd : OneSender.Statement (.openPhaseEnd) := ⟨rfl, rfl⟩
theorem OneSender.segmentOffer : OneSender.Statement (.segmentOffer) := ⟨rfl, rfl⟩
theorem OneSender.segmentTimeout (c : ChannelNo) (index : Nat) : OneSender.Statement (.segmentTimeout c index) := ⟨rfl, rfl⟩
theorem OneSender.retryWaitEnd (c : ChannelNo) : OneSender.Statement (.retryWaitEnd c) := ⟨rfl, rfl⟩
theorem OneSender.heldWaitEnd (c : ChannelNo) : OneSender.Statement (.heldWaitEnd c) := ⟨rfl, rfl⟩
theorem OneSender.contextStale (k : Fin 4) : OneSender.Statement (.contextStale k) := ⟨rfl, rfl⟩
theorem OneSender.outstandingEntryTimeout (c : ChannelNo) (dest : Nat) (tag : BitVec 8) : OneSender.Statement (.outstandingEntryTimeout c dest tag) := ⟨rfl, rfl⟩
theorem OneSender.resetGuardLapse : OneSender.Statement (.resetGuardLapse) := ⟨rfl, rfl⟩
theorem OneSender.nodeAddress (p : Port) (v : Word16) : OneSender.Statement (.nodeAddress p v) := ⟨rfl, rfl⟩
theorem OneSender.roleWrite (p : Port) (v : Word16) : OneSender.Statement (.roleWrite p v) := ⟨rfl, rfl⟩
theorem OneSender.configurationWrite (p : Port) (item : ConfigItem) (v : Word16) : OneSender.Statement (.configurationWrite p item v) := ⟨rfl, rfl⟩
theorem OneSender.attach (p : Port) : OneSender.Statement (.attach p) := ⟨rfl, rfl⟩
theorem OneSender.detach (p : Port) : OneSender.Statement (.detach p) := ⟨rfl, rfl⟩
theorem OneSender.portSoftReset (p : Port) : OneSender.Statement (.portSoftReset p) := ⟨rfl, rfl⟩
theorem OneSender.rosterWrite (p : Port) (plan : PlanNo) (set : BitVec 32) : OneSender.Statement (.rosterWrite p plan set) := ⟨rfl, rfl⟩
theorem OneSender.planStagingWrite (p : Port) (plan : Word16) (cycle : Cycle) : OneSender.Statement (.planStagingWrite p plan cycle) := ⟨rfl, rfl⟩
theorem OneSender.cancelPlan (p : Port) : OneSender.Statement (.cancelPlan p) := ⟨rfl, rfl⟩
theorem OneSender.targetVelocityWrite (p : Port) (shaft : ShaftNo) (v : BitVec 48) : OneSender.Statement (.targetVelocityWrite p shaft v) := ⟨rfl, rfl⟩
theorem OneSender.shaftLimitWrite (p : Port) (shaft : ShaftNo) (limit : ShaftLimit) (v : BitVec 32) : OneSender.Statement (.shaftLimitWrite p shaft limit v) := ⟨rfl, rfl⟩
theorem OneSender.planEntryWrite (p : Port) (axis : AxisNo) (plan : PlanNo) (field : EntryField) (v : BitVec 32) : OneSender.Statement (.planEntryWrite p axis plan field v) := ⟨rfl, rfl⟩
theorem OneSender.axisParameterWrite (p : Port) (axis : AxisNo) (param : AxisParam) (v : BitVec 32) : OneSender.Statement (.axisParameterWrite p axis param v) := ⟨rfl, rfl⟩
theorem OneSender.engage (p : Port) (axis : Word16) : OneSender.Statement (.engage p axis) := ⟨rfl, rfl⟩
theorem OneSender.disengage (p : Port) (axis : Word16) : OneSender.Statement (.disengage p axis) := ⟨rfl, rfl⟩
theorem OneSender.drop (p : Port) (axis : Word16) : OneSender.Statement (.drop p axis) := ⟨rfl, rfl⟩
theorem OneSender.correctionPost (p : Port) : OneSender.Statement (.correctionPost p) := ⟨rfl, rfl⟩
theorem OneSender.correctionResultRead (p : Port) : OneSender.Statement (.correctionResultRead p) := ⟨rfl, rfl⟩
theorem OneSender.actualPositionWrite (p : Port) (axis : AxisNo) (v : Pos) : OneSender.Statement (.actualPositionWrite p axis v) := ⟨rfl, rfl⟩
theorem OneSender.setpointSetFirstRead (p : Port) : OneSender.Statement (.setpointSetFirstRead p) := ⟨rfl, rfl⟩
theorem OneSender.setpointSetFinalRead (p : Port) : OneSender.Statement (.setpointSetFinalRead p) := ⟨rfl, rfl⟩
theorem OneSender.sourceClassWrite (p : Port) (source : SourceNo) (v : Word16) : OneSender.Statement (.sourceClassWrite p source v) := ⟨rfl, rfl⟩
theorem OneSender.sourceEnableWrite (p : Port) (source : SourceNo) (v : Word16) : OneSender.Statement (.sourceEnableWrite p source v) := ⟨rfl, rfl⟩
theorem OneSender.tripRequest (p : Port) : OneSender.Statement (.tripRequest p) := ⟨rfl, rfl⟩
theorem OneSender.tripRelease (p : Port) : OneSender.Statement (.tripRelease p) := ⟨rfl, rfl⟩
theorem OneSender.tripReset (p : Port) : OneSender.Statement (.tripReset p) := ⟨rfl, rfl⟩
theorem OneSender.localClear (p : Port) : OneSender.Statement (.localClear p) := ⟨rfl, rfl⟩
theorem OneSender.blockTake (p : Port) : OneSender.Statement (.blockTake p) := ⟨rfl, rfl⟩
theorem OneSender.screenTake (p : Port) : OneSender.Statement (.screenTake p) := ⟨rfl, rfl⟩
theorem OneSender.blockGive (p : Port) (v : Word16) : OneSender.Statement (.blockGive p v) := ⟨rfl, rfl⟩
theorem OneSender.blockWindowAccess (p : Port) (word : Fin 128) (w : Option (BitVec 32)) : OneSender.Statement (.blockWindowAccess p word w) := ⟨rfl, rfl⟩
theorem OneSender.commonAreaWrite (p : Port) (area : AreaNo) (word : Fin 512) (w : BitVec 32) : OneSender.Statement (.commonAreaWrite p area word w) := ⟨rfl, rfl⟩
theorem OneSender.areaBindingWrite (p : Port) (area : AreaNo) (v : Word16) : OneSender.Statement (.areaBindingWrite p area v) := ⟨rfl, rfl⟩
theorem OneSender.channelConfigWrite (p : Port) (c : ChannelNo) (item : ChannelItem) (v : Word16) : OneSender.Statement (.channelConfigWrite p c item v) := ⟨rfl, rfl⟩
theorem OneSender.post (p : Port) (v : Word16) : OneSender.Statement (.post p v) := ⟨rfl, rfl⟩
theorem OneSender.cancelHead (p : Port) (v : Word16) : OneSender.Statement (.cancelHead p v) := ⟨rfl, rfl⟩
theorem OneSender.outcomeRead (p : Port) (c : ChannelNo) : OneSender.Statement (.outcomeRead p c) := ⟨rfl, rfl⟩
theorem OneSender.descriptorRead (p : Port) (c : ChannelNo) (word : Fin 9) : OneSender.Statement (.descriptorRead p c word) := ⟨rfl, rfl⟩
theorem OneSender.streamRead (p : Port) (c : ChannelNo) : OneSender.Statement (.streamRead p c) := ⟨rfl, rfl⟩
theorem OneSender.discardHead (p : Port) (v : Word16) : OneSender.Statement (.discardHead p v) := ⟨rfl, rfl⟩
theorem OneSender.hold (p : Port) (v : Word16) : OneSender.Statement (.hold p v) := ⟨rfl, rfl⟩
theorem OneSender.release (p : Port) (v : Word16) : OneSender.Statement (.release p v) := ⟨rfl, rfl⟩
theorem OneSender.openSlot (p : Port) (v : Word16) (slot : Word16) : OneSender.Statement (.openSlot p v slot) := ⟨rfl, rfl⟩
theorem OneSender.stripRead (p : Port) (c : ChannelNo) : OneSender.Statement (.stripRead p c) := ⟨rfl, rfl⟩
theorem OneSender.closeSlot (p : Port) (v : Word16) : OneSender.Statement (.closeSlot p v) := ⟨rfl, rfl⟩
theorem OneSender.releaseSlot (p : Port) (v : Word16) : OneSender.Statement (.releaseSlot p v) := ⟨rfl, rfl⟩
theorem OneSender.freeze (p : Port) (v : Word16) : OneSender.Statement (.freeze p v) := ⟨rfl, rfl⟩
theorem OneSender.resume (p : Port) (v : Word16) : OneSender.Statement (.resume p v) := ⟨rfl, rfl⟩
theorem OneSender.lockTake (p : Port) (lock : LockNo) : OneSender.Statement (.lockTake p lock) := ⟨rfl, rfl⟩
theorem OneSender.lockGive (p : Port) (lock : LockNo) : OneSender.Statement (.lockGive p lock) := ⟨rfl, rfl⟩
theorem OneSender.notifyOptionsWrite (p : Port) (v : Word16) : OneSender.Statement (.notifyOptionsWrite p v) := ⟨rfl, rfl⟩
theorem OneSender.signalSet (p : Port) (v : Word16) : OneSender.Statement (.signalSet p v) := ⟨rfl, rfl⟩
theorem OneSender.signalClear (p : Port) (v : Word16) : OneSender.Statement (.signalClear p v) := ⟨rfl, rfl⟩
theorem OneSender.signalEnableWrite (p : Port) (v : Word16) : OneSender.Statement (.signalEnableWrite p v) := ⟨rfl, rfl⟩
theorem OneSender.eventClear (p : Port) (v : Word16) : OneSender.Statement (.eventClear p v) := ⟨rfl, rfl⟩
theorem OneSender.eventEnableWrite (p : Port) (v : Word16) : OneSender.Statement (.eventEnableWrite p v) := ⟨rfl, rfl⟩
theorem OneSender.captureClear (p : Port) : OneSender.Statement (.captureClear p) := ⟨rfl, rfl⟩
theorem OneSender.undefinedAccess (p : Port) (addr : Word16) (w : Option (BitVec 32)) : OneSender.Statement (.undefinedAccess p addr w) := ⟨rfl, rfl⟩
theorem OneSender.registerWrite (p : Port) (target : RegTarget) (w : BitVec 32) : OneSender.Statement (.registerWrite p target w) := ⟨rfl, rfl⟩
theorem OneSender.wideFieldLowWordRead (p : Port) (target : RegTarget) : OneSender.Statement (.wideFieldLowWordRead p target) := ⟨rfl, rfl⟩

end Sys2Proof.Laws
end

