-- ==== Sys2Proof/Tests/Slice0.lean ====
section
/-!
SUPPORT. The model's own tests: what WellFormed refuses, worked examples of the data book, and one witness for the
hypotheses of every statement and of its clauses, at boundary values where a clause has a range.
-/

namespace Sys2Proof.Tests

open Machine

/-! ### WellFormed refuses -/

def hdr (origin dest : Nat) : Header := { origin := origin, dest := dest, hops := 0, mark := .none, takers := 0 }

def flash : TripFlash := { source := 13, cls := .stop, cycle := 50 }

def idle (sender : Nat) (heard : Bool) : LinkIdle :=
  { sender := sender, heard := heard, sendStamp := 0, echo := none, turnaround := 0 }

theorem test_refuses_received_before_arrival :
    (Instr.tripFlashReceived .west { arrival := 1, received := 0 } (hdr 1 31) flash).wellFormed = false := by decide

theorem test_refuses_origin_31 :
    (Instr.tripFlashReceived .west { arrival := 0, received := 1 } (hdr 31 31) flash).wellFormed = false := by decide

theorem test_refuses_idle_sender_31 :
    (Instr.linkIdleReceived .west { arrival := 0, received := 1 } (idle 31 true)).wellFormed = false := by decide

theorem test_refuses_segment_8 : (Instr.segmentTimeout 0 8).wellFormed = false := by decide

theorem test_refuses_entry_for_31 : (Instr.outstandingEntryTimeout 0 31 0).wellFormed = false := by decide

theorem test_refuses_roster_bit_31 : (Instr.rosterWrite .a 0 0x80000000).wellFormed = false := by decide

theorem test_takes_a_good_frame :
    (Instr.tripFlashReceived .west { arrival := 0, received := 1 } (hdr 30 31) flash).wellFormed = true := by decide

/-! ### States -/

/-- After the stabilisation wait. -/
def ready : State := { State.reset with clock := { State.reset.clock with ready := true } }

def upLink : LinkUnit :=
  { LinkUnit.reset true with
    state := .up, laser := true, delay := 2000, delayMeasured := true, neighbour := some 2, heard := true }

/-- An attached node with address 3 in THROUGH. -/
def online : State :=
  { ready with
    links := { west := upLink, east := upLink }
    ring := { ready.ring with mode := .through }
    cyc := { ready.cyc with attached := true, address := some 3 } }

/-- The same node, LOCKED to leader 1 in epoch 7. -/
def locked : State :=
  { online with cyc := { online.cyc with
      leader := some 1, epoch := 7, lock := .locked, cycle := 99, reference := some { cycle := 99, send := 1000000 } } }

/-- The same node, leading in epoch 7. -/
def leader : State :=
  { online with cyc := { online.cyc with
      leader := some 3, epoch := 7, lock := .locked, cycle := 99, role := .leader, phase := .emitting,
      nextBoundary := 2000000, timerPeriod := 500000 } }

def holdover : State := { locked with cyc := { locked.cyc with lock := .holdover, missed := 2, cycle := 101 } }

def start : CycleStart :=
  { cycle := 100, leader := 1, epoch := 7, ring := .closed, cls := .none, firstFault := none, resetNo := 0,
    activePlan := 0, pendingSwitch := none,
    shafts := Vector.replicate 4 { posInt := 5000, posFrac := 0, vel := 65536 }, transit := 4000 }

def status : StatusBody :=
  { mode := .through, cls := .stop, topSource := some 13, resetNo := 0, planReady := true,
    axisStates := Vector.replicate 8 .follow, cycle := 99, entries := [] }

def event (n : Nat) : DataBody :=
  { channel := 2, tag := 9, attempt := 1, index := 0, count := 1, kind := .event, answers := 0, length := n, strip := 0,
    stamp := none, payload := List.replicate n 0xA5 }

def at0 (arrival : Nat) : RxTime := { arrival := arrival, received := arrival + 2400 }

def withChannel (s : State) (f : Channel → Channel) : State := s.modChannel 2 f

/-- Channel 2 a SCREEN channel of port A. -/
def screen : State := withChannel online fun x => { x with config := { x.config with type := .screen } }

/-- Channel 2 an IMAGE channel of port A. -/
def image : State := withChannel online fun x => { x with config := { x.config with type := .image } }

/-- An axis 0 in FOLLOW at a LOCKED node. -/
def following : State := locked.modAxis 0 fun x => { x with enabled := true, state := .follow, velOut := 7 }

def message : TxMsg :=
  { tag := 9, kind := .event, dest := 5, length := 1, blocks := [4], answers := 0, strip := 0, stamp := none, tries := 1,
    started := true, finishing := false }

/-- A message of one segment on the wire. -/
def sending (n : Nat) : State :=
  withChannel screen fun x =>
    { x with
      queue := [message], head := .inAttempt, attemptNo := 1
      attempt := some { segs := [.onWire n], stopped := false } }

/-! ### Worked examples of the data book -/

/-- 03, "a shaft ramp and a quick stop": the ramp gains a_up a boundary and stops at the target. -/
theorem test_ramp_stops_at_its_target : ramp 65536000 65600000 65536 = 65600000 := by decide

/-- R47: a move across zero stops at zero. -/
theorem test_reversal_stops_at_zero : ramp 100 (-5000) 250 = 0 := by decide

/-- 03, "gearing across the position wrap": cycle 2, with n = 5, d = 7, Δθ = 6,000 and r = 5. -/
theorem test_gearing_cycle_two :
    (let y := ({ Axis.reset with
        work := { shaft := 0, num := 5, den := 7, phase := 0 }, g := 4285, r := 5 } : Axis).gear 6000
     (y.g, y.r)) = (8571, 3) := by decide

/-- R57: the quotient is rounded toward minus infinity: −10 / 3 is −4 with remainder 2. -/
theorem test_gearing_rounds_down :
    (let y := ({ Axis.reset with work := { shaft := 0, num := -10, den := 3, phase := 0 } } : Axis).gear 1
     (y.g, y.r)) = (0xFFFFFFFC, 2) := by decide

/-- 03, "an engage": axis 5 starts with c_p = −258,576. -/
theorem test_engage_takes_the_shortest_path :
    (Axis.reset.engageFrom 3155728 { valid := true, shaft := 1, num := 1, den := 1, phase := 100000 } 5942880).cp =
      -258576 := by decide

/-- R62: 250 is worked off at 100 an event. -/
theorem test_slew_works_off_250 :
    (let x : Axis := { Axis.reset with state := .follow, cp := 250, corrSlew := 100 }
     (x.slew.cp, x.slew.slew.cp, x.slew.slew.slew.cp)) = (150, 50, 0) := by decide

/-- R102: a segment of 256 bytes is charged 292, and 584 on a doubled IMAGE channel. -/
theorem test_segment_charges : segmentCharge .screen true 256 = 292 ∧ segmentCharge .image true 256 = 584 := by decide

/-- R104: 2,048 bytes make 8 segments, 257 bytes two with 1 byte in the last. -/
theorem test_segment_lengths : segmentCount 2048 = 8 ∧ segmentLength 257 0 = 256 ∧ segmentLength 257 1 = 1 := by decide

/-- R30: the correction of the local period is an eighth of ε rounded toward zero, at most 500 ns. -/
theorem test_period_correction :
    CycleUnit.reset.corrected (-15) = 499999 ∧ CycleUnit.reset.corrected 100000 = 500500 := by decide

/-- R40: cycle 2 is 3 ahead of cycle 65,535. -/
theorem test_cycle_distance_wraps : cycleDist 2 65535 = 3 := by decide

/-- 00_scope.md: epoch 1 is newer than 255, and 128 ahead is not newer. -/
theorem test_serial_comparison : newer 1 255 = true ∧ newer 128 0 = false := by decide

/-- R9, R169: a TRIP_FLASH has its kind, origin and source in their bytes and is 20 bytes with its CRC. -/
theorem test_flash_bytes :
    (Frame.bytes { hdr := hdr 3 31, body := .tripFlash flash }) =
      [3, 3, 31, 0, 0, 0, 0, 0, 0, 0, 0, 0, 13, 1, 0, 50] := by decide

/-- R171: the class word of an absent trip record reads FFFFh. -/
theorem test_absent_record_reads_ffff :
    ready.trip.firstFault = none ∧ ((busRead .a 0x0791 ready).port .a).lines = 0xFFFF := by decide +kernel

/-- Both ports 32 bits wide. -/
def wide (s : State) : State := { s with ports := { a := { s.ports.a with wide := true }, b := { s.ports.b with wide := true } } }

/-- R157, 10.3: among the words of port A that port B's commands write, those whose other half takes a write. -/
theorem test_partners_taken :
    (∀ a ∈ [0x0002, 0x0003, 0x0004, 0x0009, 0x000A, 0x000B, 0x00B4, 0x0180, 0x0638, 0x0639, 0x063A, 0x0701, 0x0702,
        0x077D, 0x077E, 0x0785, 0x0805],
      isTaken (((wide ready).regAt .b (pairPartner a)).halfWrite) = partnerTaken a) := by decide +kernel

/-! ### Witnesses: the step and the invariants -/

theorem witness_step :
    ({ ready with pending := [.openPhaseEnd] } : State).pending = .openPhaseEnd :: [] ∧ ready.pending = [] :=
  ⟨rfl, rfl⟩

theorem witness_memory_form : online.MemoryOk ∧ step online = .next online := ⟨rfl, rfl⟩

theorem witness_trip_classes : online.TripsOk ∧ step online = .next online :=
  ⟨⟨by decide, by decide, by decide⟩, rfl⟩

theorem witness_lock_waiters : online.LocksOk ∧ step online = .next online :=
  ⟨fun j q => by revert j; cases q <;> decide, rfl⟩

theorem witness_bounds : (online.AxesOk → step online = .next online) ∧ velocityOk (-137438953472) ∧
    velocityOk 137438953472 ∧ Axis.reset.Ok := by
  refine ⟨fun _ => rfl, ?_, ?_, ?_⟩ <;> simp only [velocityOk, Axis.Ok] <;> decide

/-- A state whose blocks are FREE or held by a port owns its blocks as R94 says. -/
theorem blocksOk_of_ports (s : State) (hf : s.pool.free = (List.finRange 512).filter fun n => decide (s.pool.owner n = .free))
    (hp : ∀ n : BlockNo, s.pool.owner n = .free ∨ ∃ p, s.pool.owner n = .port p) (ht : s.txBlocks = [])
    (ha : s.assemblyBlocks = []) (hr : s.rxBlocks = []) (hs : s.storeBlocks = []) (hk : s.SlotsOk) : s.BlocksOk := by
  have none (o : BlockOwner) (h1 : o ≠ .free) (h2 : ∀ p, o ≠ .port p) : s.Holds [] o := by
    refine ⟨List.nodup_nil, fun n => ?_⟩
    rcases hp n with h | ⟨p, h⟩ <;> simp [h, h1.symm, (h2 _).symm]
  refine ⟨⟨hf ▸ (List.nodup_finRange 512).filter _, fun n => by simp [hf]⟩, ht ▸ none _ ?_ ?_, ha ▸ none _ ?_ ?_,
    hr ▸ none _ ?_ ?_, hs ▸ none _ ?_ ?_, hk⟩ <;> simp

/-- A pool whose free list holds the FREE ones of the blocks listed. -/
def listed (l : List BlockNo) (u : Pool) : Pool := { u with free := l.filter fun n => decide (u.owner n = .free) }

theorem listed_free (l : List BlockNo) (u : Pool) :
    (listed l u).free = l.filter fun n => decide ((listed l u).owner n = .free) := rfl

theorem reset_owner (n : BlockNo) : Pool.reset.owner n = .free := by
  show (Vector.replicate 512 BlockOwner.free)[n.val] = .free
  exact Vector.getElem_replicate n.isLt

theorem listed_owner (l : List BlockNo) (u : Pool) (n : BlockNo) : (listed l u).owner n = u.owner n := rfl

theorem lent_owner (n : BlockNo) :
    (Pool.reset.own [511] (.port .b)).owner n = if n ∈ [(511 : BlockNo)] then .port .b else .free := by
  rw [Pool.own_owner, reset_owner]

/-- Port B holds block 511, and the others are FREE. -/
def lent : State := { ready with pool := listed (List.finRange 512) (Pool.reset.own [511] (.port .b)) }

theorem no_context (k : Fin 4) : lent.getContext k = none := by revert k; decide

theorem witness_block_owners : lent.BlocksOk ∧ step lent = .next lent ∧ lent.pool.owner 511 = .port Port.a.other := by
  refine ⟨blocksOk_of_ports _ (listed_free _ _) (fun n => ?_) rfl rfl rfl rfl ⟨fun k c i h => ?_, by decide⟩, rfl,
    (listed_owner _ _ 511).trans ((lent_owner 511).trans (if_pos List.mem_cons_self))⟩
  · by_cases h : n ∈ [(511 : BlockNo)]
    · exact .inr ⟨.b, (listed_owner _ _ n).trans ((lent_owner n).trans (if_pos h))⟩
    · exact .inl ((listed_owner _ _ n).trans ((lent_owner n).trans (if_neg h)))
  · rw [no_context] at h; cases h

/-! ### Witnesses: start-up, clock and links -/

theorem witness_wait :
    (Instr.blockTake .b).port = some .b ∧ State.reset.clock.ready = false := ⟨rfl, rfl⟩

theorem witness_clock_fault : ready.clock.ready = true ∧ ready.clock.state = .crystal := ⟨rfl, rfl⟩

def restarting (c : ClockState) : State := { online with clock := { online.clock with state := c } }

theorem witness_clock_restart :
    (restarting .fallback).clock.state = .fallback ∧ (restarting .restarting).clock.state = .restarting ∧
      (restarting .restarting).clock.ready = true ∧ (restarting .restarting).cyc.attached = true := ⟨rfl, rfl, rfl, rfl⟩

theorem witness_tripin :
    online.clock.ready = true ∧ (online.getSource (pinSource 7)).present = false ∧
      (online.getSource (pinSource 7)).enabled = true ∧ (online.getSource (pinSource 7)).latched = false ∧
      online.trip.list.length < 16 ∧ online.cyc.attached = true ∧ online.ring.mode ≠ .isolated := by decide

theorem witness_tripin_disabled :
    let s := online.modSource 7 fun x => { x with enabled := false }
    s.clock.ready = true ∧ (s.getSource (pinSource 7)).present = false ∧
      (s.getSource (pinSource 7)).enabled = false := by decide

theorem witness_hold_off_end : (ready.link .east).state = .down := rfl

theorem witness_link_loss_in_use : (online.link .west).state = .up ∧ online.ring.mode.uses .west = true := ⟨rfl, rfl⟩

def training (d : Side) : State :=
  online.modLink d fun l => { l with state := .training, upCount := 15, neighbour := some 2 }

theorem witness_link_loss_in_training : ((training .east).link .east).state = .training := rfl

theorem witness_idle_in_training :
    (idle 30 true).sender ≤ 30 ∧ (training .east).cyc.address ≠ some (idle 30 true).sender ∧
      ((training .east).link .east).state = .training := by decide

theorem witness_idle_in_up :
    (idle 2 true).sender ≤ 30 ∧ online.cyc.address ≠ some (idle 2 true).sender ∧ (online.link .west).state = .up ∧
      (idle 2 true).heard = true ∧ (online.link .west).neighbour = some (idle 2 true).sender ∧
      (idle 2 false).heard = false ∧ (online.link .west).neighbour ≠ some (idle 30 true).sender := by decide

/-- R3's example on a link in UP (a round trip of 10,474 ns, a turnaround of 400 ns: 5,036 ns), and one of 100,004 ns, which
leaves the delay as it was. -/
theorem test_idle_in_up_measures :
    let shown (arrival : Nat) : Nat × Bool :=
      match exec (.linkIdleReceived .west (at0 arrival) { idle 2 true with echo := some 0, turnaround := 400 }) online with
      | .next u => ((u.link .west).delay, (u.link .west).delayMeasured)
      | _ => (0, false)
    shown 10474 = (5036, true) ∧ shown 200408 = (2000, true) := by decide

/-- A full window with three fails among the 63 entries that a frame joins. -/
def worn : State :=
  online.modLink .west fun l => { l with window := List.replicate 3 true ++ List.replicate 60 false }

theorem witness_error_window :
    parseFrame [] = none ∧ (worn.link .west).state = .up ∧ (worn.link .west).window.length ≤ 64 ∧
      3 ≤ ((worn.link .west).window.filter fun b => b).length := by decide

theorem witness_error_window_room :
    (online.link .west).state = .up ∧ ((online.link .west).window.filter fun b => b).length < 3 := by decide

def flashFrame (origin : Nat) : Frame := { hdr := hdr origin 31, body := .tripFlash flash }

/-- An input that the path mode does not use. -/
def unused : State := { online with ring := { online.ring with mode := .wrapEast } }

theorem witness_good_bytes_on_an_unused_input :
    parseFrame (WireFrame.ring (flashFrame 3)).bytes = some (.ring (flashFrame 3)) ∧
      (flashFrame 3).inRange = true ∧ (unused.link .east).state = .up ∧ unused.ring.mode.uses .east = false ∧
      (unused.link .east).window.length ≤ 64 := by decide +kernel

theorem witness_ring_frame_in_use :
    let c : Instr := .tripFlashReceived .west (at0 0) (hdr 5 31) flash
    c.input = some .west ∧ c.frame = some (flashFrame 5) ∧ online.ring.mode.uses .west = true ∧
      online.Reaches .west (flashFrame 5) ∧ (online.link .west).window.length < 64 ∧
      ((online.modLink .west fun l => { l with window := List.replicate 64 true }).link .west).window.length = 64 :=
  ⟨rfl, rfl, rfl, ⟨rfl, by decide⟩, by decide, rfl⟩

def addressed (c : ClockState) : State :=
  { ready with cyc := { ready.cyc with address := some 30 }, clock := { ready.clock with state := c } }

theorem witness_windows_empty :
    (addressed .crystal).cyc.attached = false ∧ (∀ i : AxisNo, (online.getAxis i).state = .off) ∧
      (restarting .restarting).clock.state = .restarting ∧ (restarting .restarting).cyc.attached = true := by decide

theorem witness_bad_frame_outside_up :
    parseFrame [1, 2, 3] = none ∧ (ready.link .west).state = .down ∧
      ((training .west).link .west).state = .training := by decide

theorem witness_unused_input : unused.Reaches .east (flashFrame 5) ∧ unused.ring.mode.uses .east = false :=
  ⟨⟨rfl, by decide⟩, rfl⟩

theorem witness_not_up : (flashFrame 5).inRange = true ∧ (ready.link .west).state ≠ .up := by decide

theorem witness_own_flash_removed : online.Removes .west (flashFrame 3) ∧ (flashFrame 3).body = .tripFlash flash :=
  ⟨⟨⟨rfl, by decide⟩, rfl, rfl⟩, rfl⟩

def hopping (hops : Nat) : Frame := { hdr := { hdr 5 31 with hops := hops }, body := .cycleStart start }

theorem witness_secondary_frame :
    online.Reaches .east (hopping 64) ∧ online.Reaches .east (hopping 63) ∧ online.ring.mode = .through ∧
      (hopping 63).hdr.hops < 64 ∧ (online.link .west).wire = none ∧ ∀ e ∈ online.ring.buffer, e.out ≠ .west :=
  ⟨⟨rfl, by decide⟩, ⟨rfl, by decide⟩, rfl, by decide, rfl, by decide⟩

/-- A through buffer that holds 11 CYCLE_STARTs, 968 bytes, with 56 left. -/
def buffered : State :=
  online.modRing fun u => { u with buffer := List.replicate 11 { out := .west, arrival := 0, frame := hopping 1 } }

theorem witness_buffer_full :
    (∃ e ∈ buffered.ring.buffer, e.out = .west) ∧ 1024 < buffered.ring.used + (hopping 63).len ∧
      buffered.ring.used + (flashFrame 5).len ≤ 1024 ∧ buffered.ring.used + 56 = 1024 := by decide

def queued (o : Option Offered) : State :=
  (online.modRing fun u =>
    { u with ownFlash := [flashFrame 3], ownCycleStart := some (hopping 0), ownStatus := some (flashFrame 3) }).modChan
      fun u => { u with offered := o, openPhase := true }

theorem witness_output_in_use :
    (online.link .east).laser = true ∧ (online.link .east).state = .up ∧ online.ring.mode.uses .east = true ∧
      online.quiet .east 0 = false ∧ online.ring.mode.ownOutput = some .east ∧
      (queued none).ring.ownFlash = flashFrame 3 :: [] ∧ (queued none).ring.ownCycleStart = some (hopping 0) ∧
      online.waitingFor .east = false := by decide

theorem witness_output_secondary :
    online.ring.mode.ownOutput ≠ some .west ∧ buffered.ring.buffer.head? =
      some { out := .west, arrival := 0, frame := hopping 1 } := by decide

theorem witness_output_data :
    let o : Offered := { channel := 2, index := 0, frame := flashFrame 3 }
    let s := online.modChan fun u => { u with offered := some o, openPhase := true }
    s.ring.ownFlash = [] ∧ s.ring.ownCycleStart = none ∧ s.ring.ownStatus = none ∧ s.ring.buffer = [] ∧
      s.chan.offered = some o ∧ s.chan.openPhase = true := ⟨rfl, rfl, rfl, rfl, rfl, rfl⟩

/-! ### Witnesses: cycle events -/

theorem witness_first_cycle_start :
    online.Processes .west { hdr := hdr 1 31, body := .cycleStart start } ∧ online.cyc.role ≠ .leader ∧
      online.cyc.leader = none ∧ online.cyc.lock = .unlocked :=
  ⟨⟨⟨rfl, by decide⟩, rfl, by decide⟩, by decide, rfl, rfl⟩

theorem witness_good_cycle_start :
    locked.Processes .west { hdr := hdr 1 31, body := .cycleStart start } ∧ locked.cyc.role ≠ .leader ∧
      locked.cyc.runningDown = false ∧ locked.cyc.leader = some start.leader ∧ locked.cyc.epoch = start.epoch ∧
      locked.cyc.lock = .locked ∧ locked.cyc.reference = some { cycle := 99, send := 1000000 } ∧
      (start.cycle - 99#16).toNat = 1 ∧
      (1508000 : Int) - (start.arrived (locked.link .west).delay).transit.toNat - (1000000 + locked.cyc.period) =
        locked.cyc.config.captureMicros * 1000 :=
  ⟨⟨⟨rfl, by decide⟩, rfl, by decide⟩, by decide, rfl, rfl, rfl, rfl, rfl, by decide, by decide⟩

/-- A node in ACQUIRING, its good count given. -/
def gaining (good : Nat) : State := { locked with cyc := { locked.cyc with lock := .acquiring, good := good } }

theorem witness_acquiring_frame :
    (gaining 15).Processes .west { hdr := hdr 1 31, body := .cycleStart start } ∧ (gaining 15).cyc.role ≠ .leader ∧
      (gaining 15).cyc.runningDown = false ∧ (gaining 15).cyc.leader = some start.leader ∧
      (gaining 15).cyc.epoch = start.epoch ∧ (gaining 15).cyc.lock = .acquiring ∧
      (gaining 15).cyc.reference = some { cycle := 99, send := 1000000 } ∧ (start.cycle - 99#16).toNat = 1 ∧
      (gaining 15).cyc.config.lockCount ≤ min ((gaining 15).cyc.good + 1) 64 ∧
      min ((gaining 14).cyc.good + 1) 64 < (gaining 14).cyc.config.lockCount ∧
      (1508000 : Int) - (start.arrived (locked.link .west).delay).transit.toNat - (1000000 + locked.cyc.period) =
        locked.cyc.config.captureMicros * 1000 ∧
      2 * ((1756000 : Int) - (start.arrived (locked.link .west).delay).transit.toNat - (1000000 + locked.cyc.period)) =
        locked.cyc.period ∧ ((101 : Cycle) - 99#16).toNat ≠ 1 :=
  ⟨⟨⟨rfl, by decide⟩, rfl, by decide⟩, by decide, rfl, rfl, rfl, rfl, rfl, by decide, by decide, by decide, by decide,
    by decide, by decide⟩

def returning (n : Cycle) : CycleStart := { start with cycle := n }

theorem witness_holdover_return :
    holdover.Processes .west { hdr := hdr 1 31, body := .cycleStart (returning 101) } ∧
      holdover.cyc.role ≠ .leader ∧ holdover.cyc.runningDown = false ∧ holdover.cyc.leader = some start.leader ∧
      holdover.cyc.epoch = start.epoch ∧ holdover.cyc.lock = .holdover ∧
      holdover.cyc.reference = some { cycle := 99, send := 1000000 } ∧
      ((returning 101).cycle - 99#16).toNat = holdover.cyc.missed ∧
      ((returning 102).cycle - 99#16).toNat = holdover.cyc.missed + 1 ∧
      (2006000 : Int) - ((returning 101).arrived (holdover.link .west).delay).transit.toNat =
        1000000 + 2 * holdover.cyc.period :=
  ⟨⟨⟨rfl, by decide⟩, rfl, by decide⟩, by decide, rfl, rfl, rfl, rfl, rfl, by decide, by decide, by decide⟩

theorem witness_frame_out_of_window :
    locked.Processes .west { hdr := hdr 1 31, body := .cycleStart start } ∧
      (locked.cyc.config.captureMicros * 1000 : Int) <
        1508001 - (start.arrived (locked.link .west).delay).transit.toNat - (1000000 + locked.cyc.period) ∧
      ((returning 101).cycle - 99#16).toNat ≠ 1 :=
  ⟨⟨⟨rfl, by decide⟩, rfl, by decide⟩, by decide, by decide⟩

theorem witness_foreign_leader :
    locked.leading = false ∧ locked.cyc.leader = some 1 ∧ ({ start with leader := 4 } : CycleStart).leader ≠ 1 ∧
      newer start.epoch locked.cyc.epoch = false := by decide

theorem witness_epochs_128_apart :
    newer (135 : BitVec 8) leader.cyc.epoch = false ∧ newer leader.cyc.epoch (135 : BitVec 8) = false ∧
      leader.own ≤ ({ start with leader := 4 } : CycleStart).leader ∧
      ({ start with epoch := 135 } : CycleStart).leader < leader.own := by decide

theorem witness_leader_meets_frames :
    leader.Processes .west { hdr := hdr 1 31, body := .cycleStart start } ∧ leader.leading = true ∧
      newer leader.cyc.epoch ({ start with epoch := 6 } : CycleStart).epoch = true ∧
      newer ({ start with epoch := 8 } : CycleStart).epoch leader.cyc.epoch = true ∧
      (start.epoch = leader.cyc.epoch ∧ start.leader < leader.own) :=
  ⟨⟨⟨rfl, by decide⟩, rfl, by decide⟩, by decide, by decide, by decide, by decide⟩

/-- R90: a leader that yields to a frame with a new trip reset keeps source 15 latched and its record listed. -/
theorem test_yield_at_a_reset :
    (match exec (.cycleStartReceived .west (at0 1508000) (hdr 1 31) { start with epoch := 8, resetNo := 1 })
        { leader with trip := { leader.trip with tripLeader := some { epoch := 8, node := 1 } } } with
      | .next u => (u.getSource 15).latched && decide (u.trip.resetNo = 1 ∧ u.trip.list.length = 1)
      | _ => false) = true := by decide +kernel

theorem witness_listen_end :
    let s : State := { online with cyc := { online.cyc with role := .leader, phase := .listening } }
    s.cyc.role = .leader ∧ s.cyc.phase = .listening ∧ s.cyc.lock ≠ .locked ∧ leader.cyc.lock = .locked := by decide

def staged (n : Cycle) : State :=
  { leader with
    cyc := { leader.cyc with pendingSwitch := some { plan := 1, cycle := n } }
    trip := { leader.trip with stagedReset := true } }

theorem witness_leader_boundary :
    leader.leading = true ∧ leader.cyc.pendingSwitch = none ∧ leader.calledMode ≠ .isolated ∧
      (staged 100).cyc.pendingSwitch = some { plan := 1, cycle := (staged 100).cyc.cycle + 1 } ∧
      (103#16 - ((staged 103).cyc.cycle + 1)).toNat = 3 ∧ (staged 100).trip.stagedReset = true := by decide

/-- Leading to another plan's roster: node 4 joined the roster of plan 1. -/
def joining : State :=
  { staged 100 with cyc := { (staged 100).cyc with
      rosters := modifyAt leader.cyc.rosters (1 : PlanNo) fun _ => 0x10
      added := modifyAt leader.cyc.added (1 : PlanNo) fun _ => 0x10 } }

theorem witness_added_address :
    joining.cyc.pendingSwitch = some { plan := 1, cycle := joining.cyc.cycle + 1 } ∧ (1 : PlanNo) ≠ joining.cyc.activePlan ∧
      (joining.cyc.added[1]).getLsbD 4 = true ∧ (joining.cyc.rosters[joining.cyc.activePlan.val]).getLsbD 4 = false := by
  decide

/-- A switch to plan 1 two cycles off, with its roster. -/
def checked (roster : BitVec 31) : State :=
  { staged 102 with cyc := { (staged 102).cyc with rosters := modifyAt leader.cyc.rosters (1 : PlanNo) fun _ => roster } }

theorem witness_veto :
    (checked 0).cyc.pendingSwitch = some { plan := 1, cycle := 102 } ∧ (checked 0).leading = true ∧
      (102#16 - ((checked 0).cyc.cycle + 1)).toNat = 2 ∧ (101#16 - ((staged 101).cyc.cycle + 1)).toNat = 1 ∧
      (checked 0).cyc.rosters[1] = 0 ∧ (checked 8).cyc.rosters[1] ≠ 0 ∧ ((checked 8).cyc.rosters[1]).getLsbD 3 = true ∧
      (checked 8).cyc.address = some 3 ∧ (∀ i : AxisNo, ((checked 8).getAxis i).state = .off) := by decide

def acquiring (missed : Nat) : State :=
  { locked with cyc := { locked.cyc with lock := .acquiring, missed := missed } }

theorem witness_missed_cycle_starts :
    (acquiring 7).cyc.lock = .acquiring ∧ (acquiring 7).cyc.missed + 1 ≤ (acquiring 7).cyc.config.holdLimit ∧
      (acquiring 8).cyc.config.holdLimit < (acquiring 8).cyc.missed + 1 ∧ locked.cyc.lock = .locked ∧
      locked.leading = false ∧ locked.cyc.runningDown = false := by decide

def holding (missed : Nat) (r : Role) : State :=
  { holdover with cyc := { holdover.cyc with missed := missed, role := r } }

theorem witness_holdover_runs_out :
    (holding 7 .follower).cyc.lock = .holdover ∧
      (holding 7 .follower).cyc.missed + 1 ≤ (holding 7 .follower).cyc.config.holdLimit ∧
      (holding 8 .follower).cyc.config.holdLimit < (holding 8 .follower).cyc.missed + 1 ∧
      (holding 2 .standby).cyc.config.takeCount ≤ (holding 2 .standby).cyc.missed + 1 ∧
      (holding 2 .standby).calledMode ≠ .isolated := by decide

theorem witness_running_down :
    ({ online with cyc := { online.cyc with runningDown := true } } : State).cyc.runningDown = true := rfl

/-! ### Witnesses: frames of other nodes -/

def entry : CorrEntry := { target := 3, axis := 0, outcome := .none, delta := 524288 }

theorem witness_status :
    following.Processes .west { hdr := hdr 1 31, body := .status { status with entries := [entry] } } ∧
      newer following.trip.resetNo status.resetNo = false ∧ newer (1 : BitVec 8) status.resetNo = true ∧
      following.trip.view.rank < status.cls.rank ∧ status.topSource = some 13 ∧ following.trip.list.length < 16 ∧
      following.cyc.address = some entry.target ∧ entry.outcome = .none ∧ (following.getAxis 0).enabled = true ∧
      (following.getAxis 0).state = .follow ∧ (following.getAxis 0).cp + entry.delta ≤ 524288 ∧
      following.OutputFree .east 2400 :=
  ⟨⟨⟨rfl, by decide⟩, rfl, by decide⟩, by decide, by decide, by decide, rfl, by decide, rfl, rfl, rfl, rfl,
    by decide, rfl, rfl, rfl, rfl⟩

def guarded : State :=
  { online with trip := { online.trip with guard := some { cycle := 54, left := 1 } } }

theorem witness_trip_flash :
    online.Processes .west (flashFrame 1) ∧ online.trip.guard = none ∧
      guarded.trip.guard = some { cycle := 54, left := 1 } ∧ (54#16 - flash.cycle).toNat = 4 ∧
      4 < (54#16 - (49 : Cycle)).toNat ∧ online.trip.view.rank < flash.cls.rank :=
  ⟨⟨⟨rfl, by decide⟩, rfl, by decide⟩, rfl, rfl, by decide, by decide, by decide⟩

theorem witness_event_message :
    screen.Processes .west { hdr := hdr 1 3, body := .data (event 256) } ∧ screen.cyc.address = some (hdr 1 3).dest ∧
      (screen.getChannel 2).config.type = .screen ∧ (screen.getChannel 2).held = false ∧
      screen.contextOf 1 2 = none ∧
      (screen.getChannel 2).rx.length + (screen.contextsOn 2).length < (screen.getChannel 2).config.rxDepth ∧
      (screen.freeContext .screen).isSome = true ∧ screen.pool.free = 0 :: (List.finRange 512).drop 1 ∧
      screen.MemoryOk ∧ screen.OutputFree .east 2400 :=
  ⟨⟨⟨rfl, by decide +kernel⟩, rfl, by decide⟩, rfl, rfl, rfl, rfl, by decide, rfl, by decide +kernel, rfl,
    ⟨rfl, rfl, rfl, rfl⟩⟩

theorem witness_request_and_response :
    let e : OutEntry := { dest := 1, tag := 7, cycle := 0, state := .waiting, age := 0 }
    let b : DataBody := { event 256 with kind := .response, answers := 7 }
    let s := withChannel screen fun x => { x with entries := [e] }
    s.Processes .west { hdr := hdr 1 3, body := .data b } ∧
      screen.Processes .west { hdr := hdr 1 3, body := .data { event 1 with kind := .request } } ∧
      (screen.getChannel 2).queue = [] ∧ (s.getChannel 2).entries = [] ++ e :: [] ∧ e.dest = (hdr 1 3).origin ∧
      e.tag = b.answers ∧ e.state = .waiting :=
  ⟨⟨⟨rfl, by decide +kernel⟩, rfl, by decide⟩, ⟨⟨rfl, by decide⟩, rfl, by decide⟩, rfl, rfl, rfl, rfl, rfl⟩

theorem witness_refused_segments :
    online.Processes .west { hdr := hdr 1 3, body := .data (event 1) } ∧
      (online.getChannel 2).config.type = .off ∧ (image.getChannel 2).config.type = .image ∧
      ((withChannel screen fun x => { x with held := true }).getChannel 2).held = true ∧
      ((withChannel screen fun x => { x with config := { x.config with rxDepth := 0 } }).getChannel 2).config.rxDepth ≤
        (screen.getChannel 2).rx.length ∧
      (screen.modPool fun u => { u with free := [] }).pool.free = [] ∧ (screen.getChannel 2).entries = [] :=
  ⟨⟨⟨rfl, by decide⟩, rfl, by decide⟩, rfl, rfl, rfl, by decide, rfl, rfl⟩

theorem witness_own_data :
    (sending 0).Removes .west { hdr := { hdr 3 5 with mark := .taken }, body := .data (event 1) } ∧
      ((sending 0).getChannel 2).queue = message :: [] ∧ message.finishing = false ∧ message.dest ≠ 31 ∧
      message.kind = .event ∧ message.tag = (event 1).tag ∧
      ((sending 0).getChannel 2).attemptNo = (event 1).attempt ∧
      ((sending 0).getChannel 2).attempt = some { segs := [.onWire 0], stopped := false } ∧ message.tries < 8 ∧
      (screen.getChannel 2).attempt = none :=
  ⟨⟨⟨rfl, by decide⟩, rfl, rfl⟩, rfl, rfl, by decide, rfl, rfl, rfl, rfl, by decide, rfl⟩

theorem witness_own_data_of_two_segments :
    let a : Attempt := { segs := [.onWire 0, .onWire 1], stopped := false }
    a.segs[(event 1).index]? = some (.onWire 0) ∧ 1 ≠ (event 1).index ∧ a.segs[1]? = some (.onWire 1) ∧
      ({ message with kind := .request } : TxMsg).kind = .request ∧ (screen.getChannel 2).entries = [] ∧
      (screen.getChannel 2).outcomes.length < 8 := by decide

def sent : OutboxEntry :=
  { port := .b, target := 5, axis := 255, delta := -9, state := .sent, outcome := .none, cycle := 99, place := 0 }

theorem witness_own_status :
    online.Removes .west { hdr := hdr 3 31, body := .status status } ∧ sent.state = .sent ∧ sent.cycle = status.cycle ∧
      sent.axis ≤ 255 ∧ online.axis.outbox = [] ∧ status.entries[sent.place]? = none :=
  ⟨⟨⟨rfl, by decide⟩, rfl, rfl⟩, rfl, rfl, by decide, rfl, rfl⟩

/-- Ports A and B posted one correction each, alike; port A's entry was removed by its soft reset, and the STATUS returns with
both outcomes: the entry of port B takes its own (R67). -/
theorem test_removed_entry_matches_nothing :
    let back (o : CorrOutcome) : CorrEntry := { target := 5, axis := 255, outcome := o, delta := -9 }
    returnSent 99 [back .applied, back .clamped] [{ sent with place := 1 }] =
      [{ sent with place := 1, state := .done, outcome := .clamped }] := by decide

/-- R64: of five QUEUED entries the oldest four are placed, at places 0 to 3, and a DONE one is passed over. -/
theorem test_four_entries_are_placed :
    let q : OutboxEntry := { sent with state := .queued, cycle := 0 }
    (markSent 99 [q, { q with state := .done }, q, q, q, q] 0).map (fun e => (e.state, e.place)) =
      [(.sent, 0), (.done, 0), (.sent, 1), (.sent, 2), (.sent, 3), (.queued, 0)] := by decide

/-! ### Witnesses: shafts, axes and trips -/

theorem witness_gearing : 0 ≤ Axis.reset.r ∧ Axis.reset.r < Axis.reset.work.den := by decide

theorem witness_corrections :
    (following.getAxis 0).enabled = true ∧ (following.getAxis 0).state = .follow ∧
      (following.getAxis 1).enabled = false ∧ (following.getAxis 0).cp + (-524288) = -524288 := by decide

theorem witness_publication :
    (∀ i : AxisNo, (online.axis.axes[i.val]).state = .off) ∧ (∃ i : AxisNo, (following.axis.axes[i.val]).state ≠ .off) ∧
      following.axis.taken ≠ some following.axis.live.cycle := by decide

theorem witness_axis_writes :
    (∀ j : LockNo, (ready.getAxis 7).guardLock = some j → (ready.getLock j).holder = some .a) ∧
      ((ready.modAxis 7 fun x => { x with guardLock := some 15 }).getAxis 7).guardLock = some 15 ∧
      (ready.getLock 15).holder ≠ some .a := by decide

/-- Numbers at the ends of the parameters' ranges: the low word of a 32-bit value that is 0, 1, 15 to 17, 65,534 and 65,535. -/
theorem witness_axis_parameter_values :
    let w (v : BitVec 32) : Nat := (v.setWidth 16).toNat
    w 0x10000 < 1 ∧ 1 ≤ w 1 ∧ w 1 ≤ 1 ∧ w 15 = (15 : LockNo).val ∧ 15 < w 16 ∧ w 16 < 65535 ∧ w 0xFFFE < 65535 ∧
      w 0xFFFF = 65535 ∧ 16 < w 17 ∧ 3 < w 4 ∧ w 3 ≤ 3 ∧ (online.getSource 16).latched = false ∧
      (online.getSource 31).latched = false := by decide

/-- R54: a correction slew of 0 is stored as 1 and sets the clamp flag; a guard lock of FFFFh is none and sets no flag. -/
theorem test_axis_parameters_clamp :
    (match exec (.axisParameterWrite .a 7 .corrSlew 0) online, exec (.axisParameterWrite .a 7 .guardLock 0xFFFF) online with
      | .next t, .next u => ((t.getAxis 7).corrSlew, t.axis.clampFlag, (u.getAxis 7).guardLock, u.axis.clampFlag)
      | _, _ => (9, false, some 9, true)) = (1, true, none, false) := by decide

theorem witness_axis_sources_and_widths :
    (31 : SourceNo).val = 24 + (7 : AxisNo).val ∧ (23 : SourceNo).val = 16 + (7 : AxisNo).val ∧
      ((wide ready).port .a).wide = true ∧ (ready.port .a).wide = false := by decide

/-- Axis 5 ready to engage with a valid entry. -/
def engaging : State :=
  locked.modAxis 5 fun x =>
    { x with enabled := true, entries := modifyAt x.entries 0 fun e => { e with valid := true } }

theorem witness_engage :
    engaging.clock.ready = true ∧ (5 : Word16).toNat = (5 : AxisNo).val ∧ (engaging.getAxis 5).enabled = true ∧
      (engaging.getAxis 5).state = .off ∧ engaging.cyc.lock = .locked ∧ engaging.trip.view ≠ .instant ∧
      ((engaging.getAxis 5).entries[engaging.cyc.activePlan.val]).valid = true ∧
      1 ≤ ((engaging.getAxis 5).entries[engaging.cyc.activePlan.val]).den := by decide

theorem witness_engage_refused :
    (online.getAxis 5).enabled = false ∧ (following.getAxis 0).state ≠ .off ∧ (following.getAxis 0).enabled = true ∧
      holdover.cyc.lock ≠ .locked ∧ (locked.activeEntry 5).valid = false ∧
      ({ locked.trip with view := .instant } : TripUnit).view = .instant := by decide

theorem witness_disengage :
    (following.getAxis 0).state = .follow ∧ 8 ≤ (8 : Word16).toNat ∧ following.clock.ready = true := by decide

def done (p : Port) : OutboxEntry := { sent with state := .done, port := p }

theorem witness_correction_post :
    online.clock.ready = true ∧ online.axis.outbox.length < 8 ∧ (online.port .a).corrPosting.target.toNat ≤ 30 ∧
      online.cyc.address ≠ some (online.port .a).corrPosting.target.toNat ∧
      8 ≤ (List.replicate 8 sent).length := by decide

theorem witness_correction_own :
    let s := online.modPort .b fun u => { u with corrPosting := { target := 3, axis := 8, delta := 0x80000 } }
    s.cyc.address = some (s.port .b).corrPosting.target.toNat ∧ 8 ≤ (s.port .b).corrPosting.axis.toNat := by decide

theorem witness_correction_read :
    (∀ x ∈ [done .a], ¬(x.state = .done ∧ x.port = .b)) ∧ (done .b).state = .done ∧ (done .b).port = .b := by decide

theorem witness_actuals :
    ((online.modAxis 3 fun x => { x with actualReport := true }).getAxis 3).actualReport = true ∧
      (online.getAxis 3).actualReport = false ∧ online.axis.snapshot = some SetpointSet.reset ∧
      (resetPortA .a online).axis.snapshot = none := ⟨rfl, rfl, rfl, rfl⟩

theorem witness_trip_words :
    online.clock.ready = true ∧ (online.getSource 15).latched = false ∧ (3 : Word16).toNat < 4 ∧
      (online.getSource 13).enabled = true ∧ (online.getSource 13).present = false ∧
      ((online.modSource 9 fun x => { x with present := true }).getSource 9).present = true ∧
      leader.leading = true ∧ online.leading = false := by decide

/-- Source 15 latched at NOTICE, its condition absent. -/
def noticed : State :=
  online.modTrip fun u =>
    { u with
      sources := modifyAt u.sources 15 fun x => { x with latched := true }
      localClass := .notice, view := .notice }

/-- Sources 7 and 16 latched at a node on the ring, their classes written again. -/
def latching : State :=
  ((online.modSource 7 fun x => { x with latched := true, cls := .quick }).modSource 16 fun x =>
    { x with latched := true, cls := .stop }).modTrip fun u =>
      { u with localClass := .quick, topSource := some 7, view := .quick }

theorem witness_class_of_a_latched_source :
    (∀ i : AxisNo, (16 : SourceNo).val = 16 + i.val ∨ (16 : SourceNo).val = 24 + i.val →
        ∀ j : LockNo, (latching.getAxis i).guardLock = some j → (latching.getLock j).holder = some .a) ∧
      (latching.getSource 16).latched = true ∧ (latching.getSource 7).latched = true ∧
      (online.getSource 31).latched = false ∧ latching.cyc.attached = true ∧ latching.ring.mode ≠ .isolated ∧
      latching.trip.localClass.rank < TripClass.instant.rank := by decide

/-- R79, R80, R84: source 16 rises to INSTANT, and with it local class, top source, view and a TRIP_FLASH; source 7 falls to
NOTICE, and source 16 is then the top source at STOP, with no TRIP_FLASH and the view as it was. -/
theorem test_class_of_a_latched_source :
    let shown (s : State) (n : SourceNo) (v : Word16) : List TripClass × Option SourceNo × Nat :=
      match exec (.sourceClassWrite .a n v) s with
      | .next u => ([u.trip.localClass, u.trip.view], u.trip.topSource, u.ring.ownFlash.length)
      | _ => ([], none, 9)
    shown latching 16 3 = ([.instant, .instant], some 16, 1) ∧ shown latching 7 0 = ([.stop, .quick], some 16, 0) := by
  decide

theorem witness_local_clear :
    noticed.clock.ready = true ∧ noticed.TripsOk ∧ (noticed.port .b).wide = false ∧ ((wide noticed).port .b).wide = true :=
  ⟨rfl, ⟨by decide, by decide, by decide⟩, rfl, rfl⟩

theorem witness_reset_guard : guarded.trip.guard = some { cycle := 54, left := 1 } := rfl

/-! ### Witnesses: packet memory and channels -/

theorem witness_no_block_is_held :
    ((List.finRange 512).filter fun n => decide (online.pool.owner n = .port .a)).length < 64 := by
  simp [Pool.owner, online, ready, State.reset, State.afterReset, Pool.reset, List.filter_eq_nil_iff.mpr]

theorem witness_blocks :
    online.clock.ready = true ∧ online.pool.free = 0 :: (List.finRange 512).drop 1 ∧
      online.pool.reserve < online.pool.free.length ∧
      (online.modPool fun u => { u with free := [] }).pool.free = [] ∧
      ((online.modPool fun u => { u with free := u.free.take 32 }).pool.free.length ≤ online.pool.reserve) ∧
      ((ownBlocks [511] (.port .a) online).pool.owner 511 = .port .a) ∧ online.pool.owner 511 ≠ .port .a := by
  decide +kernel

theorem witness_payload :
    let s := (ownBlocks [511] (.port .b) online).modPort .b fun u => { u with select := some 511 }
    s.clock.ready = true ∧ (s.port .b).wide = false ∧ (s.port .b).bigEndian = false ∧ s.MemoryOk ∧
      (s.port .b).select = some 511 ∧ s.pool.owner 511 = .port .b ∧
      (∀ n : BlockNo, (online.port .b).select = some n → online.pool.owner n ≠ .port .b) ∧
      online.locks.bindings[7] = none := by
  refine ⟨rfl, rfl, rfl, rfl, rfl, ?_, ?_, rfl⟩ <;> decide +kernel

def bound : State :=
  online.modLocks fun u => { u with bindings := modifyAt u.bindings (7 : AreaNo) fun _ => some 15 }

theorem witness_bound_area : bound.locks.bindings[7] = some 15 ∧ (bound.getLock 15).holder ≠ some .a := by decide

theorem witness_channel_configuration :
    online.clock.ready = true ∧ (online.getChannel 7).queue = [] ∧ (online.getChannel 7).rx = [] ∧
      (online.getChannel 7).entries = [] ∧ (∀ y ∈ (online.getChannel 7).store.slots, y.state = .empty) ∧
      online.contextsOn 7 = [] ∧ (online.getChannel 7).config.type = .off ∧
      ((sending 0).getChannel 2).queue ≠ [] := by decide

theorem witness_channel_types :
    (screen.getChannel 2).config.type = .screen ∧ (image.getChannel 2).config.type = .image ∧
      (screen.getChannel 2).queue = [] ∧ (image.getChannel 2).queue = [] ∧ screen.contextsOn 2 = [] ∧
      image.contextsOn 2 = [] ∧ (∀ y ∈ (image.getChannel 2).store.slots, y.state = .empty) ∧
      (3 : Word16).toNat = (3 : ShaftNo).val ∧ 3 < (4 : Word16).toNat ∧ (0xFFFE : Word16).toNat < 65535 := by decide

/-- R116, R130: a channel that leaves SCREEN for IMAGE has T_resp 200 and Hold open; a store of 32 slots, and of 33 clamped. -/
theorem test_channel_configuration :
    let s := withChannel screen fun x => { x with held := true, config := { x.config with tResp := 7 } }
    (match exec (.channelConfigWrite .a 2 .type 2) s, exec (.channelConfigWrite .a 2 .storeSize 33) image with
      | .next t, .next u => ((t.getChannel 2).config.tResp, (t.getChannel 2).held,
          (u.getChannel 2).store.slots.length, u.chan.clampFlag)
      | _, _ => (0, true, 0, false)) = (200, false, 32, true) := by decide

/-- Blocks 510 and 511 at port A, with a posting record of two blocks at most. -/
def postingOf (s : State) (kind length count : Nat) (block : Word16) : State :=
  (ownBlocks [510, 511] (.port .a) s).modPort .a fun u =>
    { u with posting :=
        { dest := 5, kind := BitVec.ofNat 16 kind, length := BitVec.ofNat 16 length, count := BitVec.ofNat 16 count,
          answers := 7, strip := 40, blocks := (Vector.replicate 8 511).set 0 block } }

/-- Port A about to post block 511 as an EVENT on channel 2 to node 5. -/
def posting : State := postingOf screen 3 256 1 511

theorem witness_post :
    (posting.getChannel 2).config.type = .screen ∧ (posting.getChannel 2).config.owner = .a ∧
      (posting.port .a).posting.kind.toNat = MsgKind.event.num ∧ (posting.port .a).posting.dest.toNat ≤ 31 ∧
      posting.cyc.address ≠ some (posting.port .a).posting.dest.toNat ∧
      (posting.port .a).posting.length.toNat = 256 ∧ (posting.port .a).posting.count.toNat = (256 + 255) / 256 ∧
      ((posting.port .a).posting.blocks.toList.take 1).map (fun w => w.toNat) = ([511] : List BlockNo).map Fin.val ∧
      posting.pool.owner 511 = .port .a ∧ (posting.getChannel 2).queue.length < 8 := by decide +kernel

/-- Posts of two blocks: a REQUEST and a RESPONSE, one that lists its block twice, and one of a block above 511. -/
theorem witness_post_of_two_blocks :
    let held (s : State) : Prop := ∀ n ∈ ([510, 511] : List BlockNo), s.pool.owner n = .port .a
    let listed (s : State) : List Nat := ((s.port .a).posting.blocks.toList.take 2).map fun w => w.toNat
    ((postingOf screen 1 300 2 510).port .a).posting.kind.toNat = MsgKind.request.num ∧
      ((postingOf screen 2 300 2 510).port .a).posting.kind.toNat = MsgKind.response.num ∧
      held (postingOf screen 1 300 2 510) ∧ listed (postingOf screen 1 300 2 510) = [510, 511] ∧
      ([510, 511] : List BlockNo).Nodup ∧ listed (postingOf screen 3 300 2 511) = [511, 511] ∧
      ¬([511, 511] : List BlockNo).Nodup ∧ 512 ∈ listed (postingOf screen 3 300 2 512) := by decide +kernel

theorem witness_too_many_outstanding :
    let e : OutEntry := { dest := 30, tag := 9, cycle := 0, state := .waiting, age := 0 }
    let s := withChannel (postingOf screen 1 256 1 511) fun x =>
      { x with entries := [e, e, e], queue := [{ message with kind := .request }] }
    let x := s.getChannel 2
    x.queue.length < 8 ∧ x.entries.length + (x.queue.filter fun m => m.kind = .request).length = 4 := by decide +kernel

/-- A STRIP at port A for an IMAGE queue of 4, of whose head some segment has started, or nothing. -/
def crowded (started : Bool) : State :=
  let m (k : Nat) (b : Bool) : TxMsg :=
    { message with tag := BitVec.ofNat 8 k, kind := .strip, blocks := [Fin.ofNat 512 k], started := b }
  withChannel (postingOf image 4 256 1 511) fun x =>
    { x with queue := [m 5 started, m 6 false, m 7 false, m 8 false], config := { x.config with stampShaft := some 1 } }

theorem witness_superseding_post :
    ((crowded true).port .a).posting.kind.toNat = MsgKind.strip.num ∧
      ((crowded true).getChannel 2).config.type = .image ∧ ((crowded true).getChannel 2).queue.length = 4 ∧
      ((crowded true).getChannel 2).queue.map (fun m => m.started) = [true, false, false, false] ∧
      ((crowded false).getChannel 2).queue.map (fun m => m.started) = [false, false, false, false] ∧
      (image.getChannel 2).queue.length < 4 := by decide +kernel

/-- R133: with its head started, a full IMAGE queue gives up its second message, whose blocks are freed. -/
theorem test_post_supersedes_the_second :
    (match exec (.post .a 2) (crowded true) with
      | .next u => ((u.getChannel 2).queue.map fun m => m.tag, (u.getChannel 2).outcomes.map fun r => (r.outcome, r.tag),
          u.pool.free.getLast?, (u.port .a).codes.post)
      | _ => ([], [], none, .none)) = ([5, 7, 8, 0], [(.superseded, 6)], some 6, .accepted) := by decide +kernel

/-- R100: a block listed twice. -/
theorem test_post_of_a_block_twice :
    (match exec (.post .a 2) (postingOf screen 3 300 2 511) with
      | .next u => ((u.port .a).codes.post, (u.getChannel 2).queue.length)
      | _ => (.none, 9)) = (.badBlock, 0) := by decide +kernel

theorem witness_post_refused :
    (online.getChannel 2).config.type = .off ∧ (screen.getChannel 2).config.owner ≠ .b ∧
      (screen.port .a).posting.kind.toNat = 0 ∧ screen.pool.owner 511 ≠ .port .a := by decide +kernel

def offering (allowance : Nat) : State :=
  (withChannel screen fun x => { x with queue := [{ message with length := 256 }] }).modChan fun u =>
    { u with openPhase := true, allowance := allowance }

theorem witness_arbiter :
    let s := offering 292
    s.chan.offered = none ∧ s.chan.openPhase = true ∧ s.ring.mode ≠ .isolated ∧ s.chan.shut = false ∧
      0 < s.chan.allowance ∧ (∀ k : ChannelNo, k.val < (2 : ChannelNo).val → (s.getChannel k).isReady = false) ∧
      (s.getChannel 2).config.type ≠ .off ∧ (s.getChannel 2).queue = { message with length := 256 } :: [] ∧
      (s.getChannel 2).head = .idle ∧ (s.getChannel 2).attempt = none ∧ 256 + 36 ≤ s.chan.allowance ∧
      (offering 291).chan.allowance < 256 + 36 := by decide

theorem witness_segment_timeout :
    ((sending 1).getChannel 2).queue = message :: [] ∧
      ((sending 1).getChannel 2).attempt = some { segs := [.onWire 1], stopped := false } ∧ message.tries < 8 ∧
      8 ≤ ({ message with tries := 8 } : TxMsg).tries := ⟨rfl, rfl, by decide, by decide⟩

theorem witness_waits :
    ((withChannel screen fun x => { x with head := .retryWait }).getChannel 2).head = .retryWait ∧
      ((withChannel screen fun x => { x with head := .heldWait 15 }).getChannel 2).head = .heldWait 15 := ⟨rfl, rfl⟩

def context (slot : Option Nat) (k : MsgKind) : Context :=
  { origin := 1, channel := 2, kind := k, tag := 9, attempt := 1, length := 300, count := 2, next := 1, blocks := [4],
    answers := 0, strip := 0, stamp := none, toAll := false, idle := 1, slot := slot }

theorem witness_context_stale :
    (screen.setContext 3 (some (context none .event))).getContext 3 = some (context none .event) ∧
      (context none .event).idle = 1 ∧ (context none .event).kind ≠ .response ∧
      (image.setContext 0 (some (context (some 7) .strip))).getContext 0 = some (context (some 7) .strip) ∧
      7 < (image.getChannel 2).store.slots.length := by decide

/-- A message of `count` segments of which the first has come. -/
def assembling (count : Nat) : State := screen.setContext 3 (some { context none .event with count := count })

theorem witness_later_segments :
    let b : DataBody := { event 44 with length := 300, index := 1, count := 2 }
    (assembling 2).Processes .west { hdr := hdr 1 3, body := .data b } ∧ b.index ≠ 0 ∧
      (assembling 2).contextOf 1 2 = some 3 ∧
      (assembling 2).getContext 3 = some { context none .event with count := 2 } ∧ b.index = (context none .event).next ∧
      b.tag = (context none .event).tag ∧ b.attempt = (context none .event).attempt ∧
      (context none .event).next + 1 < 3 ∧ 2 ≤ (context none .event).next + 1 ∧
      (context none .event).slot = none ∧ (assembling 2).pool.free = 0 :: (List.finRange 512).drop 1 ∧
      (assembling 2).MemoryOk ∧ (assembling 2).OutputFree .east 2400 :=
  ⟨⟨⟨rfl, by decide +kernel⟩, rfl, by decide⟩, by decide, by decide, rfl, rfl, rfl, rfl, by decide, by decide, rfl,
    by decide +kernel, rfl, ⟨rfl, rfl, rfl, rfl⟩⟩

/-- A REQUEST of two segments of which the first has come, with an answer to its origin waiting unstarted, or none. -/
def requested (queue : List TxMsg) : State :=
  (withChannel screen fun x => { x with queue := queue }).setContext 3
    (some { context none .event with kind := .request, count := 2 })

def answer : TxMsg := { message with kind := .response, dest := 1, started := false }

theorem witness_last_segment_of_a_request :
    let x : Context := { context none .event with kind := .request, count := 2 }
    (requested [answer]).getContext 3 = some x ∧ x.count ≤ x.next + 1 ∧ x.slot = none ∧
      ((requested [answer]).getChannel x.channel).config.flush = true ∧
      ((requested [answer]).getChannel x.channel).queue = [answer] ∧ answer.kind = .response ∧ answer.dest = x.origin ∧
      answer.started = false ∧ ((requested []).getChannel x.channel).queue = [] := by decide

/-- R128: the REQUEST that completes flushes the unstarted answer to its origin, whose block is freed. -/
theorem test_request_flushes_the_answer :
    let b : DataBody := { event 44 with kind := .request, length := 300, index := 1, count := 2 }
    (match exec (.dataSegmentReceived .west (at0 0) (hdr 1 3) b) (requested [answer]) with
      | .next u => ((u.getChannel 2).queue.length, (u.getChannel 2).rx.length, u.pool.free.getLast?)
      | _ => (9, 9, none)) = (0, 1, some 4) := by decide +kernel

theorem witness_strip :
    let b : DataBody := { event 256 with kind := .strip, strip := 5 }
    let g : GapEntry := { source := 1, last := 4 }
    image.Processes .west { hdr := hdr 1 31, body := .data b } ∧ (image.getChannel 2).store.frozen = false ∧
      ((image.getChannel 2).store.slots[0]?).map (fun y => (y.state, y.blocks)) = some (.empty, []) ∧
      image.contextOf 1 2 = none ∧ (image.freeContext .image).isSome = true ∧
      image.pool.reserve < image.pool.free.length ∧ (image.getChannel 2).store.gaps = [] ∧
      ((withChannel image fun x => { x with store := { x.store with gaps := [g] } }).getChannel 2).store.gaps =
        [] ++ g :: [] ∧
      (b.strip - g.last).toNat = 1 ∧ (32771#16 - g.last).toNat = 32767 ∧ (4#16 - g.last).toNat = 0 ∧
      (32772#16 - g.last).toNat = 32768 :=
  ⟨⟨⟨rfl, by decide +kernel⟩, rfl, by decide⟩, rfl, by decide, by decide, by decide, by decide +kernel, rfl, rfl,
    by decide, by decide, by decide, by decide⟩

theorem witness_entry_timeout :
    let e : OutEntry := { dest := 30, tag := 9, cycle := 0, state := .waiting, age := 199 }
    let s := withChannel screen fun x => { x with entries := [e] }
    (s.getChannel 2).entries = [] ++ e :: [] ∧ e.state = .waiting ∧ e.age + 1 = (s.getChannel 2).config.tResp ∧
      (s.getChannel 2).outcomes.length < 8 := by decide

theorem witness_cancel :
    (screen.getChannel 2).config.owner ≠ .b ∧ (screen.getChannel 2).queue = [] ∧
      ((offering 0).getChannel 2).attempt = none ∧ message.finishing = false ∧
      (SegState.onWire 0) ∈ ({ segs := [.onWire 0], stopped := false } : Attempt).segs ∧
      (screen.getChannel 2).outcomes = [] := by decide

theorem witness_outcome_read :
    let r : OutcomeRecord := { outcome := .taken, tag := 9, kind := .event, dest := 5, tries := 1, takers := 0 }
    ((withChannel screen fun x => { x with outcomes := [r] }).getChannel 2).outcomes = r :: [] := rfl

def received (n pos : Nat) : State :=
  withChannel screen fun x =>
    { x with
      readPos := pos
      rx := [{ origin := 1, kind := .event, tag := 9, answers := 0, toAll := false, length := n, cycle := 99,
               blocks := [511] }] }

theorem witness_receive_queue :
    let s := received 256 253
    s.clock.ready = true ∧ (s.getChannel 2).config.type = .screen ∧ (s.getChannel 2).config.owner = .a ∧
      (s.port .a).wide = false ∧ (s.port .a).bigEndian = false ∧ (s.getChannel 2).readPos + 2 < 256 ∧
      256 ≤ ((received 256 254).getChannel 2).readPos + 2 ∧ (screen.getChannel 2).rx = [] := by decide

def stored (st : SlotState) (pos : Nat) : State :=
  withChannel image fun x =>
    { x with store := { x.store with
        readPos := pos
        slots := modifyNth x.store.slots 7 fun y => { y with state := st, length := 256, blocks := [511] } } }

theorem witness_open_slot :
    let s := stored .ready 0
    s.clock.ready = true ∧ (s.getChannel 2).config.type = .image ∧ (s.getChannel 2).config.owner = .a ∧
      (∀ z ∈ (s.getChannel 2).store.slots, z.state ≠ .reading) ∧
      ((s.getChannel 2).store.slots[7]?).map (fun y => y.state) = some .ready ∧
      (s.getChannel 2).store.frozen = false := by decide

theorem witness_reading_slot :
    ((stored .reading 254).getChannel 2).store.slots.map (fun y => decide (y.state = .reading)) =
      List.replicate 7 false ++ [true] ∧
      ((stored .reading 254).getChannel 2).store.readPos + 2 ≤ 256 ∧
      256 ≤ ((stored .reading 256).getChannel 2).store.readPos := by decide

theorem witness_frozen_store :
    ((withChannel image fun x => { x with store := { x.store with frozen := true } }).getChannel 2).store.frozen =
      true := rfl

/-! ### Witnesses: configuration, plans, locks and accesses -/

theorem witness_configuration :
    online.clock.ready = true ∧ online.cyc.attached = true ∧ ready.cyc.attached = false ∧ (30 : Word16).toNat ≤ 30 ∧
      30 < (31 : Word16).toNat ∧ online.cyc.role ≠ .leader ∧ (1 : Word16).toNat < 2 ∧ 2 ≤ (2 : Word16).toNat := by decide

theorem witness_attach :
    ready.cyc.attached = false ∧ ready.cyc.address = none ∧ (addressed .fallback).clock.state ≠ .crystal ∧
      (addressed .crystal).cyc.attached = false ∧ (addressed .crystal).cyc.address ≠ none ∧
      (addressed .crystal).clock.state = .crystal := by decide

theorem witness_detach :
    online.cyc.attached = true ∧ (∀ i : AxisNo, (online.getAxis i).state = .off) ∧
      (∃ i : AxisNo, (following.getAxis i).state ≠ .off) ∧ ready.cyc.attached = false := by decide

def holdsLock : State := online.modLock 15 fun _ => { holder := some .a, waiter := some .b }

theorem witness_soft_reset :
    lent.clock.ready = true ∧ holdsLock.clock.ready = true ∧ (holdsLock.getLock 15).holder = some .a ∧
      (holdsLock.getLock 15).waiter = some Port.a.other ∧ (holdsLock.getLock 0).holder ≠ some .a ∧
      ((sending 0).getChannel 2).config.owner = .a ∧ ((sending 0).getChannel 2).config.owner ≠ .b :=
  ⟨rfl, rfl, rfl, rfl, by decide, rfl, by decide⟩

def rostered : State :=
  { leader with cyc := { leader.cyc with rosters := modifyAt leader.cyc.rosters (1 : PlanNo) fun _ => 0x7FFFFFFF } }

theorem witness_plan_staging :
    rostered.leading = true ∧ rostered.cyc.pendingSwitch = none ∧ (1 : Word16).toNat ≠ rostered.cyc.activePlan.val ∧
      8 ≤ (107#16 - rostered.cyc.cycle).toNat ∧ (106#16 - rostered.cyc.cycle).toNat < 8 ∧
      (32866#16 - rostered.cyc.cycle).toNat ≤ 32767 ∧ 32767 < (32867#16 - rostered.cyc.cycle).toNat ∧
      rostered.cyc.rosters[1] ≠ 0 ∧ rostered.cyc.rosters[2] = 0 ∧ (staged 200).cyc.pendingSwitch ≠ none ∧
      online.leading = false := by decide

theorem witness_cancel_plan :
    (staged 102).leading = true ∧ (102#16 - (staged 102).cyc.cycle).toNat = 3 ∧
      (101#16 - (staged 101).cyc.cycle).toNat < 3 ∧ leader.cyc.pendingSwitch = none := by decide

theorem witness_locks :
    (online.getLock 0).holder = none ∧ (holdsLock.getLock 15).holder = some Port.b.other ∧
      (holdsLock.getLock 15).waiter = some .b ∧
      ((online.modLock 3 fun _ => { holder := some .a, waiter := none }).getLock 3).waiter = none := by decide

theorem witness_signals :
    let s := online.modLocks fun u => { u with enables := { a := 0, b := 0x8000 } }
    (0x8000 : Word16).getLsbD (15 : Fin 16).val = true ∧ (s.locks.signals.get Port.a.other).getLsbD 15 = false ∧
      (s.locks.enables.get Port.a.other).getLsbD 15 = true ∧ (online.locks.enables.get Port.a.other) = 0 := by decide

theorem witness_accesses :
    online.clock.ready = true ∧ (online.port .b).wide = false ∧ 0x4000 ≤ (0x4000 : Word16).toNat ∧
      (online.port .b).capture = none ∧ (∀ j : LockNo, online.locks.bindings[7] ≠ some j) := by decide

theorem witness_wide_accesses :
    let s := wide (ready.modAxis 7 fun x => { x with guardLock := some 15 })
    s.clock.ready = true ∧ (s.port .a).wide = true ∧ (s.port .b).wide = true ∧ (s.getAxis 7).guardLock = some 15 ∧
      (s.getLock 15).holder ≠ some .a ∧ 0x4000 ≤ (0xFFFF : Word16).toNat ∧ 0x4000 ≤ (0x4001 : Word16).toNat ∧
      bound.locks.bindings[7] = some 15 := by decide

end Sys2Proof.Tests
end

