-- ==== Sys2Proof/Proofs/RingInput.lean ====
section
/-!
PROOFS. The way of a received ring frame through the link unit to the ring path unit, and the inputs that the path mode does
not use (R8, R13).
-/

namespace Sys2Proof.Machine

theorem exec_frameOnUnusedInput (d : Side) (t : RxTime) (f : Frame) (s : State) :
    exec (.frameOnUnusedInput d t f) s = .next (receiveFrame d t f s) := rfl

@[simp] theorem State.passed_ring (s : State) (d : Side) : (s.passed d).ring = s.ring := rfl

/-- The link unit's part of a reception: on a link in UP a frame with every field in range leaves its pass in the error window
and goes to the ring path unit (R7, R8). -/
theorem receiveFrame_of_reaches {s : State} {d : Side} {f : Frame} (t : RxTime) (h : s.Reaches d f) :
    receiveFrame d t f s = receiveRing d t f (s.passed d) := by
  obtain ⟨hup, hrange⟩ := h
  simp only [receiveFrame, hrange, hup]
  rfl

/-- The ring path unit's part: whatever the frame holds, it is only counted (R13). -/
theorem receiveRing_of_not_uses {s : State} {d : Side} (t : RxTime) (f : Frame) (h : s.ring.mode.uses d = false) :
    receiveRing d t f s = s.modRing fun u => { u with unusedInputs := bump u.unusedInputs } := by
  simp [receiveRing, h]

/-- Settles O16: the link unit passes the frame on, and the ring path unit, whose mode the pass does not touch, counts it. -/
theorem unusedInputDiscards : Obligations.UnusedInputDiscards := by
  intro s d t f hreach hunused
  have hmode : (s.passed d).ring.mode.uses d = false := by rwa [State.passed_ring]
  rw [exec_frameOnUnusedInput, receiveFrame_of_reaches t hreach, receiveRing_of_not_uses t f hmode]

end Sys2Proof.Machine
end

