-- ==== Sys2Proof/Proofs/CancelPlan.lean ====
section
/-!
PROOFS. CANCEL PLAN (R43): one equation for each answer of the command at port A, and what a cancelled switch leaves behind.
-/

namespace Sys2Proof.Machine

/-! ### A PLAN event (R154) -/

/-- An event raised at both ports sets its flag at each, and touches no other part of a port unit. -/
theorem raiseBoth_port (q : Port) (e : Event) (s : State) :
    (raiseBoth e s).port q = { s.port q with flags := (s.port q).flags ||| e.mask } := by
  unfold raiseBoth
  rw [raise_port, raise_port]
  cases q <;> simp

@[simp] theorem planEvent_cyc (o : PlanOutcome) (k : PlanNo) (s : State) :
    (planEvent o k s).cyc = { s.cyc with planRecord := { outcome := o, plan := k, cycle := s.cyc.cycle } } := rfl

theorem planEvent_port (o : PlanOutcome) (k : PlanNo) (s : State) (q : Port) :
    (planEvent o k s).port q = { s.port q with flags := (s.port q).flags ||| Event.plan.mask } :=
  raiseBoth_port q .plan _

/-- A PLAN event changes the cycle unit and the ports alone. -/
theorem planEvent_frame (o : PlanOutcome) (k : PlanNo) (s : State) :
    planEvent o k s = { s with cyc := (planEvent o k s).cyc, ports := (planEvent o k s).ports } := rfl

/-! ### Event flags that stay -/

/-- A change of a port unit that keeps its event flags keeps those of every port. -/
theorem State.modPort_flags (s : State) (p q : Port) {f : PortUnit → PortUnit} (hf : ∀ u, (f u).flags = u.flags) :
    ((s.modPort p f).port q).flags = (s.port q).flags := by
  rw [State.modPort_port]
  split
  · exact hf _
  · rfl

@[simp] theorem State.touched_flags (s : State) (p q : Port) : ((s.touched p).port q).flags = (s.port q).flags :=
  State.modPort_flags s p q fun _ => rfl

@[simp] theorem State.setCode_flags (s : State) (p q : Port) (f : ReadBacks → ReadBacks) :
    ((s.setCode p f).port q).flags = (s.port q).flags := State.modPort_flags s p q fun _ => rfl

@[simp] theorem State.modCyc_port (s : State) (f : CycleUnit → CycleUnit) (q : Port) :
    (s.modCyc f).port q = s.port q := rfl

/-! ### The answers of CANCEL PLAN at port A -/

/-- After the wait the access empties port A's field latch, and the command acts on that state (R158, R162). -/
theorem exec_cancelPlan_ready (p : Port) {s : State} (hready : s.clock.ready = true) :
    exec (.cancelPlan p) s = .next (cmdCancelPlan p (s.touched p)) :=
  congrArg Host.Outcome.next (portWrite_ready p s (cmdCancelPlan p) hready)

theorem cmdCancelPlan_of_not_leading {s : State} (hlead : s.leading = false) :
    cmdCancelPlan .a s = s.setCode .a fun c => { c with cancelPlan := .notLeader } := by
  simp [cmdCancelPlan, hlead]

theorem cmdCancelPlan_of_no_switch {s : State} (hlead : s.leading = true) (hnone : s.cyc.pendingSwitch = none) :
    cmdCancelPlan .a s = s.setCode .a fun c => { c with cancelPlan := .none } := by
  simp [cmdCancelPlan, hlead, hnone]

theorem cmdCancelPlan_of_too_late {s : State} {w : PlanSwitch} (hlead : s.leading = true)
    (hsome : s.cyc.pendingSwitch = some w) (hlate : cycleDist w.cycle s.cyc.cycle < 3) :
    cmdCancelPlan .a s = s.setCode .a fun c => { c with cancelPlan := .tooLate } := by
  simp [cmdCancelPlan, hlead, hsome, hlate]

/-- The state in which the leader raises the PLAN event of a cancelled switch: port A reads back ACCEPTED, and no switch is
pending. -/
def State.switchDropped (s : State) : State :=
  (s.setCode .a fun c => { c with cancelPlan := .accepted }).modCyc fun u => { u with pendingSwitch := none }

@[simp] theorem State.switchDropped_cyc (s : State) :
    s.switchDropped.cyc = { s.cyc with pendingSwitch := none } := rfl

@[simp] theorem State.switchDropped_flags (s : State) (q : Port) :
    (s.switchDropped.port q).flags = (s.port q).flags := by
  rw [State.switchDropped, State.modCyc_port, State.setCode_flags]

theorem cmdCancelPlan_of_in_time {s : State} {w : PlanSwitch} (hlead : s.leading = true)
    (hsome : s.cyc.pendingSwitch = some w) (htime : 3 ≤ cycleDist w.cycle s.cyc.cycle) :
    cmdCancelPlan .a s = planEvent .cancelled w.plan s.switchDropped := by
  simp [cmdCancelPlan, hlead, hsome, Nat.not_lt.mpr htime, State.switchDropped]

/-! ### The next CYCLE_START -/

/-- A CYCLE_START carries the switch that is pending in the cycle unit (R26). -/
theorem State.cycleStart_pendingSwitch (s : State) : s.cycleStart.pendingSwitch = s.cyc.pendingSwitch := rfl

/-- Settles O57: the command's four answers, and for the cancelled switch the PLAN event's effect on the cycle unit and the
flags. -/
theorem cancelPlanCancelsTheSwitch : Obligations.CancelPlanCancelsTheSwitch := by
  intro s hready answers
  rw [exec_cancelPlan_ready .a hready]
  refine ⟨fun hlead => ?notLeader, fun hlead hnone => ?none, fun w hlead hsome =>
    ⟨fun hlate => ?tooLate, fun htime => ?cancelled⟩⟩
  case notLeader => exact congrArg _ (cmdCancelPlan_of_not_leading hlead)
  case none => exact congrArg _ (cmdCancelPlan_of_no_switch hlead hnone)
  case tooLate => exact congrArg _ (cmdCancelPlan_of_too_late hlead hsome hlate)
  case cancelled =>
    refine ⟨planEvent .cancelled w.plan (s.touched .a).switchDropped,
      congrArg _ (cmdCancelPlan_of_in_time hlead hsome htime), ?cyc, ?flags, ?next, ?frame⟩
    case cyc => rw [planEvent_cyc, State.switchDropped_cyc, State.touched_cyc]
    case flags =>
      intro q
      rw [planEvent_port, State.switchDropped_flags, State.touched_flags]
    case next => rw [State.cycleStart_pendingSwitch, planEvent_cyc, State.switchDropped_cyc]
    case frame => exact planEvent_frame .cancelled w.plan _

end Sys2Proof.Machine
end

