-- ==== Sys2Proof/Proofs/Keeps.lean ====
section
/-!
PROOFS. What every change of the state keeps: the invariants of Safety.lean and the queue, as one preorder on states, with
one rule for each block that a change touches.
-/

namespace Sys2Proof.Machine

/-- A change from `s` to `t` keeps the queue and each invariant of Safety.lean by itself. -/
structure State.Keeps (s t : State) : Prop where
  pending : t.pending = s.pending
  memory : s.MemoryOk → t.MemoryOk
  trips : s.TripsOk → t.TripsOk
  locks : s.LocksOk → t.LocksOk
  axes : s.AxesOk → t.AxesOk
  shafts : s.ShaftsOk → t.ShaftsOk
  blocks : s.BlocksOk → t.BlocksOk

@[simp] theorem State.Keeps.refl (s : State) : s.Keeps s := ⟨rfl, id, id, id, id, id, id⟩

theorem State.Keeps.trans {s t u : State} (h : s.Keeps t) (k : t.Keeps u) : s.Keeps u where
  pending := k.pending.trans h.pending
  memory := k.memory ∘ h.memory
  trips := k.trips ∘ h.trips
  locks := k.locks ∘ h.locks
  axes := k.axes ∘ h.axes
  shafts := k.shafts ∘ h.shafts
  blocks := k.blocks ∘ h.blocks

/-! ### Changes of one block -/

/-- No invariant reads the clock, the links, the ring path, the cycle unit or the ports. -/
theorem State.Keeps.of_quiet {s t : State} (hshafts : t.shafts = s.shafts) (haxis : t.axis = s.axis)
    (htrip : t.trip = s.trip) (hpool : t.pool = s.pool) (hchan : t.chan = s.chan) (hlocks : t.locks = s.locks)
    (hpending : t.pending = s.pending) : s.Keeps t := by
  cases s; cases t
  subst hshafts haxis htrip hpool hchan hlocks hpending
  exact ⟨rfl, id, id, id, id, id, id⟩

theorem modClock_keeps (s : State) (f : ClockUnit → ClockUnit) : s.Keeps (s.modClock f) :=
  .of_quiet rfl rfl rfl rfl rfl rfl rfl

theorem modLink_keeps (s : State) (d : Side) (f : LinkUnit → LinkUnit) : s.Keeps (s.modLink d f) :=
  .of_quiet rfl rfl rfl rfl rfl rfl rfl

theorem modRing_keeps (s : State) (f : RingPath → RingPath) : s.Keeps (s.modRing f) :=
  .of_quiet rfl rfl rfl rfl rfl rfl rfl

theorem modCyc_keeps (s : State) (f : CycleUnit → CycleUnit) : s.Keeps (s.modCyc f) :=
  .of_quiet rfl rfl rfl rfl rfl rfl rfl

theorem modPort_keeps (s : State) (p : Port) (f : PortUnit → PortUnit) : s.Keeps (s.modPort p f) :=
  .of_quiet rfl rfl rfl rfl rfl rfl rfl

/-- The bounds of one shaft (R46, R47). -/
def Shaft.Ok (x : Shaft) : Prop := velocityOk x.vel ∧ velocityOk x.target

theorem State.Keeps.of_shafts {s t : State} (h : t = { s with shafts := t.shafts })
    (hok : ∀ i, (s.getShaft i).Ok → (t.getShaft i).Ok) : s.Keeps t := by
  rw [h] at hok ⊢
  exact ⟨rfl, id, id, id, id, fun hs i => hok i (hs i), id⟩

theorem modShafts_keeps {s : State} {f : ShaftUnit → ShaftUnit}
    (hok : ∀ i, (s.getShaft i).Ok → ((s.modShafts f).getShaft i).Ok) : s.Keeps (s.modShafts f) :=
  .of_shafts rfl hok

/-- What a change of one axis may do at any time: it keeps the axis's bounds, and takes no axis out of OFF. -/
def Axis.Keeps (x y : Axis) : Prop := (x.Ok → y.Ok) ∧ (x.state = .off → y.state = .off)

theorem Axis.Keeps.refl (x : Axis) : x.Keeps x := ⟨id, id⟩

theorem Axis.Keeps.trans {x y z : Axis} (h : x.Keeps y) (k : y.Keeps z) : x.Keeps z := ⟨k.1 ∘ h.1, k.2 ∘ h.2⟩

theorem State.Keeps.of_axis {s t : State} (h : t = { s with axis := t.axis })
    (hok : ∀ i, (s.getAxis i).Ok → (t.getAxis i).Ok)
    (hoff : s.trip.view = .instant → ∀ i, (s.getAxis i).state = .off → (t.getAxis i).state = .off) : s.Keeps t := by
  rw [h] at hok hoff ⊢
  exact ⟨rfl, id, fun ⟨hl, hv, ho⟩ => ⟨hl, hv, fun hi i => hoff hi i (ho hi i)⟩, id, fun hs i => hok i (hs i), id, id⟩

theorem modAxisUnit_keeps {s : State} {f : AxisUnit → AxisUnit}
    (h : ∀ i, (s.getAxis i).Keeps ((s.modAxisUnit f).getAxis i)) : s.Keeps (s.modAxisUnit f) :=
  .of_axis rfl (fun i => (h i).1) fun _ i => (h i).2

theorem modAxis_keeps {s : State} {i : AxisNo} {f : Axis → Axis} (h : (s.getAxis i).Keeps (f (s.getAxis i))) :
    s.Keeps (s.modAxis i f) := by
  have each (j : AxisNo) : (s.getAxis j).Keeps ((s.modAxis i f).getAxis j) := by
    rw [State.modAxis_getAxis]
    split
    · next hj => exact hj ▸ h
    · exact .refl _
  exact .of_axis rfl (fun j => (each j).1) fun _ j => (each j).2

/-- A change of the axis unit that leaves the axes themselves. -/
theorem modAxisUnit_keeps_of_same {s : State} {f : AxisUnit → AxisUnit} (h : (f s.axis).axes = s.axis.axes) :
    s.Keeps (s.modAxisUnit f) :=
  modAxisUnit_keeps fun i => by
    have : (s.modAxisUnit f).getAxis i = s.getAxis i := congrArg (fun v => v[i.val]) h
    rw [this]
    exact .refl _

theorem State.Keeps.of_trip {s t : State} (h : t = { s with trip := t.trip })
    (hok : s.TripsOk → t.TripsOk) : s.Keeps t := by
  rw [h] at hok ⊢
  exact ⟨rfl, id, hok, id, id, id, id⟩

/-- A change of the trip unit that leaves the classes of latched sources, the local class and the view. -/
theorem modTrip_keeps {s : State} {f : TripUnit → TripUnit} (hhigh : (f s.trip).highest = s.trip.highest)
    (hlocal : (f s.trip).localClass = s.trip.localClass) (hview : (f s.trip).view = s.trip.view) :
    s.Keeps (s.modTrip f) :=
  .of_trip rfl fun ⟨hl, hv, ho⟩ =>
    ⟨hlocal.trans (hl.trans hhigh.symm), by rw [State.modTrip_trip, hlocal, hview]; exact hv,
      fun hi => ho (hview ▸ hi)⟩

/-- A change of the trip unit that leaves its sources, the local class and the view. -/
theorem modTrip_keeps_of_same {s : State} {f : TripUnit → TripUnit} (hsources : (f s.trip).sources = s.trip.sources)
    (hlocal : (f s.trip).localClass = s.trip.localClass) (hview : (f s.trip).view = s.trip.view) :
    s.Keeps (s.modTrip f) :=
  modTrip_keeps (by unfold TripUnit.highest; rw [hsources]) hlocal hview

theorem modLocks_keeps {s : State} {f : LockUnit → LockUnit} (hok : s.LocksOk → (s.modLocks f).LocksOk) :
    s.Keeps (s.modLocks f) :=
  ⟨rfl, id, id, hok, id, id, id⟩

theorem modLocks_keeps_of_same {s : State} {f : LockUnit → LockUnit} (h : (f s.locks).locks = s.locks.locks) :
    s.Keeps (s.modLocks f) :=
  modLocks_keeps fun hl j => by
    have : (s.modLocks f).getLock j = s.getLock j := congrArg (fun v => v[j.val]) h
    rw [this]
    exact hl j

theorem modLock_keeps {s : State} {j : LockNo} {f : LockRec → LockRec}
    (hok : ∀ q, (f (s.getLock j)).waiter = some q →
      ((s.getLock j).waiter = some q → (s.getLock j).holder = some q.other) → (f (s.getLock j)).holder = some q.other) :
    s.Keeps (s.modLock j f) :=
  modLocks_keeps fun hl i q hq => by
    change ((s.modLock j f).getLock i).waiter = some q at hq
    change ((s.modLock j f).getLock i).holder = some q.other
    rw [State.modLock_getLock] at hq ⊢
    split at hq
    · next hi =>
      subst hi
      rw [if_pos rfl]
      exact hok q hq (hl i q)
    · next hi =>
      rw [if_neg hi]
      exact hl i q hq

/-! ### Folds -/

theorem foldl_keeps {α : Type} {f : State → α → State} (h : ∀ (s : State) (a : α), s.Keeps (f s a)) (xs : List α) (s : State) :
    s.Keeps (xs.foldl f s) := by
  induction xs generalizing s with
  | nil => exact .refl s
  | cons x xs ih => exact (h s x).trans (ih _)

end Sys2Proof.Machine
end

