-- ==== Sys2Proof/Proofs/BlockLedger.lean ====
section
/-!
PROOFS. The owners of packet memory blocks (R94) as a ledger: where the blocks of each owner are listed, and what the lists
become when blocks move from one owner to another.
-/

namespace Sys2Proof.Machine

/-! ### Lists that one entry contributes to -/

theorem modifyAt_toList {α : Type} {n : Nat} (v : Vector α n) (i : Fin n) (f : α → α) :
    (modifyAt v i f).toList = v.toList.take i.val ++ f v[i.val] :: v.toList.drop (i.val + 1) := by
  rw [modifyAt, Vector.toList_set, List.set_eq_take_append_cons_drop]
  simp

theorem toList_split {α : Type} {n : Nat} (v : Vector α n) (i : Fin n) :
    v.toList = v.toList.take i.val ++ v[i.val] :: v.toList.drop (i.val + 1) := by
  have h : i.val < v.toList.length := by simp
  conv => lhs; rw [← List.take_append_drop i.val v.toList, List.drop_eq_getElem_cons h]
  simp

theorem flatMap_split_perm {α β : Type} (g : α → List β) (xs ys : List α) (x : α) :
    ((xs ++ x :: ys).flatMap g).Perm (g x ++ (xs ++ ys).flatMap g) := by
  simp only [List.flatMap_append, List.flatMap_cons]
  rw [← List.append_assoc, ← List.append_assoc]
  exact List.Perm.append_right _ List.perm_append_comm

/-- One entry of a vector contributes its own part to the whole, and a change of that entry changes that part alone. -/
theorem flatMap_modifyAt_perm {α β : Type} {n : Nat} (g : α → List β) (v : Vector α n) (i : Fin n) :
    ∃ R, (v.toList.flatMap g).Perm (g v[i.val] ++ R) ∧
      ∀ f, ((modifyAt v i f).toList.flatMap g).Perm (g (f v[i.val]) ++ R) := by
  refine ⟨(v.toList.take i.val ++ v.toList.drop (i.val + 1)).flatMap g, ?_, fun f => ?_⟩
  · conv => lhs; rw [toList_split v i]
    exact flatMap_split_perm g _ _ _
  · rw [modifyAt_toList]
    exact flatMap_split_perm g _ _ _

theorem modifyNth_eq {α : Type} (xs : List α) (i : Nat) (f : α → α) : modifyNth xs i f = xs.modify i f := by
  induction xs generalizing i with
  | nil => cases i <;> rfl
  | cons x xs ih => cases i <;> simp [modifyNth, ih]

/-- The same for a list, where the entry is there. -/
theorem flatMap_modifyNth_perm {α β : Type} (g : α → List β) {xs : List α} {i : Nat} {x : α} (h : xs[i]? = some x) :
    ∃ R, (xs.flatMap g).Perm (g x ++ R) ∧ ∀ f, ((modifyNth xs i f).flatMap g).Perm (g (f x) ++ R) := by
  obtain ⟨hi, rfl⟩ := List.getElem?_eq_some_iff.mp h
  refine ⟨(xs.take i ++ xs.drop (i + 1)).flatMap g, ?_, fun f => ?_⟩
  · conv => lhs; rw [← List.take_append_drop i xs, List.drop_eq_getElem_cons hi]
    exact flatMap_split_perm g _ _ _
  · rw [modifyNth_eq, List.modify_eq_take_cons_drop hi]
    exact flatMap_split_perm g _ _ _

theorem flatMap_eraseIdx_perm {α β : Type} (g : α → List β) {xs : List α} {i : Nat} {x : α} (h : xs[i]? = some x) :
    (xs.flatMap g).Perm (g x ++ (xs.eraseIdx i).flatMap g) := by
  obtain ⟨hi, rfl⟩ := List.getElem?_eq_some_iff.mp h
  conv => lhs; rw [← List.take_append_drop i xs, List.drop_eq_getElem_cons hi]
  rw [List.eraseIdx_eq_take_drop_succ]
  exact flatMap_split_perm g _ _ _

/-! ### The ledger -/

/-- The blocks that a channel keeps for an owner. -/
def Channel.listed (x : Channel) : BlockOwner → List BlockNo
  | .txq => x.queue.flatMap TxMsg.blocks
  | .rxq => x.rx.flatMap RxMsg.blocks
  | .store => x.store.slots.flatMap Slot.blocks
  | .free | .port _ | .assembly => []

/-- The blocks that a place for an assembly context holds. -/
def contextBlocks : Option Context → List BlockNo
  | some c => c.blocks
  | none => []

/-- Where the blocks of each owner are listed; those of a port stand in the owner table alone. -/
def State.listed (s : State) : BlockOwner → List BlockNo
  | .free => s.pool.free
  | .port p => s.pool.heldBy p
  | .assembly => s.chan.contexts.toList.flatMap contextBlocks
  | .txq => s.chan.channels.toList.flatMap fun x => x.listed .txq
  | .rxq => s.chan.channels.toList.flatMap fun x => x.listed .rxq
  | .store => s.chan.channels.toList.flatMap fun x => x.listed .store

/-- Every owner's list holds exactly that owner's blocks, each once. -/
def State.LedgerOk (s : State) : Prop := ∀ o, s.Holds (s.listed o) o

theorem State.assemblyBlocks_eq (s : State) : s.assemblyBlocks = s.chan.contexts.toList.flatMap contextBlocks := by
  unfold State.assemblyBlocks
  congr 1

theorem Pool.mem_heldBy (u : Pool) (p : Port) (n : BlockNo) : n ∈ u.heldBy p ↔ u.owner n = .port p := by
  simp [Pool.heldBy]

theorem Pool.heldBy_nodup (u : Pool) (p : Port) : (u.heldBy p).Nodup := (List.nodup_finRange 512).filter _

/-- The owner table lists a port's blocks by itself. -/
theorem State.holds_heldBy (s : State) (p : Port) : s.Holds (s.listed (.port p)) (.port p) :=
  ⟨s.pool.heldBy_nodup p, s.pool.mem_heldBy p⟩

theorem State.blocksOk_iff (s : State) : s.BlocksOk ↔ s.LedgerOk ∧ s.SlotsOk := by
  constructor
  · intro ⟨hfree, htx, hassembly, hrx, hstore, hslots⟩
    refine ⟨fun o => ?_, hslots⟩
    cases o with
    | free => exact hfree
    | port p => exact s.holds_heldBy p
    | txq => exact htx
    | assembly => rwa [State.assemblyBlocks_eq] at hassembly
    | rxq => exact hrx
    | store => exact hstore
  · intro ⟨h, hslots⟩
    exact ⟨h .free, h .txq, by rw [State.assemblyBlocks_eq]; exact h .assembly, h .rxq, h .store, hslots⟩

/-! ### Blocks that move -/

/-- Blocks move from one owner to another: they leave the list of the one and join that of the other. -/
theorem State.LedgerOk.move {s t : State} (hs : s.LedgerOk) {bs : List BlockNo} {from_ to_ : BlockOwner}
    (hne : from_ ≠ to_) (howner : ∀ n, t.pool.owner n = if n ∈ bs then to_ else s.pool.owner n)
    (hnodup : bs.Nodup) (hown : ∀ n ∈ bs, s.pool.owner n = from_)
    (hfrom : (∀ p, from_ ≠ .port p) → (s.listed from_).Perm (bs ++ t.listed from_))
    (hto : (∀ p, to_ ≠ .port p) → (t.listed to_).Perm (bs ++ s.listed to_))
    (hrest : ∀ o, o ≠ from_ → o ≠ to_ → (∀ p, o ≠ .port p) → (t.listed o).Perm (s.listed o)) : t.LedgerOk := by
  intro o
  by_cases hport : ∃ p, o = .port p
  · obtain ⟨p, rfl⟩ := hport
    exact t.holds_heldBy p
  have hport : ∀ p, o ≠ .port p := fun p hp => hport ⟨p, hp⟩
  obtain ⟨hon, hom⟩ := hs o
  by_cases hof : o = from_
  · subst hof
    have hp := hfrom hport
    obtain ⟨-, htn, hdisj⟩ := List.nodup_append.mp (hp.nodup_iff.mp hon)
    refine ⟨htn, fun n => ?_⟩
    rw [howner]
    have := (hom n).symm.trans (hp.mem_iff.trans List.mem_append)
    split
    · next hb => exact ⟨fun ht => absurd rfl (hdisj n hb n ht), fun e => absurd e.symm hne⟩
    · next hb => rw [this]; simp [hb]
  by_cases hot : o = to_
  · subst hot
    have hp := hto hport
    refine ⟨hp.nodup_iff.mpr (List.nodup_append.mpr ⟨hnodup, hon, fun a ha b hb hab => ?_⟩), fun n => ?_⟩
    · subst hab
      exact hof (((hom a).mp hb).symm.trans (hown a ha))
    · rw [howner, hp.mem_iff, List.mem_append, hom]
      split
      · next hb => simp [hb]
      · next hb => simp [hb]
  · have hp := hrest o hof hot hport
    refine ⟨hp.nodup_iff.mpr hon, fun n => ?_⟩
    rw [howner, hp.mem_iff, hom]
    split
    · next hb =>
      exact ⟨fun e => absurd (e.symm.trans (hown n hb)) hof, fun e => absurd e.symm hot⟩
    · rfl

/-- No block moves: every list keeps its blocks, in whatever order. -/
theorem State.LedgerOk.same {s t : State} (hs : s.LedgerOk) (howner : t.pool.owners = s.pool.owners)
    (hrest : ∀ o, (∀ p, o ≠ .port p) → (t.listed o).Perm (s.listed o)) : t.LedgerOk :=
  have hown (n : BlockNo) : t.pool.owner n = s.pool.owner n := by unfold Pool.owner; rw [howner]
  hs.move (bs := []) (from_ := .free) (to_ := .txq) nofun (fun n => by rw [hown, if_neg List.not_mem_nil]) .nil nofun
    (fun h => by simpa using (hrest _ h).symm) (fun h => by simpa using hrest _ h) fun o _ _ h => hrest o h

/-! ### The part of one channel and of one context -/

/-- One channel's part of each owner's list, and what a change of that channel makes of it. -/
theorem State.listed_modChannel (s : State) (c : ChannelNo) (o : BlockOwner) :
    ∃ R, (s.listed o).Perm ((s.getChannel c).listed o ++ R) ∧
      ∀ f, ((s.modChannel c f).listed o).Perm ((f (s.getChannel c)).listed o ++ R) := by
  cases o with
  | free => exact ⟨s.listed .free, by simp [Channel.listed], fun f => by simp [Channel.listed, State.listed]⟩
  | port p => exact ⟨s.listed (.port p), by simp [Channel.listed], fun f => by simp [Channel.listed, State.listed]⟩
  | assembly =>
    exact ⟨s.listed .assembly, by simp [Channel.listed], fun f => by simp [Channel.listed, State.listed]⟩
  | txq => exact flatMap_modifyAt_perm (fun x : Channel => x.listed .txq) s.chan.channels c
  | rxq => exact flatMap_modifyAt_perm (fun x : Channel => x.listed .rxq) s.chan.channels c
  | store => exact flatMap_modifyAt_perm (fun x : Channel => x.listed .store) s.chan.channels c

theorem State.listed_setContext (s : State) (k : Fin 4) :
    ∃ R, (s.listed .assembly).Perm (contextBlocks (s.getContext k) ++ R) ∧
      ∀ c, ((s.setContext k c).listed .assembly).Perm (contextBlocks c ++ R) := by
  obtain ⟨R, h1, h2⟩ := flatMap_modifyAt_perm contextBlocks s.chan.contexts k
  exact ⟨R, h1, fun c => h2 fun _ => c⟩

/-- A change of one channel that keeps its part of an owner's list keeps the list. -/
theorem State.listed_modChannel_same {s : State} {c : ChannelNo} {f : Channel → Channel} {o : BlockOwner}
    (h : ((f (s.getChannel c)).listed o).Perm ((s.getChannel c).listed o)) :
    ((s.modChannel c f).listed o).Perm (s.listed o) := by
  obtain ⟨R, h1, h2⟩ := s.listed_modChannel c o
  exact (h2 f).trans ((h.append_right R).trans h1.symm)

/-- Blocks that leave one channel's part leave the owner's list. -/
theorem State.listed_modChannel_leave {s : State} {c : ChannelNo} {f : Channel → Channel} {o : BlockOwner}
    {bs : List BlockNo} (h : ((s.getChannel c).listed o).Perm (bs ++ (f (s.getChannel c)).listed o)) :
    (s.listed o).Perm (bs ++ (s.modChannel c f).listed o) := by
  obtain ⟨R, h1, h2⟩ := s.listed_modChannel c o
  refine h1.trans ((h.append_right R).trans ?_)
  rw [List.append_assoc]
  exact (h2 f).symm.append_left bs

/-- Blocks that join one channel's part join the owner's list. -/
theorem State.listed_modChannel_join {s : State} {c : ChannelNo} {f : Channel → Channel} {o : BlockOwner}
    {bs : List BlockNo} (h : ((f (s.getChannel c)).listed o).Perm (bs ++ (s.getChannel c).listed o)) :
    ((s.modChannel c f).listed o).Perm (bs ++ s.listed o) := by
  obtain ⟨R, h1, h2⟩ := s.listed_modChannel c o
  refine (h2 f).trans ((h.append_right R).trans ?_)
  rw [List.append_assoc]
  exact h1.symm.append_left bs

end Sys2Proof.Machine
end

