-- ==== Sys2Proof/Proofs/BlockMoves.lean ====
section
/-!
PROOFS. The operations that move packet memory blocks (R95 to R97, R100, R106 to R108, R113, R117, R119, R134, R135, R139): each
keeps the ledger of owners and the slots that assemblies fill.
-/

namespace Sys2Proof.Machine

/-! ### Changes of the packet memory and the channel unit -/

/-- A change of the packet memory, the channel unit and the ports. -/
theorem State.Keeps.of_blocks {s t : State} (h : t = { s with pool := t.pool, chan := t.chan, ports := t.ports })
    (hmem : s.MemoryOk → t.MemoryOk) (hblocks : s.BlocksOk → t.BlocksOk) : s.Keeps t := by
  rw [h] at hmem hblocks ⊢
  exact ⟨rfl, hmem, id, id, id, id, hblocks⟩

/-- The same after another change, from whose start the blocks can be told. -/
theorem State.Keeps.then_blocks {r s t : State} (hr : r.Keeps s)
    (h : t = { s with pool := t.pool, chan := t.chan, ports := t.ports }) (hmem : s.MemoryOk → t.MemoryOk)
    (hblocks : r.BlocksOk → s.BlocksOk → t.BlocksOk) : r.Keeps t := by
  rw [h] at hmem hblocks ⊢
  exact ⟨hr.pending, hmem ∘ hr.memory, hr.trips, hr.locks, hr.axes, hr.shafts, fun hb => hblocks hb (hr.blocks hb)⟩

/-- The slots' invariant reads the contexts and the slots alone. -/
theorem State.SlotsOk.of_same {s t : State} (h : s.SlotsOk) (hcontexts : t.chan.contexts = s.chan.contexts)
    (hslots : ∀ c, (t.getChannel c).store.slots = (s.getChannel c).store.slots) : t.SlotsOk := by
  have hget (k : Fin 4) : t.getContext k = s.getContext k := congrArg (fun v => v[k.val]) hcontexts
  simpa only [State.SlotsOk, hget, hslots] using h

theorem modChannel_slots_same {s : State} {c : ChannelNo} {f : Channel → Channel}
    (h : (f (s.getChannel c)).store.slots = (s.getChannel c).store.slots) (d : ChannelNo) :
    ((s.modChannel c f).getChannel d).store.slots = (s.getChannel d).store.slots := by
  rw [State.modChannel_getChannel]
  split
  · next hd => rw [hd, h]
  · rfl

/-- A change of the channel unit that leaves its channels and contexts. -/
theorem modChan_keeps_of_same {s : State} {f : ChannelUnit → ChannelUnit} (hchannels : (f s.chan).channels = s.chan.channels)
    (hcontexts : (f s.chan).contexts = s.chan.contexts) : s.Keeps (s.modChan f) := by
  refine .of_blocks rfl id fun h => ?_
  rw [State.blocksOk_iff] at h ⊢
  refine ⟨h.1.same rfl fun o hport => ?_, h.2.of_same hcontexts fun c => ?_⟩
  · cases o with
    | port p => exact absurd rfl (hport p)
    | _ => simp [State.listed, hchannels, hcontexts]
  · exact congrArg (fun v => (v[c.val]).store.slots) hchannels

/-- A change of one channel that leaves the blocks of its queues and its slots. -/
theorem modChannel_keeps_of_same {s : State} {c : ChannelNo} {f : Channel → Channel}
    (hqueue : (f (s.getChannel c)).queue.flatMap TxMsg.blocks = (s.getChannel c).queue.flatMap TxMsg.blocks)
    (hrx : (f (s.getChannel c)).rx.flatMap RxMsg.blocks = (s.getChannel c).rx.flatMap RxMsg.blocks)
    (hslots : (f (s.getChannel c)).store.slots = (s.getChannel c).store.slots) : s.Keeps (s.modChannel c f) := by
  refine .of_blocks rfl id fun h => ?_
  rw [State.blocksOk_iff] at h ⊢
  refine ⟨h.1.same rfl fun o _ => State.listed_modChannel_same ?_, h.2.of_same rfl (modChannel_slots_same hslots)⟩
  cases o <;> simp [Channel.listed, hqueue, hrx, hslots]

/-! ### Moves from and to the lists of a channel -/

/-- What stands in an owner's list stands there once, with that owner. -/
theorem State.LedgerOk.of_perm {s : State} (h : s.LedgerOk) {o : BlockOwner} {bs rest : List BlockNo}
    (hp : (s.listed o).Perm (bs ++ rest)) : bs.Nodup ∧ ∀ n ∈ bs, s.pool.owner n = o := by
  obtain ⟨hn, hm⟩ := h o
  exact ⟨(List.nodup_append.mp (hp.nodup_iff.mp hn)).1,
    fun n hb => (hm n).mp (hp.mem_iff.mpr (List.mem_append_left _ hb))⟩

/-- Whether an owner's blocks stand in the lists of channels. -/
def BlockOwner.inChannel : BlockOwner → Bool
  | .txq | .rxq | .store => true
  | .free | .port _ | .assembly => false

theorem BlockOwner.inChannel_ne {o : BlockOwner} (h : o.inChannel = true) :
    o ≠ .free ∧ (∀ p, o ≠ .port p) ∧ o ≠ .assembly := by
  cases o <;> simp_all [BlockOwner.inChannel]

/-- Blocks that leave a channel's lists are freed (R95). -/
theorem freeBlocks_modChannel_keeps {s : State} {c : ChannelNo} {f : Channel → Channel} {bs : List BlockNo}
    {o : BlockOwner} (ho : o.inChannel = true)
    (hleave : ((s.getChannel c).listed o).Perm (bs ++ (f (s.getChannel c)).listed o))
    (hrest : ∀ q, q ≠ o → ((f (s.getChannel c)).listed q).Perm ((s.getChannel c).listed q))
    (hslots : s.SlotsOk → (s.modChannel c f).SlotsOk) : s.Keeps (freeBlocks bs (s.modChannel c f)) := by
  refine .of_blocks rfl id fun h => ?_
  rw [State.blocksOk_iff] at h ⊢
  obtain ⟨hfree, hport, -⟩ := BlockOwner.inChannel_ne ho
  have hp := State.listed_modChannel_leave hleave
  obtain ⟨hnodup, hown⟩ := h.1.of_perm hp
  refine ⟨h.1.move hfree (freeBlocks_owner bs (s.modChannel c f)) hnodup hown (fun _ => ?_) (fun _ => ?_)
    fun q hq hqf hqp => ?_, hslots h.2⟩
  · cases o with
    | free => exact absurd rfl hfree
    | port p => exact absurd rfl (hport p)
    | _ => exact hp
  · change (s.pool.free ++ bs).Perm (bs ++ s.pool.free)
    exact List.perm_append_comm
  · cases q with
    | free => exact absurd rfl hqf
    | port p => exact absurd rfl (hqp p)
    | _ => exact State.listed_modChannel_same (hrest _ hq)

/-- Message `i` leaves a transmit queue and its blocks are freed (R113). -/
theorem eraseMessage_keeps {s : State} {c : ChannelNo} {i : Nat} {m : TxMsg} (h : (s.getChannel c).queue[i]? = some m) :
    s.Keeps (freeBlocks m.blocks (s.modChannel c fun x => { x with queue := x.queue.eraseIdx i })) := by
  refine freeBlocks_modChannel_keeps (o := .txq) rfl (flatMap_eraseIdx_perm TxMsg.blocks h) (fun q hq => ?_)
    fun hs => hs.of_same rfl (modChannel_slots_same rfl)
  cases q with
  | txq => exact absurd rfl hq
  | _ => exact .refl _

theorem withdraw_keeps (c : ChannelNo) (s : State) : s.Keeps (withdraw c s) := modChan_keeps_of_same rfl rfl

theorem withdrawAny_keeps (s : State) : s.Keeps (withdrawAny s) := modChan_keeps_of_same rfl rfl

theorem idleHead_keeps (r : Bool) (c : ChannelNo) (s : State) : s.Keeps (idleHead r c s) :=
  modChannel_keeps_of_same rfl rfl rfl

theorem removeMessage_keeps (c : ChannelNo) (i : Nat) (s : State) : s.Keeps (removeMessage c i s) := by
  unfold removeMessage
  split
  · exact .refl s
  · next m hm =>
    have hgone := eraseMessage_keeps hm
    dsimp only
    split
    · exact (hgone.trans (withdraw_keeps c _)).trans (idleHead_keeps false c _)
    · exact hgone

theorem popRx_keeps (c : ChannelNo) (s : State) : s.Keeps (popRx c s) := by
  unfold popRx
  split
  · exact .refl s
  · next m rest hm =>
    refine freeBlocks_modChannel_keeps (o := .rxq) rfl ?_ (fun q hq => ?_)
      fun hs => hs.of_same rfl (modChannel_slots_same rfl)
    · simp [Channel.listed, hm]
    · cases q with
      | rxq => exact absurd rfl hq
      | _ => exact .refl _

/-! ### Slots -/

/-- A slot that is not FILLING is filled by no context. -/
theorem State.SlotsOk.not_filled {s : State} (h : s.SlotsOk) {ch : ChannelNo} {i : Nat} {x : Slot}
    (hx : (s.getChannel ch).store.slots[i]? = some x) (hstate : x.state ≠ .filling) (k : Fin 4) (c : Context)
    (hc : s.getContext k = some c) (hch : c.channel = ch) : c.slot ≠ some i := by
  intro hi
  obtain ⟨⟨y, hy, hfilling⟩, -⟩ := h.1 k c i hc hi
  rw [hch, hx] at hy
  cases hy
  exact hstate hfilling

/-- A change of one slot that no context fills, which leaves it without blocks where it is EMPTY or FILLING. -/
theorem State.SlotsOk.modSlot {s : State} (h : s.SlotsOk) {ch : ChannelNo} {i : Nat} {f : Channel → Channel}
    {g : Slot → Slot} (hf : (f (s.getChannel ch)).store.slots = modifyNth (s.getChannel ch).store.slots i g)
    (hfree : ∀ (k : Fin 4) (c : Context), s.getContext k = some c → c.channel = ch → c.slot ≠ some i)
    (hblocks : ∀ x, (s.getChannel ch).store.slots[i]? = some x → (g x).state = .empty ∨ (g x).state = .filling →
      (g x).blocks = []) : (s.modChannel ch f).SlotsOk := by
  obtain ⟨hfill, hempty⟩ := h
  rw [modifyNth_eq] at hf
  refine ⟨fun k c j hc hj => ?_, fun d y hy => ?_⟩
  · obtain ⟨⟨x, hx, hstate⟩, hother⟩ := hfill k c j hc hj
    refine ⟨⟨x, ?_, hstate⟩, hother⟩
    rw [State.modChannel_getChannel]
    split
    · next hch =>
      have hij : i ≠ j := fun e => hfree k c hc hch (e ▸ hj)
      rw [hch, hf, List.getElem?_modify_ne _ _ hij]
      exact hch ▸ hx
    · exact hx
  · rw [State.modChannel_getChannel] at hy
    split at hy
    · next hd =>
      subst hd
      rw [hf] at hy
      obtain ⟨j, hj⟩ := List.mem_iff_getElem?.mp hy
      by_cases hij : i = j
      · subst hij
        rw [List.getElem?_modify_eq] at hj
        obtain ⟨x, hx, rfl⟩ := Option.map_eq_some_iff.mp hj
        exact hblocks x hx
      · rw [List.getElem?_modify_ne _ _ hij] at hj
        exact hempty d y (List.mem_of_getElem? hj)
    · exact hempty d y hy

/-- A slot that loses no block from the store's lists keeps them. -/
theorem slots_perm_of_same_blocks {xs : List Slot} {i : Nat} {g : Slot → Slot}
    (h : ∀ x, xs[i]? = some x → (g x).blocks = x.blocks) :
    (modifyNth xs i g).flatMap Slot.blocks = xs.flatMap Slot.blocks := by
  rw [modifyNth_eq]
  have hmap : (xs.modify i g).map Slot.blocks = xs.map Slot.blocks := by
    refine List.ext_getElem? fun j => ?_
    rw [List.getElem?_map, List.getElem?_map, List.getElem?_modify]
    by_cases hij : i = j
    · subst hij
      cases hx : xs[i]? with
      | none => simp
      | some x => simp [h x hx]
    · simp [hij]
  rw [List.flatMap_def, List.flatMap_def, hmap]

/-- A change of one slot of a store that keeps its blocks. -/
theorem modSlot_keeps {s : State} {ch : ChannelNo} {i : Nat} {f : Channel → Channel} {g : Slot → Slot}
    (hqueue : (f (s.getChannel ch)).queue = (s.getChannel ch).queue) (hrx : (f (s.getChannel ch)).rx = (s.getChannel ch).rx)
    (hf : (f (s.getChannel ch)).store.slots = modifyNth (s.getChannel ch).store.slots i g)
    (hfree : s.SlotsOk → ∀ (k : Fin 4) (c : Context), s.getContext k = some c → c.channel = ch → c.slot ≠ some i)
    (hsame : s.SlotsOk → ∀ x, (s.getChannel ch).store.slots[i]? = some x → (g x).blocks = x.blocks)
    (hblocks : s.SlotsOk → ∀ x, (s.getChannel ch).store.slots[i]? = some x →
      (g x).state = .empty ∨ (g x).state = .filling → (g x).blocks = []) : s.Keeps (s.modChannel ch f) := by
  refine .of_blocks rfl id fun h => ?_
  rw [State.blocksOk_iff] at h ⊢
  refine ⟨h.1.same rfl fun o _ => State.listed_modChannel_same ?_, h.2.modSlot hf (hfree h.2) (hblocks h.2)⟩
  cases o with
  | store =>
    change ((f (s.getChannel ch)).store.slots.flatMap Slot.blocks).Perm _
    rw [hf, slots_perm_of_same_blocks (hsame h.2)]
    exact .refl _
  | _ => simp [Channel.listed, hqueue, hrx]

/-- A slot that no context fills gives its blocks to the free list as it becomes another record without blocks. -/
theorem freeSlot_keeps {s : State} {ch : ChannelNo} {i : Nat} {x : Slot} {f : Channel → Channel} {y : Slot}
    (hx : (s.getChannel ch).store.slots[i]? = some x) (hstate : x.state ≠ .filling)
    (hqueue : (f (s.getChannel ch)).queue = (s.getChannel ch).queue) (hrx : (f (s.getChannel ch)).rx = (s.getChannel ch).rx)
    (hf : (f (s.getChannel ch)).store.slots = modifyNth (s.getChannel ch).store.slots i fun _ => y)
    (hy : y.blocks = []) : s.Keeps (freeBlocks x.blocks (s.modChannel ch f)) := by
  refine freeBlocks_modChannel_keeps (o := .store) rfl ?_ (fun q hq => ?_)
    fun h => h.modSlot hf (h.not_filled hx hstate) fun _ _ _ => hy
  · obtain ⟨R, h1, h2⟩ := flatMap_modifyNth_perm Slot.blocks hx
    change ((s.getChannel ch).store.slots.flatMap Slot.blocks).Perm
      (x.blocks ++ (f (s.getChannel ch)).store.slots.flatMap Slot.blocks)
    have hleft := h2 fun _ => y
    simp only [hy, List.nil_append] at hleft
    rw [hf]
    exact h1.trans (hleft.symm.append_left x.blocks)
  · cases q with
    | store => exact absurd rfl hq
    | _ => simp [Channel.listed, hqueue, hrx]

/-! ### Assembly contexts -/

/-- A context that leaves its place fills no slot any more. -/
theorem State.SlotsOk.clearContext {s : State} (h : s.SlotsOk) (k : Fin 4) : (s.setContext k none).SlotsOk := by
  obtain ⟨hfill, hempty⟩ := h
  refine ⟨fun l c i hc hi => ?_, hempty⟩
  rw [State.setContext_getContext] at hc
  split at hc
  · exact absurd hc nofun
  · obtain ⟨hx, hother⟩ := hfill l c i hc hi
    refine ⟨hx, fun m d hm hd => hother m d hm ?_⟩
    rw [State.setContext_getContext] at hd
    split at hd
    · exact absurd hd nofun
    · exact hd

/-- A context takes a place: the slot it fills is FILLING, and no other place fills it. -/
theorem State.SlotsOk.putContext {s : State} (h : s.SlotsOk) (k : Fin 4) (c : Context)
    (hslot : ∀ i, c.slot = some i → (∃ x : Slot, (s.getChannel c.channel).store.slots[i]? = some x ∧ x.state = .filling) ∧
      ∀ (l : Fin 4) (d : Context), l ≠ k → s.getContext l = some d → d.channel = c.channel → d.slot ≠ some i) :
    (s.setContext k (some c)).SlotsOk := by
  obtain ⟨hfill, hempty⟩ := h
  refine ⟨fun l d i hd hi => ?_, hempty⟩
  rw [State.setContext_getContext] at hd
  split at hd
  · next hl =>
    cases hd
    obtain ⟨hx, hother⟩ := hslot i hi
    refine ⟨hx, fun m d hm hd => hother m d (hl ▸ hm) ?_⟩
    rwa [State.setContext_getContext, if_neg (hl ▸ hm)] at hd
  · next hl =>
    obtain ⟨hx, hother⟩ := hfill l d i hd hi
    refine ⟨hx, fun m e hm he hch hei => ?_⟩
    rw [State.setContext_getContext] at he
    split at he
    · next hmk =>
      cases he
      exact (hslot i hei).2 l d hl hd hch.symm hi
    · exact hother m e hm he hch hei

/-- The blocks of a context that is discarded are freed (R109). -/
theorem freeContext_keeps {s : State} {k : Fin 4} {c : Context} (hc : s.getContext k = some c) :
    s.Keeps (freeBlocks c.blocks (s.setContext k none)) := by
  refine .of_blocks rfl id fun h => ?_
  rw [State.blocksOk_iff] at h ⊢
  obtain ⟨R, h1, h2⟩ := s.listed_setContext k
  rw [hc] at h1
  have hp : (s.listed .assembly).Perm (c.blocks ++ (s.setContext k none).listed .assembly) :=
    h1.trans ((h2 none).symm.append_left _)
  obtain ⟨hnodup, hown⟩ := h.1.of_perm hp
  refine ⟨h.1.move (from_ := .assembly) (to_ := .free) nofun (freeBlocks_owner c.blocks (s.setContext k none)) hnodup hown
    (fun _ => hp) (fun _ => List.perm_append_comm) fun o ho hof hop => ?_, h.2.clearContext k⟩
  cases o with
  | assembly => exact absurd rfl ho
  | free => exact absurd rfl hof
  | port p => exact absurd rfl (hop p)
  | _ => exact .refl _

theorem reopenEntry_keeps (c : Context) (s : State) : s.Keeps (reopenEntry c s) := by
  unfold reopenEntry
  split
  · exact modChannel_keeps_of_same rfl rfl rfl
  · exact .refl s

/-- A context's FILLING slot has no blocks, and once the context has left it is filled by none: it can become EMPTY (R109). -/
theorem emptySlot_blocksOk {s : State} {k : Fin 4} {c : Context} {i : Nat} (hc : s.getContext k = some c)
    (hi : c.slot = some i) (h : s.BlocksOk) : (emptySlot c.channel i (freeBlocks c.blocks (s.setContext k none))).BlocksOk := by
  obtain ⟨hfill, hempty⟩ := ((s.blocksOk_iff).mp h).2
  obtain ⟨⟨x, hx, hstate⟩, hother⟩ := hfill k c i hc hi
  refine (modSlot_keeps (g := fun _ => Slot.blank) rfl rfl rfl (fun _ l d hd hch => ?_) (fun _ y hy => ?_)
    fun _ _ _ _ => rfl).blocks ((freeContext_keeps hc).blocks h)
  · change (s.setContext k none).getContext l = some d at hd
    rw [State.setContext_getContext] at hd
    split at hd
    · exact absurd hd nofun
    · next hl => exact hother l d hl hd hch
  · cases hx.symm.trans hy
    exact (hempty c.channel x (List.mem_of_getElem? hx) (.inr hstate)).symm

theorem discardContext_keeps (k : Fin 4) (s : State) : s.Keeps (discardContext k s) := by
  unfold discardContext
  split
  · exact .refl s
  · next c hc =>
    refine .trans ?_ (reopenEntry_keeps c _)
    refine .trans ?_ (modChan_keeps_of_same rfl rfl)
    split
    · next i hi => exact .of_blocks rfl id (emptySlot_blocksOk hc hi)
    · exact freeContext_keeps hc

theorem discardContexts_keeps (c : ChannelNo) (s : State) : s.Keeps (discardContexts c s) :=
  foldl_keeps (fun s k => discardContext_keeps k s) _ s

end Sys2Proof.Machine
end

