-- ==== Sys2Proof/Proofs/MessageBlocks.lean ====
section
/-!
PROOFS. Messages on their way through the channel unit (R100 to R113, R117, R124, R128, R134, R135): what each operation on a
transmit queue, an assembly context or a strip store does keeps the invariants.
-/

namespace Sys2Proof.Machine

theorem raise_keeps (p : Port) (e : Event) (s : State) : s.Keeps (raise p e s) := modPort_keeps s p _

theorem raiseBoth_keeps (e : Event) (s : State) : s.Keeps (raiseBoth e s) :=
  (raise_keeps .a e s).trans (raise_keeps .b e _)

theorem modifyAt_modifyAt {α : Type} {n : Nat} (v : Vector α n) (i : Fin n) (f g : α → α) :
    modifyAt (modifyAt v i f) i g = modifyAt v i fun x => g (f x) := by
  simp [modifyAt]

theorem State.modChannel_modChannel (s : State) (c : ChannelNo) (f g : Channel → Channel) :
    (s.modChannel c f).modChannel c g = s.modChannel c fun x => g (f x) := by
  simp only [State.modChannel, State.modChan, modifyAt_modifyAt]

/-! ### Transmit queues -/

theorem addOutcome_keeps (c : ChannelNo) (r : OutcomeRecord) (s : State) : s.Keeps (addOutcome c r s) :=
  .trans (modChannel_keeps_of_same rfl rfl rfl) (raise_keeps _ _ _)

theorem finalOutcome_keeps (c : ChannelNo) (i : Nat) (o : MsgOutcome) (n : Nat) (s : State) :
    s.Keeps (finalOutcome c i o n s) := by
  unfold finalOutcome
  split
  · exact .refl s
  · exact (removeMessage_keeps c i s).trans (addOutcome_keeps c _ _)

theorem makeEntry_keeps (c : ChannelNo) (dest : Nat) (tag : BitVec 8) (s : State) : s.Keeps (makeEntry c dest tag s) := by
  refine .trans ?_ (modChannel_keeps_of_same rfl rfl rfl)
  refine .trans ?_ (foldl_keeps (fun s e => addOutcome_keeps c (noResponse e) s) _ _)
  exact modChannel_keeps_of_same rfl rfl rfl

theorem resolveAttempt_keeps (c : ChannelNo) (atEvent : Bool) (s : State) : s.Keeps (resolveAttempt c atEvent s) := by
  unfold resolveAttempt
  split
  · split
    · exact .refl s
    · split
      · exact removeMessage_keeps c 0 s
      · split
        · split
          · exact idleHead_keeps false c s
          · exact modChannel_keeps_of_same rfl rfl rfl
        · exact modChannel_keeps_of_same rfl rfl rfl
        · dsimp only
          split
          · exact (finalOutcome_keeps c 0 _ _ s).trans (makeEntry_keeps c _ _ _)
          · exact finalOutcome_keeps c 0 _ _ s
  · exact .refl s

theorem attemptEvent_keeps (c : ChannelNo) (s : State) : s.Keeps (attemptEvent c s) :=
  .trans (modChannel_keeps_of_same rfl rfl rfl) (resolveAttempt_keeps c true _)

theorem waitEvent_keeps (c : ChannelNo) (s : State) : s.Keeps (s.modChannel c Channel.waitEvent) := by
  refine modChannel_keeps_of_same ?_ ?_ ?_ <;> (unfold Channel.waitEvent; split <;> (try split) <;> rfl)

theorem ownDataBack_keeps (h : Header) (d : DataBody) (s : State) : s.Keeps (ownDataBack h d s) := by
  unfold ownDataBack
  dsimp only
  split
  · split
    · refine .trans ?_ (resolveAttempt_keeps d.channel false _)
      split
      · exact .trans (modChannel_keeps_of_same rfl rfl rfl) (withdraw_keeps d.channel _)
      · exact modChannel_keeps_of_same rfl rfl rfl
    · exact modChan_keeps_of_same rfl rfl
  · exact modChan_keeps_of_same rfl rfl

theorem beginAttempt_blocks (x : Channel) :
    x.beginAttempt.queue.flatMap TxMsg.blocks = x.queue.flatMap TxMsg.blocks ∧ x.beginAttempt.rx = x.rx ∧
      x.beginAttempt.store = x.store := by
  unfold Channel.beginAttempt
  split
  · next m rest _ hq => simp [hq]
  · simp

theorem offerSegment_keeps (s : State) : s.Keeps (offerSegment s) := by
  unfold offerSegment
  split
  · exact .refl s
  · split
    · exact .refl s
    · next c _ =>
      split
      · exact .refl s
      · dsimp only
        split
        · exact modChan_keeps_of_same rfl rfl
        · obtain ⟨hq, hrx, hstore⟩ := beginAttempt_blocks (s.getChannel c)
          exact .trans (modChannel_keeps_of_same hq (by rw [hrx]) (by rw [hstore])) (modChan_keeps_of_same rfl rfl)

theorem startOffered_keeps (o : Offered) (s : State) : s.Keeps (startOffered o s) := by
  refine .trans (modChannel_keeps_of_same ?_ rfl rfl) (modChan_keeps_of_same rfl rfl)
  cases (s.getChannel o.channel).queue <;> rfl

theorem flushResponses_keeps (ch : ChannelNo) (x : Nat) (n : Nat) (s : State) : s.Keeps (flushResponses ch x n s) := by
  induction n generalizing s with
  | zero => exact .refl s
  | succ n ih =>
    unfold flushResponses
    split
    · exact ((finalOutcome_keeps ch _ _ _ s).trans (modChannel_keeps_of_same rfl rfl rfl)).trans (ih _)
    · exact .refl s

/-! ### Blocks that an assembly takes -/

theorem Pool.takeHead_nil {u : Pool} (o : BlockOwner) (h : u.free = []) : u.takeHead o = none := by
  simp [Pool.takeHead, h]

theorem placePayload_nil (bytes : List Byte) {s : State} (h : s.pool.free = []) : placePayload bytes s = (none, s) := by
  simp [placePayload, Pool.takeHead_nil _ h]

theorem placePayload_cons (bytes : List Byte) {s : State} {n : BlockNo} {rest : List BlockNo}
    (h : s.pool.free = n :: rest) :
    placePayload bytes s =
      (some n, writePayload (blockAddr n 0) bytes (s.modPool fun u => { u.own [n] .assembly with free := rest })) := by
  simp [placePayload, Pool.takeHead_eq _ _ n rest h, State.modPool]

/-- A segment's payload takes the head free block, if there is one, for the context that holds the segment (R107, R108). -/
theorem placePayload_keeps {r s : State} {k : Fin 4} {c : Context} (bytes : List Byte) (hr : r.Keeps s)
    (hblocks : c.blocks = contextBlocks (s.getContext k) ++ (placePayload bytes s).1.toList)
    (hslots : r.SlotsOk → s.SlotsOk → (s.setContext k (some c)).SlotsOk) :
    r.Keeps ((placePayload bytes s).2.setContext k (some c)) := by
  obtain ⟨R, h1, h2⟩ := s.listed_setContext k
  have hcontext := h2 (some c)
  cases hfree : s.pool.free with
  | nil =>
    rw [placePayload_nil bytes hfree] at hblocks ⊢
    refine hr.then_blocks rfl id fun h0 h => ?_
    rw [State.blocksOk_iff] at h0 h ⊢
    refine ⟨h.1.same rfl fun o hop => ?_, hslots h0.2 h.2⟩
    cases o with
    | assembly =>
      simp only [contextBlocks, hblocks, Option.toList_none, List.append_nil] at hcontext
      exact hcontext.trans h1.symm
    | port p => exact absurd rfl (hop p)
    | _ => exact .refl _
  | cons n rest =>
    rw [placePayload_cons bytes hfree] at hblocks ⊢
    refine hr.then_blocks rfl (Memory.writeBytes_wf _ _) fun h0 h => ?_
    rw [State.blocksOk_iff] at h0 h ⊢
    have hp : (s.listed .free).Perm ([n] ++ rest) := by
      change s.pool.free.Perm _
      rw [hfree]
      exact .refl _
    obtain ⟨hnodup, hown⟩ := h.1.of_perm hp
    refine ⟨h.1.move (from_ := .free) (to_ := .assembly) nofun (Pool.own_owner s.pool [n] .assembly) hnodup hown
      (fun _ => hp) (fun _ => ?_) fun o hof hoa hop => ?_, hslots h0.2 h.2⟩
    · simp only [contextBlocks, hblocks, Option.toList_some] at hcontext
      refine hcontext.trans ?_
      rw [List.append_assoc]
      refine List.perm_append_comm_assoc _ _ _ |>.trans ?_
      exact h1.symm.append_left [n]
    · cases o with
      | free => exact absurd rfl hof
      | assembly => exact absurd rfl hoa
      | port p => exact absurd rfl (hop p)
      | _ => exact .refl _

/-! ### Completed messages -/

theorem gapUpdate_slots (u : StripStore) (source : Nat) (n : BitVec 16) : (u.gapUpdate source n).slots = u.slots := by
  unfold StripStore.gapUpdate
  split
  · dsimp only
    split <;> rfl
  · rfl

/-- An assembly's blocks pass to the receive queue with its message (R117). -/
theorem joinRx_keeps {s : State} {k : Fin 4} {c : Context} {m : RxMsg} (hc : s.getContext k = some c)
    (hm : m.blocks = c.blocks) :
    s.Keeps ((ownBlocks c.blocks .rxq (s.setContext k none)).modChannel c.channel fun x => { x with rx := x.rx ++ [m] }) := by
  refine .of_blocks rfl id fun h => ?_
  rw [State.blocksOk_iff] at h ⊢
  obtain ⟨R, h1, h2⟩ := s.listed_setContext k
  rw [hc] at h1
  have hp : (s.listed .assembly).Perm (c.blocks ++ (s.setContext k none).listed .assembly) :=
    h1.trans ((h2 none).symm.append_left _)
  obtain ⟨hnodup, hown⟩ := h.1.of_perm hp
  refine ⟨h.1.move (from_ := .assembly) (to_ := .rxq) nofun (ownBlocks_owner c.blocks .rxq (s.setContext k none)) hnodup hown
    (fun _ => hp) (fun _ => ?_) fun o ho hof hop => ?_, (h.2.clearContext k).of_same rfl (modChannel_slots_same rfl)⟩
  · refine State.listed_modChannel_join (s := ownBlocks c.blocks .rxq (s.setContext k none)) ?_
    simp only [Channel.listed, List.flatMap_append, List.flatMap_cons, List.flatMap_nil, List.append_nil, hm]
    exact List.perm_append_comm
  · cases o with
    | assembly => exact absurd rfl ho
    | rxq => exact absurd rfl hof
    | port p => exact absurd rfl (hop p)
    | free => exact .refl _
    | _ => exact State.listed_modChannel_same (s := ownBlocks c.blocks .rxq (s.setContext k none)) (.refl _)

theorem completeScreen_keeps {s : State} {k : Fin 4} {c : Context} (hc : s.getContext k = some c) :
    s.Keeps (completeScreen c (s.setContext k none)) := by
  unfold completeScreen
  dsimp only
  split
  · exact ((joinRx_keeps hc rfl).trans (raise_keeps _ _ _)).trans (modChannel_keeps_of_same rfl rfl rfl)
  · split
    · exact ((joinRx_keeps hc rfl).trans (raise_keeps _ _ _)).trans (flushResponses_keeps _ _ _ _)
    · exact (joinRx_keeps hc rfl).trans (raise_keeps _ _ _)

/-- An assembly's blocks pass to its slot, which becomes READY (R135). -/
theorem completeStrip_keeps {s : State} {k : Fin 4} {c : Context} {i : Nat} (hc : s.getContext k = some c)
    (hi : c.slot = some i) : s.Keeps (completeStrip c i (s.setContext k none)) := by
  unfold completeStrip
  dsimp only
  refine .trans ?_ (raise_keeps _ _ _)
  refine .of_blocks rfl id fun h => ?_
  rw [State.blocksOk_iff] at h ⊢
  obtain ⟨⟨x, hx, hstate⟩, hother⟩ := h.2.1 k c i hc hi
  have hx0 : x.blocks = [] := h.2.2 c.channel x (List.mem_of_getElem? hx) (.inr hstate)
  obtain ⟨R, h1, h2⟩ := s.listed_setContext k
  rw [hc] at h1
  have hp : (s.listed .assembly).Perm (c.blocks ++ (s.setContext k none).listed .assembly) :=
    h1.trans ((h2 none).symm.append_left _)
  obtain ⟨hnodup, hown⟩ := h.1.of_perm hp
  have hslots (u : StripStore) (n : Cycle) := gapUpdate_slots { u with
    slots := modifyNth u.slots i fun _ =>
      { state := .ready, source := c.origin, strip := c.strip, length := c.length, blocks := c.blocks,
        arrival := n, stamp := c.stamp, toAll := c.toAll, seq := u.nextSeq }
    nextSeq := u.nextSeq + 1 } c.origin c.strip
  refine ⟨h.1.move (from_ := .assembly) (to_ := .store) nofun (ownBlocks_owner c.blocks .store (s.setContext k none)) hnodup
    hown (fun _ => hp) (fun _ => ?_) fun o ho hof hop => ?_, ?_⟩
  · refine State.listed_modChannel_join (s := ownBlocks c.blocks .store (s.setContext k none)) ?_
    obtain ⟨Q, q1, q2⟩ := flatMap_modifyNth_perm Slot.blocks hx
    simp only [hx0, List.nil_append] at q1
    simp only [Channel.listed, StripStore.complete, hslots]
    exact (q2 _).trans (q1.symm.append_left c.blocks)
  · cases o with
    | assembly => exact absurd rfl ho
    | store => exact absurd rfl hof
    | port p => exact absurd rfl (hop p)
    | free => exact .refl _
    | _ => exact State.listed_modChannel_same (s := ownBlocks c.blocks .store (s.setContext k none)) (.refl _)
  · refine (h.2.clearContext k).modSlot (hslots _ _) (fun l d hd hch => ?_) fun _ _ hst => by simp at hst
    rw [State.setContext_getContext] at hd
    split at hd
    · exact absurd hd nofun
    · next hl => exact hother l d hl hd hch

theorem completeContext_keeps (k : Fin 4) (s : State) : s.Keeps (completeContext k s) := by
  unfold completeContext
  split
  · exact .refl s
  · next c hc =>
    dsimp only
    split
    · next i hi => exact completeStrip_keeps hc hi
    · exact completeScreen_keeps hc

end Sys2Proof.Machine
end

