-- ==== Sys2Proof/Proofs/SegmentBlocks.lean ====
section
/-!
PROOFS. Received segments (R106 to R110, R134) and the channel unit's work at a cycle event (R102, R105, R109, R111, R126) keep
the invariants.
-/

namespace Sys2Proof.Machine

/-! ### The slot and the context that a segment 0 takes -/

theorem oldestReadyFrom_ready {xs : List Slot} {n i seq : Nat} (h : oldestReadyFrom xs n = some (i, seq)) :
    n ≤ i ∧ ∃ x, xs[i - n]? = some x ∧ x.state = .ready := by
  induction xs generalizing n i seq with
  | nil => exact absurd h nofun
  | cons x xs ih =>
    have later {j q : Nat} (hj : oldestReadyFrom xs (n + 1) = some (j, q)) :
        n ≤ j ∧ ∃ y, (x :: xs)[j - n]? = some y ∧ y.state = .ready := by
      obtain ⟨hle, y, hy, hr⟩ := ih hj
      refine ⟨by omega, y, ?_, hr⟩
      rw [show j - n = (j - (n + 1)) + 1 by omega, List.getElem?_cons_succ]
      exact hy
    unfold oldestReadyFrom at h
    split at h
    · next j q hj =>
      split at h
      · next hx =>
        cases h
        exact ⟨Nat.le_refl _, x, by simp, hx.1⟩
      · cases h
        exact later hj
    · split at h
      · next hx =>
        cases h
        exact ⟨Nat.le_refl _, x, by simp, hx⟩
      · exact absurd h nofun

theorem StripStore.oldestReady_ready {u : StripStore} {i : Nat} (h : u.oldestReady = some i) :
    ∃ x, u.slots[i]? = some x ∧ x.state = .ready := by
  obtain ⟨⟨j, seq⟩, hj, rfl⟩ := Option.map_eq_some_iff.mp h
  exact (oldestReadyFrom_ready hj).2

/-- The slot that a STRIP takes is an EMPTY or a READY one (R134). -/
theorem StripStore.chooseSlot_state {u : StripStore} {i : Nat} (h : u.chooseSlot = some i) :
    ∃ x, u.slots[i]? = some x ∧ (x.state = .empty ∨ x.state = .ready) := by
  unfold StripStore.chooseSlot at h
  split at h
  · next j hj =>
    cases h
    obtain ⟨hlt, hstate, -⟩ := List.findIdx?_eq_some_iff_getElem.mp hj
    exact ⟨_, List.getElem?_eq_getElem hlt, .inl (by simpa using hstate)⟩
  · obtain ⟨x, hx, hr⟩ := StripStore.oldestReady_ready h
    exact ⟨x, hx, .inr hr⟩

/-- The context that a segment 0 takes is free (R107). -/
theorem State.freeContext_free {s : State} {t : ChannelType} {k : Fin 4} (h : s.freeContext t = some k) :
    s.getContext k = none := by
  unfold State.freeContext at h
  split at h
  · next hc =>
    cases h
    simpa using (Bool.and_eq_true_iff.mp hc).2
  · simpa using List.find?_some h

/-- What a segment 0 that is taken finds: a free context, and for a STRIP a slot that is EMPTY or READY (R106). -/
theorem State.verdict_take {s : State} {origin : Nat} {d : DataBody} {k : Fin 4} {slot : Option Nat}
    (h : s.verdict origin d = .take k slot) :
    s.getContext k = none ∧ ∀ i, slot = some i →
      ∃ x, (s.getChannel d.channel).store.slots[i]? = some x ∧ (x.state = .empty ∨ x.state = .ready) := by
  unfold State.verdict at h
  dsimp only at h
  split at h
  · exact absurd h nofun
  split at h
  · unfold State.screenVerdict at h
    dsimp only at h
    repeat' split at h
    all_goals cases h
    rename s.freeContext .screen = some k => hk
    exact ⟨State.freeContext_free hk, nofun⟩
  · unfold State.imageVerdict at h
    dsimp only at h
    repeat' split at h
    all_goals cases h
    rename s.freeContext .image = some k => hk
    rename (s.getChannel d.channel).store.chooseSlot = some _ => hi
    refine ⟨State.freeContext_free hk, fun j hj => ?_⟩
    cases hj
    exact StripStore.chooseSlot_state hi

/-! ### Filling a slot -/

theorem fillSlot_contexts (ch : ChannelNo) (i origin : Nat) (strip : BitVec 16) (s : State) :
    (fillSlot ch i origin strip s).chan.contexts = s.chan.contexts := by
  unfold fillSlot
  dsimp only
  split
  · split <;> rfl
  · rfl

/-- An EMPTY or READY slot becomes FILLING; a READY one first frees its blocks (R134). -/
theorem fillSlot_keeps {ch : ChannelNo} {i : Nat} {s : State} {x : Slot} (origin : Nat) (strip : BitVec 16)
    (hx : (s.getChannel ch).store.slots[i]? = some x) (hstate : x.state = .empty ∨ x.state = .ready) :
    s.Keeps (fillSlot ch i origin strip s) := by
  have hfilling : x.state ≠ .filling := by rcases hstate with h | h <;> simp [h]
  unfold fillSlot
  simp only [hx]
  split
  · next hr =>
    change s.Keeps (freeBlocks x.blocks ((s.modChannel ch _).modChannel ch _))
    rw [State.modChannel_modChannel]
    exact freeSlot_keeps hx hfilling rfl rfl rfl rfl
  · next hr =>
    have hempty : x.state = .empty := hstate.resolve_right hr
    have hnone (h : s.SlotsOk) : x.blocks = [] := h.2 ch x (List.mem_of_getElem? hx) (.inl hempty)
    refine modSlot_keeps rfl rfl rfl (fun h => h.not_filled hx hfilling) (fun h y hy => ?_) fun _ _ _ _ => rfl
    cases hx.symm.trans hy
    exact (hnone h).symm

/-- The slot that is filled is FILLING. -/
theorem fillSlot_slot {ch : ChannelNo} {i : Nat} {s : State} {x : Slot} (origin : Nat) (strip : BitVec 16)
    (hx : (s.getChannel ch).store.slots[i]? = some x) :
    ∃ y : Slot, ((fillSlot ch i origin strip s).getChannel ch).store.slots[i]? = some y ∧ y.state = .filling := by
  have key (t : State) (ht : (t.getChannel ch).store.slots[i]? = some x) :
      ((t.modChannel ch fun y => { y with store := { y.store with
        slots := modifyNth y.store.slots i fun _ =>
          { Slot.blank with state := .filling, source := origin, strip := strip } } }).getChannel ch).store.slots[i]? =
        some { Slot.blank with state := .filling, source := origin, strip := strip } := by
    rw [State.modChannel_getChannel_self, modifyNth_eq, List.getElem?_modify_eq, ht]
    rfl
  refine ⟨{ Slot.blank with state := .filling, source := origin, strip := strip }, ?_, rfl⟩
  unfold fillSlot
  simp only [hx]
  refine key _ ?_
  split
  · change ((s.modChannel ch _).getChannel ch).store.slots[i]? = some x
    rw [State.modChannel_getChannel_self]
    exact hx
  · exact hx

/-! ### Taking a segment -/

/-- A segment 0 opens its context (R107, R108, R134). -/
theorem openContext_keeps {s : State} {k : Fin 4} {c : Context} (bytes : List Byte) (hk : s.getContext k = none)
    (hslot : c.slot = none) (hblocks : c.blocks = (placePayload bytes s).1.toList) :
    s.Keeps ((placePayload bytes s).2.setContext k (some c)) := by
  refine placePayload_keeps bytes (.refl s) (by rw [hk]; exact hblocks) fun _ h => h.putContext k c fun i hi => ?_
  rw [hslot] at hi
  exact absurd hi nofun

/-- A STRIP's segment 0 opens its context on the slot that it fills (R134). -/
theorem openStrip_keeps {s : State} {k : Fin 4} {c : Context} {ch : ChannelNo} {i : Nat} {x : Slot} (bytes : List Byte)
    (origin : Nat) (strip : BitVec 16) (hk : s.getContext k = none) (hch : c.channel = ch) (hslot : c.slot = some i)
    (hx : (s.getChannel ch).store.slots[i]? = some x) (hstate : x.state = .empty ∨ x.state = .ready)
    (hblocks : c.blocks = (placePayload bytes (fillSlot ch i origin strip s)).1.toList) :
    s.Keeps ((placePayload bytes (fillSlot ch i origin strip s)).2.setContext k (some c)) := by
  subst hch
  have hcontext (l : Fin 4) : (fillSlot c.channel i origin strip s).getContext l = s.getContext l :=
    congrArg (fun v => v[l.val]) (fillSlot_contexts c.channel i origin strip s)
  refine placePayload_keeps bytes (fillSlot_keeps origin strip hx hstate) (by rw [hcontext, hk]; exact hblocks)
    fun h0 h => h.putContext k c fun j hj => ?_
  cases hslot.symm.trans hj
  refine ⟨fillSlot_slot origin strip hx, fun l d _ hd hch => ?_⟩
  exact h0.not_filled hx (by rcases hstate with e | e <;> simp [e]) l d (hcontext l ▸ hd) hch

/-- The rest of a taken segment 0: a RESPONSE's entry answers, and a message of one segment is complete (R108, R124). -/
theorem takeFirst_rest_keeps (d : DataBody) (k : Fin 4) (origin : Nat) (s : State) :
    s.Keeps (
      let t := if d.kind = .response then
          s.modChannel d.channel fun x => { x with entries := answerEntry origin d.answers x.entries }
        else s
      if d.count ≤ 1 then completeContext k t else t) := by
  have hanswer : s.Keeps (if d.kind = .response then
      s.modChannel d.channel fun x => { x with entries := answerEntry origin d.answers x.entries } else s) := by
    split
    · exact modChannel_keeps_of_same rfl rfl rfl
    · exact .refl s
  dsimp only
  by_cases hcount : d.count ≤ 1
  · rw [if_pos hcount]
    exact hanswer.trans (completeContext_keeps k _)
  · rw [if_neg hcount]
    exact hanswer

theorem takeFirst_keeps {s : State} {h : Header} {d : DataBody} {k : Fin 4} {slot : Option Nat}
    (hv : s.verdict h.origin d = .take k slot) : s.Keeps (takeFirst h d k slot s) := by
  obtain ⟨hk, hslot⟩ := State.verdict_take hv
  unfold takeFirst
  refine .trans ?_ (takeFirst_rest_keeps d k h.origin _)
  cases slot with
  | none =>
    dsimp only
    exact openContext_keeps d.payload hk rfl rfl
  | some i =>
    obtain ⟨x, hx, hstate⟩ := hslot i rfl
    exact openStrip_keeps d.payload h.origin d.strip hk rfl rfl hx hstate rfl

/-- An open context that goes on with the slot it fills, its blocks and any other fields changed. -/
theorem State.SlotsOk.renewContext {s : State} (h : s.SlotsOk) {k : Fin 4} {c d : Context} (hc : s.getContext k = some c)
    (hchannel : d.channel = c.channel) (hslot : d.slot = c.slot) : (s.setContext k (some d)).SlotsOk :=
  h.putContext k d fun i hi => by
    rw [hchannel]
    exact h.1 k c i hc (hslot ▸ hi)

theorem takeNext_keeps {s : State} {k : Fin 4} {c : Context} (d : DataBody) (hc : s.getContext k = some c) :
    s.Keeps (takeNext d k c s) := by
  have hopen : s.Keeps ((placePayload d.payload s).2.setContext k (some { c with
      next := c.next + 1, blocks := c.blocks ++ (placePayload d.payload s).1.toList, idle := 0 })) :=
    placePayload_keeps d.payload (.refl s) (by rw [hc]; rfl) fun _ h => h.renewContext hc rfl rfl
  unfold takeNext
  dsimp only
  split
  · exact hopen.trans (completeContext_keeps k _)
  · exact hopen

theorem judgeSegment_keeps (h : Header) (d : DataBody) (s : State) : s.Keeps (judgeSegment h d s).2 := by
  have hdiscard : s.Keeps (match s.contextOf h.origin d.channel with
      | some k => discardContext k s
      | none => s) := by
    split
    · exact discardContext_keeps _ s
    · exact .refl s
  unfold judgeSegment
  split
  · dsimp only
    split
    · exact hdiscard
    · next hv => exact hdiscard.trans (takeFirst_keeps hv)
  · split
    · exact .refl s
    · split
      · exact .refl s
      · next hc =>
        split
        · exact takeNext_keeps d hc
        · exact discardContext_keeps _ s

theorem takeSegment_keeps (h : Header) (d : DataBody) (s : State) : s.Keeps (takeSegment h d s).2 := by
  have hjudge := judgeSegment_keeps h d s
  unfold takeSegment
  dsimp only
  split
  · split <;> exact hjudge
  · dsimp only
    split
    · exact hjudge.trans (modChan_keeps_of_same rfl rfl)
    · exact hjudge

/-! ### A cycle event -/

theorem contextEvent_keeps (k : Fin 4) (s : State) : s.Keeps (contextEvent k s) := by
  unfold contextEvent
  split
  · exact .refl s
  · next c hc =>
    split
    · exact discardContext_keeps k s
    · refine .of_blocks rfl id fun h => ?_
      rw [State.blocksOk_iff] at h ⊢
      obtain ⟨R, h1, h2⟩ := s.listed_setContext k
      rw [hc] at h1
      refine ⟨h.1.same rfl fun o hop => ?_, h.2.renewContext hc rfl rfl⟩
      cases o with
      | assembly => exact (h2 _).trans h1.symm
      | port p => exact absurd rfl (hop p)
      | _ => exact .refl _

theorem entriesEvent_keeps (c : ChannelNo) (s : State) : s.Keeps (entriesEvent c s) := by
  refine .trans ?_ (foldl_keeps (fun s e => addOutcome_keeps c (noResponse e) s) _ _)
  exact .trans (modChannel_keeps_of_same rfl rfl rfl) (modChannel_keeps_of_same rfl rfl rfl)

theorem channelWork_keeps (openPhase : Bool) (s : State) : s.Keeps (channelWork openPhase s) := by
  have close (t : State) : t.Keeps (t.modChan fun u =>
      { u with allowance := t.cyc.config.allowance, shut := false, openPhase := openPhase }) :=
    modChan_keeps_of_same rfl rfl
  refine .trans ?_ (close _)
  refine .trans ?_ (foldl_keeps (fun s c => ?_) _ _)
  · refine .trans ?_ (foldl_keeps (fun s k => contextEvent_keeps k s) _ _)
    exact foldl_keeps (fun s c => (waitEvent_keeps c s).trans (attemptEvent_keeps c _)) _ s
  · split
    · exact entriesEvent_keeps c s
    · exact .refl s

end Sys2Proof.Machine
end

