-- ==== Sys2Proof/Proofs/PortBlocks.lean ====
section
/-!
PROOFS. What ports do with blocks, queues and stores (R96, R97, R99, R100, R113 to R115, R119 to R122, R137 to R143) keeps the
invariants.
-/

namespace Sys2Proof.Machine

/-! ### What an access leaves of the ports -/

theorem touched_keeps (s : State) (p : Port) : s.Keeps (s.touched p) := modPort_keeps s p _

theorem setCode_keeps (s : State) (p : Port) (f : ReadBacks → ReadBacks) : s.Keeps (s.setCode p f) := modPort_keeps s p _

theorem drive_keeps (s : State) (p : Port) (v : BitVec 32) : s.Keeps (s.drive p v) := modPort_keeps s p _

theorem driveNat_keeps (s : State) (p : Port) (v : Nat) : s.Keeps (s.driveNat p v) := drive_keeps s p _

theorem drivePair_keeps (s : State) (p : Port) (a own partner : Nat) : s.Keeps (s.drivePair p a own partner) := by
  rw [drivePair_eq]
  exact drive_keeps s p _

theorem access_keeps (p : Port) (addr : Word16) (w : Bool) (r : AccessReason) (s : State) :
    s.Keeps (access p addr w r s) := (modPort_keeps s p _).trans (raise_keeps p .access _)

theorem accessRead_keeps (p : Port) (addr : Word16) (r : AccessReason) (s : State) : s.Keeps (accessRead p addr r s) :=
  (access_keeps p addr false r s).trans (driveNat_keeps _ p 0)

theorem refuseWord_keeps (p : Port) (addr : Word16) (r : AccessReason) (s : State) : s.Keeps (refuseWord p addr r s) := by
  unfold refuseWord
  split
  · exact .refl s
  · exact access_keeps _ _ _ _ s

/-- A write by port A keeps what its effect keeps; at port B it is refused. -/
theorem writeByA_keeps {p : Port} {addr : Word16} {f : State → State} {s : State} (h : s.Keeps (f s)) :
    s.Keeps (writeByA p addr f s) := by
  cases p with
  | a => exact h
  | b => exact refuseWord_keeps .b addr .readOnly s

theorem portWrite_keeps {p : Port} {s : State} {f : State → State} (h : ∀ t : State, t.Keeps (f t)) :
    s.Keeps (portWrite p s f) := by
  rw [portWrite_eq]
  split
  · exact (touched_keeps s p).trans (h _)
  · exact .refl s

theorem portRead_keeps {p : Port} {s : State} {f : State → State} (h : ∀ t : State, t.Keeps (f t)) :
    s.Keeps (portRead p s f) := by
  rw [portRead_eq]
  split
  · exact (touched_keeps s p).trans (h _)
  · exact driveNat_keeps s p 0

/-! ### Taking and giving blocks (R96, R97) -/

/-- The head free block becomes a port's. -/
theorem takeHead_keeps {s : State} {p : Port} {n : BlockNo} {u : Pool} (h : s.pool.takeHead (.port p) = some (n, u)) :
    s.Keeps (s.modPool fun _ => u) := by
  cases hfree : s.pool.free with
  | nil => rw [Pool.takeHead_nil _ hfree] at h; exact absurd h nofun
  | cons m rest =>
    rw [Pool.takeHead_eq _ _ m rest hfree] at h
    cases h
    refine .of_blocks rfl id fun h => ?_
    rw [State.blocksOk_iff] at h ⊢
    have hp : (s.listed .free).Perm ([n] ++ rest) := by
      change s.pool.free.Perm _
      rw [hfree]
      exact .refl _
    obtain ⟨hnodup, hown⟩ := h.1.of_perm hp
    refine ⟨h.1.move (from_ := .free) (to_ := .port p) nofun (Pool.own_owner s.pool [n] (.port p)) hnodup hown
      (fun _ => hp) (fun hport => absurd rfl (hport p)) fun o hof _ hop => ?_, h.2⟩
    cases o with
    | free => exact absurd rfl hof
    | port q => exact absurd rfl (hop q)
    | _ => exact .refl _

theorem takeRefused_keeps (screen : Bool) (p : Port) (s : State) : s.Keeps (takeRefused screen p s) :=
  (modPort_keeps s p _).trans (drivePair_keeps _ p _ _ _)

theorem cmdTake_keeps (screen : Bool) (p : Port) (s : State) : s.Keeps (cmdTake screen p s) := by
  unfold cmdTake
  split
  · exact takeRefused_keeps screen p s
  · split
    · exact takeRefused_keeps screen p s
    · split
      · exact takeRefused_keeps screen p s
      · next h => exact (takeHead_keeps h).trans (drivePair_keeps _ p _ _ _)

/-- Blocks that a port holds are freed. -/
theorem freePortBlocks_keeps {s : State} {p : Port} {bs : List BlockNo} (hnodup : bs.Nodup)
    (hown : ∀ n ∈ bs, s.pool.owner n = .port p) : s.Keeps (freeBlocks bs s) := by
  refine .of_blocks rfl id fun h => ?_
  rw [State.blocksOk_iff] at h ⊢
  refine ⟨h.1.move (from_ := .port p) (to_ := .free) nofun (freeBlocks_owner bs s) hnodup hown
    (fun hport => absurd rfl (hport p)) (fun _ => List.perm_append_comm) fun o _ hof hop => ?_, h.2⟩
  cases o with
  | free => exact absurd rfl hof
  | port q => exact absurd rfl (hop q)
  | _ => exact .refl _

theorem cmdBlockGive_keeps (p : Port) (v : Word16) (s : State) : s.Keeps (cmdBlockGive p v s) := by
  unfold cmdBlockGive
  split
  · next n _ =>
    split
    · next h => exact freePortBlocks_keeps (List.pairwise_singleton _ n) fun m hm => List.mem_singleton.mp hm ▸ h
    · exact modPort_keeps s p _
  · exact modPort_keeps s p _

/-! ### Posting (R100, R133) -/

theorem noRepeats_nodup {ns : List BlockNo} (h : noRepeats ns = true) : ns.Nodup := by
  induction ns with
  | nil => exact .nil
  | cons n ns ih =>
    simp only [noRepeats, Bool.and_eq_true, Bool.not_eq_true', List.contains_eq_mem, decide_eq_false_iff_not] at h
    exact List.nodup_cons.mpr ⟨h.1, ih h.2⟩

/-- The blocks of an accepted post are held by the port, and listed once each. -/
theorem State.blocksPostable_spec {s : State} {p : Port} {r : PostingRecord} (h : s.blocksPostable p r = true) :
    (r.listed.getD []).Nodup ∧ ∀ n ∈ r.listed.getD [], s.pool.owner n = .port p := by
  unfold State.blocksPostable at h
  split at h
  · next ns hns =>
    simp only [Bool.and_eq_true, List.all_eq_true, decide_eq_true_eq] at h
    rw [hns]
    exact ⟨noRepeats_nodup h.2, h.1⟩
  · exact absurd h nofun

theorem State.postCode_blocks {s : State} {p : Port} {c : ChannelNo} (h : s.postCode p c = .accepted) :
    s.blocksPostable p (s.port p).posting = true := by
  unfold State.postCode at h
  dsimp only at h
  repeat' split at h
  all_goals cases h
  simpa using ‹¬(!s.blocksPostable p (s.port p).posting) = true›

/-- Freed blocks are those of one owner, so the blocks of another keep theirs. -/
theorem removeMessage_owner {s : State} (hs : s.LedgerOk) (c : ChannelNo) (i : Nat) {n : BlockNo}
    (h : s.pool.owner n ≠ .txq) : (removeMessage c i s).pool.owner n = s.pool.owner n := by
  unfold removeMessage
  split
  · rfl
  · next m hm =>
    have hnot : n ∉ m.blocks := by
      have hp := State.listed_modChannel_leave (s := s) (f := fun x => { x with queue := x.queue.eraseIdx i })
        (o := .txq) (flatMap_eraseIdx_perm TxMsg.blocks hm)
      exact fun hn => h ((hs.of_perm hp).2 n hn)
    have hfree := freeBlocks_owner m.blocks (s.modChannel c fun x => { x with queue := x.queue.eraseIdx i }) n
    rw [if_neg hnot] at hfree
    dsimp only
    split
    · exact hfree
    · exact hfree

theorem finalOutcome_owner {s : State} (hs : s.LedgerOk) (c : ChannelNo) (i : Nat) (o : MsgOutcome) (k : Nat) {n : BlockNo}
    (h : s.pool.owner n ≠ .txq) : (finalOutcome c i o k s).pool.owner n = s.pool.owner n := by
  unfold finalOutcome
  split
  · rfl
  · exact removeMessage_owner hs c i h

theorem supersede_keeps (c : ChannelNo) (s : State) : s.Keeps (supersede c s) := by
  unfold supersede
  split
  · split
    · exact finalOutcome_keeps c _ _ _ s
    · exact .refl s
  · exact .refl s

theorem supersede_owner {s : State} (hs : s.LedgerOk) (c : ChannelNo) {n : BlockNo}
    (h : s.pool.owner n ≠ .txq) : (supersede c s).pool.owner n = s.pool.owner n := by
  unfold supersede
  split
  · split
    · exact finalOutcome_owner hs c _ _ _ h
    · rfl
  · rfl

theorem addOutcome_posting (c : ChannelNo) (r : OutcomeRecord) (s : State) (p : Port) :
    ((addOutcome c r s).port p).posting = (s.port p).posting := by
  unfold addOutcome
  dsimp only
  rw [raise_port]
  rfl

theorem supersede_posting (c : ChannelNo) (s : State) (p : Port) :
    ((supersede c s).port p).posting = (s.port p).posting := by
  have hremove (i : Nat) : (removeMessage c i s).ports = s.ports := by
    unfold removeMessage
    split
    · rfl
    · dsimp only
      split <;> rfl
  unfold supersede
  split
  · split
    · next i _ =>
      unfold finalOutcome
      split
      · rfl
      · rw [addOutcome_posting]
        exact congrArg (fun u => (PortPair.get u p).posting) (hremove i)
    · rfl
  · rfl

/-- The blocks of a message that joins a queue pass from its port to the transmit queue (R100). -/
theorem joinQueue_keeps {r s : State} {p : Port} (c : ChannelNo) (hr : r.Keeps s)
    (hnodup : ((s.port p).posting.listed.getD []).Nodup)
    (hown : r.LedgerOk → ∀ n ∈ (s.port p).posting.listed.getD [], s.pool.owner n = .port p) :
    r.Keeps (joinQueue p c s) := by
  refine hr.then_blocks rfl id fun h0 h => ?_
  rw [State.blocksOk_iff] at h0 h ⊢
  refine ⟨h.1.move (from_ := .port p) (to_ := .txq) nofun (ownBlocks_owner _ .txq s) hnodup (hown h0.1)
    (fun hport => absurd rfl (hport p)) (fun _ => ?_) fun o _ hof hop => ?_,
    h.2.of_same rfl (modChannel_slots_same (s := s) (c := c) rfl)⟩
  · change ((s.modChannel c _).listed .txq).Perm _
    refine State.listed_modChannel_join ?_
    simp only [Channel.listed, List.flatMap_append, List.flatMap_cons, List.flatMap_nil, List.append_nil]
    exact List.perm_append_comm
  · cases o with
    | txq => exact absurd rfl hof
    | port q => exact absurd rfl (hop q)
    | free => exact .refl _
    | assembly => exact .refl _
    | rxq =>
      change ((s.modChannel c _).listed .rxq).Perm _
      exact State.listed_modChannel_same (.refl _)
    | store =>
      change ((s.modChannel c _).listed .store).Perm _
      exact State.listed_modChannel_same (.refl _)

theorem cmdPost_keeps (p : Port) (v : Word16) (s : State) : s.Keeps (cmdPost p v s) := by
  have refuse (code : Code) : s.Keeps ((s.setCode p fun x => { x with post := code }).modPort p fun u =>
      { u with postTag := 0 }) := (setCode_keeps s p _).trans (modPort_keeps _ p _)
  unfold cmdPost
  dsimp only
  split
  · exact refuse .channelOff
  · next c _ =>
    split
    · next hcode =>
      obtain ⟨hnodup, hown⟩ := State.blocksPostable_spec (State.postCode_blocks hcode)
      have hposting : ((supersede c (s.setCode p fun x => { x with post := .accepted })).port p).posting =
          (s.port p).posting := by
        rw [supersede_posting]
        simp [State.setCode]
      refine joinQueue_keeps c ((setCode_keeps s p _).trans (supersede_keeps c _)) (by rw [hposting]; exact hnodup)
        fun h n hn => ?_
      rw [hposting] at hn
      have hport : (s.setCode p fun x => { x with post := .accepted }).pool.owner n = .port p := hown n hn
      rw [supersede_owner (s := s.setCode p fun x => { x with post := .accepted }) h c (by rw [hport]; nofun), hport]
    · exact refuse _

end Sys2Proof.Machine
end

