-- ==== Sys2Proof/Proofs/StorePorts.lean ====
section
/-!
PROOFS. Channel configuration (R99, R116, R130), the receive queue and the strip store at their owner port (R113, R114, R119 to
R122, R137 to R142), and the channels of a port that resets (R115, R129, R143) keep the invariants.
-/

namespace Sys2Proof.Machine

/-! ### Cancelling, outcomes and the receive queue -/

theorem cmdCancelHead_keeps (p : Port) (v : Word16) (s : State) : s.Keeps (cmdCancelHead p v s) := by
  unfold cmdCancelHead
  dsimp only
  split
  · exact setCode_keeps s p _
  · split
    · exact setCode_keeps s p _
    · split
      · exact setCode_keeps s p _
      · split
        · exact setCode_keeps s p _
        · split
          · exact (removeMessage_keeps _ 0 s).trans (setCode_keeps _ p _)
          · exact (finalOutcome_keeps _ 0 _ _ s).trans (setCode_keeps _ p _)

theorem loadOutcome_keeps (p : Port) (c : ChannelNo) (r : OutcomeRecord) (s : State) : s.Keeps (loadOutcome p c r s) :=
  .trans (modChannel_keeps_of_same rfl rfl rfl) (drivePair_keeps _ p _ _ _)

theorem cmdOutcomeRead_keeps (p : Port) (c : ChannelNo) (s : State) : s.Keeps (cmdOutcomeRead p c s) := by
  unfold cmdOutcomeRead
  split
  · exact .trans (modChannel_keeps_of_same rfl rfl rfl) (loadOutcome_keeps p c _ _)
  · exact loadOutcome_keeps p c _ s

theorem cmdDescriptor_keeps (p : Port) (c : ChannelNo) (w : Fin 9) (s : State) : s.Keeps (cmdDescriptor p c w s) := by
  unfold cmdDescriptor
  dsimp only
  split
  · exact accessRead_keeps _ _ _ s
  · split
    · exact accessRead_keeps _ _ _ s
    · exact drivePair_keeps s p _ _ _

theorem overread_keeps (p : Port) (s : State) : s.Keeps (overread p s) :=
  (modPort_keeps s p _).trans (driveNat_keeps _ p 0)

theorem cmdStream_keeps (p : Port) (c : ChannelNo) (s : State) : s.Keeps (cmdStream p c s) := by
  unfold cmdStream
  dsimp only
  split
  · exact accessRead_keeps _ _ _ s
  · split
    · exact accessRead_keeps _ _ _ s
    · split
      · exact overread_keeps p s
      · split
        · exact (drive_keeps s p _).trans (popRx_keeps c _)
        · exact (drive_keeps s p _).trans (modChannel_keeps_of_same rfl rfl rfl)

/-- A channel command keeps what its answers and its effect keep. -/
theorem ownedChannel_keeps {p : Port} {v : Word16} {answer : Code → State → State} {f : ChannelNo → State} {s : State}
    (hanswer : ∀ code, s.Keeps (answer code s)) (hf : ∀ c, s.Keeps (f c)) : s.Keeps (ownedChannel p v answer f s) := by
  unfold ownedChannel
  split
  · exact hanswer _
  · split
    · exact hanswer _
    · exact hf _

theorem cmdDiscardHead_keeps (p : Port) (v : Word16) (s : State) : s.Keeps (cmdDiscardHead p v s) := by
  unfold cmdDiscardHead
  dsimp only
  refine ownedChannel_keeps (fun _ => ?_) fun c => ?_
  · exact setCode_keeps s p _
  split
  · exact setCode_keeps s p _
  · split
    · exact setCode_keeps s p _
    · exact (popRx_keeps c s).trans (setCode_keeps _ p _)

theorem cmdHold_keeps (p : Port) (v : Word16) (s : State) : s.Keeps (cmdHold p v s) := by
  unfold cmdHold
  dsimp only
  refine ownedChannel_keeps (fun _ => ?_) fun c => ?_
  · exact setCode_keeps s p _
  split
  · exact setCode_keeps s p _
  · exact .trans (modChannel_keeps_of_same rfl rfl rfl) (setCode_keeps _ p _)

theorem cmdRelease_keeps (p : Port) (v : Word16) (s : State) : s.Keeps (cmdRelease p v s) := by
  unfold cmdRelease
  dsimp only
  refine ownedChannel_keeps (fun _ => ?_) fun c => ?_
  · exact setCode_keeps s p _
  split
  · exact setCode_keeps s p _
  · exact .trans (modChannel_keeps_of_same rfl rfl rfl) (setCode_keeps _ p _)

/-! ### The strip store -/

/-- A slot that is READY or READING takes one of these two states. -/
theorem setSlotState_keeps {s : State} {c : ChannelNo} {i : Nat} {x : Slot} {st : SlotState}
    (hx : (s.getChannel c).store.slots[i]? = some x) (hfilling : x.state ≠ .filling) (hst : st = .ready ∨ st = .reading) :
    s.Keeps (s.modChannel c fun y => { y with store := y.store.setSlotState i st }) :=
  modSlot_keeps rfl rfl rfl (fun h => h.not_filled hx hfilling) (fun _ _ _ => rfl) fun _ _ _ h => by
    rcases hst with rfl | rfl <;> simp at h

/-- The slot that an accepted OPEN SLOT opens is READY (R137). -/
theorem StripStore.openCode_ready {u : StripStore} {slot : Word16} (h : (u.openCode slot).1 = .accepted) :
    ∃ x, u.slots[(u.openCode slot).2]? = some x ∧ x.state = .ready := by
  unfold StripStore.openCode at h ⊢
  split at h
  · cases h
  · next hopen =>
    rw [if_neg hopen]
    split at h
    · next hold =>
      rw [if_pos hold]
      split at h
      · next i hi => simpa only [hi] using StripStore.oldestReady_ready hi
      · cases h
    · next hold =>
      rw [if_neg hold]
      split at h
      · cases h
      · next x hx =>
        split at h
        · next hr => simp only [hr]; exact ⟨x, hx, hr⟩
        · cases h

/-- The open slot is in READING (R131). -/
theorem StripStore.openSlot_reading {u : StripStore} {i : Nat} (h : u.openSlot = some i) :
    ∃ x, u.slots[i]? = some x ∧ x.state = .reading := by
  obtain ⟨hlt, hstate, -⟩ := List.findIdx?_eq_some_iff_getElem.mp h
  exact ⟨_, List.getElem?_eq_getElem hlt, by simpa using hstate⟩

theorem cmdOpenSlot_keeps (p : Port) (v slot : Word16) (s : State) : s.Keeps (cmdOpenSlot p v slot s) := by
  unfold cmdOpenSlot
  dsimp only
  refine ownedChannel_keeps (fun _ => ?_) fun c => ?_
  · exact setCode_keeps s p _
  split
  · exact setCode_keeps s p _
  · split
    · next hcode =>
      obtain ⟨x, hx, hr⟩ := StripStore.openCode_ready hcode
      exact ((setSlotState_keeps hx (by simp [hr]) (.inr rfl)).trans (modPort_keeps _ p _)).trans (setCode_keeps _ p _)
    · exact setCode_keeps s p _

theorem cmdStrip_keeps (p : Port) (c : ChannelNo) (s : State) : s.Keeps (cmdStrip p c s) := by
  unfold cmdStrip
  dsimp only
  split
  · exact accessRead_keeps _ _ _ s
  · split
    · exact accessRead_keeps _ _ _ s
    · split
      · exact overread_keeps p s
      · split
        · exact overread_keeps p s
        · exact (drive_keeps s p _).trans (modChannel_keeps_of_same rfl rfl rfl)

theorem cmdCloseSlot_keeps (p : Port) (v : Word16) (s : State) : s.Keeps (cmdCloseSlot p v s) := by
  unfold cmdCloseSlot
  dsimp only
  refine ownedChannel_keeps (fun _ => ?_) fun c => ?_
  · exact setCode_keeps s p _
  split
  · exact setCode_keeps s p _
  · split
    · exact setCode_keeps s p _
    · next hi =>
      obtain ⟨x, hx, hr⟩ := StripStore.openSlot_reading hi
      exact (setSlotState_keeps hx (by simp [hr]) (.inl rfl)).trans (setCode_keeps _ p _)

theorem cmdReleaseSlot_keeps (p : Port) (v : Word16) (s : State) : s.Keeps (cmdReleaseSlot p v s) := by
  unfold cmdReleaseSlot
  dsimp only
  refine ownedChannel_keeps (fun _ => ?_) fun c => ?_
  · exact setCode_keeps s p _
  split
  · exact setCode_keeps s p _
  · split
    · exact setCode_keeps s p _
    · next hi =>
      obtain ⟨x, hx, hr⟩ := StripStore.openSlot_reading hi
      simp only [hx]
      exact .trans (freeSlot_keeps hx (by simp [hr]) rfl rfl rfl rfl) (setCode_keeps _ p _)

theorem freezeStore_keeps (c : ChannelNo) (s : State) : s.Keeps (freezeStore c s) := by
  unfold freezeStore
  split
  · exact .refl s
  · exact .trans (modChannel_keeps_of_same rfl rfl rfl) (raise_keeps _ _ _)

theorem cmdFreeze_keeps (p : Port) (v : Word16) (s : State) : s.Keeps (cmdFreeze p v s) := by
  unfold cmdFreeze
  dsimp only
  refine ownedChannel_keeps (fun _ => ?_) fun c => ?_
  · exact setCode_keeps s p _
  split
  · exact setCode_keeps s p _
  · exact (freezeStore_keeps c s).trans (setCode_keeps _ p _)

theorem cmdResume_keeps (p : Port) (v : Word16) (s : State) : s.Keeps (cmdResume p v s) := by
  unfold cmdResume
  dsimp only
  refine ownedChannel_keeps (fun _ => ?_) fun c => ?_
  · exact setCode_keeps s p _
  split
  · exact setCode_keeps s p _
  · exact .trans (modChannel_keeps_of_same rfl rfl rfl) (setCode_keeps _ p _)

/-! ### Channels without traffic -/

theorem mem_allContexts (k : Fin 4) : k ∈ allContexts := by revert k; decide

/-- A channel that is configured holds no message, no block in its store, and is filled by no context (R99). -/
theorem State.channelBusy_false {s : State} {c : ChannelNo} (h : s.channelBusy c = false) :
    (s.getChannel c).rx = [] ∧ (∀ x ∈ (s.getChannel c).store.slots, x.state = .empty) ∧
      ∀ (k : Fin 4) (d : Context), s.getContext k = some d → d.channel ≠ c := by
  simp only [State.channelBusy, Bool.or_eq_false_iff, Bool.not_eq_false', List.isEmpty_iff, List.any_eq_false,
    decide_eq_true_eq, Classical.not_not] at h
  obtain ⟨⟨⟨⟨-, hrx⟩, -⟩, hslots⟩, hcontexts⟩ := h
  refine ⟨hrx, hslots, fun k d hd hch => ?_⟩
  have hk : k ∈ s.contextsOn c := List.mem_filter.mpr ⟨mem_allContexts k, by simp [hd, hch]⟩
  rw [hcontexts] at hk
  exact absurd hk List.not_mem_nil

/-- A channel's store whose slots have no blocks and are filled by no context takes other slots like that. -/
theorem newSlots_keeps {s : State} {c : ChannelNo} {f : Channel → Channel}
    (hqueue : (f (s.getChannel c)).queue = (s.getChannel c).queue) (hrx : (f (s.getChannel c)).rx = (s.getChannel c).rx)
    (hold : s.BlocksOk → ∀ x ∈ (s.getChannel c).store.slots, x.blocks = [])
    (hnew : ∀ x ∈ (f (s.getChannel c)).store.slots, x.blocks = [])
    (hfree : ∀ (k : Fin 4) (d : Context), s.getContext k = some d → d.channel ≠ c) : s.Keeps (s.modChannel c f) := by
  refine .of_blocks rfl id fun h => ?_
  have hold := hold h
  rw [State.blocksOk_iff] at h ⊢
  refine ⟨h.1.same rfl fun o _ => State.listed_modChannel_same ?_, fun k d i hd hi => ?_, fun e x hx => ?_⟩
  · cases o with
    | store =>
      have flat (xs : List Slot) (hxs : ∀ x ∈ xs, x.blocks = []) : xs.flatMap Slot.blocks = [] :=
        List.flatMap_eq_nil_iff.mpr hxs
      simp only [Channel.listed, flat _ hold, flat _ hnew]
      exact .refl _
    | _ => simp [Channel.listed, hqueue, hrx]
  · obtain ⟨hx, hother⟩ := h.2.1 k d i hd hi
    refine ⟨?_, hother⟩
    rw [State.modChannel_getChannel, if_neg (hfree k d hd)]
    exact hx
  · rw [State.modChannel_getChannel] at hx
    split at hx
    · exact fun _ => hnew x (by simp_all)
    · exact h.2.2 e x hx

theorem setType_same {x : Channel} (t : ChannelType) (h : x.rx = []) :
    (x.setType t).queue = x.queue ∧ (x.setType t).rx = x.rx ∧ (x.setType t).store.slots = x.store.slots := by
  unfold Channel.setType
  dsimp only
  split
  · exact ⟨rfl, rfl, rfl⟩
  · split <;> split <;> simp [Channel.freshScreen, Channel.clearOutcomes, StripStore.fresh, h]

theorem setOwner_same (x : Channel) (p : Port) :
    (x.setOwner p).queue = x.queue ∧ (x.setOwner p).rx = x.rx ∧ (x.setOwner p).store.slots = x.store.slots := by
  unfold Channel.setOwner
  split <;> exact ⟨rfl, rfl, rfl⟩

/-- A configuration item of a channel without traffic takes a value (R99, R116, R130). -/
theorem setItem_keeps {s : State} {c : ChannelNo} (q : ChannelItem) (n : Nat) (h : s.channelBusy c = false) :
    s.Keeps (s.modChannel c fun x => x.setItem q n) := by
  obtain ⟨hrx, hslots, hcontexts⟩ := State.channelBusy_false h
  cases q with
  | type =>
    obtain ⟨h1, h2, h3⟩ := setType_same (channelTypeOf (ChannelItem.type.stored n)) hrx
    exact modChannel_keeps_of_same (congrArg _ h1) (congrArg _ h2) h3
  | owner =>
    obtain ⟨h1, h2, h3⟩ := setOwner_same (s.getChannel c) (portOf (ChannelItem.owner.stored n))
    exact modChannel_keeps_of_same (congrArg _ h1) (congrArg _ h2) h3
  | storeSize =>
    refine newSlots_keeps rfl rfl (fun hb x hx => ?_) (fun x hx => ?_) hcontexts
    · exact ((s.blocksOk_iff.mp hb).2).2 c x hx (.inl (hslots x hx))
    · rw [List.eq_of_mem_replicate hx]
      rfl
  | _ => exact modChannel_keeps_of_same rfl rfl rfl

theorem cmdChannelConfig_keeps (p : Port) (c : ChannelNo) (q : ChannelItem) (v : Word16) (s : State) :
    s.Keeps (cmdChannelConfig p c q v s) := by
  refine writeByA_keeps ?_
  split
  · exact modCyc_keeps s _
  · next hb =>
    have hb : s.channelBusy c = false := by simpa using hb
    have hitem : s.Keeps ((s.modCyc fun u => { u with configResult := .accepted }).modChannel c fun x =>
        x.setItem q v.toNat) :=
      (modCyc_keeps s _).trans (setItem_keeps q v.toNat hb)
    dsimp only
    split
    · exact hitem.trans (modChan_keeps_of_same rfl rfl)
    · exact hitem

/-! ### The channels of a port that resets -/

theorem resetQueue_keeps (c : ChannelNo) (s : State) : s.Keeps (resetQueue c s) := by
  unfold resetQueue
  dsimp only
  split
  · refine freeBlocks_modChannel_keeps (o := .txq) rfl ?_ (fun q hq => ?_)
      fun hs => hs.of_same rfl (modChannel_slots_same rfl)
    · simp only [Channel.listed, List.flatMap_map, ← List.flatMap_def]
      refine .trans ?_ List.perm_append_comm
      rw [← List.flatMap_append, List.take_append_drop]
    · cases q with
      | txq => exact absurd rfl hq
      | _ => exact .refl _
  · change s.Keeps (idleHead false c (withdraw c (freeBlocks _ (s.modChannel c _))))
    refine .trans (.trans ?_ (withdraw_keeps c _)) (idleHead_keeps false c _)
    refine freeBlocks_modChannel_keeps (o := .txq) rfl ?_ (fun q hq => ?_)
      fun hs => hs.of_same rfl (modChannel_slots_same rfl)
    · simp [Channel.listed, List.flatMap_def]
    · cases q with
      | txq => exact absurd rfl hq
      | _ => exact .refl _

theorem resetRx_keeps (c : ChannelNo) (s : State) : s.Keeps (resetRx c s) := by
  refine freeBlocks_modChannel_keeps (o := .rxq) rfl ?_ (fun q hq => ?_)
    fun hs => hs.of_same rfl (modChannel_slots_same rfl)
  · simp [Channel.listed, List.flatMap_def]
  · cases q with
    | rxq => exact absurd rfl hq
    | _ => exact .refl _

theorem discardContext_getContext (k l : Fin 4) (s : State) :
    (discardContext k s).getContext l = if l = k then none else s.getContext l := by
  unfold discardContext
  split
  · next h =>
    split
    · next hl => rw [hl, h]
    · rfl
  · have hreopen (c : Context) (t : State) : (reopenEntry c t).getContext l = t.getContext l := by
      unfold reopenEntry
      split <;> rfl
    rw [hreopen]
    rw [← State.setContext_getContext]
    split <;> rfl

/-- After a channel's contexts are discarded none is left on it. -/
theorem discardContexts_none (c : ChannelNo) (s : State) (k : Fin 4) (d : Context)
    (h : (discardContexts c s).getContext k = some d) : d.channel ≠ c := by
  have fold (ks : List (Fin 4)) (t : State) :
      (ks.foldl (fun s k => discardContext k s) t).getContext k = if k ∈ ks then none else t.getContext k := by
    induction ks generalizing t with
    | nil => simp
    | cons l ks ih =>
      rw [List.foldl_cons, ih, discardContext_getContext]
      by_cases hk : k = l <;> by_cases hm : k ∈ ks <;> simp [hk, hm]
  unfold discardContexts at h
  rw [fold] at h
  split at h
  · cases h
  · next hk =>
    intro hch
    exact hk (List.mem_filter.mpr ⟨mem_allContexts k, by simp [h, hch]⟩)

theorem resetStore_keeps {c : ChannelNo} {s : State}
    (hfree : ∀ (k : Fin 4) (d : Context), s.getContext k = some d → d.channel ≠ c) : s.Keeps (resetStore c s) := by
  refine freeBlocks_modChannel_keeps (o := .store) rfl ?_ (fun q hq => ?_) fun h => ⟨fun k d i hd hi => ?_, fun e x hx => ?_⟩
  · simp [Channel.listed, List.flatMap_def, Slot.blank, List.map_const']
  · cases q with
    | store => exact absurd rfl hq
    | _ => exact .refl _
  · obtain ⟨hx, hother⟩ := h.1 k d i hd hi
    refine ⟨?_, hother⟩
    rw [State.modChannel_getChannel, if_neg (hfree k d hd)]
    exact hx
  · rw [State.modChannel_getChannel] at hx
    split at hx
    · obtain ⟨_, -, rfl⟩ := List.mem_map.mp hx
      exact fun _ => rfl
    · exact h.2 e x hx

theorem resetChannel_keeps (c : ChannelNo) (s : State) : s.Keeps (resetChannel c s) := by
  refine .trans ?_ (modChannel_keeps_of_same rfl rfl rfl)
  refine .trans (.trans (.trans (resetQueue_keeps c s) (discardContexts_keeps c _)) (resetRx_keeps c _)) ?_
  exact resetStore_keeps fun k d hd => discardContexts_none c (resetQueue c s) k d hd

end Sys2Proof.Machine
end

