-- ==== Sys2Proof/Proofs/TripRules.lean ====
section
/-!
PROOFS. The rules of the trip unit's shared operations: what each leaves as it is, what becomes of the local class and the
ring class view, and that each keeps the invariants of Safety.lean.
-/

namespace Sys2Proof.Machine

/-! ### The highest class -/

theorem TripClass.max_rank (x y : TripClass) : (x.max y).rank = Nat.max x.rank y.rank := by
  cases x <;> cases y <;> rfl

theorem TripClass.eq_instant_of_rank {c : TripClass} (h : TripClass.instant.rank ≤ c.rank) : c = .instant := by
  cases c <;> first | rfl | exact absurd h (by decide)

theorem TripClass.eq_of_rank {c d : TripClass} (h : c.rank = d.rank) : c = d := by
  cases c <;> cases d <;> first | rfl | exact absurd h (by decide)

/-- The highest class is a bound on the classes of the latched sources, and the least one (R79). -/
theorem TripUnit.highest_le_iff (u : TripUnit) (r : Nat) :
    u.highest.rank ≤ r ↔ ∀ n : SourceNo, (u.sources[n.val]).latched = true → (u.sources[n.val]).cls.rank ≤ r := by
  have fold (xs : List Source) (c : TripClass) :
      (xs.foldl (fun c x => if x.latched then c.max x.cls else c) c).rank ≤ r ↔
        c.rank ≤ r ∧ ∀ x ∈ xs, x.latched = true → x.cls.rank ≤ r := by
    induction xs generalizing c with
    | nil => simp
    | cons x xs ih =>
      rw [List.foldl_cons, ih]
      by_cases hx : x.latched = true
      · simp only [hx, if_true, TripClass.max_rank, List.mem_cons, forall_eq_or_imp, true_imp_iff]
        rw [← and_assoc]
        exact and_congr_left fun _ => Nat.max_le
      · simp [hx]
  unfold TripUnit.highest
  rw [fold]
  constructor
  · exact fun ⟨_, h⟩ n => h _ (by simp)
  · refine fun h => ⟨Nat.zero_le _, fun x hx => ?_⟩
    obtain ⟨i, hi, rfl⟩ := Vector.mem_iff_getElem.mp (Vector.mem_toList_iff.mp hx)
    exact h ⟨i, hi⟩

/-- The class of a latched source is at most the highest one. -/
theorem TripUnit.le_highest {u : TripUnit} {n : SourceNo} (h : (u.sources[n.val]).latched = true) :
    (u.sources[n.val]).cls.rank ≤ u.highest.rank :=
  (u.highest_le_iff _).mp (Nat.le_refl _) n h

/-- Two numbers with the same upper bounds are equal. -/
theorem natEq_of_upperBounds {m n : Nat} (h : ∀ r, m ≤ r ↔ n ≤ r) : m = n :=
  Nat.le_antisymm ((h n).mpr (Nat.le_refl n)) ((h m).mp (Nat.le_refl m))

/-- The highest class depends on the latches and on the classes of the latched sources alone. -/
theorem TripUnit.highest_congr {u v : TripUnit}
    (h : ∀ n : SourceNo, (v.sources[n.val]).latched = (u.sources[n.val]).latched ∧
      (v.sources[n.val]).cls = (u.sources[n.val]).cls) : v.highest = u.highest :=
  TripClass.eq_of_rank <| natEq_of_upperBounds fun r => by simp only [TripUnit.highest_le_iff, h]

/-- A change of a source that leaves its latch and its class leaves the highest class. -/
theorem modSource_highest {s : State} {n : SourceNo} {f : Source → Source}
    (hf : ∀ x, (f x).latched = x.latched ∧ (f x).cls = x.cls) : (s.modSource n f).trip.highest = s.trip.highest :=
  TripUnit.highest_congr fun i => by
    change ((s.modSource n f).getSource i).latched = (s.getSource i).latched ∧ ((s.modSource n f).getSource i).cls = _
    rw [State.modSource_getSource]
    split
    · exact hf _
    · exact ⟨rfl, rfl⟩

/-! ### What the parts leave as they are -/

@[simp] theorem leadSync_kept (s : State) :
    (leadSync s).clock = s.clock ∧ (leadSync s).links = s.links ∧ (leadSync s).ring = s.ring ∧ (leadSync s).cyc = s.cyc ∧
    (leadSync s).shafts = s.shafts ∧ (leadSync s).axis = s.axis ∧ (leadSync s).pool = s.pool ∧ (leadSync s).chan = s.chan ∧
    (leadSync s).locks = s.locks ∧ (leadSync s).ports = s.ports ∧ (leadSync s).pending = s.pending := by
  unfold leadSync
  split <;> simp

@[simp] theorem leadSync_trip (s : State) :
    (leadSync s).trip.sources = s.trip.sources ∧ (leadSync s).trip.localClass = s.trip.localClass ∧
    (leadSync s).trip.topSource = s.trip.topSource ∧ (leadSync s).trip.view = s.trip.view ∧
    (leadSync s).trip.list = s.trip.list ∧ (leadSync s).trip.overflows = s.trip.overflows ∧
    (leadSync s).trip.resetNo = s.trip.resetNo ∧ (leadSync s).trip.guard = s.trip.guard ∧
    (leadSync s).trip.tripLeader = s.trip.tripLeader ∧ (leadSync s).trip.stagedReset = s.trip.stagedReset ∧
    (leadSync s).trip.ignored = s.trip.ignored ∧ (leadSync s).trip.requests = s.trip.requests ∧
    (leadSync s).trip.prevIsolated = s.trip.prevIsolated := by
  unfold leadSync
  split <;> simp

@[simp] theorem freezeStore_kept (c : ChannelNo) (s : State) :
    (freezeStore c s).clock = s.clock ∧ (freezeStore c s).links = s.links ∧ (freezeStore c s).ring = s.ring ∧
    (freezeStore c s).cyc = s.cyc ∧ (freezeStore c s).shafts = s.shafts ∧ (freezeStore c s).axis = s.axis ∧
    (freezeStore c s).trip = s.trip ∧ (freezeStore c s).pool = s.pool ∧ (freezeStore c s).locks = s.locks ∧
    (freezeStore c s).pending = s.pending := by
  unfold freezeStore
  split <;> simp

/-- A part of the state that each step of a fold leaves is left by the fold. -/
theorem foldl_left {α β : Type} {f : State → α → State} {part : State → β} (h : ∀ s a, part (f s a) = part s) (xs : List α)
    (s : State) : part (xs.foldl f s) = part s := by
  induction xs generalizing s with
  | nil => rfl
  | cons x xs ih => rw [List.foldl_cons, ih, h]

@[simp] theorem tripFreeze_kept (s : State) :
    (tripFreeze s).clock = s.clock ∧ (tripFreeze s).links = s.links ∧ (tripFreeze s).ring = s.ring ∧
    (tripFreeze s).cyc = s.cyc ∧ (tripFreeze s).shafts = s.shafts ∧ (tripFreeze s).axis = s.axis ∧
    (tripFreeze s).trip = s.trip ∧ (tripFreeze s).pool = s.pool ∧ (tripFreeze s).locks = s.locks ∧
    (tripFreeze s).pending = s.pending := by
  unfold tripFreeze
  refine ⟨?_, ?_, ?_, ?_, ?_, ?_, ?_, ?_, ?_, ?_⟩ <;> refine foldl_left (fun s c => ?_) _ s <;> split <;> simp

@[simp] theorem instantEffects_kept (s : State) :
    (instantEffects s).clock = s.clock ∧ (instantEffects s).links = s.links ∧ (instantEffects s).ring = s.ring ∧
    (instantEffects s).cyc = s.cyc ∧ (instantEffects s).trip = s.trip ∧ (instantEffects s).pool = s.pool ∧
    (instantEffects s).chan = s.chan ∧ (instantEffects s).locks = s.locks ∧ (instantEffects s).ports = s.ports ∧
    (instantEffects s).pending = s.pending := by
  unfold instantEffects axesOff stopShafts
  split <;> simp

@[simp] theorem clearTargets_kept (s : State) :
    (clearTargets s).clock = s.clock ∧ (clearTargets s).links = s.links ∧ (clearTargets s).ring = s.ring ∧
    (clearTargets s).cyc = s.cyc ∧ (clearTargets s).axis = s.axis ∧ (clearTargets s).trip = s.trip ∧
    (clearTargets s).pool = s.pool ∧ (clearTargets s).chan = s.chan ∧ (clearTargets s).locks = s.locks ∧
    (clearTargets s).ports = s.ports ∧ (clearTargets s).pending = s.pending := by
  unfold clearTargets
  simp

/-! ### The view (R84) -/

@[simp] theorem raiseView_kept (c : TripClass) (s : State) :
    (raiseView c s).clock = s.clock ∧ (raiseView c s).links = s.links ∧ (raiseView c s).ring = s.ring ∧
    (raiseView c s).cyc = s.cyc ∧ (raiseView c s).pool = s.pool ∧ (raiseView c s).locks = s.locks ∧
    (raiseView c s).pending = s.pending := by
  unfold raiseView
  dsimp only
  repeat' split
  all_goals simp

@[simp] theorem raiseView_trip (c : TripClass) (s : State) :
    (raiseView c s).trip.sources = s.trip.sources ∧ (raiseView c s).trip.localClass = s.trip.localClass ∧
    (raiseView c s).trip.topSource = s.trip.topSource ∧ (raiseView c s).trip.view = s.trip.view.max c ∧
    (raiseView c s).trip.list = s.trip.list ∧ (raiseView c s).trip.overflows = s.trip.overflows ∧
    (raiseView c s).trip.resetNo = s.trip.resetNo ∧ (raiseView c s).trip.guard = s.trip.guard ∧
    (raiseView c s).trip.tripLeader = s.trip.tripLeader ∧ (raiseView c s).trip.stagedReset = s.trip.stagedReset ∧
    (raiseView c s).trip.ignored = s.trip.ignored ∧ (raiseView c s).trip.requests = s.trip.requests ∧
    (raiseView c s).trip.prevIsolated = s.trip.prevIsolated := by
  unfold raiseView TripClass.max
  dsimp only
  repeat' split
  all_goals simp

/-- A rise to INSTANT puts every axis OFF; nothing else of the view's rise touches the axis unit (R56, R87). -/
theorem raiseView_axis (c : TripClass) (s : State) :
    (raiseView c s).axis = if s.trip.view.rank < c.rank ∧ c = .instant then (axesOff s).axis else s.axis := by
  unfold raiseView
  dsimp only
  split
  · next hr =>
    by_cases hc : c = .instant
    · subst hc
      simp only [hr, true_and, if_true]
      split <;> split <;> simp [instantEffects, axesOff, stopShafts] <;> split <;> simp
    · simp only [hc, and_false, if_false]
      split <;> split <;> simp
  · next hr => rw [if_neg fun h => hr h.1]

/-! ### The trip list -/

theorem addRecord_eq (r : TripRecord) (s : State) :
    addRecord r s = leadSync (s.modTrip fun u =>
      if u.list.any (fun q => q.same s.cyc.address r) then
        { u with list := u.list.map fun q => if q.same s.cyc.address r then { q with cls := q.cls.max r.cls } else q }
      else if u.list.length < 16 then { u with list := u.list ++ [r] }
      else { u with overflows := bump u.overflows }) := rfl

@[simp] theorem addRecord_kept (r : TripRecord) (s : State) :
    (addRecord r s).clock = s.clock ∧ (addRecord r s).links = s.links ∧ (addRecord r s).ring = s.ring ∧
    (addRecord r s).cyc = s.cyc ∧ (addRecord r s).shafts = s.shafts ∧ (addRecord r s).axis = s.axis ∧
    (addRecord r s).pool = s.pool ∧ (addRecord r s).chan = s.chan ∧ (addRecord r s).locks = s.locks ∧
    (addRecord r s).ports = s.ports ∧ (addRecord r s).pending = s.pending := by
  simp [addRecord_eq]

@[simp] theorem addRecord_trip (r : TripRecord) (s : State) :
    (addRecord r s).trip.sources = s.trip.sources ∧ (addRecord r s).trip.localClass = s.trip.localClass ∧
    (addRecord r s).trip.topSource = s.trip.topSource ∧ (addRecord r s).trip.view = s.trip.view ∧
    (addRecord r s).trip.resetNo = s.trip.resetNo ∧ (addRecord r s).trip.guard = s.trip.guard ∧
    (addRecord r s).trip.tripLeader = s.trip.tripLeader ∧ (addRecord r s).trip.stagedReset = s.trip.stagedReset ∧
    (addRecord r s).trip.ignored = s.trip.ignored ∧ (addRecord r s).trip.requests = s.trip.requests ∧
    (addRecord r s).trip.prevIsolated = s.trip.prevIsolated := by
  rw [addRecord_eq]
  simp only [leadSync_trip, State.modTrip_trip]
  repeat' split
  all_goals simp

/-! ### The local class (R79, R80) -/

@[simp] theorem emitFlash_kept (f : TripFlash) (s : State) :
    (emitFlash f s).clock = s.clock ∧ (emitFlash f s).links = s.links ∧ (emitFlash f s).cyc = s.cyc ∧
    (emitFlash f s).shafts = s.shafts ∧ (emitFlash f s).axis = s.axis ∧ (emitFlash f s).trip = s.trip ∧
    (emitFlash f s).pool = s.pool ∧ (emitFlash f s).chan = s.chan ∧ (emitFlash f s).locks = s.locks ∧
    (emitFlash f s).ports = s.ports ∧ (emitFlash f s).pending = s.pending := by
  unfold emitFlash
  split <;> simp

@[simp] theorem recomputeLocal_kept (n : Option SourceNo) (s : State) :
    (recomputeLocal n s).clock = s.clock ∧ (recomputeLocal n s).links = s.links ∧ (recomputeLocal n s).cyc = s.cyc ∧
    (recomputeLocal n s).pool = s.pool ∧ (recomputeLocal n s).locks = s.locks ∧
    (recomputeLocal n s).pending = s.pending := by
  unfold recomputeLocal
  cases n <;> dsimp only <;> repeat' split
  all_goals simp

@[simp] theorem recomputeLocal_trip (n : Option SourceNo) (s : State) :
    (recomputeLocal n s).trip.sources = s.trip.sources ∧ (recomputeLocal n s).trip.localClass = s.trip.highest ∧
    (recomputeLocal n s).trip.topSource = s.trip.topOf s.trip.highest ∧
    (recomputeLocal n s).trip.view = s.trip.view.max s.trip.highest ∧
    (recomputeLocal n s).trip.list = s.trip.list ∧ (recomputeLocal n s).trip.overflows = s.trip.overflows ∧
    (recomputeLocal n s).trip.resetNo = s.trip.resetNo ∧ (recomputeLocal n s).trip.guard = s.trip.guard ∧
    (recomputeLocal n s).trip.tripLeader = s.trip.tripLeader ∧
    (recomputeLocal n s).trip.stagedReset = s.trip.stagedReset ∧ (recomputeLocal n s).trip.ignored = s.trip.ignored ∧
    (recomputeLocal n s).trip.requests = s.trip.requests ∧
    (recomputeLocal n s).trip.prevIsolated = s.trip.prevIsolated := by
  unfold recomputeLocal
  cases n <;> dsimp only <;> repeat' split
  all_goals simp

/-- The view rises to the new local class after the trip unit and, where a source causes a rise, the own frames have taken
it (R79, R80, R84). -/
theorem recomputeLocal_raises (n : Option SourceNo) (s : State) :
    ∃ t, recomputeLocal n s = raiseView s.trip.highest t ∧ t.axis = s.axis ∧ t.shafts = s.shafts ∧ t.chan = s.chan ∧
      t.cyc = s.cyc ∧ t.trip = { s.trip with localClass := s.trip.highest, topSource := s.trip.topOf s.trip.highest } := by
  refine ⟨_, rfl, ?_⟩
  cases n <;> dsimp only <;> repeat' split
  all_goals simp

end Sys2Proof.Machine
end

