-- ==== Sys2Proof/Proofs/TripSafety.lean ====
section
/-!
PROOFS. The trip unit's operations, its commands, the outbox and the path mode keep the invariants of Safety.lean.
-/

namespace Sys2Proof.Machine

/-! ### Changes that touch the trip classes -/

/-- A change from `s` to `t` keeps the queue and every invariant but the one of the trip classes. -/
structure State.KeepsRest (s t : State) : Prop where
  pending : t.pending = s.pending
  memory : s.MemoryOk → t.MemoryOk
  locks : s.LocksOk → t.LocksOk
  axes : s.AxesOk → t.AxesOk
  shafts : s.ShaftsOk → t.ShaftsOk
  blocks : s.BlocksOk → t.BlocksOk

theorem State.Keeps.rest {s t : State} (h : s.Keeps t) : s.KeepsRest t :=
  ⟨h.pending, h.memory, h.locks, h.axes, h.shafts, h.blocks⟩

theorem State.KeepsRest.keeps {s t : State} (h : s.KeepsRest t) (htrips : s.TripsOk → t.TripsOk) : s.Keeps t :=
  ⟨h.pending, h.memory, htrips, h.locks, h.axes, h.shafts, h.blocks⟩

theorem State.KeepsRest.trans {s t u : State} (h : s.KeepsRest t) (k : t.KeepsRest u) : s.KeepsRest u where
  pending := k.pending.trans h.pending
  memory := k.memory ∘ h.memory
  locks := k.locks ∘ h.locks
  axes := k.axes ∘ h.axes
  shafts := k.shafts ∘ h.shafts
  blocks := k.blocks ∘ h.blocks

theorem modTrip_keepsRest (s : State) (f : TripUnit → TripUnit) : s.KeepsRest (s.modTrip f) :=
  ⟨rfl, id, id, id, id, id⟩

theorem ite_keeps {s t u : State} {c : Prop} [Decidable c] (ht : c → s.Keeps t) (hu : ¬c → s.Keeps u) :
    s.Keeps (if c then t else u) := by
  split
  · next h => exact ht h
  · next h => exact hu h

theorem ite_keepsRest {s t u : State} {c : Prop} [Decidable c] (ht : c → s.KeepsRest t) (hu : ¬c → s.KeepsRest u) :
    s.KeepsRest (if c then t else u) := by
  split
  · next h => exact ht h
  · next h => exact hu h

/-! ### Axes and shafts that stop -/

theorem Axis.keeps_toOff (x : Axis) : x.Keeps x.toOff := by
  refine ⟨fun ⟨hr, hd, _, _, hden, _, hhist⟩ => ?_, fun _ => rfl⟩
  exact ⟨hr, hd, by simp [Axis.toOff], by simp [Axis.toOff], hden, by simp [Axis.toOff], hhist⟩

theorem axesOff_getAxis (s : State) (i : AxisNo) :
    (axesOff s).getAxis i = if (s.getAxis i).state = .off then s.getAxis i else (s.getAxis i).toOff := by
  change ((axesOff s).axis.axes)[i.val] = _
  simp only [axesOff, State.modAxisUnit_axis, Vector.getElem_map]
  rfl

theorem axesOff_off (s : State) (i : AxisNo) : ((axesOff s).getAxis i).state = .off := by
  rw [axesOff_getAxis]
  split
  · assumption
  · rfl

theorem axesOff_keeps (s : State) : s.Keeps (axesOff s) :=
  modAxisUnit_keeps fun i => by
    change (s.getAxis i).Keeps ((axesOff s).getAxis i)
    rw [axesOff_getAxis]
    split
    · exact .refl _
    · exact Axis.keeps_toOff _

/-- A change of every shaft alike. -/
theorem mapShafts_keeps {s : State} {f : ShaftUnit → ShaftUnit} {g : Shaft → Shaft}
    (hf : (f s.shafts).shafts = s.shafts.shafts.map g) (hg : ∀ x : Shaft, x.Ok → (g x).Ok) : s.Keeps (s.modShafts f) :=
  modShafts_keeps fun i h => by
    have : (s.modShafts f).getShaft i = g (s.getShaft i) := by simp [State.getShaft, hf]
    rw [this]
    exact hg _ h

theorem velocityOk_zero : velocityOk 0 := by simp [velocityOk]

theorem clearTargets_keeps (s : State) : s.Keeps (clearTargets s) :=
  mapShafts_keeps rfl fun _ h => ⟨h.1, velocityOk_zero⟩

theorem stopShafts_keeps (s : State) : s.Keeps (stopShafts s) :=
  mapShafts_keeps rfl fun _ h => ⟨velocityOk_zero, h.2⟩

theorem shaftsRest_keeps (s : State) : s.Keeps (shaftsRest s) :=
  mapShafts_keeps rfl fun _ _ => ⟨velocityOk_zero, velocityOk_zero⟩

theorem shaftsAttach_keeps (s : State) : s.Keeps (shaftsAttach s) := mapShafts_keeps rfl fun _ h => h

theorem shaftsTakeOver_keeps (s : State) : s.Keeps (shaftsTakeOver s) := mapShafts_keeps rfl fun _ h => ⟨h.1, h.1⟩

theorem instantEffects_keeps (s : State) : s.Keeps (instantEffects s) := by
  unfold instantEffects
  refine .trans ?_ (axesOff_keeps _)
  split
  · exact stopShafts_keeps s
  · exact .refl s

/-! ### The view and the trip list -/

theorem leadSync_keeps (s : State) : s.Keeps (leadSync s) := by
  unfold leadSync
  split
  · exact modTrip_keeps_of_same rfl rfl rfl
  · exact .refl s

theorem tripFreeze_keeps (s : State) : s.Keeps (tripFreeze s) := by
  refine foldl_keeps (fun s c => ?_) _ s
  split
  · exact freezeStore_keeps c s
  · exact .refl s

theorem addRecord_keeps (r : TripRecord) (s : State) : s.Keeps (addRecord r s) := by
  rw [addRecord_eq]
  refine .trans ?_ (leadSync_keeps _)
  refine modTrip_keeps_of_same ?_ ?_ ?_ <;> split <;> first | rfl | (split <;> rfl)

theorem raiseView_keepsRest (c : TripClass) (s : State) : s.KeepsRest (raiseView c s) := by
  unfold raiseView
  extract_lets old t u v
  refine ite_keepsRest (fun _ => ?_) fun _ => (State.Keeps.refl s).rest
  have ht : s.KeepsRest t := (modTrip_keepsRest s _).trans ((leadSync_keeps _).trans (raiseBoth_keeps _ _)).rest
  have hu : t.Keeps u := ite_keeps (fun _ => clearTargets_keeps t) fun _ => .refl t
  have hv : u.Keeps v := ite_keeps (fun _ => instantEffects_keeps u) fun _ => .refl u
  have hw : v.Keeps (if old.rank < 2 ∧ 2 ≤ c.rank then tripFreeze v else v) :=
    ite_keeps (fun _ => tripFreeze_keeps v) fun _ => .refl v
  exact ht.trans ((hu.trans hv).trans hw).rest

/-- After a rise of the view to `c` the trip classes are consistent where the local class is the highest and at most the view
or `c`. -/
theorem raiseView_trips {c : TripClass} {s : State} (hlocal : s.trip.localClass = s.trip.highest)
    (hle : s.trip.localClass.rank ≤ Nat.max s.trip.view.rank c.rank)
    (hoff : s.trip.view = .instant → ∀ i, (s.getAxis i).state = .off) : (raiseView c s).TripsOk := by
  refine ⟨?_, ?_, fun hview i => ?_⟩
  · rw [(raiseView_trip c s).2.1, hlocal]
    exact (TripUnit.highest_congr fun n => by simp).symm
  · simpa [TripClass.max_rank] using hle
  · have axes : ∀ t : State, (raiseView c s).axis = t.axis → ((raiseView c s).getAxis i) = t.getAxis i :=
      fun t h => by unfold State.getAxis; rw [h]
    have hax := raiseView_axis c s
    have hinst : s.trip.view.max c = .instant := by simpa using hview
    by_cases hrise : s.trip.view.rank < c.rank
    · have hc : c = .instant := by simpa [TripClass.max, hrise] using hinst
      rw [if_pos ⟨hrise, hc⟩] at hax
      rw [axes _ hax]
      exact axesOff_off s i
    · have hv : s.trip.view = .instant := by simpa [TripClass.max, hrise] using hinst
      rw [if_neg fun h => hrise h.1] at hax
      rw [axes _ hax]
      exact hoff hv i

theorem raiseView_keeps (c : TripClass) (s : State) : s.Keeps (raiseView c s) :=
  (raiseView_keepsRest c s).keeps fun ⟨hl, hv, ho⟩ => raiseView_trips hl (Nat.le_trans hv (Nat.le_max_left _ _)) ho

/-! ### The local class and the sources -/

theorem emitFlash_keeps (f : TripFlash) (s : State) : s.Keeps (emitFlash f s) := by
  unfold emitFlash
  split
  · exact modRing_keeps s _
  · exact .refl s

theorem recomputeLocal_keepsRest (n : Option SourceNo) (s : State) : s.KeepsRest (recomputeLocal n s) := by
  unfold recomputeLocal
  extract_lets old new t u v
  have ht : s.KeepsRest t := modTrip_keepsRest s _
  have hu : t.Keeps u := ite_keeps (fun _ => .refl t) fun _ => raiseBoth_keeps _ t
  have hv : u.Keeps v := by
    cases n with
    | some n => exact ite_keeps (fun _ => emitFlash_keeps _ u) fun _ => .refl u
    | none => exact .refl u
  exact (ht.trans (hu.trans hv).rest).trans (raiseView_keepsRest new v)

/-- The local class and the view follow any change of the sources (R79, R84). -/
theorem recomputeLocal_trips {n : Option SourceNo} {s : State}
    (hoff : s.trip.view = .instant → ∀ i, (s.getAxis i).state = .off) : (recomputeLocal n s).TripsOk := by
  obtain ⟨t, ht, haxis, -, -, -, htrip⟩ := recomputeLocal_raises n s
  rw [ht]
  have high : t.trip.highest = s.trip.highest := TripUnit.highest_congr fun i => by rw [htrip]; exact ⟨rfl, rfl⟩
  refine raiseView_trips ?_ ?_ fun hv i => ?_
  · rw [high, htrip]
  · rw [htrip]
    exact Nat.le_max_right _ _
  · unfold State.getAxis
    rw [haxis]
    exact hoff (by rwa [htrip] at hv) i

/-- A change of the sources, the local class or the list with the recomputation that follows it. -/
theorem modTrip_recompute_keeps {s : State} {f : TripUnit → TripUnit} (n : Option SourceNo)
    (hview : (f s.trip).view = s.trip.view) : s.Keeps (recomputeLocal n (s.modTrip f)) :=
  ((modTrip_keepsRest s f).trans (recomputeLocal_keepsRest n _)).keeps fun ⟨_, _, ho⟩ =>
    recomputeLocal_trips fun hv i => ho (hview ▸ hv) i

theorem latch_keeps (n : SourceNo) (s : State) : s.Keeps (latch n s) := by
  unfold latch
  dsimp only
  refine State.KeepsRest.keeps ?_ fun ⟨_, _, ho⟩ => recomputeLocal_trips fun hv i => ?_
  · exact ((modTrip_keepsRest s _).trans (addRecord_keeps _ _).rest).trans (recomputeLocal_keepsRest _ _)
  · simp only [addRecord_trip, State.modSource_trip] at hv
    simpa [State.getAxis] using ho hv i

theorem modSource_keeps {s : State} {n : SourceNo} {f : Source → Source}
    (hf : ∀ x, (f x).latched = x.latched ∧ (f x).cls = x.cls) : s.Keeps (s.modSource n f) :=
  modTrip_keeps (modSource_highest hf) rfl rfl

theorem latchIfEnabled_keeps (n : SourceNo) (s : State) : s.Keeps (latchIfEnabled n s) := by
  unfold latchIfEnabled
  split
  · exact latch_keeps n s
  · exact .refl s

theorem raisePulse_keeps (n : SourceNo) (s : State) : s.Keeps (raisePulse n s) :=
  (modSource_keeps (f := fun x => { x with raises := bump x.raises }) fun _ => ⟨rfl, rfl⟩).trans (latchIfEnabled_keeps n _)

theorem conditionAppears_keeps (n : SourceNo) (s : State) : s.Keeps (conditionAppears n s) :=
  (modSource_keeps (f := fun x => { x with present := true }) fun _ => ⟨rfl, rfl⟩).trans (latchIfEnabled_keeps n _)

theorem conditionGoes_keeps (n : SourceNo) (s : State) : s.Keeps (conditionGoes n s) :=
  modSource_keeps fun _ => ⟨rfl, rfl⟩

/-- A class written for a source that is not latched changes no highest class; one for a latched source recomputes (R75). -/
theorem setSourceClass_keeps (n : SourceNo) (c : TripClass) (s : State) : s.Keeps (setSourceClass n c s) := by
  unfold setSourceClass
  dsimp only
  split
  · exact modTrip_recompute_keeps _ rfl
  · next hlatch =>
    refine modTrip_keeps ?_ rfl rfl
    refine TripClass.eq_of_rank (natEq_of_upperBounds fun r => ?_)
    change (s.modSource n _).trip.highest.rank ≤ r ↔ _
    simp only [TripUnit.highest_le_iff]
    refine forall_congr' fun i => ?_
    change (((s.modSource n _).getSource i).latched = true → ((s.modSource n _).getSource i).cls.rank ≤ r) ↔
      ((s.getSource i).latched = true → (s.getSource i).cls.rank ≤ r)
    rw [State.modSource_getSource]
    split
    · next hi =>
      subst hi
      have : (s.getSource i).latched = false := by simpa using hlatch
      simp [this]
    · rfl

/-! ### Frames and resets -/

theorem takeFlash_keeps (o : Nat) (f : TripFlash) (s : State) : s.Keeps (takeFlash o f s) := by
  unfold takeFlash
  split
  · exact modTrip_keeps_of_same rfl rfl rfl
  · exact (raiseView_keeps _ s).trans (addRecord_keeps _ _)

theorem takeStatusTrip_keeps (o : Nat) (b : StatusBody) (s : State) : s.Keeps (takeStatusTrip o b s) := by
  unfold takeStatusTrip
  dsimp only
  split
  · exact modTrip_keeps_of_same rfl rfl rfl
  · split
    · exact .refl s
    · split
      · exact (raiseView_keeps _ s).trans (addRecord_keeps _ _)
      · exact raiseView_keeps _ s

/-- A trip reset clears latches and sets none, so the highest class falls or stays (R89). -/
theorem atReset_highest (u : TripUnit) :
    ({ u with sources := u.sources.map Source.atReset } : TripUnit).highest.rank ≤ u.highest.rank := by
  rw [TripUnit.highest_le_iff]
  intro n hn
  simp only [Vector.getElem_map, Source.atReset, Bool.and_eq_true] at hn ⊢
  exact TripUnit.le_highest hn.1.1

/-- What a trip reset leaves in the trip unit (R89). -/
theorem applyReset_trip (number : BitVec 8) (cycle : Cycle) (s : State) :
    (applyReset number cycle s).trip.sources = s.trip.sources.map Source.atReset ∧
    (applyReset number cycle s).trip.localClass = (applyReset number cycle s).trip.highest ∧
    (applyReset number cycle s).trip.view = (applyReset number cycle s).trip.highest ∧
    (applyReset number cycle s).trip.topSource =
      (applyReset number cycle s).trip.topOf (applyReset number cycle s).trip.highest := by
  unfold applyReset
  extract_lets oldLocal oldView t u cls v w x
  have hw : w.trip = v.trip := by unfold w; split <;> simp
  have hx : x.trip = w.trip := by unfold x; (repeat' split) <;> simp
  have high : (x.modTrip fun u => { u with resetNo := number, guard := some { cycle := cycle, left := 4 } }).trip.highest =
      cls := TripUnit.highest_congr fun n => by simp [hx, hw, v]
  refine ⟨?_, ?_, ?_, ?_⟩
  · simp [hx, hw, v, u, t]
  · rw [high]
    simp [hx, hw, v]
  · rw [high]
    simp [hx, hw, v]
  · rw [high]
    simp [hx, hw, v, TripUnit.topOf]

@[simp] theorem applyReset_kept (number : BitVec 8) (cycle : Cycle) (s : State) :
    (applyReset number cycle s).clock = s.clock ∧ (applyReset number cycle s).links = s.links ∧
    (applyReset number cycle s).cyc = s.cyc ∧ (applyReset number cycle s).shafts = s.shafts ∧
    (applyReset number cycle s).axis = s.axis ∧ (applyReset number cycle s).pool = s.pool ∧
    (applyReset number cycle s).chan = s.chan ∧ (applyReset number cycle s).locks = s.locks ∧
    (applyReset number cycle s).pending = s.pending := by
  unfold applyReset
  dsimp only
  repeat' split
  all_goals simp

theorem applyReset_keeps (number : BitVec 8) (cycle : Cycle) (s : State) : s.Keeps (applyReset number cycle s) := by
  refine State.KeepsRest.keeps ?_ fun ⟨hl, hv, ho⟩ => ?_
  · unfold applyReset
    extract_lets oldLocal oldView t u cls v w x
    have hv : s.KeepsRest v :=
      (((modTrip_keepsRest s _).trans (modTrip_keepsRest t _)).trans (modTrip_keepsRest u _)).trans (leadSync_keeps _).rest
    have hw : v.Keeps w := ite_keeps (fun _ => .refl v) fun _ => raiseBoth_keeps _ v
    have hx : w.Keeps x := by
      unfold x
      split
      · exact ite_keeps (fun _ => .refl w) fun _ => emitFlash_keeps _ w
      · exact .refl w
    exact (hv.trans (hw.trans hx).rest).trans (modTrip_keepsRest x _)
  · obtain ⟨hsrc, hlocal, hview, -⟩ := applyReset_trip number cycle s
    refine ⟨hlocal, Nat.le_of_eq (by rw [hlocal, hview]), fun hi i => ?_⟩
    have same : (applyReset number cycle s).trip.highest =
        ({ s.trip with sources := s.trip.sources.map Source.atReset } : TripUnit).highest :=
      TripUnit.highest_congr fun n => by rw [hsrc]; exact ⟨rfl, rfl⟩
    have high : (applyReset number cycle s).trip.highest.rank ≤ s.trip.highest.rank := same ▸ atReset_highest s.trip
    have : s.trip.view = .instant := TripClass.eq_instant_of_rank <|
      calc TripClass.instant.rank = (applyReset number cycle s).trip.highest.rank := by rw [← hview, hi]
        _ ≤ s.trip.localClass.rank := hl ▸ high
        _ ≤ _ := hv
    simpa [State.getAxis] using ho this i

theorem takeTripFields_keeps (c : CycleStart) (s : State) : s.Keeps (takeTripFields c s) := by
  unfold takeTripFields
  dsimp only
  refine .trans (.trans (.trans ?_ (modTrip_keeps_of_same rfl rfl rfl)) (raiseView_keeps _ _))
    (modTrip_keeps_of_same rfl rfl rfl)
  repeat' split
  · exact modTrip_keeps_of_same rfl rfl rfl
  · exact applyReset_keeps _ _ _
  · exact .refl s

theorem guardTick_keeps (s : State) : s.Keeps (guardTick s) := modTrip_keeps_of_same rfl rfl rfl

theorem dropStagedReset_keeps (s : State) : s.Keeps (dropStagedReset s) := modTrip_keeps_of_same rfl rfl rfl

theorem applyStagedReset_keeps (s : State) : s.Keeps (applyStagedReset s) := by
  unfold applyStagedReset
  split
  · refine .trans ?_ (applyReset_keeps _ _ _)
    exact modTrip_keeps_of_same rfl rfl rfl
  · exact .refl s

theorem isolationTest_keeps (s : State) : s.Keeps (isolationTest s) := by
  unfold isolationTest
  dsimp only
  refine .trans ?_ (modTrip_keeps_of_same rfl rfl rfl)
  split
  · exact raisePulse_keeps _ _
  · exact .refl s

/-! ### Port commands of the trip unit -/

theorem cmdSourceClass_keeps (p : Port) (n : SourceNo) (v : Word16) (s : State) : s.Keeps (cmdSourceClass p n v s) :=
  writeByA_keeps <| by
    split
    · exact setSourceClass_keeps _ _ s
    · exact refuseWord_keeps _ _ _ s

theorem cmdSourceEnable_keeps (p : Port) (n : SourceNo) (v : Word16) (s : State) : s.Keeps (cmdSourceEnable p n v s) :=
  writeByA_keeps <| by
    extract_lets t
    have ht : s.Keeps t := modSource_keeps fun _ => ⟨rfl, rfl⟩
    exact ht.trans (ite_keeps (fun _ => latchIfEnabled_keeps n t) fun _ => .refl t)

theorem cmdTripRequest_keeps (p : Port) (s : State) : s.Keeps (cmdTripRequest p s) := by
  unfold cmdTripRequest
  extract_lets t u
  have ht : s.Keeps t := setCode_keeps s p _
  have hu : t.Keeps u := modTrip_keeps_of_same rfl rfl rfl
  exact (ht.trans hu).trans (ite_keeps (fun _ => .refl u) fun _ => conditionAppears_keeps _ u)

theorem cmdTripRelease_keeps (p : Port) (s : State) : s.Keeps (cmdTripRelease p s) := by
  unfold cmdTripRelease
  refine .trans ?_ (conditionGoes_keeps _ _)
  refine .trans (setCode_keeps s p fun c => { c with tripRelease := .accepted }) ?_
  exact modTrip_keeps_of_same rfl rfl rfl

theorem cmdTripReset_keeps (p : Port) (s : State) : s.Keeps (cmdTripReset p s) := by
  unfold cmdTripReset
  split
  · refine .trans (setCode_keeps s p fun c => { c with tripReset := .accepted }) ?_
    exact modTrip_keeps_of_same rfl rfl rfl
  · exact setCode_keeps s p _

theorem cmdLocalClear_keeps (p : Port) (s : State) : s.Keeps (cmdLocalClear p s) :=
  writeByA_keeps <| (setCode_keeps s .a _).trans (modTrip_recompute_keeps _ rfl)

/-! ### The outbox and the path mode -/

theorem setOutbox_keeps (new : List OutboxEntry) (s : State) : s.Keeps (setOutbox new s) := by
  unfold setOutbox
  extract_lets old t u
  have ht : s.Keeps t := modAxisUnit_keeps_of_same rfl
  have hu : t.Keeps u := ite_keeps (fun _ => raise_keeps _ _ t) fun _ => .refl t
  exact (ht.trans hu).trans (ite_keeps (fun _ => raise_keeps _ _ u) fun _ => .refl u)

theorem outboxAtStatus_keeps (s : State) : s.Keeps (outboxAtStatus s).2 := by
  unfold outboxAtStatus
  extract_lets lost t placed
  have ht : s.Keeps t := setOutbox_keeps lost s
  have hu : t.Keeps (t.modAxisUnit fun u => { u with outbox := placed }) := modAxisUnit_keeps_of_same rfl
  exact ht.trans hu

theorem ownStatusBack_keeps (b : StatusBody) (s : State) : s.Keeps (ownStatusBack b s) := setOutbox_keeps _ s

theorem drainLoop_keeps (s : State) : s.Keeps (drainLoop s) := by
  unfold drainLoop
  dsimp only
  refine .trans (modRing_keeps s fun u => { u with ownFlash := [], ownCycleStart := none, ownStatus := none }) ?_
  repeat' split
  · exact ownStatusBack_keeps _ _
  · exact .refl _
  · exact .refl _

theorem setMode_keeps (m : PathMode) (s : State) : s.Keeps (setMode m s) := by
  rw [setMode_eq]
  have start : s.Keeps (raiseBoth .ring (s.modRing fun u => { u with mode := m })) :=
    (modRing_keeps s _).trans (raiseBoth_keeps _ _)
  repeat' split
  · exact .refl s
  · exact (start.trans (withdrawAny_keeps _)).trans (drainLoop_keeps _)
  · exact start

theorem emitCycleStart_keeps (c : CycleStart) (s : State) : s.Keeps (emitCycleStart c s) := by
  unfold emitCycleStart
  split
  · exact .refl s
  · exact modRing_keeps s _

theorem emitStatus_keeps (b : StatusBody) (s : State) : s.Keeps (emitStatus b s) := by
  unfold emitStatus
  split
  · exact ownStatusBack_keeps b s
  · exact modRing_keeps s _

theorem linkDrop_keeps (d : Side) (r : DownReason) (s : State) : s.Keeps (linkDrop d r s) := by
  unfold linkDrop
  dsimp only
  split
  · exact ((modLink_keeps s d _).trans (modRing_keeps _ _)).trans (setMode_keeps _ _)
  · exact modLink_keeps s d _

theorem forward_keeps (d : Side) (t : RxTime) (f : Frame) (s : State) : s.Keeps (forward d t f s) := by
  unfold forward
  dsimp only
  repeat' split
  · exact modRing_keeps s _
  · exact modLink_keeps s d _
  · exact modRing_keeps s _
  · exact modRing_keeps s _

theorem forwardProcessed_keeps (t : RxTime) (f : Frame) (s : State) : s.Keeps (forwardProcessed t f s) := by
  unfold forwardProcessed
  split
  · exact forward_keeps _ t f s
  · exact .refl s

theorem sendOn_keeps (d : Side) (w : WireFrame) (s : State) : s.Keeps (sendOn d w s) := modLink_keeps s d _

theorem serveRest_keeps (d : Side) (own : Bool) (now : Nat) (s : State) : s.Keeps (serveRest d own now s) := by
  unfold serveRest
  split
  · exact (modRing_keeps s _).trans (sendOn_keeps _ _ _)
  · split
    · exact (modRing_keeps s _).trans (sendOn_keeps _ _ _)
    · split
      · exact (startOffered_keeps _ s).trans (sendOn_keeps _ _ _)
      · exact sendOn_keeps _ _ s
    · exact sendOn_keeps _ _ s

theorem outputIdle_keeps (d : Side) (now : Nat) (s : State) : s.Keeps (outputIdle d now s) := by
  unfold outputIdle serve
  repeat' split
  · exact .refl s
  · exact (modRing_keeps s _).trans (sendOn_keeps _ _ _)
  · exact (modRing_keeps s _).trans (sendOn_keeps _ _ _)
  · exact serveRest_keeps _ _ _ s
  · exact sendOn_keeps _ _ s

end Sys2Proof.Machine
end

