-- ==== Sys2Proof/Proofs/MotionSafety.lean ====
section
/-!
PROOFS. The shafts and the axes stay within their bounds: the generator, the replica and the frames it takes, gearing and
slews, plan changes, publications, corrections, and the port commands of the line-shaft unit and the axis unit.
-/

namespace Sys2Proof.Machine

/-! ### One shaft -/

theorem ramp_velocityOk {v target : Int} (hv : velocityOk v) (ht : velocityOk target) (limit : Nat) :
    velocityOk (ramp v target limit) := by
  have := ramp_between v target limit
  unfold velocityOk at *
  omega

theorem Shaft.generatorVel_ok {x : Shaft} (h : x.Ok) (view : TripClass) : velocityOk (x.generatorVel view) := by
  cases view with
  | none => exact ramp_velocityOk h.1 h.2 _
  | notice => exact ramp_velocityOk h.1 h.2 _
  | stop => exact ramp_velocityOk h.1 velocityOk_zero _
  | quick => exact ramp_velocityOk h.1 velocityOk_zero _
  | instant => exact velocityOk_zero

theorem Shaft.extrapolateVel_ok {x : Shaft} (h : x.Ok) (down : Bool) (view : TripClass) :
    velocityOk (x.extrapolateVel down view) := by
  unfold Shaft.extrapolateVel
  repeat' split
  · exact velocityOk_zero
  · exact ramp_velocityOk h.1 velocityOk_zero _
  · exact h.1

theorem Shaft.take_ok {x : Shaft} {f : ShaftSample} (h : x.Ok) (hf : f.inRange = true) : (x.take f).Ok :=
  have hv : velocityOk f.vel := by simpa [ShaftSample.inRange, velocityOk] using hf
  ⟨hv, h.2⟩

/-- The frame whose values a movement of the shafts takes, if any, has its shafts in range (R170). -/
def ShaftWork.InRange : ShaftWork → Prop
  | .generate => True
  | .extrapolate => True
  | .takeFirst c => c.inRange = true
  | .take c => c.inRange = true
  | .resync c => c.inRange = true

theorem CycleStart.shaft_inRange {c : CycleStart} (h : c.inRange = true) (i : ShaftNo) :
    (c.shafts[i.val]).inRange = true := by
  simp only [CycleStart.inRange, Bool.and_eq_true, List.all_eq_true] at h
  exact h.1.2 _ (by simp)

theorem ShaftWork.shaft_ok {w : ShaftWork} (hw : w.InRange) (down : Bool) (view : TripClass) (window : Nat) (i : ShaftNo)
    {x : Shaft} (h : x.Ok) : (w.shaft down view window i x).Ok := by
  have taken {c : CycleStart} (hc : c.inRange = true) : (x.take c.shafts[i.val]).Ok :=
    Shaft.take_ok h (CycleStart.shaft_inRange hc i)
  cases w with
  | generate => exact ⟨Shaft.generatorVel_ok h view, h.2⟩
  | extrapolate => exact ⟨Shaft.extrapolateVel_ok h down view, h.2⟩
  | takeFirst c => exact ⟨(taken hw).1, (taken hw).2⟩
  | take c => exact taken hw
  | resync c => exact ⟨(taken hw).1, (taken hw).2⟩

theorem moveShafts_keeps {w : ShaftWork} (hw : w.InRange) (s : State) : s.Keeps (moveShafts w s) :=
  .of_shafts (moveShafts_eq w s) fun i h => by
    have : (moveShafts w s).getShaft i =
        w.shaft s.cyc.runningDown s.trip.view s.shafts.resyncWindow i (s.getShaft i) := by
      simp [moveShafts, State.getShaft]
    rw [this]
    exact ShaftWork.shaft_ok hw _ _ _ i h

theorem modShaft_keeps {s : State} {i : ShaftNo} {f : Shaft → Shaft} (h : ∀ x : Shaft, x.Ok → (f x).Ok) :
    s.Keeps (s.modShaft i f) :=
  modShafts_keeps fun j hj => by
    change ((s.modShaft i f).getShaft j).Ok
    rw [State.modShaft_getShaft]
    split
    · exact h _ hj
    · exact hj

theorem modShafts_keeps_of_same {s : State} {f : ShaftUnit → ShaftUnit} (h : (f s.shafts).shafts = s.shafts.shafts) :
    s.Keeps (s.modShafts f) :=
  mapShafts_keeps (g := id) (by simp [h]) fun _ h => h

theorem targetOf_ok (v : BitVec 48) : velocityOk (targetOf v) := clampInt_range _ _ (by decide)

theorem cmdTargetVelocity_keeps (p : Port) (i : ShaftNo) (v : BitVec 48) (s : State) :
    s.Keeps (cmdTargetVelocity p i v s) :=
  writeByA_keeps <| by
    extract_lets t
    have ht : s.Keeps t := modShaft_keeps fun _ h => ⟨h.1, targetOf_ok v⟩
    exact ht.trans (ite_keeps (fun _ => .refl t) fun _ => modShafts_keeps_of_same rfl)

theorem cmdShaftLimit_keeps (p : Port) (i : ShaftNo) (l : ShaftLimit) (v : BitVec 32) (s : State) :
    s.Keeps (cmdShaftLimit p i l v s) :=
  writeByA_keeps <| by
    extract_lets t
    have ht : s.Keeps t := modShaft_keeps fun _ h => by cases l <;> exact h
    exact ht.trans (ite_keeps (fun _ => .refl t) fun _ => modShafts_keeps_of_same rfl)

theorem cmdResyncWindow_keeps (p : Port) (v : BitVec 32) (s : State) : s.Keeps (cmdResyncWindow p v s) :=
  writeByA_keeps (modShafts_keeps_of_same rfl)

theorem dropFaulted_keeps (a : AxisNo) (s : State) : s.Keeps (dropFaulted a s) :=
  ite_keeps (fun _ => (modAxis_keeps (Axis.keeps_toOff _)).trans (raisePulse_keeps _ _)) fun _ => .refl s

theorem dropAllFaulted_keeps (s : State) : s.Keeps (dropAllFaulted s) := foldl_keeps (fun s a => dropFaulted_keeps a s) _ s

/-! ### One axis -/

/-- A change of an axis that leaves what its bounds are about. -/
theorem Axis.Keeps.of_same {x y : Axis} (hentries : y.entries = x.entries) (hwork : y.work = x.work) (hr : y.r = x.r)
    (hcp : y.cp = x.cp) (hrun : y.run = x.run) (hhist : y.history = x.history) (hstate : y.state = x.state) :
    x.Keeps y := by
  refine ⟨fun h => ?_, fun h => hstate.trans h⟩
  unfold Axis.Ok at *
  rw [hentries, hwork, hr, hcp, hrun, hhist]
  exact h

theorem Axis.keeps_gear (x : Axis) (dTheta : Int) : x.Keeps (x.gear dTheta) := by
  refine ⟨fun ⟨hr, hd, hrest⟩ => ⟨?_, ?_, hrest⟩, fun h => h⟩
  · exact Int.emod_nonneg _ (by omega)
  · exact Int.emod_lt_of_pos _ (by omega)

theorem Axis.keeps_slewBy (x : Axis) (limit : Nat) : x.Keeps (x.slewBy limit) := by
  refine ⟨fun ⟨hr, hd, hlo, hhi, hrest⟩ => ⟨hr, hd, ?_, ?_, hrest⟩, fun h => h⟩ <;>
    · simp only [Axis.slewBy, clampInt]
      repeat' split
      all_goals omega

theorem Axis.keeps_slew (x : Axis) : x.Keeps x.slew := by
  unfold Axis.slew
  split
  · next hs =>
    have := x.keeps_slewBy x.engageSlew
    dsimp only
    split
    · exact ⟨this.1, fun h => by rw [hs] at h; cases h⟩
    · exact this
  · exact x.keeps_slewBy _
  · exact .refl x
  · exact .refl x

theorem Axis.keeps_rampDown (x : Axis) : x.Keeps x.rampDown := by
  unfold Axis.rampDown
  extract_lets u y
  have hy : x.Keeps y := .of_same rfl rfl rfl rfl rfl rfl rfl
  split
  · exact hy.trans y.keeps_toOff
  · exact hy

theorem Axis.toDisengaging_ok {x : Axis} (h : x.Ok) : x.toDisengaging.Ok := by
  obtain ⟨hr, hd, _, _, hden, _, hhist⟩ := h
  exact ⟨hr, hd, by simp [Axis.toDisengaging], by simp [Axis.toDisengaging], hden, by simp [Axis.toDisengaging], hhist⟩

theorem Axis.engageFrom_ok {x : Axis} (h : x.Ok) (start : Pos) {e : PlanEntry} (he : 1 ≤ e.den) (theta : Pos) :
    (x.engageFrom start e theta).Ok := by
  obtain ⟨_, _, _, _, hden, _, hhist⟩ := h
  refine ⟨?_, ?_, ?_, ?_, hden, Nat.zero_le _, hhist⟩
  · exact Int.emod_nonneg _ (by omega)
  · exact Int.emod_lt_of_pos _ (by omega)
  · have := shortestPath_range (((toPos ((theta.toNat : Int) * e.num / (e.den : Int))).toNat : Int) + e.phase - start.toNat)
    simp only [Axis.engageFrom]
    omega
  · exact (shortestPath_range _).2

theorem Axis.meetPlan_ok {x : Axis} (h : x.Ok) {e : PlanEntry} (he : 1 ≤ e.den) (theta : Pos) : (x.meetPlan e theta).Ok := by
  unfold Axis.meetPlan
  repeat' split
  · exact Axis.toDisengaging_ok h
  · obtain ⟨_, _, _, _, hrest⟩ := h
    have range := clampInt_range (x.cp + shortestPath ((e.phase : Int) - x.work.phase)) 524288 (by decide)
    exact ⟨Int.le_refl _, by simp [PlanEntry.working]; omega, range.1, range.2, hrest⟩
  · exact Axis.engageFrom_ok h _ he _

theorem Axis.keeps_followCheck (x : Axis) : x.Keeps x.followCheck := by
  unfold Axis.followCheck
  repeat' split
  · refine ⟨fun ⟨hr, hd, hlo, hhi, hden, _, hhist⟩ => ⟨hr, hd, hlo, hhi, hden, ?_, hhist⟩, fun h => h⟩
    dsimp only
    split <;> omega
  · exact .refl x
  · exact .of_same rfl rfl rfl rfl rfl rfl rfl
  · exact .refl x

theorem pushBounded_length {α : Type} (xs : List α) (x : α) {n : Nat} (h : xs.length ≤ n) :
    (pushBounded xs x n).length ≤ n := by
  simp only [pushBounded, List.length_drop, List.length_append, List.length_singleton]
  omega

theorem Axis.keeps_published (x : Axis) (previous : Pos) : x.Keeps (x.published previous) := by
  refine x.keeps_followCheck.trans ⟨fun ⟨hr, hd, hlo, hhi, hden, hrun, hhist⟩ => ?_, fun h => h⟩
  exact ⟨hr, hd, hlo, hhi, hden, hrun, pushBounded_length _ _ hhist⟩

theorem Axis.keeps_correct (x : Axis) (delta : Int) : x.Keeps (x.correct delta).2 := by
  unfold Axis.correct
  split
  · exact .refl x
  split
  · exact .refl x
  split
  · next hin => exact ⟨fun ⟨hr, hd, _, _, hrest⟩ => ⟨hr, hd, hin.1, hin.2, hrest⟩, fun h => h⟩
  · have range := clampInt_range (x.cp + delta) 524288 (by decide)
    exact ⟨fun ⟨hr, hd, _, _, hrest⟩ => ⟨hr, hd, range.1, range.2, hrest⟩, fun h => h⟩

/-! ### The axis unit at a cycle event -/

/-- A change of an axis that is out of OFF may take it to any state, under a view below INSTANT or not: the view is INSTANT
only while it is OFF. -/
theorem modAxis_keeps_active {s : State} {i : AxisNo} {f : Axis → Axis} (hactive : (s.getAxis i).state ≠ .off)
    (hok : (s.getAxis i).Ok → (f (s.getAxis i)).Ok) : s.Keeps (s.modAxis i f) :=
  modAxis_keeps ⟨hok, fun h => absurd h hactive⟩

theorem meetPlanChange_keeps {i : AxisNo} {s : State} (hactive : (s.getAxis i).state ≠ .off) :
    s.Keeps (meetPlanChange i s) := by
  unfold meetPlanChange
  extract_lets e t
  have ht : s.Keeps t := modAxis_keeps_active hactive fun h => Axis.meetPlan_ok h (h.2.2.2.2.1 _) _
  exact ht.trans (ite_keeps (fun _ => .refl t) fun _ => raisePulse_keeps 11 t)

theorem gearAxis_keeps (switched : Bool) {i : AxisNo} {s : State} (hactive : (s.getAxis i).state ≠ .off) :
    s.Keeps (gearAxis switched i s) := by
  unfold gearAxis
  extract_lets dTheta t u
  refine ite_keeps (fun _ => ?_) fun _ => ?_
  · exact (modAxis_keeps (Axis.keeps_toOff _)).trans (raisePulse_keeps _ _)
  · have ht : s.Keeps t := modAxis_keeps (Axis.keeps_gear _ _)
    have hu : t.Keeps u := ite_keeps (fun _ => meetPlanChange_keeps (by simpa [t, Axis.gear] using hactive)) fun _ => .refl t
    exact (ht.trans hu).trans (modAxis_keeps (Axis.keeps_slew _))

theorem advanceAxis_keeps (switched : Bool) (i : AxisNo) (s : State) : s.Keeps (advanceAxis switched i s) := by
  unfold advanceAxis
  split
  · exact .refl s
  · exact modAxis_keeps (Axis.keeps_rampDown _)
  · next h => exact gearAxis_keeps switched (by simp [h])
  · next h => exact gearAxis_keeps switched (by simp [h])

theorem publish_keeps (s : State) : s.Keeps (publish s) := by
  unfold publish
  extract_lets t u
  have ht : s.Keeps t := modAxisUnit_keeps fun i => by
    have : (s.modAxisUnit fun u => u.publish s.cyc.cycle).getAxis i =
        (s.getAxis i).published (s.axis.live.axes[i.val]).p := by simp [State.getAxis, AxisUnit.publish]
    rw [this]
    exact Axis.keeps_published _ _
  have hu : t.Keeps u := ite_keeps (fun _ => raisePulse_keeps 12 t) fun _ => .refl t
  refine (ht.trans hu).trans (foldl_keeps (fun v a => ?_) _ u)
  exact ite_keeps (fun _ => raisePulse_keeps _ v) fun _ => .refl v

theorem axisWork_keeps (switched : Bool) (s : State) : s.Keeps (axisWork switched s) :=
  (foldl_keeps (fun s i => advanceAxis_keeps switched i s) _ s).trans (publish_keeps _)

/-! ### Corrections -/

theorem applyCorrection_keeps (n : Nat) (delta : Int) (s : State) : s.Keeps (applyCorrection n delta s).2 := by
  unfold applyCorrection
  split
  · exact .refl s
  · exact modAxis_keeps (Axis.keeps_correct _ _)

theorem cmdCorrectionPost_keeps (p : Port) (s : State) : s.Keeps (cmdCorrectionPost p s) := by
  unfold cmdCorrectionPost
  extract_lets w delta t u r
  have ht : s.Keeps t := setCode_keeps s p _
  have hu : t.Keeps u := ite_keeps (fun _ => .refl t) fun _ => modAxisUnit_keeps_of_same rfl
  refine ite_keeps (fun _ => setCode_keeps s p _) fun _ => ?_
  refine ite_keeps (fun _ => setCode_keeps s p _) fun _ => (ht.trans hu).trans ?_
  refine ite_keeps (fun _ => ?_) fun _ => modAxisUnit_keeps_of_same rfl
  have hr : u.Keeps r.2 := applyCorrection_keeps _ _ u
  exact .trans (hr.trans (modAxisUnit_keeps_of_same rfl)) (raise_keeps p .corr _)

theorem cmdCorrectionResultRead_keeps (p : Port) (s : State) : s.Keeps (cmdCorrectionResultRead p s) := by
  unfold cmdCorrectionResultRead
  split
  · refine .trans ?_ (drivePair_keeps _ _ _ _ _)
    exact .trans (modAxisUnit_keeps_of_same rfl) (modPort_keeps _ _ _)
  · exact (modPort_keeps s p _).trans (driveNat_keeps _ _ _)

theorem applyEntries_keeps (own : Option Nat) (es : List CorrEntry) (s : State) : s.Keeps (applyEntries own es s).2 := by
  induction es generalizing s with
  | nil => exact .refl s
  | cons e es ih =>
    unfold applyEntries
    split
    · exact (applyCorrection_keeps _ _ s).trans (ih _)
    · exact ih s

/-! ### Port commands of the axis unit -/

/-- An accepted ENGAGE finds a view below INSTANT (R58). -/
theorem State.engageCode_view {s : State} {i : AxisNo} (h : s.engageCode i = .accepted) : s.trip.view ≠ .instant := by
  intro hv
  unfold State.engageCode at h
  repeat' split at h
  all_goals cases h

theorem cmdEngage_keeps (p : Port) (v : Word16) (s : State) : s.Keeps (cmdEngage p v s) :=
  writeByA_keeps <| by
    split
    · exact setCode_keeps s .a _
    · next i _ =>
      extract_lets code t
      have ht : s.Keeps t := setCode_keeps s .a _
      refine ht.trans (ite_keeps (fun hcode => ?_) fun _ => .refl t)
      refine .of_axis rfl (fun j hj => ?_) fun hv => absurd hv (State.engageCode_view hcode)
      rw [State.modAxis_getAxis]
      split
      · next hji =>
        subst hji
        exact Axis.engageFrom_ok hj _ (hj.2.2.2.2.1 _) _
      · exact hj

theorem cmdDisengage_keeps (p : Port) (v : Word16) (s : State) : s.Keeps (cmdDisengage p v s) :=
  writeByA_keeps <| by
    split
    · exact setCode_keeps s .a _
    · next i _ =>
      refine ite_keeps (fun h => ?_) fun _ => setCode_keeps s .a _
      refine .trans (setCode_keeps s .a fun c => { c with disengage := .accepted }) ?_
      refine modAxis_keeps_active ?_ Axis.toDisengaging_ok
      change (s.getAxis i).state ≠ .off
      rcases h with h | h <;> simp [h]

theorem cmdDrop_keeps (p : Port) (v : Word16) (s : State) : s.Keeps (cmdDrop p v s) :=
  writeByA_keeps <| by
    split
    · exact setCode_keeps s .a _
    · exact .trans (setCode_keeps s .a fun c => { c with drop := .accepted }) (modAxis_keeps (Axis.keeps_toOff _))

theorem refuseField_keeps (p : Port) (addr : Word16) (r : AccessReason) (s : State) :
    s.Keeps (refuseField p addr r s) := by
  unfold refuseField
  repeat' split
  all_goals exact access_keeps _ _ _ _ s

theorem guardedByAxis_keeps {p : Port} {i : AxisNo} {addr : Word16} {field : Bool} {f : State → State} {s : State}
    (h : s.Keeps (f s)) : s.Keeps (guardedByAxis p i addr field f s) :=
  writeByA_keeps <| ite_keeps (fun _ => h) fun _ =>
    ite_keeps (fun _ => refuseField_keeps _ _ _ s) fun _ => refuseWord_keeps _ _ _ s

theorem PlanEntry.setField_den {e : PlanEntry} {f : EntryField} {v : BitVec 32} (he : 1 ≤ e.den)
    (h : ¬(f = .denominator ∧ v.setWidth 16 = 0#16)) : 1 ≤ (e.setField f v).den := by
  cases f with
  | denominator =>
    have hv : v.setWidth 16 ≠ 0#16 := fun hv => h ⟨rfl, hv⟩
    exact Nat.pos_of_ne_zero fun hz => hv (BitVec.eq_of_toNat_eq hz)
  | _ => exact he

theorem cmdPlanEntry_keeps (p : Port) (i : AxisNo) (plan : PlanNo) (f : EntryField) (v : BitVec 32) (s : State) :
    s.Keeps (cmdPlanEntry p i plan f v s) :=
  guardedByAxis_keeps <| ite_keeps (fun _ => modAxisUnit_keeps_of_same rfl) fun hf => by
    refine modAxis_keeps ⟨fun ⟨hr, hd, hlo, hhi, hden, hrest⟩ => ⟨hr, hd, hlo, hhi, fun k => ?_, hrest⟩, fun h => h⟩
    rw [modifyAt_get]
    split
    · exact PlanEntry.setField_den (hden k) hf
    · exact hden k

theorem setParam_keeps (i : AxisNo) (q : AxisParam) (n : Nat) (s : State) : s.Keeps (setParam i q n s) := by
  cases q with
  | enabled =>
    refine modAxis_keeps ?_
    repeat' split
    · exact .of_same rfl rfl rfl rfl rfl rfl rfl
    · exact .of_same rfl rfl rfl rfl rfl rfl rfl
    · exact (Axis.keeps_toOff _).trans (.of_same rfl rfl rfl rfl rfl rfl rfl)
  | followClass => exact setSourceClass_keeps _ _ s
  | stepClass => exact setSourceClass_keeps _ _ s
  | _ => exact modAxis_keeps (.of_same rfl rfl rfl rfl rfl rfl rfl)

theorem cmdAxisParam_keeps (p : Port) (i : AxisNo) (q : AxisParam) (v : BitVec 32) (s : State) :
    s.Keeps (cmdAxisParam p i q v s) :=
  guardedByAxis_keeps <| by
    extract_lets t
    have ht : s.Keeps t := setParam_keeps i q _ s
    exact ht.trans (ite_keeps (fun _ => modAxisUnit_keeps_of_same rfl) fun _ => .refl t)

theorem cmdActual_keeps (p : Port) (i : AxisNo) (v : Pos) (s : State) : s.Keeps (cmdActual p i v s) :=
  writeByA_keeps <| ite_keeps (fun _ => modAxis_keeps (.of_same rfl rfl rfl rfl rfl rfl rfl)) fun _ => .refl s

theorem cmdSetpointFirst_keeps (p : Port) (s : State) : s.Keeps (cmdSetpointFirst p s) := by
  cases p with
  | a => exact .trans (modAxisUnit_keeps_of_same rfl) (drive_keeps _ .a _)
  | b => exact drive_keeps s .b _

theorem cmdSetpointFinal_keeps (p : Port) (s : State) : s.Keeps (cmdSetpointFinal p s) := by
  unfold cmdSetpointFinal
  extract_lets t
  refine .trans ?_ (drive_keeps t p _)
  unfold t
  split
  · exact modAxisUnit_keeps_of_same rfl
  · exact .refl s

end Sys2Proof.Machine
end

