-- ==== Sys2Proof/Proofs/CycleSafety.lean ====
section
/-!
PROOFS. Cycle events, links and frames, start-up, locks and soft resets keep the invariants of Safety.lean.
-/

namespace Sys2Proof.Machine

/-! ### Parts of a cycle event -/

theorem setLock_keeps (l : LockState) (s : State) : s.Keeps (setLock l s) :=
  ite_keeps (fun _ => .refl s) fun _ => (modCyc_keeps s _).trans (raiseBoth_keeps _ _)

theorem setRing_keeps (r : RingState) (s : State) : s.Keeps (setRing r s) :=
  ite_keeps (fun _ => .refl s) fun _ => (modCyc_keeps s _).trans (raiseBoth_keeps _ _)

theorem clearPresence_keeps (s : State) : s.Keeps (clearPresence s) := modCyc_keeps s _

theorem planEvent_keeps (o : PlanOutcome) (p : PlanNo) (s : State) : s.Keeps (planEvent o p s) :=
  (modCyc_keeps s _).trans (raiseBoth_keeps _ _)

theorem beginEvent_keeps (n : Cycle) (send : Int) (s : State) : s.Keeps (beginEvent n send s) :=
  ((setMode_keeps _ s).trans (guardTick_keeps _)).trans (modCyc_keeps _ _)

theorem markReady_keeps (s : State) : s.Keeps (markReady s) := modCyc_keeps s fun u => { u with planReady := s.ready }

theorem applySwitch_keeps (s : State) : s.Keeps (applySwitch s) := by
  unfold applySwitch
  repeat' split
  · exact (modCyc_keeps s _).trans (planEvent_keeps _ _ _)
  · exact .refl s
  · exact .refl s

theorem emitOwnStatus_keeps (published : Bool) (s : State) : s.Keeps (emitOwnStatus published s) :=
  ite_keeps (fun _ => (outboxAtStatus_keeps s).trans (emitStatus_keeps _ _)) fun _ => .refl s

theorem finishEvent_keeps (switched : Bool) (elapsed : Int) (s : State) : s.Keeps (finishEvent switched elapsed s) := by
  unfold finishEvent
  extract_lets published t u
  have ht : s.Keeps t := ite_keeps (fun _ => axisWork_keeps _ s) fun _ => .refl s
  have hu : t.Keeps u := (isolationTest_keeps t).trans (emitOwnStatus_keeps _ _)
  exact ((ht.trans hu).trans (channelWork_keeps _ u)).trans (raiseBoth_keeps _ _)

theorem takeActivePlan_keeps (c : CycleStart) (s : State) : s.Keeps (takeActivePlan c s) :=
  ite_keeps (fun _ => .refl s) fun _ => (modCyc_keeps s _).trans (planEvent_keeps _ _ _)

theorem takePendingSwitch_keeps (c : CycleStart) (s : State) : s.Keeps (takePendingSwitch c s) := by
  unfold takePendingSwitch
  extract_lets old t
  have ht : s.Keeps t := modCyc_keeps s _
  split
  · exact ht.trans (ite_keeps (fun _ => .refl t) fun _ => planEvent_keeps _ _ t)
  · exact ht

/-! ### Cycle events of a frame -/

theorem frameEvent_keeps {w : ShaftWork} (hw : w.InRange) {first : State → State} (hfirst : ∀ s : State, s.Keeps (first s))
    (c : CycleStart) (t : RxTime) (s : State) : s.Keeps (frameEvent w first c t s) := by
  unfold frameEvent
  extract_lets u old v switched x
  have hu : s.Keeps u := (beginEvent_keeps _ _ s).trans (setRing_keeps _ _)
  have hv : u.Keeps v :=
    (((applySwitch_keeps u).trans (takeActivePlan_keeps c _)).trans (takePendingSwitch_keeps c _)).trans (markReady_keeps _)
  have hx : v.Keeps x := ((clearPresence_keeps v).trans (moveShafts_keeps hw _)).trans (takeTripFields_keeps c _)
  exact (((hu.trans hv).trans hx).trans (hfirst x)).trans ((dropAllFaulted_keeps _).trans (finishEvent_keeps _ _ _))

theorem State.takeWork_inRange (s : State) (good returning : Bool) {c : CycleStart} (hc : c.inRange = true) :
    (s.takeWork good returning c).InRange := by
  unfold State.takeWork
  split <;> exact hc

theorem enterAcquiring_keeps {first : State → State} (hfirst : ∀ s : State, s.Keeps (first s)) {c : CycleStart}
    (hc : c.inRange = true) (t : RxTime) (s : State) : s.Keeps (enterAcquiring first c t s) := by
  unfold enterAcquiring
  extract_lets work u
  have hu : s.Keeps u := ((setLock_keeps _ s).trans (modCyc_keeps _ _)).trans (axesOff_keeps _)
  have hwork : work.InRange := by
    unfold work
    split <;> exact hc
  exact hu.trans (frameEvent_keeps hwork hfirst c t u)

theorem judgeAcquiring_keeps {c : CycleStart} (hc : c.inRange = true) (t : RxTime) (s : State) :
    s.Keeps (judgeAcquiring c t s) := by
  unfold judgeAcquiring
  extract_lets est eps k near good work u v
  have hu : s.Keeps u := modCyc_keeps s _
  have hv : u.Keeps v := ite_keeps (fun _ => setLock_keeps _ u) fun _ => .refl u
  exact (hu.trans hv).trans (frameEvent_keeps (s.takeWork_inRange _ _ hc) (fun s => .refl s) c t v)

theorem ignoreFrame_keeps (eps : Int) (s : State) : s.Keeps (ignoreFrame eps s) := modCyc_keeps s _

theorem judgeLocked_keeps {c : CycleStart} (hc : c.inRange = true) (t : RxTime) (s : State) :
    s.Keeps (judgeLocked c t s) :=
  ite_keeps (fun _ => (modCyc_keeps s _).trans (frameEvent_keeps (s.takeWork_inRange _ _ hc) (fun s => .refl s) c t _))
    fun _ => ignoreFrame_keeps _ s

theorem judgeHoldover_keeps {c : CycleStart} (hc : c.inRange = true) (t : RxTime) (s : State) :
    s.Keeps (judgeHoldover c t s) := by
  unfold judgeHoldover
  extract_lets est eps k missed u
  refine ite_keeps (fun _ => ?_) fun _ => ignoreFrame_keeps _ s
  have hu : s.Keeps u := (modCyc_keeps s _).trans (setLock_keeps _ _)
  refine hu.trans (ite_keeps (fun _ => ?_) fun _ => ?_)
  · exact frameEvent_keeps (u.takeWork_inRange _ _ hc) (fun s => .refl s) c t u
  · have hpending : u.Keeps (u.modShafts fun x => { x with resyncPending := true }) := modShafts_keeps_of_same rfl
    exact hpending.trans (takeTripFields_keeps c _)

theorem yieldTo_keeps {c : CycleStart} (hc : c.inRange = true) (t : RxTime) (s : State) : s.Keeps (yieldTo c t s) := by
  unfold yieldTo
  extract_lets u
  have hu : s.Keeps u := (modRing_keeps s _).trans (dropStagedReset_keeps _)
  exact (hu.trans (modCyc_keeps u _)).trans (enterAcquiring_keeps (raisePulse_keeps 15) hc t _)

theorem judge_keeps {c : CycleStart} (hc : c.inRange = true) (t : RxTime) (s : State) : s.Keeps (judge c t s) := by
  unfold judge
  extract_lets u
  refine (modCyc_keeps s _).trans (ite_keeps (fun _ => yieldTo_keeps hc t u) fun _ => ?_)
  split
  · exact enterAcquiring_keeps (fun s => .refl s) hc t u
  · exact judgeAcquiring_keeps hc t u
  · exact judgeLocked_keeps hc t u
  · exact judgeHoldover_keeps hc t u

theorem takeCycleStart_keeps {c : CycleStart} (hc : c.inRange = true) (t : RxTime) (s : State) :
    s.Keeps (takeCycleStart c t s) := by
  unfold takeCycleStart
  repeat' split
  · exact yieldTo_keeps hc t s
  · exact modCyc_keeps s _
  · exact judge_keeps hc t s
  · exact modCyc_keeps s _

/-! ### Cycle events of the local timer -/

theorem localWork_keeps (s : State) : s.Keeps (localWork s) :=
  (((applySwitch_keeps s).trans (markReady_keeps _)).trans (clearPresence_keeps _)).trans
    (moveShafts_keeps (w := .extrapolate) trivial _)

theorem localEvent_keeps {first takeOver : State → State} (hfirst : ∀ s : State, s.Keeps (first s))
    (hover : ∀ s : State, s.Keeps (takeOver s)) (s : State) : s.Keeps (localEvent first takeOver s) := by
  unfold localEvent
  extract_lets n t old u switched
  have ht : s.Keeps t := (beginEvent_keeps n _ s).trans (hfirst _)
  exact ((ht.trans (localWork_keeps t)).trans (hover u)).trans (finishEvent_keeps _ _ _)

theorem beginLeading_keeps (period boundary : Int) (s : State) : s.Keeps (beginLeading period boundary s) :=
  ((modCyc_keeps s _).trans (setLock_keeps _ _)).trans ((clearPresence_keeps _).trans (leadSync_keeps _))

theorem takeOver_keeps (s : State) : s.Keeps (takeOver s) := by
  unfold takeOver
  extract_lets t
  refine ite_keeps (fun _ => ?_) fun _ => .refl s
  exact (((modCyc_keeps s _).trans (beginLeading_keeps _ _ t)).trans (shaftsTakeOver_keeps _)).trans (raisePulse_keeps 15 _)

theorem holdoverEntry_keeps (s : State) : s.Keeps (holdoverEntry s) :=
  ((modCyc_keeps s _).trans (setLock_keeps _ _)).trans (localEvent_keeps (fun s => .refl s) (fun s => .refl s) _)

theorem holdoverEvent_keeps (s : State) : s.Keeps (holdoverEvent s) :=
  ite_keeps
    (fun _ => ((modCyc_keeps s _).trans (setLock_keeps _ _)).trans
      (localEvent_keeps (raisePulse_keeps 8) (fun s => .refl s) _))
    fun _ => (modCyc_keeps s _).trans (localEvent_keeps (fun s => .refl s) takeOver_keeps _)

theorem acquireMiss_keeps (s : State) : s.Keeps (acquireMiss s) := by
  unfold acquireMiss
  extract_lets t
  refine (modCyc_keeps s _).trans (ite_keeps (fun _ => ?_) fun _ => .refl t)
  exact ((modCyc_keeps t _).trans (setLock_keeps _ _)).trans (modChan_keeps_of_same rfl rfl)

theorem vetoCheck_keeps (s : State) : s.Keeps (vetoCheck s) := by
  unfold vetoCheck
  split
  · exact ite_keeps (fun _ => (modCyc_keeps s _).trans (planEvent_keeps _ _ _)) fun _ => .refl s
  · exact .refl s

theorem leaderSwitch_keeps (s : State) : s.Keeps (leaderSwitch s) :=
  (applySwitch_keeps s).trans (ite_keeps (fun _ => .refl _) fun _ => modCyc_keeps _ _)

theorem leaderBoundary_keeps (s : State) : s.Keeps (leaderBoundary s) := by
  unfold leaderBoundary
  extract_lets a b c old d switched e f
  have hc : s.Keeps c := ((beginEvent_keeps _ _ s).trans (modCyc_keeps a _)).trans (setRing_keeps _ b)
  have hd : c.Keeps d := ((leaderSwitch_keeps c).trans (markReady_keeps _)).trans (vetoCheck_keeps _)
  have he : d.Keeps e := (clearPresence_keeps d).trans (modCyc_keeps _ _)
  have hf : e.Keeps f := (moveShafts_keeps (w := .generate) trivial e).trans (applyStagedReset_keeps _)
  exact (((hc.trans hd).trans he).trans hf).trans ((emitCycleStart_keeps _ f).trans (finishEvent_keeps _ _ _))

theorem markPresent_keeps (o : Nat) (b : StatusBody) (s : State) : s.Keeps (markPresent o b s) := by
  unfold markPresent
  split
  · exact modCyc_keeps s _
  · exact .refl s

/-! ### Rosters and plans -/

theorem cmdRoster_keeps (p : Port) (plan : PlanNo) (v : BitVec 32) (s : State) : s.Keeps (cmdRoster p plan v s) :=
  writeByA_keeps (modCyc_keeps s _)

theorem cmdStaging_keeps (p : Port) (plan : Word16) (n : Cycle) (s : State) : s.Keeps (cmdStaging p plan n s) :=
  writeByA_keeps <| by
    extract_lets code t
    have ht : s.Keeps t := (setCode_keeps s .a _).trans (modCyc_keeps _ _)
    split
    · exact ht.trans (modCyc_keeps t _)
    · exact ht

theorem cmdCancelPlan_keeps (p : Port) (s : State) : s.Keeps (cmdCancelPlan p s) :=
  writeByA_keeps <| ite_keeps (fun _ => setCode_keeps s .a _) fun _ => by
    split
    · exact setCode_keeps s .a _
    · refine ite_keeps (fun _ => setCode_keeps s .a _) fun _ => ?_
      exact ((setCode_keeps s .a _).trans (modCyc_keeps _ _)).trans (planEvent_keeps _ _ _)

/-! ### Links and frames -/

theorem modeAtUp_keeps (s : State) : s.Keeps (modeAtUp s) := ite_keeps (fun _ => .refl s) fun _ => setMode_keeps _ s

theorem listenAtUp_keeps (now : Nat) (s : State) : s.Keeps (listenAtUp now s) :=
  ite_keeps (fun _ => modCyc_keeps s _) fun _ => .refl s

theorem linkUp_keeps (d : Side) (now : Nat) (s : State) : s.Keeps (linkUp d now s) :=
  ((modLink_keeps s d _).trans (modeAtUp_keeps _)).trans (listenAtUp_keeps _ _)

theorem badFrame_keeps (d : Side) (s : State) : s.Keeps (badFrame d s) := by
  unfold badFrame
  split
  · exact .refl s
  · exact modLink_keeps s d _
  · extract_lets t
    exact (modLink_keeps s d _).trans (ite_keeps (fun _ => linkDrop_keeps d .degraded t) fun _ => .refl t)

theorem receiveLinkIdle_keeps (d : Side) (t : RxTime) (f : LinkIdle) (s : State) : s.Keeps (receiveLinkIdle d t f s) := by
  have training (s : State) : s.Keeps (idleTraining d t f s) := by
    unfold idleTraining
    extract_lets l n up u
    exact (modLink_keeps s d _).trans (ite_keeps (fun _ => linkUp_keeps d t.received u) fun _ => .refl u)
  have up (s : State) : s.Keeps (idleUp d t f s) := by
    unfold idleUp
    extract_lets far u
    exact (modLink_keeps s d _).trans (ite_keeps (fun _ => linkDrop_keeps d .farEnd u) fun _ => .refl u)
  refine ite_keeps (fun _ => ?_) fun _ => badFrame_keeps d s
  unfold receiveIdle
  extract_lets good u
  split
  · exact .refl s
  · exact ite_keeps (fun _ => training s) fun _ => modLink_keeps s d _
  · exact (modLink_keeps s d _).trans (ite_keeps (fun _ => up u) fun _ => modLink_keeps u d _)

theorem takeStatus_keeps (h : Header) (b : StatusBody) (s : State) : s.Keeps (takeStatus h b s).2 :=
  ((markPresent_keeps _ b s).trans (takeStatusTrip_keeps _ b _)).trans (applyEntries_keeps _ _ _)

theorem removeOwn_keeps (f : Frame) (s : State) : s.Keeps (removeOwn f s) := by
  unfold removeOwn
  split
  · exact ownDataBack_keeps _ _ s
  · exact ownStatusBack_keeps _ s
  · exact .refl s
  · exact .refl s

theorem Frame.cycleStart_inRange {f : Frame} {c : CycleStart} (h : f.inRange = true) (hb : f.body = .cycleStart c) :
    c.inRange = true := by
  simp only [Frame.inRange, hb, Bool.and_eq_true] at h
  exact h.2

theorem handFrame_keeps (t : RxTime) {f : Frame} (hf : ∀ c, f.body = .cycleStart c → c.inRange = true) (s : State) :
    s.Keeps (handFrame t f s).2 := by
  unfold handFrame
  split
  · next c hb => exact takeCycleStart_keeps (hf c hb) t s
  · exact takeStatus_keeps _ _ s
  · exact takeFlash_keeps _ _ s
  · split
    · exact takeSegment_keeps _ _ s
    · exact .refl s

/-- The link delay added to a CYCLE_START's transit leaves its fields in range. -/
theorem arriveTransit_inRange {f : Frame} (h : f.inRange = true) (delay : Nat) (c : CycleStart)
    (hb : (f.arriveTransit delay).body = .cycleStart c) : c.inRange = true := by
  unfold Frame.arriveTransit at hb
  split at hb
  · next c' hc' =>
    cases hb
    exact Frame.cycleStart_inRange (c := c') h hc'
  · next hother => exact absurd hb (hother c)

theorem receiveRing_keeps (d : Side) (t : RxTime) {f : Frame} (hf : f.inRange = true) (s : State) :
    s.Keeps (receiveRing d t f s) := by
  unfold receiveRing
  extract_lets g r
  refine ite_keeps (fun _ => modRing_keeps s _) fun _ => ite_keeps (fun _ => ?_) fun _ => forward_keeps _ t g s
  refine ite_keeps (fun _ => removeOwn_keeps g s) fun _ => ?_
  exact (handFrame_keeps t (arriveTransit_inRange hf _) s).trans (forwardProcessed_keeps _ _ _)

theorem receiveFrame_keeps (d : Side) (t : RxTime) (f : Frame) (s : State) : s.Keeps (receiveFrame d t f s) := by
  unfold receiveFrame
  split
  · exact badFrame_keeps d s
  · next hf =>
    split
    · exact .refl s
    · exact .refl s
    · exact (modLink_keeps s d _).trans (receiveRing_keeps d t (by simpa using hf) _)

theorem receiveBytes_keeps (d : Side) (t : RxTime) (bytes : List Byte) (s : State) : s.Keeps (receiveBytes d t bytes s) := by
  unfold receiveBytes
  split
  · exact badFrame_keeps d s
  · exact receiveLinkIdle_keeps d t _ s
  · exact receiveFrame_keeps d t _ s

/-! ### Start-up and clock -/

theorem velocityOk_reset (i : ShaftNo) : (ShaftUnit.reset.shafts[i.val]).Ok := by
  simp [ShaftUnit.reset, Shaft.reset, Shaft.Ok, velocityOk]

theorem Axis.reset_ok : Axis.reset.Ok := by
  refine ⟨by decide, by decide, by decide, by decide, fun k => ?_, by decide, by decide⟩
  simp [Axis.reset, PlanEntry.reset]

theorem afterReset_trips (w e a b : Bool) (q : List Instr) : (State.afterReset w e a b q).TripsOk := by
  refine ⟨?_, Nat.le_refl _, nofun⟩
  refine (TripClass.eq_of_rank (Nat.le_zero.mp ((TripUnit.highest_le_iff _ 0).mpr fun n hn => ?_))).symm
  simp [State.afterReset, TripUnit.reset, Source.reset] at hn

theorem afterReset_listed (w e a b : Bool) (q : List Instr) {o : BlockOwner} (ho : o ≠ .free)
    (n : BlockNo) : n ∉ (State.afterReset w e a b q).listed o := by
  cases o with
  | free => exact absurd rfl ho
  | port p => simp [State.listed, State.afterReset, Pool.reset, Pool.mem_heldBy, Pool.owner]
  | assembly => simp [State.listed, State.afterReset, ChannelUnit.reset, contextBlocks]
  | txq => simp [State.listed, State.afterReset, ChannelUnit.reset, Channel.reset, Channel.listed]
  | rxq => simp [State.listed, State.afterReset, ChannelUnit.reset, Channel.reset, Channel.listed]
  | store => simp [State.listed, State.afterReset, ChannelUnit.reset, Channel.reset, Channel.listed, StripStore.reset, Slot.blank]

theorem afterReset_owner (w e a b : Bool) (q : List Instr) (n : BlockNo) :
    (State.afterReset w e a b q).pool.owner n = .free := by
  simp [State.afterReset, Pool.reset, Pool.owner]

theorem afterReset_blocks (w e a b : Bool) (q : List Instr) : (State.afterReset w e a b q).BlocksOk := by
  rw [State.blocksOk_iff]
  refine ⟨fun o => ?_, fun k c i hk => ?_, fun c x hx => ?_⟩
  · by_cases ho : o = .free
    · subst ho
      have hfree : (State.afterReset w e a b q).listed .free = List.finRange 512 := by
        simp only [State.listed, State.afterReset, Pool.reset]
      rw [hfree]
      refine ⟨List.nodup_finRange 512, fun n => ?_⟩
      rw [afterReset_owner]
      exact iff_of_true (List.mem_finRange n) rfl
    · have none := afterReset_listed w e a b q ho
      have hnil : (State.afterReset w e a b q).listed o = [] := List.eq_nil_iff_forall_not_mem.mpr none
      refine ⟨by rw [hnil]; exact .nil, fun n => iff_of_false (none n) ?_⟩
      rw [afterReset_owner]
      exact fun h => ho h.symm
  · simp [State.afterReset, State.getContext, ChannelUnit.reset] at hk
  · simp only [State.afterReset, State.getChannel, ChannelUnit.reset, Vector.getElem_replicate, Channel.reset,
      StripStore.reset, List.mem_replicate] at hx
    rw [hx.2]
    exact fun _ => rfl

/-- RESET gives a state that meets every invariant, whatever stood before. -/
theorem afterReset_safe (w e a b : Bool) (q : List Instr) : (State.afterReset w e a b q).Safe := by
  refine ⟨Memory.reset_wf, afterReset_trips w e a b q, fun j p h => ?_, fun i => ?_, fun i => ?_, afterReset_blocks w e a b q⟩
  · simp [State.afterReset, State.getLock, LockUnit.reset] at h
  · have : (State.afterReset w e a b q).getAxis i = Axis.reset := by simp [State.afterReset, State.getAxis, AxisUnit.reset]
    rw [this]
    exact Axis.reset_ok
  · exact velocityOk_reset i

theorem resetPart_keeps (widA widB : Bool) (s : State) : s.Keeps (resetPart widA widB s) := by
  obtain ⟨hmem, htrips, hlocks, haxes, hshafts, hblocks⟩ :=
    afterReset_safe s.links.west.signalDetect s.links.east.signalDetect widA widB s.pending
  exact ⟨rfl, fun _ => hmem, fun _ => htrips, fun _ => hlocks, fun _ => haxes, fun _ => hshafts, fun _ => hblocks⟩

theorem senseTripins_keeps (low : BitVec 8) (s : State) : s.Keeps (senseTripins low s) :=
  foldl_keeps (fun s _ => ite_keeps (fun _ => conditionAppears_keeps _ s) fun _ => .refl s) _ s

theorem waitEnds_keeps (low : BitVec 8) (s : State) : s.Keeps (waitEnds low s) :=
  (modClock_keeps s _).trans (senseTripins_keeps low _)

theorem waitTimesOut_keeps (low : BitVec 8) (s : State) : s.Keeps (waitTimesOut low s) :=
  ((modClock_keeps s _).trans (senseTripins_keeps low _)).trans (conditionAppears_keeps 9 _)

theorem cmdNodeAddress_keeps (p : Port) (v : Word16) (s : State) : s.Keeps (cmdNodeAddress p v s) :=
  writeByA_keeps <| ite_keeps (fun _ => setCode_keeps s .a _) fun _ => ite_keeps (fun _ => setCode_keeps s .a _) fun _ =>
    (setCode_keeps s .a _).trans (modCyc_keeps _ _)

theorem cmdRole_keeps (p : Port) (v : Word16) (s : State) : s.Keeps (cmdRole p v s) :=
  writeByA_keeps <| ite_keeps (fun _ => modCyc_keeps s _) fun _ => modCyc_keeps s _

theorem cmdConfig_keeps (p : Port) (q : ConfigItem) (v : Word16) (s : State) : s.Keeps (cmdConfig p q v s) :=
  writeByA_keeps <| ite_keeps (fun _ => modCyc_keeps s _) fun _ => modCyc_keeps s _

theorem bothLinks_keeps (f : LinkUnit → LinkUnit) (s : State) : s.Keeps (bothLinks f s) :=
  (modLink_keeps s .west f).trans (modLink_keeps _ .east f)

theorem attachNode_keeps (s : State) : s.Keeps (attachNode s) := by
  unfold attachNode
  extract_lets t u
  have ht : s.Keeps t := ((bothLinks_keeps _ s).trans (shaftsAttach_keeps _)).trans (axesOff_keeps _)
  have hu : t.Keeps u := ((modCyc_keeps t _).trans (setMode_keeps _ _)).trans (setLock_keeps _ _)
  exact (ht.trans hu).trans (clearPresence_keeps u)

theorem cmdAttach_keeps (p : Port) (s : State) : s.Keeps (cmdAttach p s) :=
  writeByA_keeps <| by
    extract_lets t
    exact (setCode_keeps s .a _).trans (ite_keeps (fun _ => attachNode_keeps t) fun _ => .refl t)

theorem abandonAttempt_keeps (c : ChannelNo) (s : State) : s.Keeps (abandonAttempt c s) := by
  unfold abandonAttempt
  split
  · exact ite_keeps (fun _ => removeMessage_keeps c 0 s) fun _ => idleHead_keeps false c s
  · exact .refl s

theorem detachChannels_keeps (s : State) : s.Keeps (detachChannels s) := by
  unfold detachChannels
  extract_lets t u
  have ht : s.Keeps t := foldl_keeps (fun s c => abandonAttempt_keeps c s) _ s
  have hu : t.Keeps u := foldl_keeps (fun s k => discardContext_keeps k s) _ t
  clear_value u
  exact (ht.trans hu).trans (modChan_keeps_of_same rfl rfl)

theorem detachNode_keeps (s : State) : s.Keeps (detachNode s) := by
  unfold detachNode
  extract_lets t u v w x
  have ht : s.Keeps t := (bothLinks_keeps _ s).trans (withdrawAny_keeps _)
  have hu : t.Keeps u := modRing_keeps t _
  have hv : u.Keeps v := setMode_keeps _ u
  have hw : v.Keeps w := (modCyc_keeps v _).trans (setLock_keeps _ _)
  have hx : w.Keeps x := (shaftsRest_keeps w).trans (dropStagedReset_keeps _)
  exact ((((ht.trans hu).trans hv).trans hw).trans hx).trans ((setOutbox_keeps _ x).trans (detachChannels_keeps _))

theorem cmdDetach_keeps (p : Port) (s : State) : s.Keeps (cmdDetach p s) :=
  writeByA_keeps <| by
    extract_lets t
    exact (setCode_keeps s .a _).trans (ite_keeps (fun _ => detachNode_keeps t) fun _ => .refl t)

theorem clockFault_keeps (s : State) : s.Keeps (clockFault s) := by
  unfold clockFault
  extract_lets t u v w x y
  have hu : s.Keeps u := (modClock_keeps s _).trans (bothLinks_keeps _ t)
  have hv : u.Keeps v := (modRing_keeps u _).trans (setMode_keeps _ _)
  have hw : v.Keeps w := (modCyc_keeps v _).trans (setLock_keeps _ _)
  have hx : w.Keeps x := ((axesOff_keeps w).trans (shaftsRest_keeps _)).trans (dropStagedReset_keeps _)
  have hy : x.Keeps y := modChan_keeps_of_same rfl rfl
  exact ((((hu.trans hv).trans hw).trans hx).trans hy).trans (ite_keeps (fun _ => .refl y) fun _ => conditionAppears_keeps 9 y)

theorem cmdClockRestart_keeps (p : Port) (s : State) : s.Keeps (cmdClockRestart p s) :=
  writeByA_keeps <| by
    split
    · exact setCode_keeps s .a _
    · exact setCode_keeps s .a _
    · exact (setCode_keeps s .a _).trans (modClock_keeps _ _)

theorem restartCompletes_keeps (s : State) : s.Keeps (restartCompletes s) := by
  unfold restartCompletes
  extract_lets t
  have ht : s.Keeps t := (modClock_keeps s _).trans (conditionGoes_keeps 9 _)
  exact ht.trans (ite_keeps (fun _ => bothLinks_keeps _ t) fun _ => .refl t)

/-! ### Locks, signals and the soft reset -/

theorem LockRec.take_waiter {l : LockRec} {p q : Port} {notify : Bool} (h : (l.take p notify).waiter = some q)
    (hl : l.waiter = some q → l.holder = some q.other) : (l.take p notify).holder = some q.other := by
  unfold LockRec.take at *
  split at h
  · next hfree => exact absurd (hl h) (by simp [hfree])
  · next r hr =>
    split at h
    · next hrp => simp only [hr, hrp, if_true]; exact hrp ▸ hr ▸ hl h
    · next hrp =>
      split at h
      · next hn =>
        simp only [hr, hrp, hn, if_true, if_false]
        cases h
        cases r <;> cases p <;> simp_all [Port.other]
      · next hn => simp only [hr, hrp, hn, if_false]; exact hr ▸ hl h

theorem cmdLockTake_keeps (p : Port) (j : LockNo) (s : State) : s.Keeps (cmdLockTake p j s) :=
  (modLock_keeps fun _ hq hl => LockRec.take_waiter hq hl).trans (drivePair_keeps _ _ _ _ _)

theorem freeLock_keeps (j : LockNo) (s : State) : s.Keeps (freeLock j s) := by
  unfold freeLock
  extract_lets waiter t
  have ht : s.Keeps t := modLock_keeps fun _ h => by cases h
  cases waiter with
  | some q => exact ht.trans (raise_keeps _ _ t)
  | none => exact ht

theorem cmdLockGive_keeps (p : Port) (j : LockNo) (s : State) : s.Keeps (cmdLockGive p j s) :=
  ite_keeps (fun _ => freeLock_keeps j s) fun _ => modLocks_keeps_of_same rfl

/-- Locks that keep their holders and take on no waiter keep the waiters' invariant. -/
theorem modLocks_keeps_of_unwait {s : State} {f : LockUnit → LockUnit}
    (hholder : ∀ j, ((s.modLocks f).getLock j).holder = (s.getLock j).holder)
    (hwaiter : ∀ j q, ((s.modLocks f).getLock j).waiter = some q → (s.getLock j).waiter = some q) :
    s.Keeps (s.modLocks f) :=
  modLocks_keeps fun hl j q hq => (hholder j).trans (hl j q (hwaiter j q hq))

theorem LockRec.unwait_holder (l : LockRec) (p : Port) : (l.unwait p).holder = l.holder := by
  unfold LockRec.unwait
  split <;> rfl

theorem LockRec.unwait_waiter {l : LockRec} {p q : Port} (h : (l.unwait p).waiter = some q) : l.waiter = some q := by
  unfold LockRec.unwait at h
  split at h
  · cases h
  · exact h

theorem cmdNotify_keeps (p : Port) (v : Word16) (s : State) : s.Keeps (cmdNotify p v s) := by
  have lock (j : LockNo) : (cmdNotify p v s).getLock j =
      if v.getLsbD j.val then s.getLock j else (s.getLock j).unwait p := by simp [cmdNotify, State.getLock]
  refine modLocks_keeps_of_unwait (fun j => ?_) fun j q hq => ?_
  · refine (congrArg LockRec.holder (lock j)).trans ?_
    split
    · rfl
    · exact LockRec.unwait_holder _ _
  · have hq' := (congrArg LockRec.waiter (lock j)).symm.trans hq
    split at hq'
    · exact hq'
    · exact LockRec.unwait_waiter hq'

theorem cmdSignalSet_keeps (p : Port) (v : Word16) (s : State) : s.Keeps (cmdSignalSet p v s) := by
  unfold cmdSignalSet
  extract_lets q old t
  have ht : s.Keeps t := modLocks_keeps_of_same rfl
  exact ht.trans (ite_keeps (fun _ => raise_keeps _ _ t) fun _ => .refl t)

theorem cmdSignalClear_keeps (p : Port) (v : Word16) (s : State) : s.Keeps (cmdSignalClear p v s) :=
  modLocks_keeps_of_same rfl

theorem cmdSignalEnable_keeps (p : Port) (v : Word16) (s : State) : s.Keeps (cmdSignalEnable p v s) := by
  unfold cmdSignalEnable
  extract_lets old t
  have ht : s.Keeps t := modLocks_keeps_of_same rfl
  exact ht.trans (ite_keeps (fun _ => raise_keeps _ _ t) fun _ => .refl t)

theorem resetLocks_keeps (p : Port) (s : State) : s.Keeps (resetLocks p s) := by
  unfold resetLocks
  extract_lets t
  have ht : s.Keeps t := foldl_keeps (fun s j => ite_keeps (fun _ => freeLock_keeps j s) fun _ => .refl s) _ s
  refine ht.trans (modLocks_keeps_of_unwait (fun j => ?_) fun j q hq => ?_)
  · simp [State.getLock, LockRec.unwait_holder]
  · simp only [State.getLock, State.modLocks_locks, Vector.getElem_map] at hq
    exact LockRec.unwait_waiter hq

theorem resetViews_keeps (p : Port) (s : State) : s.Keeps (resetViews p s) := by
  have channel (c : ChannelNo) : (resetViews p s).getChannel c =
      { s.getChannel c with
        slotSelect := (s.getChannel c).slotSelect.set p 0, outView := (s.getChannel c).outView.set p OutcomeRecord.blank } := by
    simp [resetViews, State.getChannel]
  refine .of_blocks rfl id fun h => ?_
  rw [State.blocksOk_iff] at h ⊢
  have lists (o : BlockOwner) : (resetViews p s).listed o = s.listed o := by
    cases o with
    | free => rfl
    | port q => rfl
    | assembly => rfl
    | txq => simp [State.listed, resetViews, Vector.toList_map, List.flatMap_map, Channel.listed]
    | rxq => simp [State.listed, resetViews, Vector.toList_map, List.flatMap_map, Channel.listed]
    | store => simp [State.listed, resetViews, Vector.toList_map, List.flatMap_map, Channel.listed]
  refine ⟨fun o => ?_, h.2.of_same rfl fun c => ?_⟩
  · rw [lists o]
    exact h.1 o
  · rw [channel c]

theorem resetPortA_keeps (p : Port) (s : State) : s.Keeps (resetPortA p s) := by
  cases p with
  | a =>
    have hsnap : s.Keeps (s.modAxisUnit fun u => { u with snapshot := none }) := modAxisUnit_keeps_of_same rfl
    exact hsnap.trans (modCyc_keeps _ fun u => { u with configResult := .none })
  | b => exact .refl s

theorem cmdSoftReset_keeps (p : Port) (s : State) : s.Keeps (cmdSoftReset p s) := by
  unfold cmdSoftReset
  extract_lets t u v w x
  have ht : s.Keeps t := resetLocks_keeps p s
  have hu : t.Keeps u := freePortBlocks_keeps (p := p) (Pool.heldBy_nodup _ _) fun n hn => (Pool.mem_heldBy _ _ _).mp hn
  have hv : u.Keeps v := foldl_keeps (fun s c => resetChannel_keeps c s) _ u
  have hw : v.Keeps w := (resetPortA_keeps p v).trans (resetViews_keeps p _)
  have hx : w.Keeps x := modAxisUnit_keeps_of_same rfl
  exact ((((ht.trans hu).trans hv).trans hw).trans hx).trans (modPort_keeps x p _)

end Sys2Proof.Machine
end

