-- ==== Sys2Proof/Proofs/StepSafety.lean ====
section
/-!
PROOFS. Every register of the window map, every access of a port and every command keeps the invariants of Safety.lean and
the queue: the statements about the step, the queue and the invariants.
-/

namespace Sys2Proof.Machine

/-! ### Payload and the packet memory unit -/

theorem modPool_keeps {s : State} {f : Pool → Pool} (hfree : (f s.pool).free = s.pool.free)
    (howners : (f s.pool).owners = s.pool.owners) (hmem : Memory.wf s.pool.mem = true → Memory.wf (f s.pool).mem = true) :
    s.Keeps (s.modPool f) := by
  refine ⟨rfl, hmem, id, id, id, id, fun h => ?_⟩
  have owner (n : BlockNo) : (s.modPool f).pool.owner n = s.pool.owner n := congrArg (fun v => v[n.val]) howners
  obtain ⟨hf, htx, ha, hrx, hs, hslots⟩ := h
  refine ⟨?_, ?_, ?_, ?_, ?_, hslots⟩ <;> simp only [State.Holds, owner]
  · rw [State.modPool_pool, hfree]
    exact hf
  · exact htx
  · exact ha
  · exact hrx
  · exact hs

theorem writePayload_keeps (x : Nat) (bs : List Byte) (s : State) : s.Keeps (writePayload x bs s) :=
  modPool_keeps rfl rfl (Memory.writeBytes_wf x bs)

theorem cmdBlockWindow_keeps (p : Port) (word : Fin 128) (w : Option (BitVec 32)) (s : State) :
    s.Keeps (cmdBlockWindow p word w s) := by
  unfold cmdBlockWindow
  dsimp only
  repeat' split
  · exact writePayload_keeps _ _ s
  · exact drive_keeps s p _
  · exact access_keeps _ _ _ _ s
  · exact accessRead_keeps _ _ _ s
  · exact access_keeps _ _ _ _ s
  · exact accessRead_keeps _ _ _ s

theorem cmdAreaWrite_keeps (p : Port) (a : AreaNo) (word : Fin 512) (w : BitVec 32) (s : State) :
    s.Keeps (cmdAreaWrite p a word w s) :=
  ite_keeps (fun _ => writePayload_keeps _ _ s) fun _ => access_keeps _ _ _ _ s

theorem cmdAreaRead_keeps (p : Port) (a : AreaNo) (word : Fin 512) (s : State) : s.Keeps (cmdAreaRead p a word s) :=
  drive_keeps s p _

theorem refuseUnplaced_keeps (p : Port) (q : Unplaced) (r : AccessReason) (s : State) : s.Keeps (refuseUnplaced p q r s) :=
  access_keeps _ _ _ _ s

theorem cmdBindingWrite_keeps (p : Port) (a : AreaNo) (v : Word16) (s : State) : s.Keeps (cmdBindingWrite p a v s) := by
  cases p with
  | a => exact ite_keeps (fun _ => modLocks_keeps_of_same rfl) fun _ => refuseUnplaced_keeps _ _ _ s
  | b => exact refuseUnplaced_keeps _ _ _ s

theorem cmdReserve_keeps (p : Port) (v : Word16) (s : State) : s.Keeps (cmdReserve p v s) :=
  writeByA_keeps (modPool_keeps rfl rfl id)

theorem setPosting_keeps (p : Port) (f : PostingRecord → PostingRecord) (s : State) : s.Keeps (setPosting p f s) :=
  modPort_keeps s p _

/-! ### Registers of the map -/

/-- What a judged access does, if it is taken, meets a condition. -/
def Judged.All {α : Type} (q : α → Prop) : Judged α → Prop
  | .takes f => q f
  | .refuses _ => True

/-- A change of the state that keeps everything from every state. -/
def Tame (f : State → State) : Prop := ∀ s : State, s.Keeps (f s)

/-- Whatever an access of a register does keeps everything. -/
inductive Reg.Tame : Reg → Prop
  | undefined : Reg.Tame .undefined
  | reserved : Reg.Tame .reserved
  | word {v : Nat} {w : Judged (Word16 → State → State)} (h : w.All fun f => ∀ v, Machine.Tame (f v)) : Reg.Tame (.word v w)
  | acting {j : Judged (State → State)} (h : j.All Machine.Tame) : Reg.Tame (.acting j)
  | field {base parts : Nat} {v stand : BitVec 48} {w : Judged (BitVec 48 → State → State)}
      (h : w.All fun f => ∀ v, Machine.Tame (f v)) : Reg.Tame (.field base parts v stand w)
  | payload {f : State → State} {w : Judged (BitVec 32 → State → State)} (hf : Machine.Tame f)
      (hw : w.All fun g => ∀ v, Machine.Tame (g v)) : Reg.Tame (.payload f w)

theorem judgeA_all {α : Type} {q : α → Prop} (p : Port) (open_ : Bool) {f : α} (h : q f) : (judgeA p open_ f).All q := by
  cases p <;> cases open_ <;> first | exact h | trivial

theorem Judged.all_map {α β : Type} {q : β → Prop} {j : Judged α} {g : α → β} (h : j.All fun a => q (g a)) :
    (j.map g).All q := by
  cases j with
  | takes f => exact h
  | refuses r => trivial

theorem Reg.shows_tame (v : Nat) : (Reg.shows v).Tame := .word trivial

theorem Reg.either_tame {v : Nat} {f : Word16 → State → State} (h : ∀ v, Machine.Tame (f v)) : (Reg.either v f).Tame := .word h

theorem Reg.clears_tame {v : Nat} {f : State → State} (h : Machine.Tame f) : (Reg.clears v f).Tame := .word fun _ => h

theorem Reg.guarded_tame {p : Port} {open_ : Bool} {v : Nat} {f : Word16 → State → State} (h : ∀ v, Machine.Tame (f v)) :
    (Reg.guarded p open_ v f).Tame := .word (judgeA_all p open_ h)

theorem Reg.byA_tame {p : Port} {v : Nat} {f : Word16 → State → State} (h : ∀ v, Machine.Tame (f v)) :
    (Reg.byA p v f).Tame := .word (judgeA_all p true h)

theorem Reg.pair_tame {base : Nat} {v : BitVec 32} {w : Judged (BitVec 32 → State → State)}
    (h : w.All fun f => ∀ v, Machine.Tame (f v)) : (Reg.pair base v w).Tame := by
  refine .field (Judged.all_map ?_)
  cases w with
  | takes f => exact fun x => h _
  | refuses r => trivial

theorem Reg.showsPair_tame (base : Nat) (v : BitVec 32) : (Reg.showsPair base v).Tame := Reg.pair_tame trivial

theorem Reg.guardedPair_tame {p : Port} {open_ : Bool} {base : Nat} {v : BitVec 32} {f : BitVec 32 → State → State}
    (h : ∀ v, Machine.Tame (f v)) : (Reg.guardedPair p open_ base v f).Tame := Reg.pair_tame (judgeA_all p open_ h)

theorem Reg.pairByA_tame {p : Port} {base : Nat} {v : BitVec 32} {f : BitVec 32 → State → State}
    (h : ∀ v, Machine.Tame (f v)) : (Reg.pairByA p base v f).Tame := Reg.guardedPair_tame h

theorem Reg.ite_tame {c : Prop} [Decidable c] {x y : Reg} (hx : x.Tame) (hy : y.Tame) : (if c then x else y).Tame := by
  split
  · exact hx
  · exact hy

theorem nodeReg_tame (s : State) (p : Port) (a : Nat) : (nodeReg s p a).Tame := by
  unfold nodeReg
  dsimp only
  split
  all_goals first
    | exact Reg.shows_tame _
    | exact Reg.showsPair_tame _ _
    | exact Reg.byA_tame fun v s => cmdNodeAddress_keeps p v s
    | exact Reg.byA_tame fun _ s => cmdAttach_keeps p s
    | exact Reg.byA_tame fun _ s => cmdDetach_keeps p s
    | exact Reg.byA_tame fun _ s => cmdClockRestart_keeps p s
    | exact Reg.byA_tame fun v s => cmdRole_keeps p v s
    | exact Reg.byA_tame fun v s => cmdConfig_keeps p _ v s
    | exact Reg.either_tame fun _ s => cmdSoftReset_keeps p s
    | exact Reg.either_tame fun _ s => modPort_keeps s p _
    | exact Reg.clears_tame fun s => modClock_keeps s _
    | exact Reg.clears_tame fun s => modCyc_keeps s _
    | exact Reg.clears_tame fun s => modAxisUnit_keeps_of_same rfl
    | exact Reg.clears_tame fun s => modChan_keeps_of_same rfl rfl
    | exact Reg.clears_tame fun s => modPool_keeps rfl rfl id
    | constructor

theorem linkReg_tame (s : State) (d : Side) (base off : Nat) : (linkReg s d base off).Tame := by
  unfold linkReg
  dsimp only
  split
  · exact Reg.shows_tame _
  · exact Reg.showsPair_tame _ _
  · exact Reg.showsPair_tame _ _
  · exact Reg.clears_tame fun s => modLink_keeps s d _
  · exact Reg.clears_tame fun s => modLink_keeps s d _
  · constructor

theorem ringReg_tame (s : State) (off : Nat) : (ringReg s off).Tame := by
  unfold ringReg
  dsimp only
  split
  · exact Reg.shows_tame _
  · exact Reg.shows_tame _
  · exact Reg.clears_tame fun s => modRing_keeps s _
  · exact Reg.clears_tame fun s => modRing_keeps s _
  · exact Reg.clears_tame fun s => modRing_keeps s _
  · exact Reg.clears_tame fun s => modRing_keeps s _
  · exact Reg.clears_tame fun s => modRing_keeps s _
  · constructor

theorem planReg_tame (s : State) (p : Port) (off : Nat) : (planReg s p off).Tame := by
  unfold planReg
  dsimp only
  repeat' split
  all_goals first
    | exact Reg.shows_tame _
    | exact Reg.pairByA_tame fun v s => cmdRoster_keeps p _ v s
    | exact Reg.pairByA_tame fun v s => cmdStaging_keeps p _ _ s
    | exact Reg.byA_tame fun _ s => cmdCancelPlan_keeps p s
    | constructor

theorem shaftReg_tame (s : State) (p : Port) (i : ShaftNo) (off : Nat) : (shaftReg s p i off).Tame := by
  have target (x : Shaft) (base : Nat) : (shaftReg.target p i x base).Tame :=
    .field (judgeA_all p true fun v s => cmdTargetVelocity_keeps p i v s)
  have limit (base : Nat) (l : ShaftLimit) (n : Nat) : (shaftReg.limit p i base l n).Tame :=
    Reg.pairByA_tame fun v s => cmdShaftLimit_keeps p i l v s
  unfold shaftReg
  dsimp only
  split
  all_goals first
    | exact Reg.shows_tame _
    | exact Reg.showsPair_tame _ _
    | exact target _ _
    | exact limit _ _ _
    | exact .field trivial
    | constructor

theorem shaftUnitReg_tame (s : State) (p : Port) (a : Nat) : (shaftUnitReg s p a).Tame := by
  unfold shaftUnitReg
  dsimp only
  split
  · exact Reg.pairByA_tame fun v s => cmdResyncWindow_keeps p v s
  · exact Reg.pairByA_tame fun v s => cmdResyncWindow_keeps p v s
  · exact Reg.clears_tame fun s => modShafts_keeps_of_same rfl
  · exact Reg.shows_tame _
  · exact Reg.shows_tame _
  · constructor

theorem axisReg_tame (s : State) (p : Port) (i : AxisNo) (off : Nat) : (axisReg s p i off).Tame := by
  have entry (plan : PlanNo) (base off : Nat) : (entryReg s p i plan base off).Tame := by
    unfold entryReg
    dsimp only
    split
    all_goals first
      | exact Reg.guarded_tame fun v s => cmdPlanEntry_keeps p i plan _ _ s
      | exact Reg.guardedPair_tame fun v s => cmdPlanEntry_keeps p i plan _ v s
      | constructor
  have param (base off : Nat) : (paramReg s p i base off).Tame := by
    unfold paramReg
    dsimp only
    split
    all_goals first
      | exact Reg.guarded_tame fun v s => cmdAxisParam_keeps p i _ _ s
      | exact Reg.guardedPair_tame fun v s => cmdAxisParam_keeps p i _ v s
      | constructor
  have running (base off : Nat) : (runningReg s p i base off).Tame := by
    unfold runningReg
    dsimp only
    split
    all_goals first
      | exact Reg.shows_tame _
      | exact Reg.showsPair_tame _ _
      | exact Reg.pairByA_tame fun v s => cmdActual_keeps p i v s
      | exact Reg.clears_tame fun s => modAxis_keeps (.of_same rfl rfl rfl rfl rfl rfl rfl)
      | (split <;> first | exact Reg.showsPair_tame _ _ | constructor)
  unfold axisReg
  dsimp only
  repeat' split
  · exact entry _ _ _
  · constructor
  · exact param _ _
  · exact running _ _

theorem setpointReg_tame (s : State) (p : Port) (a : Nat) : (setpointReg s p a).Tame := by
  have delta : Reg.Tame (.pair 0x642 (s.port p).corrPosting.delta (.takes (setpointReg.setDelta p))) :=
    Reg.pair_tame fun v s => modPort_keeps s p _
  unfold setpointReg
  dsimp only
  split
  · exact .acting fun s => cmdSetpointFirst_keeps p s
  split
  · exact .acting fun s => cmdSetpointFinal_keeps p s
  split
  · split
    · constructor
    · exact Reg.shows_tame _
  split
  all_goals first
    | exact Reg.shows_tame _
    | exact Reg.showsPair_tame _ _
    | exact Reg.byA_tame fun v s => cmdEngage_keeps p v s
    | exact Reg.byA_tame fun v s => cmdDisengage_keeps p v s
    | exact Reg.byA_tame fun v s => cmdDrop_keeps p v s
    | exact Reg.either_tame fun v s => modPort_keeps s p _
    | exact delta
    | exact Reg.either_tame fun _ s => cmdCorrectionPost_keeps p s
    | exact .acting fun s => cmdCorrectionResultRead_keeps p s
    | constructor

theorem sourceReg_tame (s : State) (p : Port) (n : SourceNo) (off : Nat) : (sourceReg s p n off).Tame := by
  unfold sourceReg
  dsimp only
  split
  · exact Reg.shows_tame _
  · exact Reg.guarded_tame fun v s => cmdSourceClass_keeps p n v s
  · exact Reg.byA_tame fun v s => cmdSourceEnable_keeps p n v s
  · exact Reg.clears_tame fun s => modSource_keeps fun _ => ⟨rfl, rfl⟩

theorem tripReg_tame (s : State) (p : Port) (off : Nat) : (tripReg s p off).Tame := by
  unfold tripReg
  dsimp only
  split
  · split
    · exact sourceReg_tame s p _ _
    · constructor
  split
  all_goals first
    | exact Reg.shows_tame _
    | exact Reg.either_tame fun _ s => cmdTripReset_keeps p s
    | exact Reg.byA_tame fun _ s => cmdLocalClear_keeps p s
    | exact Reg.either_tame fun _ s => cmdTripRequest_keeps p s
    | exact Reg.either_tame fun _ s => cmdTripRelease_keeps p s
    | exact Reg.clears_tame fun s => modTrip_keeps_of_same rfl rfl rfl
    | (split <;> first | exact Reg.shows_tame _ | constructor)

theorem poolReg_tame (s : State) (p : Port) (off : Nat) : (poolReg s p off).Tame := by
  unfold poolReg
  dsimp only
  split
  · exact .acting fun s => cmdTake_keeps false p s
  · exact .acting fun s => cmdTake_keeps true p s
  · exact Reg.either_tame fun v s => cmdBlockGive_keeps p v s
  · exact Reg.either_tame fun v s => modPort_keeps s p _
  · exact Reg.shows_tame _
  · exact Reg.byA_tame fun v s => cmdReserve_keeps p v s
  · exact Reg.clears_tame fun s => modPort_keeps s p _
  · exact Reg.clears_tame fun s => modPort_keeps s p _
  · exact Reg.clears_tame fun s => modPort_keeps s p _
  · exact Reg.clears_tame fun s => modPort_keeps s p _
  · refine Reg.ite_tame ?_ .undefined
    cases finOf 512 _ with
    | some n => exact Reg.shows_tame _
    | none => constructor

theorem postReg_tame (s : State) (p : Port) (off : Nat) : (postReg s p off).Tame := by
  have slot (k : ReadBacks) : (postReg.openSlotPair p k).Tame := .field fun v s => cmdOpenSlot_keeps p _ _ s
  unfold postReg
  dsimp only
  split
  all_goals first
    | exact Reg.either_tame fun v s => setPosting_keeps p _ s
    | exact Reg.either_tame fun v s => cmdPost_keeps p v s
    | exact Reg.either_tame fun v s => cmdCancelHead_keeps p v s
    | exact Reg.either_tame fun v s => cmdDiscardHead_keeps p v s
    | exact Reg.either_tame fun v s => cmdHold_keeps p v s
    | exact Reg.either_tame fun v s => cmdRelease_keeps p v s
    | exact Reg.either_tame fun v s => cmdFreeze_keeps p v s
    | exact Reg.either_tame fun v s => cmdResume_keeps p v s
    | exact Reg.either_tame fun v s => cmdCloseSlot_keeps p v s
    | exact Reg.either_tame fun v s => cmdReleaseSlot_keeps p v s
    | exact Reg.shows_tame _
    | exact slot _
    | (repeat' split) <;> first | exact Reg.either_tame fun v s => setPosting_keeps p _ s | constructor

theorem lockReg_tame (s : State) (p : Port) (off : Nat) : (lockReg s p off).Tame := by
  unfold lockReg
  repeat' split
  · exact .acting fun s => cmdLockTake_keeps p _ s
  · exact Reg.either_tame fun _ s => cmdLockGive_keeps p _ s
  · exact Reg.shows_tame _
  · constructor
  · exact Reg.either_tame fun v s => cmdNotify_keeps p v s
  · exact Reg.either_tame fun v s => cmdSignalSet_keeps p v s
  · exact Reg.either_tame fun v s => cmdSignalClear_keeps p v s
  · exact Reg.either_tame fun v s => cmdSignalEnable_keeps p v s
  · constructor

theorem eventReg_tame (s : State) (p : Port) (off : Nat) : (eventReg s p off).Tame := by
  unfold eventReg
  dsimp only
  split
  · exact Reg.shows_tame _
  · exact Reg.either_tame fun v s => modPort_keeps s p _
  · exact Reg.either_tame fun v s => modPort_keeps s p _
  · exact Reg.shows_tame _
  · exact Reg.shows_tame _
  · exact Reg.shows_tame _
  · exact Reg.either_tame fun _ s => modPort_keeps s p _
  · exact Reg.clears_tame fun s => modPort_keeps s p _
  · constructor

theorem channelReg_tame (s : State) (p : Port) (c : ChannelNo) (off : Nat) : (channelReg s p c off).Tame := by
  have config (off : Nat) : (channelConfigReg s p c off).Tame := by
    unfold channelConfigReg
    dsimp only
    split
    all_goals first | exact Reg.byA_tame fun v s => cmdChannelConfig_keeps p c _ v s | constructor
  have running (off : Nat) : (channelStateReg s c off).Tame := by
    unfold channelStateReg
    dsimp only
    split
    all_goals first
      | exact Reg.shows_tame _
      | exact Reg.clears_tame fun s => modChannel_keeps_of_same rfl rfl rfl
      | constructor
  have stream (off : Nat) : (streamReg s p c off).Tame := by
    unfold streamReg
    repeat' split
    · constructor
    · exact .payload (fun s => cmdStream_keeps p c s) trivial
    · exact .payload (fun s => cmdStrip_keeps p c s) trivial
    · constructor
  have outcome (off : Nat) : (outcomeReg s p c off).Tame := by
    unfold outcomeReg
    dsimp only
    split
    all_goals first | exact .acting fun s => cmdOutcomeRead_keeps p c s | exact Reg.shows_tame _ | constructor
  have slot (base off : Nat) : (slotReg s p c base off).Tame := by
    unfold slotReg slotViewReg
    dsimp only
    repeat' split
    all_goals first
      | exact Reg.either_tame fun v s => modChannel_keeps_of_same rfl rfl rfl
      | exact Reg.shows_tame _
      | exact Reg.showsPair_tame _ _
      | constructor
  have outstanding (off : Nat) : (outstandingReg s c off).Tame := by
    unfold outstandingReg
    dsimp only
    split
    · constructor
    · exact Reg.shows_tame _
  unfold channelReg
  repeat' split
  · exact config _
  · exact running _
  · constructor
  · exact .acting trivial
  · exact .acting fun s => cmdDescriptor_keeps p c _ s
  · constructor
  · exact stream _
  · exact outcome _
  · exact slot _ _
  · exact outstanding _
  · constructor

/-- Whatever stands at a word address for a port, an access of it keeps everything (10.3). -/
theorem State.regAt_tame (s : State) (p : Port) (a : Nat) : (s.regAt p a).Tame := by
  have area (off : Nat) : (areaReg p off).Tame := by
    unfold areaReg
    split
    · exact .payload (fun s => cmdAreaRead_keeps p _ _ s) fun v s => cmdAreaWrite_keeps p _ _ v s
    · constructor
  have window (off : Nat) : (blockWindowReg p off).Tame := by
    unfold blockWindowReg
    split
    · exact .payload (fun s => cmdBlockWindow_keeps p _ none s) fun v s => cmdBlockWindow_keeps p _ (some v) s
    · constructor
  unfold State.regAt
  refine Reg.ite_tame (nodeReg_tame s p a) ?_
  refine Reg.ite_tame (linkReg_tame s .west 0x40 (a - 0x40)) ?_
  refine Reg.ite_tame (linkReg_tame s .east 0x60 (a - 0x60)) ?_
  refine Reg.ite_tame (ringReg_tame s (a - 0x78)) ?_
  refine Reg.ite_tame (planReg_tame s p (a - 0x80)) ?_
  refine Reg.ite_tame (c := a < 0x180) ?_ ?_
  · generalize finOf 4 ((a - 0x100) / 0x20) = o
    cases o with
    | some i => exact shaftReg_tame s p _ _
    | none => constructor
  refine Reg.ite_tame (shaftUnitReg_tame s p a) ?_
  refine Reg.ite_tame .undefined ?_
  refine Reg.ite_tame ?_ ?_
  · generalize finOf 8 ((a - 0x200) / 0x80) = o
    cases o with
    | some i => exact axisReg_tame s p _ _
    | none => constructor
  refine Reg.ite_tame (setpointReg_tame s p a) ?_
  refine Reg.ite_tame .undefined ?_
  refine Reg.ite_tame (tripReg_tame s p (a - 0x700)) ?_
  refine Reg.ite_tame (poolReg_tame s p (a - 0x800)) ?_
  refine Reg.ite_tame (postReg_tame s p (a - 0xC00)) ?_
  refine Reg.ite_tame .undefined ?_
  refine Reg.ite_tame (lockReg_tame s p (a - 0x1000)) ?_
  refine Reg.ite_tame (eventReg_tame s p (a - 0x1040)) ?_
  refine Reg.ite_tame .undefined ?_
  refine Reg.ite_tame ?_ ?_
  · generalize finOf 8 ((a - 0x1400) / 0x80) = o
    cases o with
    | some i => exact channelReg_tame s p _ _
    | none => constructor
  refine Reg.ite_tame .undefined ?_
  refine Reg.ite_tame (window (a - 0x2000)) ?_
  refine Reg.ite_tame .undefined ?_
  exact Reg.ite_tame (area (a - 0x3000)) .undefined

/-! ### Accesses of a port -/

theorem setLatch_keeps (p : Port) (l : Latch) (s : State) : s.Keeps (setLatch p l s) := modPort_keeps s p _

theorem readFieldWord_keeps (p : Port) (latch : Latch) (a base parts : Nat) (v : BitVec 48) (s : State) :
    s.Keeps (readFieldWord p latch a base parts v s) := by
  unfold readFieldWord
  repeat' split
  · exact (setLatch_keeps p _ s).trans (drive_keeps _ p _)
  · exact (setLatch_keeps p _ s).trans (drive_keeps _ p _)
  · exact drive_keeps s p _
  · exact drive_keeps s p _

theorem writeFieldWord_keeps (p : Port) (latch : Latch) (a base parts : Nat) (stand : BitVec 48)
    {f : BitVec 48 → State → State} (hf : ∀ x, Tame (f x)) (v : Word16) (s : State) :
    s.Keeps (writeFieldWord p latch a base parts stand f v s) := by
  unfold writeFieldWord
  dsimp only
  repeat' split
  all_goals first | exact setLatch_keeps p _ s | exact hf _ s | exact .refl s

theorem read16_keeps (p : Port) (latch : Latch) (a : Word16) (s : State) : s.Keeps (read16 p latch a s) := by
  have reg := s.regAt_tame p a.toNat
  unfold read16
  split <;> rename_i h <;> rw [h] at reg
  · exact accessRead_keeps p a _ s
  · exact driveNat_keeps s p _
  · exact driveNat_keeps s p _
  · cases reg with | acting h => exact h s
  · exact accessRead_keeps p a _ s
  · exact readFieldWord_keeps p latch _ _ _ _ s
  · cases reg with | payload hf hw => exact hf s

theorem write16_keeps (p : Port) (latch : Latch) (a : Word16) (v : BitVec 32) (s : State) :
    s.Keeps (write16 p latch a v s) := by
  have reg := s.regAt_tame p a.toNat
  unfold write16
  split <;> rename_i h <;> rw [h] at reg
  · exact access_keeps p a _ _ s
  · exact .refl s
  · cases reg with | word h => exact h _ s
  · exact access_keeps p a _ _ s
  · exact access_keeps p a _ _ s
  · cases reg with | field h => exact writeFieldWord_keeps p latch _ _ _ _ h _ s
  · exact writeFieldWord_keeps p latch _ _ _ _ (fun _ s => access_keeps p a _ _ s) _ s
  · exact access_keeps p a _ _ s
  · cases reg with | payload hf hw => exact hw v s
  · exact access_keeps p a _ _ s

theorem Reg.halfRead_keeps {r : Reg} (h : r.Tame) (p : Port) (a : Nat) (s : State) :
    s.Keeps (runRead (r.halfRead p a) s).2 := by
  cases h with
  | @acting j h =>
    cases j with
    | takes f => exact h s
    | refuses r => exact .refl s
  | payload hf hw => exact hf s
  | _ => exact .refl s

theorem Reg.halfWrite_keeps {r : Reg} (h : r.Tame) (v : Word16) (s : State) : s.Keeps (runWrite r.halfWrite v s) := by
  cases h with
  | @word x w h =>
    cases w with
    | takes f => exact h v s
    | refuses r => exact .refl s
  | @field base parts x stand w h => cases w <;> exact .refl s
  | @payload f w hf hw => cases w <;> exact .refl s
  | _ => exact .refl s

theorem refusePair_keeps {α : Type} (p : Port) (a : Nat) (write : Bool) (x y : Option (Judged α)) (s : State) :
    s.Keeps (refusePair p a write x y s) := by
  rcases refusePair_cases p a write x y s with h | ⟨r, -, h⟩ <;> rw [h]
  · exact .refl s
  · exact access_keeps _ _ _ _ s

theorem readTwo_keeps (p : Port) (a : Nat) (s : State) : s.Keeps (readTwo p a s) := by
  unfold readTwo
  extract_lets x r y q
  have hr : s.Keeps r.2 := Reg.halfRead_keeps (s.regAt_tame p a) p a s
  have hq : r.2.Keeps q.2 := Reg.halfRead_keeps (r.2.regAt_tame p (a + 1)) p (a + 1) r.2
  exact ((hr.trans hq).trans (refusePair_keeps _ _ _ _ _ q.2)).trans (drive_keeps _ p _)

theorem writeTwo_keeps (p : Port) (a : Nat) (v : BitVec 32) (s : State) : s.Keeps (writeTwo p a v s) := by
  unfold writeTwo
  extract_lets x t y
  have ht : s.Keeps t := Reg.halfWrite_keeps (s.regAt_tame p a) _ s
  exact (ht.trans (Reg.halfWrite_keeps (t.regAt_tame p (a + 1)) _ t)).trans (refusePair_keeps _ _ _ _ _ _)

theorem read32_keeps (p : Port) (latch : Latch) (a : Nat) (s : State) : s.Keeps (read32 p latch a s) := by
  have reg := s.regAt_tame p a
  unfold read32
  refine ite_keeps (fun _ => cmdSetpointFirst_keeps p s) fun _ => ite_keeps (fun _ => cmdSetpointFinal_keeps p s) fun _ => ?_
  split
  · next h =>
    rw [h] at reg
    cases reg with | payload hf hw => exact hf s
  · unfold readFieldPair
    repeat' split
    all_goals first | exact drive_keeps s p _ | exact (setLatch_keeps p _ s).trans (drive_keeps _ p _)
  · exact readTwo_keeps p a s

theorem write32_keeps (p : Port) (latch : Latch) (a : Nat) (v : BitVec 32) (s : State) :
    s.Keeps (write32 p latch a v s) := by
  have reg := s.regAt_tame p a
  unfold write32
  split
  · next h =>
    rw [h] at reg
    cases reg with | payload hf hw => exact hw v s
  · next h =>
    rw [h] at reg
    cases reg with | field hw =>
    unfold writeFieldPair
    dsimp only
    repeat' split
    all_goals first | exact hw _ s | exact setLatch_keeps p _ s
  · exact writeTwo_keeps p a v s

theorem busRead_keeps (p : Port) (a : Word16) (s : State) : s.Keeps (busRead p a s) := by
  unfold busRead
  dsimp only
  refine ite_keeps (fun _ => driveNat_keeps s p _) fun _ => ite_keeps (fun _ => ?_) fun _ => ?_
  · exact (setLatch_keeps p _ s).trans (read32_keeps p _ _ _)
  · exact (setLatch_keeps p _ s).trans (read16_keeps p _ a _)

theorem busWrite_keeps (p : Port) (a : Word16) (v : BitVec 32) (s : State) : s.Keeps (busWrite p a v s) := by
  unfold busWrite
  dsimp only
  refine ite_keeps (fun _ => .refl s) fun _ => ite_keeps (fun _ => ?_) fun _ => ?_
  · exact (setLatch_keeps p _ s).trans (write32_keeps p _ _ v _)
  · exact (setLatch_keeps p _ s).trans (write16_keeps p _ a v _)

theorem writeUnplaced_keeps (p : Port) (q : Unplaced) (v : Word16) (s : State) : s.Keeps (writeUnplaced p q v s) := by
  unfold writeUnplaced
  cases q with
  | areaBinding a => exact cmdBindingWrite_keeps p a v s
  | staleLimit =>
    unfold cmdStaleLimit
    cases p with
    | a =>
      dsimp only
      exact modAxisUnit_keeps_of_same rfl
    | b => exact refuseUnplaced_keeps _ _ _ s
  | overreadFlag => exact modPort_keeps s p _
  | lockGiveRefused =>
    dsimp only
    exact modLocks_keeps_of_same rfl
  | axisRangeFlag =>
    dsimp only
    exact modAxisUnit_keeps_of_same rfl
  | outcomeOverflow c => exact modChannel_keeps_of_same rfl rfl rfl
  | lateReturnCount =>
    dsimp only
    exact modChan_keeps_of_same rfl rfl
  | busyMarkCount =>
    dsimp only
    exact modChan_keeps_of_same rfl rfl
  | discardCount =>
    dsimp only
    exact modChan_keeps_of_same rfl rfl
  | _ => exact refuseUnplaced_keeps p _ _ s

/-! ### Every command -/

/-- A command answers a next state, and keeps everything on the way to it. -/
def State.Answers (s : State) (r : Host.Outcome State Fault Refusal) : Prop := ∃ t, r = .next t ∧ s.Keeps t

theorem State.Answers.next {s t : State} (h : s.Keeps t) : s.Answers (.next t) := ⟨t, rfl, h⟩

/-- A command of a port's write. -/
theorem State.Answers.write {p : Port} {s : State} {f : State → State} (h : Tame f) : s.Answers (.next (portWrite p s f)) :=
  .next (portWrite_keeps h)

/-- A command of a port's read. -/
theorem State.Answers.read {p : Port} {s : State} {f : State → State} (h : Tame f) : s.Answers (.next (portRead p s f)) :=
  .next (portRead_keeps h)

theorem waitEvent_keeps_if (c : ChannelNo) (b : Prop) [Decidable b] (s : State) :
    s.Keeps (if b then s.modChannel c Channel.waitEvent else s) :=
  ite_keeps (fun _ => waitEvent_keeps c s) fun _ => .refl s

theorem execSegmentTimeout_answers (c : ChannelNo) (i : Nat) (s : State) : s.Answers (execSegmentTimeout c i s) := by
  unfold execSegmentTimeout
  repeat' split
  · refine .next (.trans ?_ (resolveAttempt_keeps c true _))
    exact modChannel_keeps_of_same rfl rfl rfl
  · exact .next (.refl s)
  · exact .next (.refl s)
  · exact .next (.refl s)

theorem execHeldWaitEnd_answers (c : ChannelNo) (s : State) : s.Answers (execHeldWaitEnd c s) := by
  unfold execHeldWaitEnd
  split
  · exact .next (waitEvent_keeps_if c _ s)
  · exact .next (.refl s)

theorem execContextStale_answers (k : Fin 4) (s : State) : s.Answers (execContextStale k s) := by
  refine .next ?_
  split
  · exact ite_keeps (fun _ => discardContext_keeps k s) fun _ => .refl s
  · exact .refl s

theorem execOutstandingEntryTimeout_answers (c : ChannelNo) (dest : Nat) (tag : BitVec 8) (s : State) :
    s.Answers (execOutstandingEntryTimeout c dest tag s) := by
  refine .next ?_
  split
  · refine ite_keeps (fun _ => .trans ?_ (addOutcome_keeps c _ _)) fun _ => .refl s
    exact modChannel_keeps_of_same rfl rfl rfl
  · exact .refl s

theorem execResetGuardLapse_answers (s : State) : s.Answers (execResetGuardLapse s) := by
  refine .next ?_
  split
  · exact ite_keeps (fun _ => guardTick_keeps s) fun _ => .refl s
  · exact .refl s

theorem execSignalDetectLost_answers (d : Side) (s : State) : s.Answers (execSignalDetectLost d s) := by
  unfold execSignalDetectLost
  extract_lets t
  exact .next ((modLink_keeps s d _).trans (ite_keeps (fun _ => .refl t) fun _ => linkDrop_keeps d .loss t))

/-- Every command answers a next state and keeps the queue and every invariant. -/
theorem exec_answers (i : Instr) (s : State) : s.Answers (exec i s) := by
  cases i with
  | reset a b => exact .next (resetPart_keeps a b s)
  | waitCountRestart => exact .next (ite_keeps (fun _ => .refl s) fun _ => modClock_keeps s _)
  | stabilisationWaitEnd low => exact .next (ite_keeps (fun _ => .refl s) fun _ => waitEnds_keeps low s)
  | stabilisationTimeout low => exact .next (ite_keeps (fun _ => .refl s) fun _ => waitTimesOut_keeps low s)
  | clockFault => exact .next (ite_keeps (fun _ => clockFault_keeps s) fun _ => .refl s)
  | clockRestart p => exact .write (cmdClockRestart_keeps p)
  | clockRestartComplete => exact .next (ite_keeps (fun _ => restartCompletes_keeps s) fun _ => .refl s)
  | restartFailed => exact .next (ite_keeps (fun _ => modClock_keeps s _) fun _ => .refl s)
  | tripinConditionAppears n => exact .next (ite_keeps (fun _ => conditionAppears_keeps _ s) fun _ => .refl s)
  | tripinConditionGoes n => exact .next (ite_keeps (fun _ => conditionGoes_keeps _ s) fun _ => .refl s)
  | signalDetectAsserted d => exact .next (modLink_keeps s d _)
  | holdOffEnd d => exact .next (ite_keeps (fun _ => modLink_keeps s d _) fun _ => .refl s)
  | signalDetectLost d => exact execSignalDetectLost_answers d s
  | linkSilent d => exact .next (ite_keeps (fun _ => .refl s) fun _ => linkDrop_keeps d .silent s)
  | linkIdleReceived d t f => exact .next (receiveLinkIdle_keeps d t f s)
  | frameDiscardedNotUp d t f => exact .next (receiveFrame_keeps d t f s)
  | frameCrcFail d t bytes => exact .next (receiveBytes_keeps d t bytes s)
  | frameOnUnusedInput d t f => exact .next (receiveFrame_keeps d t f s)
  | frameForwarded d t f => exact .next (receiveFrame_keeps d t f s)
  | outputIdle d now => exact .next (outputIdle_keeps d now s)
  | cycleStartReceived d t h c => exact .next (receiveFrame_keeps d t _ s)
  | statusReceived d t h b => exact .next (receiveFrame_keeps d t _ s)
  | tripFlashReceived d t h f => exact .next (receiveFrame_keeps d t _ s)
  | dataSegmentReceived d t h b => exact .next (receiveFrame_keeps d t _ s)
  | ownDataReturned d t h b => exact .next (receiveFrame_keeps d t _ s)
  | ownStatusReturned d t h b => exact .next (receiveFrame_keeps d t _ s)
  | ownFrameRemoved d t f => exact .next (receiveFrame_keeps d t f s)
  | listenEnd => exact .next (ite_keeps (fun _ => beginLeading_keeps _ _ s) fun _ => .refl s)
  | leaderBoundary => exact .next (ite_keeps (fun _ => leaderBoundary_keeps s) fun _ => .refl s)
  | acquireMiss => exact .next (ite_keeps (fun _ => acquireMiss_keeps s) fun _ => .refl s)
  | holdoverEntry => exact .next (ite_keeps (fun _ => holdoverEntry_keeps s) fun _ => .refl s)
  | holdoverEvent => exact .next (ite_keeps (fun _ => holdoverEvent_keeps s) fun _ => .refl s)
  | runningDownEvent =>
    exact .next (ite_keeps (fun _ => localEvent_keeps (fun s => .refl s) (fun s => .refl s) s) fun _ => .refl s)
  | openPhaseEnd => exact .next (modChan_keeps_of_same rfl rfl)
  | segmentOffer => exact .next (offerSegment_keeps s)
  | segmentTimeout c i => exact execSegmentTimeout_answers c i s
  | retryWaitEnd c => exact .next (waitEvent_keeps_if c _ s)
  | heldWaitEnd c => exact execHeldWaitEnd_answers c s
  | contextStale k => exact execContextStale_answers k s
  | outstandingEntryTimeout c dest tag => exact execOutstandingEntryTimeout_answers c dest tag s
  | resetGuardLapse => exact execResetGuardLapse_answers s
  | nodeAddress p v => exact .write (cmdNodeAddress_keeps p v)
  | roleWrite p v => exact .write (cmdRole_keeps p v)
  | configurationWrite p q v => exact .write (cmdConfig_keeps p q v)
  | attach p => exact .write (cmdAttach_keeps p)
  | detach p => exact .write (cmdDetach_keeps p)
  | portSoftReset p => exact .write (cmdSoftReset_keeps p)
  | rosterWrite p plan v => exact .write (cmdRoster_keeps p plan v)
  | planStagingWrite p plan n => exact .write (cmdStaging_keeps p plan n)
  | cancelPlan p => exact .write (cmdCancelPlan_keeps p)
  | targetVelocityWrite p i v => exact .write (cmdTargetVelocity_keeps p i v)
  | shaftLimitWrite p i l v => exact .write (cmdShaftLimit_keeps p i l v)
  | planEntryWrite p i plan f v => exact .write (cmdPlanEntry_keeps p i plan f v)
  | axisParameterWrite p i q v => exact .write (cmdAxisParam_keeps p i q v)
  | engage p v => exact .write (cmdEngage_keeps p v)
  | disengage p v => exact .write (cmdDisengage_keeps p v)
  | drop p v => exact .write (cmdDrop_keeps p v)
  | correctionPost p => exact .write (cmdCorrectionPost_keeps p)
  | correctionResultRead p => exact .read (cmdCorrectionResultRead_keeps p)
  | actualPositionWrite p i v => exact .write (cmdActual_keeps p i v)
  | setpointSetFirstRead p => exact .read (cmdSetpointFirst_keeps p)
  | setpointSetFinalRead p => exact .read (cmdSetpointFinal_keeps p)
  | sourceClassWrite p n v => exact .write (cmdSourceClass_keeps p n v)
  | sourceEnableWrite p n v => exact .write (cmdSourceEnable_keeps p n v)
  | tripRequest p => exact .write (cmdTripRequest_keeps p)
  | tripRelease p => exact .write (cmdTripRelease_keeps p)
  | tripReset p => exact .write (cmdTripReset_keeps p)
  | localClear p => exact .write (cmdLocalClear_keeps p)
  | blockTake p => exact .read (cmdTake_keeps false p)
  | screenTake p => exact .read (cmdTake_keeps true p)
  | blockGive p v => exact .write (cmdBlockGive_keeps p v)
  | blockWindowAccess p word w =>
    cases w with
    | some v => exact .write (cmdBlockWindow_keeps p word (some v))
    | none => exact .read (cmdBlockWindow_keeps p word none)
  | commonAreaWrite p a word w => exact .write (cmdAreaWrite_keeps p a word w)
  | areaBindingWrite p a v => exact .write (cmdBindingWrite_keeps p a v)
  | channelConfigWrite p c q v => exact .write (cmdChannelConfig_keeps p c q v)
  | post p v => exact .write (cmdPost_keeps p v)
  | cancelHead p v => exact .write (cmdCancelHead_keeps p v)
  | outcomeRead p c => exact .read (cmdOutcomeRead_keeps p c)
  | descriptorRead p c word => exact .read (cmdDescriptor_keeps p c word)
  | streamRead p c => exact .read (cmdStream_keeps p c)
  | discardHead p v => exact .write (cmdDiscardHead_keeps p v)
  | hold p v => exact .write (cmdHold_keeps p v)
  | release p v => exact .write (cmdRelease_keeps p v)
  | openSlot p v slot => exact .write (cmdOpenSlot_keeps p v slot)
  | stripRead p c => exact .read (cmdStrip_keeps p c)
  | closeSlot p v => exact .write (cmdCloseSlot_keeps p v)
  | releaseSlot p v => exact .write (cmdReleaseSlot_keeps p v)
  | freeze p v => exact .write (cmdFreeze_keeps p v)
  | resume p v => exact .write (cmdResume_keeps p v)
  | lockTake p j => exact .read (cmdLockTake_keeps p j)
  | lockGive p j => exact .write (cmdLockGive_keeps p j)
  | notifyOptionsWrite p v => exact .write (cmdNotify_keeps p v)
  | signalSet p v => exact .write (cmdSignalSet_keeps p v)
  | signalClear p v => exact .write (cmdSignalClear_keeps p v)
  | signalEnableWrite p v => exact .write (cmdSignalEnable_keeps p v)
  | eventClear p v => exact .write fun s => modPort_keeps s p _
  | eventEnableWrite p v => exact .write fun s => modPort_keeps s p _
  | captureClear p => exact .write fun s => modPort_keeps s p _
  | undefinedAccess p a w =>
    cases w with
    | some v => exact .next (busWrite_keeps p a v s)
    | none => exact .next (busRead_keeps p a s)
  | registerWrite p target w =>
    cases target with
    | addr a => exact .next (busWrite_keeps p a w s)
    | unplaced q => exact .write (writeUnplaced_keeps p q _)
  | wideFieldLowWordRead p target =>
    cases target with
    | addr a => exact .next (busRead_keeps p a s)
    | unplaced q => exact .read fun s => driveNat_keeps s p _

/-! ### The step -/

theorem step_of_empty {s : State} (h : s.pending = []) : step s = .next s := by simp [step, h]

theorem step_of_cons {s : State} {c : Instr} {rest : List Instr} (h : s.pending = c :: rest) :
    step s = exec c (s.withPending rest) := by simp [step, h]

/-- A step meets what its command keeps on the state with the queue's rest; no invariant reads the queue. -/
theorem step_cases {s t : State} (h : step s = .next t) :
    t = s ∨ ∃ rest, (s.withPending rest).Keeps t := by
  cases hp : s.pending with
  | nil =>
    rw [step_of_empty hp] at h
    exact .inl (by cases h; rfl)
  | cons c rest =>
    rw [step_of_cons hp] at h
    obtain ⟨u, hu, hk⟩ := exec_answers c (s.withPending rest)
    rw [hu] at h
    exact .inr ⟨rest, by cases h; exact hk⟩

/-- Settles O1: the step matches on the queue. -/
theorem stepRunsFrontCommand : Obligations.StepRunsFrontCommand :=
  ⟨fun _ _ _ => step_of_cons, fun _ => step_of_empty⟩

/-- Settles O2, by the rule of each command. -/
theorem commandsLeaveTheQueue : Obligations.CommandsLeaveTheQueue := fun c s =>
  let ⟨t, ht, hk⟩ := exec_answers c s
  ⟨t, ht, hk.pending⟩

/-- Settles O3: the reset state is one of the states that RESET gives. -/
theorem resetStateIsSafe : Obligations.ResetStateIsSafe := afterReset_safe false false false false []

/-- Settles O4: every command keeps the memory's canonical form. -/
theorem stepKeepsMemoryForm : Obligations.StepKeepsMemoryForm := fun _ _ hs h => by
  obtain rfl | ⟨rest, hk⟩ := step_cases h
  · exact hs
  · exact hk.memory hs

/-- Settles O5: every command keeps the trip classes consistent. -/
theorem stepKeepsTripClasses : Obligations.StepKeepsTripClasses := fun _ _ hs h => by
  obtain rfl | ⟨rest, hk⟩ := step_cases h
  · exact hs
  · exact hk.trips hs

/-- Settles O6: every command keeps the locks' waiters. -/
theorem stepKeepsLockWaiters : Obligations.StepKeepsLockWaiters := fun _ _ hs h => by
  obtain rfl | ⟨rest, hk⟩ := step_cases h
  · exact hs
  · exact hk.locks hs

/-- Settles O7: every command keeps the axes and the shafts within their bounds. -/
theorem stepKeepsShaftAndAxisBounds : Obligations.StepKeepsShaftAndAxisBounds := by
  refine ⟨fun _ _ hs h => ?_, fun _ _ hs h => ?_⟩ <;> obtain rfl | ⟨rest, hk⟩ := step_cases h
  · exact hs
  · exact hk.axes hs
  · exact hs
  · exact hk.shafts hs

/-- Settles O59: every command keeps each block with its one owner. -/
theorem stepKeepsBlockOwners : Obligations.StepKeepsBlockOwners := fun _ _ hs h => by
  obtain rfl | ⟨rest, hk⟩ := step_cases h
  · exact hs
  · exact hk.blocks hs

end Sys2Proof.Machine
end

