-- ==== Sys2Proof/Proofs/ShaftsAndAxes.lean ====
section
/-!
PROOFS. One shaft and one axis: the generator's ramp (R47), gearing (R57), corrections and slews (R59, R62) and a publication
(R69 to R71).
-/

namespace Sys2Proof.Machine

/-! ### The ramp of a velocity (R47) -/

/-- A move away from zero, or from zero, is bounded by the limit and the target. -/
theorem ramp_away_pos {v target : Int} (limit : Nat) (hv : 0 ≤ v) (ht : v ≤ target) :
    ramp v target limit = min (v + limit) target := by
  simp only [ramp]
  split <;> split <;> omega

theorem ramp_away_neg {v target : Int} (limit : Nat) (hv : v ≤ 0) (ht : target ≤ v) :
    ramp v target limit = max (v - limit) target := by
  simp only [ramp]
  split <;> split <;> omega

/-- A move toward zero stops at the target or, where the target lies beyond it, at zero. -/
theorem ramp_toward_pos {v target : Int} (limit : Nat) (hv : 0 < v) (ht : target ≤ v) :
    ramp v target limit = max (v - limit) (max target 0) := by
  simp only [ramp]
  split <;> split <;> omega

theorem ramp_toward_neg {v target : Int} (limit : Nat) (hv : v < 0) (ht : v ≤ target) :
    ramp v target limit = min (v + limit) (min target 0) := by
  simp only [ramp]
  split <;> split <;> omega

/-- The ramp of a trip runs to zero and stays there. -/
theorem ramp_to_zero (v : Int) (limit : Nat) :
    (0 ≤ v → ramp v 0 limit = max (v - limit) 0) ∧ (v ≤ 0 → ramp v 0 limit = min (v + limit) 0) := by
  simp only [ramp]
  constructor <;> intro h <;> split <;> split <;> omega

theorem Shaft.generatorVel_below_stop {x : Shaft} {view : TripClass} (h : view = .notice ∨ view = .none) :
    x.generatorVel view = ramp x.vel x.target x.runLimit := by
  rcases h with rfl | rfl <;> rfl

/-- The limit is a_up where the velocity moves away from zero, and a_dn where it moves toward it. -/
theorem Shaft.runLimit_away {x : Shaft} (h : (0 ≤ x.vel ∧ x.vel < x.target) ∨ (x.vel ≤ 0 ∧ x.target < x.vel)) :
    x.runLimit = x.aUp := by
  unfold Shaft.runLimit
  rw [if_pos (by omega)]

theorem Shaft.runLimit_toward {x : Shaft} (h : (0 < x.vel ∧ x.target < x.vel) ∨ (x.vel < 0 ∧ x.vel < x.target)) :
    x.runLimit = x.aDn := by
  unfold Shaft.runLimit
  rw [if_neg (by omega)]

/-- A velocity below STOP moves to its target without passing zero (R47). -/
theorem Shaft.ramp_run (x : Shaft) :
    (x.vel = x.target → ramp x.vel x.target x.runLimit = x.target) ∧
    (0 ≤ x.vel → x.vel < x.target → ramp x.vel x.target x.runLimit = min (x.vel + x.aUp) x.target) ∧
    (x.vel ≤ 0 → x.target < x.vel → ramp x.vel x.target x.runLimit = max (x.vel - x.aUp) x.target) ∧
    (0 < x.vel → x.target < x.vel → ramp x.vel x.target x.runLimit = max (x.vel - x.aDn) (max x.target 0)) ∧
    (x.vel < 0 → x.vel < x.target → ramp x.vel x.target x.runLimit = min (x.vel + x.aDn) (min x.target 0)) := by
  refine ⟨fun h => ?_, fun hv ht => ?_, fun hv ht => ?_, fun hv ht => ?_, fun hv ht => ?_⟩
  · rcases Int.le_total 0 x.vel with hv | hv
    · rw [ramp_away_pos _ hv (Int.le_of_eq h)]; omega
    · rw [ramp_away_neg _ hv (Int.le_of_eq h.symm)]; omega
  · rw [Shaft.runLimit_away (by omega), ramp_away_pos _ hv (Int.le_of_lt ht)]
  · rw [Shaft.runLimit_away (by omega), ramp_away_neg _ hv (Int.le_of_lt ht)]
  · rw [Shaft.runLimit_toward (by omega), ramp_toward_pos _ hv (Int.le_of_lt ht)]
  · rw [Shaft.runLimit_toward (by omega), ramp_toward_neg _ hv (Int.le_of_lt ht)]

/-- Settles O32, by the cases of the ramp: away from zero, toward it, and to it. -/
theorem generatorMovesTowardTheTarget : Obligations.GeneratorMovesTowardTheTarget := by
  intro x view
  refine ⟨rfl, rfl, rfl, rfl, rfl, rfl, rfl, ?_, ?_, ?_⟩
  · rintro rfl
    rfl
  · rintro (rfl | rfl)
    · exact ramp_to_zero _ _
    · exact ramp_to_zero _ _
  · intro hview
    have hvel : (x.generate view).vel = ramp x.vel x.target x.runLimit := Shaft.generatorVel_below_stop hview
    obtain ⟨hsame, hup, hdown, htowardPos, htowardNeg⟩ := x.ramp_run
    rw [hvel]
    refine ⟨hsame, hup, hdown, fun hv h0 ht => ?_, fun hv h0 ht => ?_, fun hv ht => ?_, fun hv ht => ?_⟩
    · rw [htowardPos hv ht, Int.max_eq_left h0]
    · rw [htowardNeg hv ht, Int.min_eq_left h0]
    · rw [htowardPos hv (by omega), Int.max_eq_right (Int.le_of_lt ht)]
    · rw [htowardNeg hv (by omega), Int.min_eq_right (Int.le_of_lt ht)]

/-! ### Gearing (R57) -/

/-- One gearing event: the quotient goes into g, the remainder stays below the denominator. -/
theorem Axis.gear_conserves (x : Axis) (step : Int) (hd : 0 < (x.work.den : Int)) :
    ∃ q : Int, (x.gear step).g = x.g + BitVec.ofInt 32 q ∧ q * x.work.den + (x.gear step).r = x.work.num * step + x.r ∧
      0 ≤ (x.gear step).r ∧ (x.gear step).r < x.work.den := by
  refine ⟨_, rfl, ?_, Int.emod_nonneg _ (Int.ne_of_gt hd), Int.emod_lt_of_pos _ hd⟩
  rw [Int.mul_comm x.work.num, Int.mul_comm]
  exact Int.mul_ediv_add_emod _ _

/-- A run of gearing events loses no angle; p is g + k once it was, and after each event. -/
theorem Axis.gear_foldl (steps : List Int) (x : Axis) (h0 : 0 ≤ x.r) (hr : x.r < x.work.den) :
    let y := steps.foldl Axis.gear x
    0 ≤ y.r ∧ y.r < y.work.den ∧ y.work = x.work ∧ y.k = x.k ∧ y.cp = x.cp ∧ y.state = x.state ∧
    (steps ≠ [] ∨ x.p = x.g + x.k → y.p = y.g + y.k) ∧
    ∃ q : Int, y.g = x.g + BitVec.ofInt 32 q ∧ q * x.work.den + y.r - x.r = x.work.num * steps.sum := by
  induction steps generalizing x with
  | nil => exact ⟨h0, hr, rfl, rfl, rfl, rfl, fun h => h.elim (absurd rfl) id, 0, by simp, by simp⟩
  | cons step steps ih =>
    obtain ⟨q, hg, hq, h0', hr'⟩ := x.gear_conserves step (by omega)
    obtain ⟨hy0, hyr, hwork, hk, hcp, hstate, hp, q', hg', hq'⟩ := ih (x.gear step) h0' hr'
    refine ⟨hy0, hyr, hwork, hk, hcp, hstate, fun _ => hp (.inr rfl), q + q', ?_, ?_⟩
    · rw [List.foldl_cons, hg', hg, BitVec.add_assoc, ← BitVec.ofInt_add]
    · change q' * (x.work.den : Int) + _ - _ = x.work.num * _ at hq'
      rw [List.sum_cons, Int.mul_add, ← hq', Int.add_mul, List.foldl_cons]
      omega

/-- Settles O33, by induction on the list of steps. -/
theorem gearingConservesTheAngle : Obligations.GearingConservesTheAngle := by
  intro x steps h0 hr
  obtain ⟨hy0, hyr, hwork, hk, hcp, hstate, hp, hq⟩ := Axis.gear_foldl steps x h0 hr
  exact ⟨hy0, hyr, hwork, hk, hcp, hstate, fun h => hp (.inl h), hq⟩

/-! ### Corrections and slews (R59, R62) -/

theorem Axis.correct_follow {x : Axis} (delta : Int) (he : x.enabled = true) (hs : x.state = .follow) :
    x.correct delta =
      if -524288 ≤ x.cp + delta ∧ x.cp + delta ≤ 524288 then (.applied, { x with cp := x.cp + delta })
      else (.clamped, { x with cp := clampInt (x.cp + delta) 524288 }) := by
  simp [Axis.correct, he, hs]

/-- A clamped amount lies within the limit, and takes it off the magnitude of what it is clamped from. -/
theorem clampInt_rest (x : Int) (limit : Nat) : (x - clampInt x limit).natAbs = x.natAbs - limit := by
  unfold clampInt
  split
  · omega
  · split <;> omega

/-- What a slew of ENGAGING or FOLLOW does: the clamped part of c_p goes into k. -/
theorem Axis.slew_eq {x : Axis} {limit : Nat}
    (h : (x.state = .follow ∧ limit = x.corrSlew) ∨ (x.state = .engaging ∧ limit = x.engageSlew)) :
    x.slew = { x.slewBy limit with
      state := if x.state = .engaging ∧ (x.slewBy limit).cp = 0 then .follow else x.state } := by
  rcases h with ⟨hs, rfl⟩ | ⟨hs, rfl⟩
  · simp [Axis.slew, hs, Axis.slewBy]
  · simp only [Axis.slew, hs, true_and]
    split
    · rfl
    · simp [Axis.slewBy, hs]

/-- Settles O34, by the table of R62 and the clamped move of a slew. -/
theorem correctionsAndSlews : Obligations.CorrectionsAndSlews := by
  refine ⟨fun x delta => ⟨fun he => ?_, fun he hs => ?_, fun he hs => ?_⟩, fun x limit h => ?_⟩
  · simp [Axis.correct, he]
  · simp [Axis.correct, he, hs]
  · rw [Axis.correct_follow delta he hs]
    refine ⟨fun hlo hhi => if_pos ⟨hlo, hhi⟩, fun hhi => ?_, fun hlo => ?_⟩
    · rw [if_neg (by omega), clampInt, if_neg (by omega), if_pos hhi]
    · rw [if_neg (by omega), clampInt, if_pos hlo]
  · obtain ⟨hlo, hhi⟩ := clampInt_range x.cp limit (by omega)
    rw [Axis.slew_eq h]
    exact ⟨_, hlo, hhi, rfl, rfl, rfl, rfl, rfl, clampInt_rest _ _, rfl⟩

/-! ### A publication (R69 to R71) -/

theorem AxisUnit.publish_axis (x : AxisUnit) (n : Cycle) (i : AxisNo) :
    (x.publish n).axes[i.val] = (x.axes[i.val]).published (x.live.axes[i.val]).p := by
  simp [AxisUnit.publish]

theorem AxisUnit.publish_live (x : AxisUnit) (n : Cycle) (i : AxisNo) :
    (x.publish n).live.axes[i.val] =
      { state := ((x.publish n).axes[i.val]).state, p := ((x.publish n).axes[i.val]).p,
        velOut := ((x.publish n).axes[i.val]).velOut } := by
  simp [AxisUnit.publish, AxisUnit.toSet]

/-- The following check changes only the run count, the last error and the missing count (R73). -/
theorem Axis.followCheck_kept (x : Axis) :
    x.followCheck.p = x.p ∧ x.followCheck.state = x.state ∧ x.followCheck.history = x.history := by
  unfold Axis.followCheck
  repeat' split
  all_goals exact ⟨rfl, rfl, rfl⟩

theorem Axis.published_eqs (x : Axis) (previous : Pos) :
    (x.published previous).p = x.p ∧ (x.published previous).state = x.state ∧
    (x.published previous).velOut = x.outputVel previous ∧ (x.published previous).fresh = false ∧
    (x.published previous).history = pushBounded x.history x.p 4 := by
  obtain ⟨hp, hs, hh⟩ := x.followCheck_kept
  simp [Axis.published, hp, hs, hh]

theorem Axis.outputVel_eq (x : Axis) (previous : Pos) :
    x.outputVel previous =
      if x.state = .off then 0 else if x.state = .disengaging then x.u else (x.p - previous).toInt := by
  unfold Axis.outputVel posDiff
  cases x.state <;> simp

theorem pushBounded_getLast? {α : Type} (xs : List α) (x : α) {n : Nat} (hn : 1 ≤ n) :
    (pushBounded xs x n).getLast? = some x := by
  unfold pushBounded
  rw [List.getLast?_drop]
  simp
  omega

theorem pushBounded_of_lt {α : Type} {xs : List α} (x : α) {n : Nat} (h : xs.length < n) :
    pushBounded xs x n = xs ++ [x] := by
  simp [pushBounded, show xs.length + 1 - n = 0 by omega]

theorem pushBounded_of_full {α : Type} {xs : List α} (x : α) {n : Nat} (h : xs.length = n) (hn : 1 ≤ n) :
    pushBounded xs x n = xs.drop 1 ++ [x] := by
  rw [pushBounded, show xs.length + 1 - n = 1 by omega, List.drop_append_of_le_length (by omega)]

theorem AxisUnit.anyActive_iff (u : AxisUnit) : u.anyActive = true ↔ ∃ i : AxisNo, (u.axes[i.val]).state ≠ .off := by
  simp only [AxisUnit.anyActive, List.any_eq_true, Vector.mem_toList_iff, Vector.mem_iff_getElem, decide_eq_true_eq]
  exact ⟨fun ⟨_, ⟨i, hi, h⟩, hx⟩ => ⟨⟨i, hi⟩, h ▸ hx⟩, fun ⟨i, hi⟩ => ⟨_, ⟨i.val, i.isLt, rfl⟩, hi⟩⟩

/-- Settles O35, from what a publication does to each axis and to the stale count. -/
theorem publicationWritesTheLiveSet : Obligations.PublicationWritesTheLiveSet := by
  intro x n
  refine ⟨rfl, fun i => ?_, fun h => ?_, fun h ht => ?_, fun h ht => ?_, rfl, rfl, rfl, rfl⟩
  · obtain ⟨hp, hs, hv, hf, hh⟩ := (x.axes[i.val]).published_eqs (x.live.axes[i.val]).p
    simp only [AxisUnit.publish_live, AxisUnit.publish_axis, hp, hs, hv, hf, hh]
    exact ⟨trivial, Axis.outputVel_eq _ _, trivial, trivial, trivial, pushBounded_getLast? _ _ (by decide),
      fun h => pushBounded_of_lt _ (by omega), fun h => pushBounded_of_full _ h (by decide)⟩
  all_goals
    show x.nextStale = _
    unfold AxisUnit.nextStale
  · exact if_neg fun ha => (x.anyActive_iff.mp ha).elim fun i hi => hi (h i)
  · rw [if_pos (x.anyActive_iff.mpr h), if_pos ht]
  · rw [if_pos (x.anyActive_iff.mpr h), if_neg ht]

end Sys2Proof.Machine
end

