-- ==== Sys2Proof/Proofs/EventFrames.lean ====
section
/-!
PROOFS. What the work of a unit leaves as it is: event flags that are only raised, the channel unit's work, which touches no
other unit, and the work of a cycle event that follows the shafts, which raises sources and publishes.
-/

namespace Sys2Proof.Machine

/-! ### Ports on which events are only raised -/

/-- The ports of `t` are those of `s` with event flags raised, none cleared and nothing else changed. -/
def State.OnlyRaises (s t : State) : Prop :=
  ∀ p : Port, t.port p = { s.port p with flags := (t.port p).flags } ∧ ∀ e : Event, s.flag p e = true → t.flag p e = true

theorem State.OnlyRaises.of_ports {s t : State} (h : t.ports = s.ports) : s.OnlyRaises t := fun p => by
  have : t.port p = s.port p := by unfold State.port; rw [h]
  exact ⟨by rw [this], fun e he => by rwa [State.flag, this]⟩

theorem State.OnlyRaises.refl (s : State) : s.OnlyRaises s := .of_ports rfl

theorem State.OnlyRaises.trans {s t u : State} (h : s.OnlyRaises t) (k : t.OnlyRaises u) : s.OnlyRaises u := fun p =>
  ⟨by rw [(k p).1, (h p).1], fun e he => (k p).2 e ((h p).2 e he)⟩

theorem raise_onlyRaises (p : Port) (e : Event) (s : State) : s.OnlyRaises (raise p e s) := fun q =>
  ⟨by rw [raise_port], fun d hd => by rw [raise_flag, hd, Bool.or_true]⟩

theorem raiseBoth_onlyRaises (e : Event) (s : State) : s.OnlyRaises (raiseBoth e s) :=
  (raise_onlyRaises .a e s).trans (raise_onlyRaises .b e _)

theorem raiseBoth_raises (e : Event) (s : State) (p : Port) : (raiseBoth e s).flag p e = true := by simp [raiseBoth_flag]

theorem raise_raises (p : Port) (e : Event) (s : State) : (raise p e s).flag p e = true := by simp [raise_flag]

/-! ### The channel unit's work -/

/-- `t` is `s` after work of the channel unit: it changes channels and contexts, frees and gives out blocks without touching a
byte, and raises events. -/
structure State.ChannelWorked (s t : State) : Prop where
  clock : t.clock = s.clock
  links : t.links = s.links
  ring : t.ring = s.ring
  cyc : t.cyc = s.cyc
  shafts : t.shafts = s.shafts
  axis : t.axis = s.axis
  trip : t.trip = s.trip
  mem : t.pool.mem = s.pool.mem
  locks : t.locks = s.locks
  ports : s.OnlyRaises t
  pending : t.pending = s.pending

theorem State.ChannelWorked.refl (s : State) : s.ChannelWorked s :=
  ⟨rfl, rfl, rfl, rfl, rfl, rfl, rfl, rfl, rfl, .refl s, rfl⟩

theorem State.ChannelWorked.trans {s t u : State} (h : s.ChannelWorked t) (k : t.ChannelWorked u) : s.ChannelWorked u :=
  ⟨k.clock.trans h.clock, k.links.trans h.links, k.ring.trans h.ring, k.cyc.trans h.cyc, k.shafts.trans h.shafts,
    k.axis.trans h.axis, k.trip.trans h.trip, k.mem.trans h.mem, k.locks.trans h.locks, h.ports.trans k.ports,
    k.pending.trans h.pending⟩

theorem ite_channelWorked {s t u : State} {c : Prop} [Decidable c] (ht : c → s.ChannelWorked t) (hu : ¬c → s.ChannelWorked u) :
    s.ChannelWorked (if c then t else u) := by
  split
  · exact ht ‹_›
  · exact hu ‹_›

theorem foldl_channelWorked {α : Type} {f : State → α → State} (h : ∀ (s : State) a, s.ChannelWorked (f s a)) (xs : List α) (s : State) :
    s.ChannelWorked (xs.foldl f s) := by
  induction xs generalizing s with
  | nil => exact .refl s
  | cons x xs ih => exact (h s x).trans (ih _)

theorem modChan_channelWorked (s : State) (f : ChannelUnit → ChannelUnit) : s.ChannelWorked (s.modChan f) :=
  ⟨rfl, rfl, rfl, rfl, rfl, rfl, rfl, rfl, rfl, .of_ports rfl, rfl⟩

theorem modChannel_channelWorked (s : State) (c : ChannelNo) (f : Channel → Channel) : s.ChannelWorked (s.modChannel c f) :=
  ⟨rfl, rfl, rfl, rfl, rfl, rfl, rfl, rfl, rfl, .of_ports rfl, rfl⟩

theorem setContext_channelWorked (s : State) (k : Fin 4) (c : Option Context) : s.ChannelWorked (s.setContext k c) :=
  ⟨rfl, rfl, rfl, rfl, rfl, rfl, rfl, rfl, rfl, .of_ports rfl, rfl⟩

theorem freeBlocks_channelWorked (bs : List BlockNo) (s : State) : s.ChannelWorked (freeBlocks bs s) :=
  ⟨rfl, rfl, rfl, rfl, rfl, rfl, rfl, rfl, rfl, .of_ports rfl, rfl⟩

theorem raise_channelWorked (p : Port) (e : Event) (s : State) : s.ChannelWorked (raise p e s) :=
  ⟨rfl, rfl, rfl, rfl, rfl, rfl, rfl, rfl, rfl, raise_onlyRaises p e s, rfl⟩

theorem addOutcome_channelWorked (c : ChannelNo) (r : OutcomeRecord) (s : State) : s.ChannelWorked (addOutcome c r s) :=
  (modChannel_channelWorked s c _).trans (raise_channelWorked _ _ _)

theorem idleHead_channelWorked (b : Bool) (c : ChannelNo) (s : State) : s.ChannelWorked (idleHead b c s) :=
  modChannel_channelWorked s c _

theorem removeMessage_channelWorked (c : ChannelNo) (i : Nat) (s : State) : s.ChannelWorked (removeMessage c i s) := by
  unfold removeMessage
  split
  · exact .refl s
  · rename_i m _
    have removed := (modChannel_channelWorked s c fun x => { x with queue := x.queue.eraseIdx i }).trans
      (freeBlocks_channelWorked m.blocks _)
    exact ite_channelWorked
      (fun _ => (removed.trans (modChan_channelWorked _ _)).trans (idleHead_channelWorked false c _)) fun _ => removed

theorem finalOutcome_channelWorked (c : ChannelNo) (i : Nat) (o : MsgOutcome) (n : Nat) (s : State) :
    s.ChannelWorked (finalOutcome c i o n s) := by
  unfold finalOutcome
  split
  · exact .refl s
  · exact (removeMessage_channelWorked c i s).trans (addOutcome_channelWorked c _ _)

theorem makeEntry_channelWorked (c : ChannelNo) (dest : Nat) (tag : BitVec 8) (s : State) :
    s.ChannelWorked (makeEntry c dest tag s) :=
  ((modChannel_channelWorked s c _).trans (foldl_channelWorked (fun s _ => addOutcome_channelWorked c _ s) _ _)).trans
    (modChannel_channelWorked _ c _)

theorem resolveAttempt_channelWorked (c : ChannelNo) (b : Bool) (s : State) : s.ChannelWorked (resolveAttempt c b s) := by
  unfold resolveAttempt
  split
  · refine ite_channelWorked (fun _ => .refl s) fun _ => ite_channelWorked (fun _ => removeMessage_channelWorked c 0 s) fun _ => ?_
    split
    · exact ite_channelWorked (fun _ => idleHead_channelWorked false c s) fun _ => modChannel_channelWorked s c _
    · exact modChannel_channelWorked s c _
    · rename_i o n _
      have final := finalOutcome_channelWorked c 0 o n s
      exact ite_channelWorked (fun _ => final.trans (makeEntry_channelWorked _ _ _ _)) fun _ => final
  · exact .refl s

theorem attemptEvent_channelWorked (c : ChannelNo) (s : State) : s.ChannelWorked (attemptEvent c s) :=
  (modChannel_channelWorked s c _).trans (resolveAttempt_channelWorked c true _)

theorem discardContext_channelWorked (k : Fin 4) (s : State) : s.ChannelWorked (discardContext k s) := by
  unfold discardContext
  split
  · exact .refl s
  · rename_i c _
    have freed := (setContext_channelWorked s k none).trans (freeBlocks_channelWorked c.blocks _)
    have reopened (t : State) : t.ChannelWorked (reopenEntry c (t.modChan fun u => { u with discards := bump u.discards })) :=
      (modChan_channelWorked t _).trans (ite_channelWorked (fun _ => modChannel_channelWorked _ _ _) fun _ => .refl _)
    refine .trans ?_ (reopened _)
    split
    · exact freed.trans (modChannel_channelWorked _ _ _)
    · exact freed

theorem contextEvent_channelWorked (k : Fin 4) (s : State) : s.ChannelWorked (contextEvent k s) := by
  unfold contextEvent
  split
  · exact .refl s
  · exact ite_channelWorked (fun _ => discardContext_channelWorked k s) fun _ => setContext_channelWorked s k _

theorem entriesEvent_channelWorked (c : ChannelNo) (s : State) : s.ChannelWorked (entriesEvent c s) :=
  ((modChannel_channelWorked s c _).trans (modChannel_channelWorked _ c _)).trans
    (foldl_channelWorked (fun s _ => addOutcome_channelWorked c _ s) _ _)

theorem channelWork_channelWorked (b : Bool) (s : State) : s.ChannelWorked (channelWork b s) := by
  unfold channelWork
  extract_lets attempts contexts entries
  have hattempts : s.ChannelWorked attempts := foldl_channelWorked
    (fun s c => (modChannel_channelWorked s c _).trans (attemptEvent_channelWorked c _)) allChannels s
  have hcontexts : attempts.ChannelWorked contexts :=
    foldl_channelWorked (fun s k => contextEvent_channelWorked k s) allContexts attempts
  have hentries : contexts.ChannelWorked entries := foldl_channelWorked
    (fun s c => ite_channelWorked (fun _ => entriesEvent_channelWorked c s) fun _ => .refl s) allChannels contexts
  exact ((hattempts.trans hcontexts).trans hentries).trans (modChan_channelWorked _ _)

/-! ### The work of a cycle event that follows the shafts -/

/-- Whether a rise of the view to INSTANT stops the shafts of this node (R48, R50). -/
def State.stopsAtInstant (s : State) : Bool := s.leading || decide (s.cyc.lock = .holdover) || s.cyc.runningDown

theorem State.stopsAtInstant_congr {s t : State} (h : t.cyc = s.cyc) : t.stopsAtInstant = s.stopsAtInstant := by
  simp [State.stopsAtInstant, State.leading, h]

/-- A shaft after the rises of a view to `view`: its velocity may have become 0 at INSTANT, and its target 0 from STOP on
(R48). -/
def Shaft.Slowed (x : Shaft) (stops : Bool) (view : TripClass) (y : Shaft) : Prop :=
  ∃ v w : Int, y = { x with vel := v, target := w } ∧ (v = x.vel ∨ v = 0 ∧ view = .instant ∧ stops = true) ∧
    (w = x.target ∨ w = 0 ∧ 2 ≤ view.rank)

theorem Shaft.Slowed.refl (x : Shaft) (stops : Bool) (view : TripClass) : x.Slowed stops view x :=
  ⟨x.vel, x.target, rfl, .inl rfl, .inl rfl⟩

theorem Shaft.Slowed.mono {x y : Shaft} {stops : Bool} {view v : TripClass} (h : x.Slowed stops view y)
    (hv : view.rank ≤ v.rank) : x.Slowed stops v y := by
  obtain ⟨a, b, hy, ha, hb⟩ := h
  exact ⟨a, b, hy, ha.imp_right fun ⟨h0, hi, hs⟩ => ⟨h0, TripClass.eq_instant_of_rank (hi ▸ hv), hs⟩,
    hb.imp_right fun ⟨h0, h2⟩ => ⟨h0, Nat.le_trans h2 hv⟩⟩

theorem Shaft.Slowed.trans {x y z : Shaft} {stops : Bool} {view : TripClass} (h : x.Slowed stops view y)
    (k : y.Slowed stops view z) : x.Slowed stops view z := by
  obtain ⟨a, b, rfl, ha, hb⟩ := h
  obtain ⟨c, d, rfl, hc, hd⟩ := k
  exact ⟨c, d, rfl, hc.elim (fun h => (show c = a from h) ▸ ha) .inr, hd.elim (fun h => (show d = b from h) ▸ hb) .inr⟩

/-- A source after raises: it may have latched (R77, R78). -/
def Source.Raised (x y : Source) : Prop :=
  y = { x with latched := y.latched, raises := y.raises } ∧ (x.latched = true → y.latched = true)

theorem Source.Raised.refl (x : Source) : x.Raised x := ⟨rfl, id⟩

theorem Source.Raised.trans {x y z : Source} (h : x.Raised y) (k : y.Raised z) : x.Raised z :=
  ⟨by rw [k.1, h.1], k.2 ∘ h.2⟩

/-- Sources 8 and 15, which the cycle unit alone raises, at its expiry and at a change of leadership (R77). -/
abbrev leadershipSource (n : SourceNo) : Prop := n = 8 ∨ n = 15

/-- `t` is `s` after work of a cycle event that follows the shafts' move: sources rise, the view with them, axes advance and
are published, own frames wait and the channel unit works. -/
structure State.EventWorked (s t : State) : Prop where
  clock : t.clock = s.clock
  links : t.links = s.links
  mode : t.ring.mode = s.ring.mode
  ownCycleStart : t.ring.ownCycleStart = s.ring.ownCycleStart
  cyc : t.cyc = s.cyc
  shaftUnit : t.shafts = { s.shafts with shafts := t.shafts.shafts }
  shaft : ∀ i : ShaftNo, (s.getShaft i).Slowed s.stopsAtInstant t.trip.view (t.getShaft i)
  view : s.trip.view.rank ≤ t.trip.view.rank
  source : ∀ n : SourceNo, (s.getSource n).Raised (t.getSource n)
  raises : ∀ n : SourceNo, leadershipSource n → (t.getSource n).raises = (s.getSource n).raises
  tripLeader : t.trip.tripLeader = s.trip.tripLeader
  resetNo : t.trip.resetNo = s.trip.resetNo
  stagedReset : t.trip.stagedReset = s.trip.stagedReset
  mem : t.pool.mem = s.pool.mem
  locks : t.locks = s.locks
  ports : s.OnlyRaises t
  pending : t.pending = s.pending

theorem State.EventWorked.trans {s t u : State} (h : s.EventWorked t) (k : t.EventWorked u) : s.EventWorked u where
  clock := k.clock.trans h.clock
  links := k.links.trans h.links
  mode := k.mode.trans h.mode
  ownCycleStart := k.ownCycleStart.trans h.ownCycleStart
  cyc := k.cyc.trans h.cyc
  shaftUnit := by rw [k.shaftUnit, h.shaftUnit]
  shaft i := ((h.shaft i).mono k.view).trans (State.stopsAtInstant_congr h.cyc ▸ k.shaft i)
  view := Nat.le_trans h.view k.view
  source n := (h.source n).trans (k.source n)
  raises n hn := (k.raises n hn).trans (h.raises n hn)
  tripLeader := k.tripLeader.trans h.tripLeader
  resetNo := k.resetNo.trans h.resetNo
  stagedReset := k.stagedReset.trans h.stagedReset
  mem := k.mem.trans h.mem
  locks := k.locks.trans h.locks
  ports := h.ports.trans k.ports
  pending := k.pending.trans h.pending

/-- A change that leaves the clock, the links, the cycle unit, the shafts and the trip unit is such work if it only raises
events and leaves the path mode, the own CYCLE_START, the bytes, the locks and the queue. -/
theorem State.EventWorked.of_same {s t : State} (clock : t.clock = s.clock) (links : t.links = s.links)
    (mode : t.ring.mode = s.ring.mode) (own : t.ring.ownCycleStart = s.ring.ownCycleStart) (cyc : t.cyc = s.cyc)
    (shafts : t.shafts = s.shafts) (trip : t.trip = s.trip) (mem : t.pool.mem = s.pool.mem) (locks : t.locks = s.locks)
    (ports : s.OnlyRaises t) (pending : t.pending = s.pending) : s.EventWorked t where
  clock := clock
  links := links
  mode := mode
  ownCycleStart := own
  cyc := cyc
  shaftUnit := by rw [shafts]
  shaft i := by unfold State.getShaft; rw [shafts]; exact .refl _ _ _
  view := Nat.le_of_eq (by rw [trip])
  source n := by unfold State.getSource; rw [trip]; exact .refl _
  raises n _ := by unfold State.getSource; rw [trip]
  tripLeader := by rw [trip]
  resetNo := by rw [trip]
  stagedReset := by rw [trip]
  mem := mem
  locks := locks
  ports := ports
  pending := pending

theorem State.EventWorked.refl (s : State) : s.EventWorked s :=
  .of_same rfl rfl rfl rfl rfl rfl rfl rfl rfl (.refl s) rfl

theorem State.ChannelWorked.eventWorked {s t : State} (h : s.ChannelWorked t) : s.EventWorked t :=
  .of_same h.clock h.links (by rw [h.ring]) (by rw [h.ring]) h.cyc h.shafts h.trip h.mem h.locks h.ports h.pending

theorem modAxisUnit_eventWorked (s : State) (f : AxisUnit → AxisUnit) : s.EventWorked (s.modAxisUnit f) :=
  .of_same rfl rfl rfl rfl rfl rfl rfl rfl rfl (.of_ports rfl) rfl

theorem modAxis_eventWorked (s : State) (i : AxisNo) (f : Axis → Axis) : s.EventWorked (s.modAxis i f) :=
  .of_same rfl rfl rfl rfl rfl rfl rfl rfl rfl (.of_ports rfl) rfl

theorem raise_eventWorked (p : Port) (e : Event) (s : State) : s.EventWorked (raise p e s) :=
  (raise_channelWorked p e s).eventWorked

theorem raiseBoth_eventWorked (e : Event) (s : State) : s.EventWorked (raiseBoth e s) :=
  (raise_eventWorked .a e s).trans (raise_eventWorked .b e _)

theorem ite_eventWorked {s t u : State} {c : Prop} [Decidable c] (ht : c → s.EventWorked t) (hu : ¬c → s.EventWorked u) :
    s.EventWorked (if c then t else u) := by
  split
  · exact ht ‹_›
  · exact hu ‹_›

theorem foldl_eventWorked {α : Type} {f : State → α → State} (h : ∀ (s : State) a, s.EventWorked (f s a)) (xs : List α)
    (s : State) : s.EventWorked (xs.foldl f s) := by
  induction xs generalizing s with
  | nil => exact .refl s
  | cons x xs ih => exact (h s x).trans (ih _)

/-! ### The trip unit's own work -/

/-- `t` is `s` after work of the trip unit alone: it may drop axes to OFF (R56), and leaves the rest of the axis unit. -/
structure State.Tripped (s t : State) : Prop extends s.EventWorked t where
  axisUnit : t.axis = { s.axis with axes := t.axis.axes }
  axis : ∀ i : AxisNo, t.getAxis i = s.getAxis i ∨ t.getAxis i = (s.getAxis i).toOff

theorem State.Tripped.trans {s t u : State} (h : s.Tripped t) (k : t.Tripped u) : s.Tripped u where
  toEventWorked := h.toEventWorked.trans k.toEventWorked
  axisUnit := by rw [k.axisUnit, h.axisUnit]
  axis i := by
    rcases k.axis i with hk | hk
    · rw [hk]
      exact h.axis i
    · refine .inr (hk.trans ?_)
      rcases h.axis i with hh | hh <;> rw [hh]
      rfl

/-- Work that leaves the axis unit drops no axis. -/
theorem State.EventWorked.tripped {s t : State} (h : s.EventWorked t) (ha : t.axis = s.axis) : s.Tripped t :=
  { h with axisUnit := by rw [ha], axis := fun i => .inl (by unfold State.getAxis; rw [ha]) }

theorem State.Tripped.refl (s : State) : s.Tripped s := (State.EventWorked.refl s).tripped rfl

theorem ite_tripped {s t u : State} {c : Prop} [Decidable c] (ht : c → s.Tripped t) (hu : ¬c → s.Tripped u) :
    s.Tripped (if c then t else u) := by
  split
  · exact ht ‹_›
  · exact hu ‹_›

theorem raiseBoth_tripped (e : Event) (s : State) : s.Tripped (raiseBoth e s) := (raiseBoth_eventWorked e s).tripped rfl

/-- A change of the trip unit that leaves its sources, its leader, its reset number and a staged reset, and that lowers no
view, is such work. -/
theorem State.Tripped.of_trip {s t : State} (ht : t = { s with trip := t.trip })
    (view : s.trip.view.rank ≤ t.trip.view.rank) (source : ∀ n : SourceNo, (s.getSource n).Raised (t.getSource n))
    (raises : ∀ n : SourceNo, leadershipSource n → (t.getSource n).raises = (s.getSource n).raises)
    (leader : t.trip.tripLeader = s.trip.tripLeader) (resetNo : t.trip.resetNo = s.trip.resetNo)
    (staged : t.trip.stagedReset = s.trip.stagedReset) : s.Tripped t where
  clock := by rw [ht]
  links := by rw [ht]
  mode := by rw [ht]
  ownCycleStart := by rw [ht]
  cyc := by rw [ht]
  shaftUnit := by rw [ht]
  shaft i := by rw [show t.getShaft i = s.getShaft i by rw [ht]; rfl]; exact .refl _ _ _
  view := view
  source := source
  raises := raises
  tripLeader := leader
  resetNo := resetNo
  stagedReset := staged
  mem := by rw [ht]
  locks := by rw [ht]
  ports := .of_ports (by rw [ht])
  pending := by rw [ht]
  axisUnit := by rw [ht]
  axis i := .inl (by rw [ht]; rfl)

/-- A change of the trip unit that leaves its sources and its view. -/
theorem modTrip_tripped {s : State} {f : TripUnit → TripUnit} (view : (f s.trip).view = s.trip.view)
    (sources : (f s.trip).sources = s.trip.sources) (leader : (f s.trip).tripLeader = s.trip.tripLeader)
    (resetNo : (f s.trip).resetNo = s.trip.resetNo) (staged : (f s.trip).stagedReset = s.trip.stagedReset) :
    s.Tripped (s.modTrip f) := by
  have same (n : SourceNo) : (s.modTrip f).getSource n = s.getSource n := by
    unfold State.getSource
    rw [State.modTrip_trip, sources]
  exact .of_trip rfl (by simp [view]) (fun n => by rw [same]; exact .refl _) (fun n _ => by rw [same]) leader resetNo staged

theorem leadSync_tripped (s : State) : s.Tripped (leadSync s) :=
  ite_tripped (fun _ => modTrip_tripped rfl rfl rfl rfl rfl) fun _ => .refl s

theorem freezeStore_channelWorked (c : ChannelNo) (s : State) : s.ChannelWorked (freezeStore c s) :=
  ite_channelWorked (fun _ => .refl s) fun _ => (modChannel_channelWorked s c _).trans (raise_channelWorked _ _ _)

theorem tripFreeze_channelWorked (s : State) : s.ChannelWorked (tripFreeze s) :=
  foldl_channelWorked (fun s c => ite_channelWorked (fun _ => freezeStore_channelWorked c s) fun _ => .refl s) _ s

theorem clearTargets_getShaft (s : State) (i : ShaftNo) :
    (clearTargets s).getShaft i = { s.getShaft i with target := 0 } := by
  simp [clearTargets, State.getShaft]

theorem instantEffects_getShaft (s : State) (i : ShaftNo) :
    (instantEffects s).getShaft i = if s.stopsAtInstant then { s.getShaft i with vel := 0 } else s.getShaft i := by
  unfold instantEffects State.stopsAtInstant
  split <;> simp [State.getShaft, stopShafts]

/-- The shafts after a rise of the view to `c` (R48, R50). -/
theorem raiseView_getShaft (c : TripClass) (s : State) (i : ShaftNo) :
    (raiseView c s).getShaft i = if s.trip.view.rank < c.rank then
      { s.getShaft i with
        vel := if c = .instant ∧ s.stopsAtInstant = true then 0 else (s.getShaft i).vel
        target := if 2 ≤ c.rank then 0 else (s.getShaft i).target } else s.getShaft i := by
  unfold raiseView
  extract_lets old risen slowed stopped
  have hrisen : risen.getShaft i = s.getShaft i := by simp [risen, State.getShaft]
  have hslowed : slowed.getShaft i = { s.getShaft i with target := if 2 ≤ c.rank then 0 else (s.getShaft i).target } := by
    unfold slowed
    split
    · rw [clearTargets_getShaft, hrisen]
    · exact hrisen
  have hcyc : slowed.cyc = s.cyc := by unfold slowed; split <;> simp [risen]
  have hstopped : stopped.getShaft i = { s.getShaft i with
      vel := if c = .instant ∧ s.stopsAtInstant = true then 0 else (s.getShaft i).vel
      target := if 2 ≤ c.rank then 0 else (s.getShaft i).target } := by
    unfold stopped
    by_cases hc : c = .instant
    · rw [if_pos hc, instantEffects_getShaft, hslowed, State.stopsAtInstant_congr hcyc]
      simp only [hc, true_and]
      split <;> rfl
    · rw [if_neg hc, hslowed]
      simp [hc]
  have hfreeze : (tripFreeze stopped).getShaft i = stopped.getShaft i := by simp [State.getShaft]
  split
  · split
    · rw [hfreeze, hstopped]
    · exact hstopped
  · rfl

theorem raiseView_shaftUnit (c : TripClass) (s : State) :
    (raiseView c s).shafts = { s.shafts with shafts := (raiseView c s).shafts.shafts } := by
  unfold raiseView
  extract_lets old risen slowed stopped
  have hslowed : slowed.shafts = { s.shafts with shafts := slowed.shafts.shafts } := by
    unfold slowed; split <;> simp [risen, clearTargets]
  have hstopped : stopped.shafts = { s.shafts with shafts := stopped.shafts.shafts } := by
    unfold stopped
    split
    · unfold instantEffects
      split <;> simp only [axesOff_shafts, stopShafts, State.modShafts_shafts] <;> rw [hslowed]
    · exact hslowed
  split
  · split
    · rw [(tripFreeze_channelWorked stopped).shafts, ← hstopped]
    · exact hstopped
  · rfl

theorem Axis.toOff_of_axesOff (s : State) (i : AxisNo) :
    (axesOff s).getAxis i = s.getAxis i ∨ (axesOff s).getAxis i = (s.getAxis i).toOff := by
  rw [axesOff_getAxis]
  split
  · exact .inl rfl
  · exact .inr rfl

theorem raiseView_onlyRaises (c : TripClass) (s : State) : s.OnlyRaises (raiseView c s) := by
  unfold raiseView
  extract_lets old risen slowed stopped
  have hrisen : s.OnlyRaises risen :=
    (State.OnlyRaises.of_ports (by simp)).trans (raiseBoth_onlyRaises .trip (leadSync (s.modTrip fun u => { u with view := c })))
  have hslowed : slowed.ports = risen.ports := by unfold slowed; split <;> simp
  have hstopped : stopped.ports = slowed.ports := by unfold stopped; split <;> simp
  have h : s.OnlyRaises stopped := hrisen.trans (.of_ports (hstopped.trans hslowed))
  split
  · split
    · exact h.trans (tripFreeze_channelWorked stopped).ports
    · exact h
  · exact .refl s

/-- A rise of the view raises TRIP at both ports (R84). -/
theorem raiseView_raises {c : TripClass} {s : State} (h : s.trip.view.rank < c.rank) (p : Port) :
    (raiseView c s).flag p .trip = true := by
  unfold raiseView
  extract_lets old risen slowed stopped
  have hrisen : risen.flag p .trip = true := raiseBoth_raises _ _ p
  have hslowed : slowed.ports = risen.ports := by unfold slowed; split <;> simp
  have hstopped : stopped.ports = slowed.ports := by unfold stopped; split <;> simp
  have hflag : stopped.flag p .trip = true :=
    ((State.OnlyRaises.of_ports (hstopped.trans hslowed)) p).2 _ hrisen
  rw [if_pos h]
  split
  · exact ((tripFreeze_channelWorked stopped).ports p).2 _ hflag
  · exact hflag

theorem raiseView_tripped (c : TripClass) (s : State) : s.Tripped (raiseView c s) := by
  have trip := raiseView_trip c s
  have kept := raiseView_kept c s
  have hview : s.trip.view.rank ≤ (raiseView c s).trip.view.rank := by simp [TripClass.max_rank, Nat.le_max_left]
  have hsource (n : SourceNo) : (raiseView c s).getSource n = s.getSource n := by simp [State.getSource]
  have haxis := raiseView_axis c s
  refine
    { clock := kept.1, links := kept.2.1, mode := by simp, ownCycleStart := by simp, cyc := by simp,
      shaftUnit := raiseView_shaftUnit c s, shaft := fun i => ?_, view := hview,
      source := fun n => by rw [hsource]; exact .refl _, raises := fun n _ => by rw [hsource], tripLeader := by simp,
      resetNo := by simp, stagedReset := by simp, mem := by simp, locks := by simp, ports := raiseView_onlyRaises c s,
      pending := by simp, axisUnit := ?_, axis := fun i => ?_ }
  · rw [raiseView_getShaft]
    split
    · next hr =>
      have hmax : s.trip.view.max c = c := if_pos hr
      refine ⟨_, _, rfl, ?_, ?_⟩
      · split
        · next hi => exact .inr ⟨rfl, by rw [trip.2.2.2.1, hmax, hi.1], hi.2⟩
        · exact .inl rfl
      · split
        · next h2 => exact .inr ⟨rfl, by simpa [hmax] using h2⟩
        · exact .inl rfl
    · exact .refl _ _ _
  · rw [haxis]
    split <;> rfl
  · unfold State.getAxis
    rw [haxis]
    split
    · exact Axis.toOff_of_axesOff s i
    · exact .inl rfl

theorem addRecord_tripped (r : TripRecord) (s : State) : s.Tripped (addRecord r s) := by
  rw [addRecord_eq]
  refine .trans (modTrip_tripped ?_ ?_ ?_ ?_ ?_) (leadSync_tripped _) <;> (repeat' split) <;> rfl

theorem emitFlash_tripped (f : TripFlash) (s : State) : s.Tripped (emitFlash f s) :=
  ite_tripped (fun _ => State.EventWorked.tripped (.of_same rfl rfl rfl rfl rfl rfl rfl rfl rfl (.of_ports rfl) rfl) rfl)
    fun _ => .refl s

theorem recomputeLocal_tripped (n : Option SourceNo) (s : State) : s.Tripped (recomputeLocal n s) := by
  unfold recomputeLocal
  extract_lets old new local' told flashed
  have hlocal : s.Tripped local' := modTrip_tripped rfl rfl rfl rfl rfl
  have htold : local'.Tripped told := ite_tripped (fun _ => .refl _) fun _ => raiseBoth_tripped _ _
  have hflashed : told.Tripped flashed := by
    unfold flashed
    cases n with
    | none => exact .refl _
    | some n => exact ite_tripped (fun _ => emitFlash_tripped _ _) fun _ => .refl _
  exact ((hlocal.trans htold).trans hflashed).trans (raiseView_tripped _ _)

/-- A change of one source's latch, or of a raise count that no change of leadership makes. -/
theorem modSource_tripped {s : State} {n : SourceNo} {f : Source → Source} (hf : ∀ x : Source, x.Raised (f x))
    (hraises : leadershipSource n → ∀ x, (f x).raises = x.raises) : s.Tripped (s.modSource n f) := by
  refine .of_trip rfl (Nat.le_refl _) (fun k => ?_) (fun k hk => ?_) rfl rfl rfl <;> rw [State.modSource_getSource] <;> split
  · exact hf _
  · exact .refl _
  · next h => exact hraises (h ▸ hk) _
  · rfl

theorem latch_tripped (n : SourceNo) (s : State) : s.Tripped (latch n s) := by
  unfold latch
  extract_lets latched recorded
  have hlatched : s.Tripped latched := modSource_tripped (fun _ => ⟨rfl, fun _ => rfl⟩) fun _ _ => rfl
  have hrecorded : latched.Tripped recorded := addRecord_tripped _ _
  exact (hlatched.trans hrecorded).trans (recomputeLocal_tripped _ _)

theorem latchIfEnabled_tripped (n : SourceNo) (s : State) : s.Tripped (latchIfEnabled n s) :=
  ite_tripped (fun _ => latch_tripped n s) fun _ => .refl s

theorem raisePulse_tripped {n : SourceNo} (h : ¬leadershipSource n) (s : State) : s.Tripped (raisePulse n s) :=
  have counted : s.Tripped (s.modSource n fun x => { x with raises := bump x.raises }) :=
    modSource_tripped (fun _ => ⟨rfl, id⟩) fun hn => absurd hn h
  counted.trans (latchIfEnabled_tripped n _)

/-! ### The axis unit's work and the close of a cycle event -/

theorem isolationTest_tripped (s : State) : s.Tripped (isolationTest s) := by
  unfold isolationTest
  extract_lets now raised
  have hraised : s.Tripped raised := ite_tripped (fun _ => raisePulse_tripped (by decide) s) fun _ => .refl s
  exact hraised.trans (modTrip_tripped rfl rfl rfl rfl rfl)

theorem stepSource_not_leadership (a : AxisNo) : ¬leadershipSource (stepSource a) := by
  revert a
  decide

theorem followSource_not_leadership (a : AxisNo) : ¬leadershipSource (followSource a) := by
  revert a
  decide

theorem dropFaulted_eventWorked (a : AxisNo) (s : State) : s.EventWorked (dropFaulted a s) :=
  ite_eventWorked (fun _ => (modAxis_eventWorked s a _).trans
    (raisePulse_tripped (stepSource_not_leadership a) _).toEventWorked) fun _ => .refl s

theorem dropAllFaulted_eventWorked (s : State) : s.EventWorked (dropAllFaulted s) :=
  foldl_eventWorked (fun s a => dropFaulted_eventWorked a s) _ s

theorem meetPlanChange_eventWorked (i : AxisNo) (s : State) : s.EventWorked (meetPlanChange i s) := by
  unfold meetPlanChange
  extract_lets e met
  have hmet : s.EventWorked met := modAxis_eventWorked s i _
  exact ite_eventWorked (fun _ => hmet) fun _ => hmet.trans (raisePulse_tripped (by decide) _).toEventWorked

theorem gearAxis_eventWorked (b : Bool) (i : AxisNo) (s : State) : s.EventWorked (gearAxis b i s) := by
  unfold gearAxis
  extract_lets step geared met
  have hmet : s.EventWorked met := (modAxis_eventWorked s i _).trans
    (ite_eventWorked (fun _ => meetPlanChange_eventWorked i _) fun _ => .refl _)
  exact ite_eventWorked
    (fun _ => (modAxis_eventWorked s i _).trans (raisePulse_tripped (stepSource_not_leadership i) _).toEventWorked)
    fun _ => hmet.trans (modAxis_eventWorked _ i _)

theorem advanceAxis_eventWorked (b : Bool) (i : AxisNo) (s : State) : s.EventWorked (advanceAxis b i s) := by
  unfold advanceAxis
  split
  · exact .refl s
  · exact modAxis_eventWorked s i _
  · exact gearAxis_eventWorked b i s
  · exact gearAxis_eventWorked b i s

theorem publish_eventWorked (s : State) : s.EventWorked (publish s) := by
  unfold publish
  extract_lets published stale
  have hpublished : s.EventWorked published := modAxisUnit_eventWorked s _
  have hstale : published.EventWorked stale :=
    ite_eventWorked (fun _ => (raisePulse_tripped (by decide) _).toEventWorked) fun _ => .refl _
  exact (hpublished.trans hstale).trans (foldl_eventWorked (fun s a => ite_eventWorked
    (fun _ => (raisePulse_tripped (followSource_not_leadership a) _).toEventWorked) fun _ => .refl s) _ _)

theorem axisWork_eventWorked (b : Bool) (s : State) : s.EventWorked (axisWork b s) :=
  (foldl_eventWorked (fun s i => advanceAxis_eventWorked b i s) _ s).trans (publish_eventWorked _)

/-- The set published bears the number of the cycle (R69). -/
theorem publish_live (s : State) : (publish s).axis.live.cycle = s.cyc.cycle := by
  unfold publish
  extract_lets published stale
  have hstale : published.Tripped stale :=
    ite_tripped (fun _ => raisePulse_tripped (by decide) _) fun _ => .refl _
  have hraises (xs : List AxisNo) (t : State) : t.Tripped (xs.foldl (fun s a =>
      if (s.getAxis a).followCount ≤ (s.getAxis a).run then raisePulse (followSource a) s else s) t) := by
    induction xs generalizing t with
    | nil => exact .refl t
    | cons a xs ih =>
      exact (ite_tripped (fun _ => raisePulse_tripped (followSource_not_leadership a) t) fun _ => .refl t).trans (ih _)
  rw [(hstale.trans (hraises allAxes stale)).axisUnit]
  rfl

theorem axisWork_live (b : Bool) (s : State) : (axisWork b s).axis.live.cycle = s.cyc.cycle := by
  unfold axisWork
  rw [publish_live, (foldl_eventWorked (fun s i => advanceAxis_eventWorked b i s) allAxes s).cyc]

/-- The outbox takes its new content: CORR may be raised, and the axis unit keeps all else. -/
theorem setOutbox_eventWorked (new : List OutboxEntry) (s : State) : s.EventWorked (setOutbox new s) := by
  unfold setOutbox
  extract_lets old put told
  have hput : s.EventWorked put := modAxisUnit_eventWorked s _
  have htold : put.EventWorked told := ite_eventWorked (fun _ => raise_eventWorked _ _ _) fun _ => .refl _
  exact (hput.trans htold).trans (ite_eventWorked (fun _ => raise_eventWorked _ _ _) fun _ => .refl _)

theorem outboxAtStatus_eventWorked (s : State) : s.EventWorked (outboxAtStatus s).2 := by
  unfold outboxAtStatus
  extract_lets lost written placed
  have hwritten : s.EventWorked written := setOutbox_eventWorked _ s
  exact hwritten.trans (modAxisUnit_eventWorked written fun u => { u with outbox := placed })

theorem emitStatus_eventWorked (b : StatusBody) (s : State) : s.EventWorked (emitStatus b s) :=
  ite_eventWorked (fun _ => setOutbox_eventWorked _ s) fun _ =>
    .of_same rfl rfl rfl rfl rfl rfl rfl rfl rfl (.of_ports rfl) rfl

theorem emitOwnStatus_eventWorked (b : Bool) (s : State) : s.EventWorked (emitOwnStatus b s) :=
  ite_eventWorked (fun _ => (outboxAtStatus_eventWorked s).trans (emitStatus_eventWorked _ _)) fun _ => .refl s

/-- The STATUS of an event changes nothing of the axis unit but the outbox. -/
theorem emitOwnStatus_axis (b : Bool) (s : State) :
    (emitOwnStatus b s).axis = { s.axis with outbox := (emitOwnStatus b s).axis.outbox } := by
  unfold emitOwnStatus
  split
  · extract_lets r
    have hr : r.2.axis = { s.axis with outbox := r.2.axis.outbox } := by
      simp [r, outboxAtStatus, setOutbox_kept]
    unfold emitStatus ownStatusBack
    split
    · rw [(setOutbox_kept _ r.2).2.2.2.2.2.2.2.2.2.2, hr]
    · exact hr
  · rfl

theorem finishEvent_eventWorked (b : Bool) (elapsed : Int) (s : State) : s.EventWorked (finishEvent b elapsed s) := by
  unfold finishEvent
  extract_lets published advanced emitted
  have hadvanced : s.EventWorked advanced := ite_eventWorked (fun _ => axisWork_eventWorked b s) fun _ => .refl s
  have hemitted : advanced.EventWorked emitted :=
    (isolationTest_tripped advanced).toEventWorked.trans (emitOwnStatus_eventWorked _ _)
  exact ((hadvanced.trans hemitted).trans (channelWork_channelWorked _ emitted).eventWorked).trans (raiseBoth_eventWorked _ _)

/-- The close of a cycle event raises CYCLE at both ports (R35). -/
theorem finishEvent_raises (b : Bool) (elapsed : Int) (s : State) (p : Port) :
    (finishEvent b elapsed s).flag p .cycle = true := raiseBoth_raises _ _ p

/-- After the axis unit's own work the close of an event changes it as the test for source 10 and the STATUS do. -/
theorem finishEvent_axisUnit (b : Bool) (elapsed : Int) (s : State) :
    (finishEvent b elapsed s).axis =
      (emitOwnStatus s.publishes (isolationTest (if s.publishes then axisWork b s else s))).axis := by
  unfold finishEvent
  rw [raiseBoth_axis, (channelWork_channelWorked _ _).axis]

/-- What the axis unit holds after the close of an event, but for axes that a source drops to OFF and for the outbox. -/
theorem finishEvent_axis (b : Bool) (elapsed : Int) (s : State) :
    (finishEvent b elapsed s).axis.live = (if s.publishes then axisWork b s else s).axis.live ∧
    ∀ i : AxisNo, (finishEvent b elapsed s).getAxis i = (if s.publishes then axisWork b s else s).getAxis i ∨
      (finishEvent b elapsed s).getAxis i = ((if s.publishes then axisWork b s else s).getAxis i).toOff := by
  unfold State.getAxis
  rw [finishEvent_axisUnit, emitOwnStatus_axis]
  generalize (if s.publishes then axisWork b s else s) = t
  have hlive : (isolationTest t).axis.live = t.axis.live := by rw [(isolationTest_tripped t).axisUnit]
  exact ⟨hlive, (isolationTest_tripped t).axis⟩

/-- A cycle event at which the axis unit publishes leaves a live set of its cycle number (R69). -/
theorem finishEvent_live {b : Bool} {elapsed : Int} {s : State} (h : s.publishes = true) :
    (finishEvent b elapsed s).axis.live.cycle = s.cyc.cycle := by
  rw [(finishEvent_axis b elapsed s).1, if_pos h]
  exact axisWork_live b s

/-- A cycle event at which the axis unit does not publish leaves the live set, and each axis but for a drop to OFF. -/
theorem finishEvent_unpublished {b : Bool} {elapsed : Int} {s : State} (h : s.publishes = false) :
    (finishEvent b elapsed s).axis.live = s.axis.live ∧
    ∀ i : AxisNo, (finishEvent b elapsed s).getAxis i = s.getAxis i ∨
      (finishEvent b elapsed s).getAxis i = (s.getAxis i).toOff := by
  have := finishEvent_axis b elapsed s
  rwa [if_neg (by simp [h])] at this

end Sys2Proof.Machine
end

