-- ==== Sys2Proof/Proofs/TripStatements.lean ====
section
/-!
PROOFS. The trip unit's statements: latching (R77 to R80, R84, R85), the ports' trip words (R75, R76, R88), LOCAL CLEAR (R92)
and the trip reset (R89).
-/

namespace Sys2Proof.Machine

/-! ### Sources after a latch -/

theorem State.source_of_sources {s t : State} (h : t.trip.sources = s.trip.sources) (n : SourceNo) :
    t.getSource n = s.getSource n := congrArg (fun v => v[n.val]) h

theorem latch_sources (n : SourceNo) (s : State) :
    (latch n s).trip.sources = (s.modSource n fun x => { x with latched := true }).trip.sources := by simp [latch]

theorem latch_getSource (n k : SourceNo) (s : State) :
    (latch n s).getSource k = if k = n then { s.getSource k with latched := true } else s.getSource k := by
  rw [State.source_of_sources (latch_sources n s), State.modSource_getSource]

/-- After a latch the local class is the highest latched class, and the view at least that (R79, R84). -/
theorem latch_classes (n : SourceNo) (s : State) :
    (latch n s).trip.localClass = (latch n s).trip.highest ∧
      (latch n s).trip.view = s.trip.view.max (latch n s).trip.highest := by
  have hsame (t : State) : (recomputeLocal (some n) t).trip.highest = t.trip.highest :=
    TripUnit.highest_congr fun k => by simp
  constructor <;> simp [latch, hsame]

theorem TripClass.le_max_left (x y : TripClass) : x.rank ≤ (x.max y).rank := by
  rw [TripClass.max_rank]
  exact Nat.le_max_left _ _

theorem TripClass.le_max_right (x y : TripClass) : y.rank ≤ (x.max y).rank := by
  rw [TripClass.max_rank]
  exact Nat.le_max_right _ _

/-- The source that latched has at most the local class, and that at most the view. -/
theorem latch_ranks (n : SourceNo) (s : State) :
    (s.getSource n).cls.rank ≤ (latch n s).trip.localClass.rank ∧
      (latch n s).trip.localClass.rank ≤ (latch n s).trip.view.rank := by
  obtain ⟨hlocal, hview⟩ := latch_classes n s
  have hn : (latch n s).getSource n = { s.getSource n with latched := true } := by simp [latch_getSource]
  have hle : ((latch n s).getSource n).cls.rank ≤ _ := TripUnit.le_highest (u := (latch n s).trip) (n := n)
    (show ((latch n s).getSource n).latched = true by rw [hn])
  rw [hview, hlocal]
  exact ⟨by simpa [hn] using hle, TripClass.le_max_right _ _⟩

/-- A record of an origin and source that the list does not hold joins it where there is room (R85). -/
theorem addRecord_list {r : TripRecord} {s : State} (hroom : s.trip.list.length < 16)
    (hnew : ∀ q ∈ s.trip.list, q.same s.cyc.address r = false) : (addRecord r s).trip.list = s.trip.list ++ [r] := by
  have hany : (s.trip.list.any fun q => q.same s.cyc.address r) = false := by simpa using hnew
  rw [addRecord_eq]
  simp only [leadSync_trip, State.modTrip_trip, hany, Bool.false_eq_true, if_false, hroom, if_true]

theorem latch_list {n : SourceNo} {s : State} (hroom : s.trip.list.length < 16)
    (hnew : ∀ q ∈ s.trip.list, ¬(q.node s.cyc.address = s.cyc.address ∧ q.source = n)) :
    (latch n s).trip.list = s.trip.list ++
      [{ origin := s.cyc.address, source := n, cls := (s.getSource n).cls, cycle := s.cyc.cycle }] := by
  unfold latch
  extract_lets latched recorded
  have hrecorded : recorded.trip.list = latched.trip.list ++ [_] := addRecord_list hroom fun q hq => by
    have := hnew q hq
    simpa [TripRecord.same, TripRecord.node, latched] using this
  rw [(recomputeLocal_trip (some n) recorded).2.2.2.2.1, hrecorded]
  simp [latched]

/-- The own frames after the local class is recomputed: a rise that a source causes at an attached node outside ISOLATED
queues its TRIP_FLASH (R80). -/
theorem recomputeLocal_ring (n : Option SourceNo) (s : State) :
    (recomputeLocal n s).ring =
      match n with
      | some n => if s.trip.localClass.rank < s.trip.highest.rank ∧ s.cyc.attached = true ∧ s.ring.mode ≠ .isolated then
          { s.ring with ownFlash := s.ring.ownFlash ++
              [{ hdr := s.ownHeader 31
                 body := .tripFlash { source := n, cls := s.trip.highest, cycle := s.cyc.cycle } }] }
          else s.ring
      | none => s.ring := by
  unfold recomputeLocal
  extract_lets old new local' told flashed
  have hring : told.ring = s.ring := by unfold told; split <;> rfl
  have hcyc : told.cyc = s.cyc := by unfold told; split <;> rfl
  rw [(raiseView_kept _ _).2.2.1]
  cases n with
  | none => exact hring
  | some n =>
    by_cases hr : old.rank < new.rank
    · simp only [flashed, if_pos hr, emitFlash, hcyc, hring, Bool.and_eq_true, decide_eq_true_eq]
      by_cases ha : s.cyc.attached = true ∧ s.ring.mode ≠ .isolated
      · rw [if_pos ha, if_pos ⟨hr, ha⟩, State.modRing_ring, hring]
        simp only [State.ownHeader, State.own, hcyc]
        rfl
      · rw [if_neg ha, if_neg fun h => ha h.2, hring]
    · simp only [flashed, if_neg hr, hring]
      rw [if_neg fun h => hr h.1]

/-- The own frames after a latch. -/
theorem latch_ring (n : SourceNo) (s : State) :
    (latch n s).ring =
      if s.trip.localClass.rank < (latch n s).trip.localClass.rank ∧ s.cyc.attached = true ∧ s.ring.mode ≠ .isolated then
        { s.ring with ownFlash := s.ring.ownFlash ++
            [{ hdr := s.ownHeader 31
               body := .tripFlash { source := n, cls := (latch n s).trip.localClass, cycle := s.cyc.cycle } }] }
      else s.ring := by
  unfold latch
  extract_lets latched recorded
  have hring : recorded.ring = s.ring := by simp [recorded, latched]
  have hcyc : recorded.cyc = s.cyc := by simp [recorded, latched]
  have hlocal : recorded.trip.localClass = s.trip.localClass := by simp [recorded, latched]
  rw [recomputeLocal_ring, (recomputeLocal_trip (some n) recorded).2.1]
  simp only [hring, hcyc, hlocal, State.ownHeader, State.own]
  rfl

/-- A change of the local class raises TRIP at both ports (R79). -/
theorem recomputeLocal_flag (n : Option SourceNo) {s : State} (h : s.trip.highest ≠ s.trip.localClass) (p : Port) :
    (recomputeLocal n s).flag p .trip = true := by
  unfold recomputeLocal
  extract_lets old new local' told flashed
  have htold : told.flag p .trip = true := by
    unfold told
    rw [if_neg fun e => h e.symm]
    exact raiseBoth_raises _ _ p
  have hflashed : told.Tripped flashed := by
    unfold flashed
    cases n with
    | none => exact .refl _
    | some n => exact ite_tripped (fun _ => emitFlash_tripped _ _) fun _ => .refl _
  exact ((hflashed.trans (raiseView_tripped _ _)).ports p).2 _ htold

/-- A view that is no lower than a class does not rise to it. -/
theorem raiseView_of_le {c : TripClass} {s : State} (h : c.rank ≤ s.trip.view.rank) : raiseView c s = s :=
  if_neg (by omega)

/-! ### Pins (R76, R78) -/

theorem latch_pool (n : SourceNo) (s : State) : (latch n s).pool = s.pool := by simp [latch]

theorem modSource_getSource_ne {s : State} {n k : SourceNo} (f : Source → Source) (h : k ≠ n) :
    (s.modSource n f).getSource k = s.getSource k := by rw [State.modSource_getSource, if_neg h]

/-- A condition that appears at an enabled source not yet latched latches it. -/
theorem conditionAppears_of_enabled {n : SourceNo} {s : State} (he : (s.getSource n).enabled = true)
    (hl : (s.getSource n).latched = false) :
    conditionAppears n s = latch n (s.modSource n fun x => { x with present := true }) := by
  simp [conditionAppears, latchIfEnabled, he, hl]

theorem conditionAppears_of_disabled {n : SourceNo} {s : State} (he : (s.getSource n).enabled = false) :
    conditionAppears n s = s.modSource n fun x => { x with present := true } := by
  simp [conditionAppears, latchIfEnabled, he]

theorem State.Tripped.sharedKept {s t : State} (h : s.Tripped t) (hp : t.pool = s.pool) : s.SharedKept t :=
  ⟨hp, h.locks, h.pending⟩

/-- Settles O11: the latch of the pin's source, with its record and TRIP_FLASH. -/
theorem tripinLatchesItsSource : Obligations.TripinLatchesItsSource := by
  intro s n hready
  refine ⟨fun hp he hl => ?_, fun hp he => ?_, ?_⟩
  · let t := s.modSource (pinSource n) fun x => { x with present := true }
    have hexec : exec (.tripinConditionAppears n) s = .next (latch (pinSource n) t) := by
      change Host.Outcome.next _ = _
      rw [hready, hp, ← conditionAppears_of_enabled he hl]
      rfl
    have ht : t.getSource (pinSource n) = { s.getSource (pinSource n) with present := true } :=
      State.modSource_getSource_self _ _ _
    have hlatched := latch_tripped (pinSource n) t
    have hranks := latch_ranks (pinSource n) t
    refine ⟨_, hexec, ?_, ?_, fun k hk => ?_, ?_, hranks.2, hlatched.view, fun hroom hnew => ?_, fun ha hm hr => ?_,
      hlatched.links, hlatched.cyc, hlatched.sharedKept (latch_pool _ t)⟩
    · rw [latch_getSource, if_pos rfl, ht]
    · rw [latch_getSource, if_pos rfl]
    · rw [latch_getSource, if_neg hk, modSource_getSource_ne _ hk]
    · simpa [ht] using hranks.1
    · have := latch_list (n := pinSource n) (s := t) hroom hnew
      rwa [ht] at this
    · rw [latch_ring, if_pos ⟨hr, ha, hm⟩]
      rfl
  · change Host.Outcome.next _ = _
    rw [hready, hp, ← conditionAppears_of_disabled he]
    rfl
  · change Host.Outcome.next _ = _
    rw [hready]
    rfl

/-! ### A trip reset (R89) -/

/-- The rest of what a trip reset leaves in the trip unit. -/
theorem applyReset_rest (number : BitVec 8) (cycle : Cycle) (s : State) :
    (applyReset number cycle s).trip.list = (allSources.filter fun n => (s.getSource n).atReset.latched).map (fun n =>
      { origin := s.cyc.address, source := n, cls := (s.getSource n).cls, cycle := cycle }) ∧
    (applyReset number cycle s).trip.resetNo = number ∧
    (applyReset number cycle s).trip.guard = some { cycle := cycle, left := 4 } ∧
    (applyReset number cycle s).trip.overflows = s.trip.overflows ∧
    (applyReset number cycle s).trip.tripLeader = s.trip.tripLeader ∧
    (applyReset number cycle s).trip.stagedReset = s.trip.stagedReset := by
  unfold applyReset
  extract_lets oldLocal oldView t u cls v w x
  have hw : w.trip = v.trip := by unfold w; split <;> simp
  have hx : x.trip = w.trip := by unfold x; (repeat' split) <;> simp
  refine ⟨?_, rfl, rfl, ?_, ?_, ?_⟩ <;>
    simp [hx, hw, v, u, t, TripUnit.latchedRecords, State.getSource, Source.atReset]

/-- A trip reset only raises events at the ports. -/
theorem applyReset_onlyRaises (number : BitVec 8) (cycle : Cycle) (s : State) :
    s.OnlyRaises (applyReset number cycle s) := by
  unfold applyReset
  extract_lets oldLocal oldView t u cls v w x
  have hv : s.OnlyRaises v := .of_ports (by simp [v, u, t])
  have hw : v.OnlyRaises w := by
    unfold w
    split
    · exact .refl v
    · exact raiseBoth_onlyRaises _ v
  have hx : w.OnlyRaises x := .of_ports (by unfold x; (repeat' split) <;> simp)
  exact ((hv.trans hw).trans hx).trans (.of_ports rfl)

/-- A reset that changes the local class or the view raises TRIP at both ports. -/
theorem applyReset_flag (number : BitVec 8) (cycle : Cycle) (s : State)
    (h : (applyReset number cycle s).trip.localClass ≠ s.trip.localClass ∨
      (applyReset number cycle s).trip.view ≠ s.trip.view) (p : Port) :
    (applyReset number cycle s).flag p .trip = true := by
  revert h
  unfold applyReset
  extract_lets oldLocal oldView t u cls v w x
  have hw : w.trip = v.trip := by unfold w; split <;> simp
  have hx : x.trip = w.trip := by unfold x; (repeat' split) <;> simp
  have hports : x.ports = w.ports := by unfold x; (repeat' split) <;> simp
  intro h
  have hraised : w.flag p .trip = true := by
    unfold w
    rw [if_neg]
    · exact raiseBoth_raises _ _ p
    · rintro ⟨hl, hv⟩
      simp only [State.modTrip_trip, hx, hw, v, leadSync_trip] at h
      exact h.elim (fun h => h hl.symm) fun h => h hv.symm
  exact ((State.OnlyRaises.of_ports (s := w) (t := x.modTrip _) hports) p).2 _ hraised

theorem applyReset_getSource (number : BitVec 8) (cycle : Cycle) (s : State) (n : SourceNo) :
    (applyReset number cycle s).getSource n = (s.getSource n).atReset := by
  unfold State.getSource
  rw [(applyReset_trip number cycle s).1]
  simp

/-- Settles O42, from the rules of a trip reset. -/
theorem tripResetIsApplied : Obligations.TripResetIsApplied := by
  refine ⟨fun s number cycle => ?_, fun s g hg hleft => ?_⟩
  · obtain ⟨-, hlocal, hview, -⟩ := applyReset_trip number cycle s
    obtain ⟨hlist, hno, hguard, hover, -, -⟩ := applyReset_rest number cycle s
    obtain ⟨-, -, hcyc, hshafts, haxis, hpool, -, hlocks, hpending⟩ := applyReset_kept number cycle s
    refine ⟨fun n => applyReset_getSource number cycle s n, ?_, hlocal, hview.trans hlocal.symm, hno, hguard, hover,
      applyReset_flag number cycle s, hshafts, haxis, hcyc, hpool, hlocks, hpending⟩
    simp only [hlist, applyReset_getSource]
  · change Host.Outcome.next _ = _
    simp [hg, hleft, guardTick, State.modTrip]

/-! ### A class or an enable written for a source (R75, R78) -/

/-- Port A's class write passes where each axis whose class parameter the class is has no guard lock or one that port A
holds. -/
theorem State.classGuardOpen_of_held {s : State} {n : SourceNo}
    (h : ∀ i : AxisNo, n.val = 16 + i.val ∨ n.val = 24 + i.val →
      ∀ j : LockNo, (s.getAxis i).guardLock = some j → (s.getLock j).holder = some .a) : s.classGuardOpen n = true := by
  unfold State.classGuardOpen
  split
  · next i hi =>
    have hn : n.val = 16 + i.val ∨ n.val = 24 + i.val := by
      unfold sourceAxis finOf at hi
      (repeat' split at hi) <;> cases hi <;> simp only [] <;> omega
    unfold State.guardOpen
    split
    · rfl
    · next j hj => simpa [State.holds] using h i hn j hj
  · rfl

theorem classOf_word : {v : Nat} → v < 4 → (classOf v).word = v
  | 0, _ => rfl
  | 1, _ => rfl
  | 2, _ => rfl
  | 3, _ => rfl
  | v + 4, h => absurd h (Nat.not_lt_of_le (Nat.le_add_left 4 v))

theorem classOf_listed {v : Nat} (h : v < 4) : (classOf (listedCode 4 v)).word = v := by
  simp only [listedCode, if_pos h]
  exact classOf_word h

theorem classOf_ne_none (v : Nat) : classOf v ≠ .none := by
  unfold classOf
  split <;> exact nofun

/-- The class of a source that is not latched only stands there. -/
theorem setSourceClass_of_unlatched {n : SourceNo} {c : TripClass} {s : State} (h : (s.getSource n).latched = false) :
    setSourceClass n c s = s.modSource n fun x => { x with cls := c } := by
  simp [setSourceClass, h]

theorem setSourceClass_of_latched {n : SourceNo} {c : TripClass} {s : State} (h : (s.getSource n).latched = true) :
    setSourceClass n c s = recomputeLocal (some n) (s.modSource n fun x => { x with cls := c }) := by
  simp [setSourceClass, h]

theorem setSourceClass_getSource (n k : SourceNo) (c : TripClass) (s : State) :
    (setSourceClass n c s).getSource k = if k = n then { s.getSource k with cls := c } else s.getSource k := by
  have hsources : (setSourceClass n c s).trip.sources = (s.modSource n fun x => { x with cls := c }).trip.sources := by
    unfold setSourceClass
    dsimp only
    split <;> simp
  rw [State.source_of_sources hsources, State.modSource_getSource]

/-- The highest class is that of a latched source, unless it is none. -/
theorem TripUnit.highest_attained (u : TripUnit) (h : u.highest ≠ .none) :
    ∃ n : SourceNo, (u.sources[n.val]).latched = true ∧ (u.sources[n.val]).cls = u.highest := by
  refine Classical.byContradiction fun hno => ?_
  have hlow : u.highest.rank ≤ u.highest.rank - 1 := (u.highest_le_iff _).mpr fun n hn => by
    have hle := u.le_highest hn
    have hne : (u.sources[n.val]).cls.rank ≠ u.highest.rank := fun e => hno ⟨n, hn, TripClass.eq_of_rank e⟩
    omega
  have : u.highest.rank = 0 := by omega
  exact h (TripClass.eq_of_rank this)

/-- The top source of a class is the lowest latched one of that class (R79). -/
theorem TripUnit.topOf_spec {u : TripUnit} {c : TripClass}
    (h : ∃ n : SourceNo, (u.sources[n.val]).latched = true ∧ (u.sources[n.val]).cls = c) :
    ∃ k : SourceNo, u.topOf c = some k ∧ (u.sources[k.val]).latched = true ∧ (u.sources[k.val]).cls = c ∧
      ∀ j : SourceNo, j.val < k.val → ¬((u.sources[j.val]).latched = true ∧ (u.sources[j.val]).cls = c) := by
  obtain ⟨n, hn⟩ := h
  unfold TripUnit.topOf allSources
  cases hk : (List.finRange 32).find? fun n => (u.sources[n.val]).latched && decide ((u.sources[n.val]).cls = c) with
  | none =>
    have := List.find?_eq_none.mp hk n (List.mem_finRange n)
    exact absurd hn (by simpa using this)
  | some k =>
    obtain ⟨hspec, i, hi, rfl, hfirst⟩ := List.find?_eq_some_iff_getElem.mp hk
    simp only [Bool.and_eq_true, decide_eq_true_eq] at hspec
    refine ⟨_, rfl, hspec.1, hspec.2, fun j hj hlatched => ?_⟩
    have hji : j.val < i := by simpa using hj
    have := hfirst j.val hji
    simp [hlatched.1, hlatched.2] at this

/-! ### The ports' trip words -/

theorem exec_sourceClassWrite_a {s : State} {n : SourceNo} {v : Word16} (hready : s.clock.ready = true)
    (hopen : s.classGuardOpen n = true) :
    exec (.sourceClassWrite .a n v) s = .next (setSourceClass n (classOf (listedCode 4 v.toNat)) (s.touched .a)) := by
  have hopen' : (s.touched .a).classGuardOpen n = true := hopen
  change Host.Outcome.next _ = _
  rw [portWrite_ready .a s _ hready, cmdSourceClass, writeByA_a, if_pos hopen']

theorem setSourceClass_tripClasses {n : SourceNo} {c : TripClass} {s : State} (h : (s.getSource n).latched = true)
    (hc : c ≠ .none) :
    let u := setSourceClass n c s
    let cls := u.trip.localClass
    (∀ k : SourceNo, (u.getSource k).latched = true → (u.getSource k).cls.rank ≤ cls.rank) ∧
    ∃ k : SourceNo, u.trip.topSource = some k ∧ (u.getSource k).latched = true ∧ (u.getSource k).cls = cls ∧
      ∀ j : SourceNo, j.val < k.val → ¬((u.getSource j).latched = true ∧ (u.getSource j).cls = cls) := by
  intro u cls
  let t := s.modSource n fun x => { x with cls := c }
  have hu : u = recomputeLocal (some n) t := setSourceClass_of_latched h
  obtain ⟨hsources, hlocal, htop, -⟩ := recomputeLocal_trip (some n) t
  rw [← hu] at hsources hlocal htop
  have hsource (k : SourceNo) : u.getSource k = t.getSource k := State.source_of_sources hsources k
  have hn : t.getSource n = { s.getSource n with cls := c } := State.modSource_getSource_self _ _ _
  have hle (k : SourceNo) (hk : (t.getSource k).latched = true) : (t.getSource k).cls.rank ≤ t.trip.highest.rank :=
    TripUnit.le_highest hk
  have hhigh : t.trip.highest ≠ .none := fun e => by
    have := hle n (by rw [hn]; exact h)
    rw [hn, e] at this
    exact hc (TripClass.eq_of_rank (by simpa [TripClass.rank] using this))
  simp only [hsource, show cls = t.trip.highest from hlocal, htop]
  exact ⟨hle, TripUnit.topOf_spec (t.trip.highest_attained hhigh)⟩

theorem listedBool_of_le : {v : Nat} → v ≤ 1 → listedBool v = decide (v = 1)
  | 0, _ => rfl
  | 1, _ => rfl
  | v + 2, h => absurd h (Nat.not_le_of_lt (Nat.le_add_left 2 v))

/-- A latched source's class and a latched source's new enable reach the classes at once; what they leave is the same. -/
theorem latchIfEnabled_pool (n : SourceNo) (s : State) : (latchIfEnabled n s).pool = s.pool := by
  unfold latchIfEnabled
  split
  · exact latch_pool n s
  · rfl

theorem latchIfEnabled_getSource_self {n : SourceNo} {s : State} (h : (s.getSource n).enabled = true) :
    (latchIfEnabled n s).getSource n = { s.getSource n with latched := true } := by
  unfold latchIfEnabled
  split
  · rw [latch_getSource, if_pos rfl]
  · next hl =>
    have : (s.getSource n).latched = true := by simpa [h] using hl
    rw [← this]

theorem latchIfEnabled_ranks {n : SourceNo} {s : State} (he : (s.getSource n).enabled = true)
    (hl : (s.getSource n).latched = false) :
    (s.getSource n).cls.rank ≤ (latchIfEnabled n s).trip.localClass.rank ∧
      (latchIfEnabled n s).trip.localClass.rank ≤ (latchIfEnabled n s).trip.view.rank := by
  rw [latchIfEnabled, if_pos (by simp [he, hl])]
  exact latch_ranks n s

theorem exec_sourceEnableWrite_a {s : State} {n : SourceNo} {v : Word16} (hready : s.clock.ready = true) :
    exec (.sourceEnableWrite .a n v) s = .next
      (if (s.getSource n).present then
        latchIfEnabled n ((s.touched .a).modSource n fun x => { x with enabled := listedBool v.toNat })
      else (s.touched .a).modSource n fun x => { x with enabled := listedBool v.toNat }) := by
  change Host.Outcome.next _ = _
  rw [portWrite_ready .a s _ hready, cmdSourceEnable, writeByA_a]
  simp only [State.modSource_getSource_self]
  rfl

theorem exec_tripRequest {s : State} {p : Port} (hready : s.clock.ready = true) :
    exec (.tripRequest p) s = .next (cmdTripRequest p (s.touched p)) := congrArg _ (portWrite_ready p s _ hready)

theorem exec_tripRelease {s : State} {p : Port} (hready : s.clock.ready = true) :
    exec (.tripRelease p) s = .next (cmdTripRelease p (s.touched p)) := congrArg _ (portWrite_ready p s _ hready)

theorem exec_tripReset {s : State} {p : Port} (hready : s.clock.ready = true) :
    exec (.tripReset p) s = .next (cmdTripReset p (s.touched p)) := congrArg _ (portWrite_ready p s _ hready)

theorem requestSource_eq (p : Port) : requestSource p = if p = .a then 13 else 14 := by cases p <;> rfl

/-- A TRIP REQUEST whose condition is absent at an enabled source that is not latched (R76, R78). -/
theorem tripRequest_latches {s : State} {p : Port} (he : (s.getSource (requestSource p)).enabled = true)
    (hp : (s.getSource (requestSource p)).present = false) (hl : (s.getSource (requestSource p)).latched = false) :
    let u := cmdTripRequest p s
    u.trip.requests.get p = true ∧ (u.getSource (requestSource p)).present = true ∧
    (u.getSource (requestSource p)).latched = true ∧ (u.port p).codes.tripRequest = .accepted ∧
    (s.getSource (requestSource p)).cls.rank ≤ u.trip.localClass.rank ∧ u.trip.localClass.rank ≤ u.trip.view.rank ∧
    u.trip.requests.get p.other = s.trip.requests.get p.other ∧ u.cyc = s.cyc ∧ s.SharedKept u := by
  intro u
  let t := ((s.setCode p fun c => { c with tripRequest := .accepted }).modTrip fun u =>
    { u with requests := u.requests.set p true }).modSource (requestSource p) fun x => { x with present := true }
  have hu : u = latch (requestSource p) t := (if_neg (by simp [State.getSource] at hp ⊢; exact hp)).trans
    (conditionAppears_of_enabled he hl)
  have ht : t.getSource (requestSource p) = { s.getSource (requestSource p) with present := true } :=
    State.modSource_getSource_self _ _ _
  have hlatched := latch_tripped (requestSource p) t
  have hrequests : (latch (requestSource p) t).trip.requests = s.trip.requests.set p true := by simp [latch, t]
  have hranks := latch_ranks (requestSource p) t
  rw [hu]
  refine ⟨?_, ?_, ?_, ?_, ?_, hranks.2, ?_, hlatched.cyc, latch_pool _ t, hlatched.locks, hlatched.pending⟩
  · rw [hrequests]; cases p <;> rfl
  · rw [latch_getSource, if_pos rfl, ht]
  · rw [latch_getSource, if_pos rfl]
  · rw [(hlatched.ports p).1]
    simp [t, State.port]
  · simpa [ht] using hranks.1
  · rw [hrequests]; cases p <;> rfl

/-- A TRIP RELEASE takes its source's condition away and leaves its latch (R76). -/
theorem tripRelease_keepsLatch (p : Port) (s : State) :
    let u := cmdTripRelease p s
    u.trip.requests.get p = false ∧ (u.getSource (requestSource p)).present = false ∧
    (u.getSource (requestSource p)).latched = (s.getSource (requestSource p)).latched ∧
    (u.port p).codes.tripRelease = .accepted ∧ u.trip.view = s.trip.view ∧ u.trip.localClass = s.trip.localClass ∧
    u.trip.list = s.trip.list ∧ u = { s with trip := u.trip, ports := u.ports } := by
  refine ⟨by cases p <;> rfl, ?_, ?_, ?_, rfl, rfl, rfl, rfl⟩
  · rw [cmdTripRelease, conditionGoes, State.modSource_getSource_self]
  · rw [cmdTripRelease, conditionGoes, State.modSource_getSource_self]
    rfl
  · simp [cmdTripRelease, conditionGoes, State.port]

/-- Settles O40, from the rules of a written class, a written enable, a request and a release. -/
theorem tripWordsOfThePorts : Obligations.TripWordsOfThePorts := by
  intro s hready
  refine ⟨fun n v hguard => ?_, fun n v hv h => ?_, fun n hp => ?_, fun p => ?_⟩
  · refine ⟨_, exec_sourceClassWrite_a hready (State.classGuardOpen_of_held hguard), fun hv => ?_, ?_, ?_, fun k hk => ?_,
      fun hl => ?_, fun hl => ?_⟩
    · rw [setSourceClass_getSource, if_pos rfl]
      exact classOf_listed hv
    · rw [setSourceClass_getSource, if_pos rfl]
      exact classOf_ne_none _
    · rw [setSourceClass_getSource, if_pos rfl]
      rfl
    · rw [setSourceClass_getSource, if_neg hk]
      rfl
    · rw [setSourceClass_of_unlatched (s := s.touched .a) hl]
      rfl
    · obtain ⟨hle, htop⟩ := setSourceClass_tripClasses (s := s.touched .a) hl (classOf_ne_none (listedCode 4 v.toNat))
      refine ⟨hle, htop, ?_⟩
      rw [setSourceClass_of_latched (s := s.touched .a) hl]
      generalize classOf (listedCode 4 v.toNat) = c
      have tripped := recomputeLocal_tripped (some n) ((s.touched .a).modSource n fun x => { x with cls := c })
      have hring := recomputeLocal_ring (some n) ((s.touched .a).modSource n fun x => { x with cls := c })
      obtain ⟨-, hlocal, -, hview, hlist, -, hno, -⟩ :=
        recomputeLocal_trip (some n) ((s.touched .a).modSource n fun x => { x with cls := c })
      rw [hlocal]
      exact ⟨recomputeLocal_flag _, hview, hring, hlist, hno, tripped.links, tripped.cyc,
        (recomputeLocal_kept _ _).2.2.2.1, tripped.locks, tripped.pending⟩
  · rw [exec_sourceEnableWrite_a hready, listedBool_of_le hv]
    refine congrArg _ ((ite_eq_right_iff).mpr fun hp => ?_)
    have hv0 : v.toNat = 0 := h.resolve_left (by simp [hp])
    exact if_neg (by simp [hv0])
  · have hexec := exec_sourceEnableWrite_a (n := n) (v := 1) hready
    rw [if_pos hp] at hexec
    refine ⟨_, hexec, ?_⟩
    have hn : ((s.touched .a).modSource n fun x => { x with enabled := listedBool (1 : Word16).toNat }).getSource n =
        { s.getSource n with enabled := true } := State.modSource_getSource_self _ _ _
    have tripped := latchIfEnabled_tripped n
      ((s.touched .a).modSource n fun x => { x with enabled := listedBool (1 : Word16).toNat })
    have hself := latchIfEnabled_getSource_self (congrArg Source.enabled hn)
    refine ⟨by rw [hself, hn], by rw [hself], fun hl => ?_, tripped.cyc, latchIfEnabled_pool _ _, tripped.locks,
      tripped.pending⟩
    have := latchIfEnabled_ranks (congrArg Source.enabled hn) ((congrArg Source.latched hn).trans hl)
    rwa [hn] at this
  · rw [exec_tripRequest hready, exec_tripRelease hready, exec_tripReset hready, ← requestSource_eq]
    refine ⟨fun he hp hl => ⟨_, rfl, tripRequest_latches (s := s.touched p) he hp hl⟩,
      ⟨_, rfl, tripRelease_keepsLatch p (s.touched p)⟩, fun hl => congrArg _ (if_pos hl),
      fun hl => congrArg _ (if_neg (Bool.eq_false_iff.mp hl))⟩

/-! ### LOCAL CLEAR (R92) -/

/-- Where no class rises above the view, the local class is recomputed and nothing else but TRIP changes. -/
theorem recomputeLocal_none_of_le {s : State} (h : s.trip.highest.rank ≤ s.trip.view.rank) :
    recomputeLocal none s =
      let t := s.modTrip fun u => { u with localClass := s.trip.highest, topSource := u.topOf s.trip.highest }
      if s.trip.localClass = s.trip.highest then t else raiseBoth .trip t := by
  unfold recomputeLocal
  dsimp only
  refine raiseView_of_le ?_
  split <;> exact h

/-- A count over the sources is a count over their numbers. -/
theorem sources_filter_length (u : TripUnit) (f : Source → Bool) :
    (u.sources.toList.filter f).length = (allSources.filter fun n => f u.sources[n.val]).length := by
  have : u.sources.toList = allSources.map fun n => u.sources[n.val] := by
    apply List.ext_getElem <;> simp [allSources]
  rw [this, List.filter_map, List.length_map]
  rfl

/-- What LOCAL CLEAR does to one source. -/
def Source.localCleared (x : Source) : Source := if x.clearable then { x with latched := false } else x

theorem localCleared_highest (u : TripUnit) :
    ({ u with sources := u.sources.map Source.localCleared } : TripUnit).highest.rank ≤ u.highest.rank := by
  rw [TripUnit.highest_le_iff]
  intro n hn
  simp only [Vector.getElem_map, Source.localCleared] at hn ⊢
  split at hn
  · cases hn
  · next h =>
    rw [if_neg h]
    exact TripUnit.le_highest hn

/-- LOCAL CLEAR at port A recomputes the local class from a state with the clearable latches cleared and counted. -/
theorem cmdLocalClear_recomputes (s : State) :
    ∃ t, cmdLocalClear .a s = recomputeLocal none t ∧ t.trip.highest.rank ≤ s.trip.highest.rank ∧
      (∀ n : SourceNo, t.getSource n = (s.getSource n).localCleared) ∧
      (t.port .a).codes.localClear = (allSources.filter fun n => (s.getSource n).clearable).length ∧
      t.trip = { s.trip with sources := t.trip.sources } ∧ t = { s with trip := t.trip, ports := t.ports } := by
  refine ⟨_, rfl, localCleared_highest s.trip, fun n => ?_, ?_, rfl, rfl⟩
  · exact Vector.getElem_map _ _
  · exact sources_filter_length s.trip Source.clearable

/-- Settles O41: no latch is set, so the view stays, and only the local class is recomputed. -/
theorem localClearClearsNotices : Obligations.LocalClearClearsNotices := by
  rintro s hready ⟨hlocal, hview, -⟩
  have hexec (p : Port) : exec (.localClear p) s = .next (cmdLocalClear p (s.touched p)) :=
    congrArg _ (portWrite_ready p s _ hready)
  refine ⟨?_, fun hw => ?_, fun hw => ?_⟩
  · obtain ⟨t, hu, hhigh, hsource, hcode, htrip, hrest⟩ := cmdLocalClear_recomputes (s.touched .a)
    have hle : t.trip.highest.rank ≤ t.trip.view.rank := calc
      t.trip.highest.rank ≤ s.trip.highest.rank := hhigh
      _ = s.trip.localClass.rank := by rw [hlocal]
      _ ≤ s.trip.view.rank := hview
      _ = t.trip.view.rank := by rw [htrip]; rfl
    rw [hexec, hu]
    have tripped := recomputeLocal_tripped none t
    obtain ⟨hsources, hl, -, hv, hlist, -, hno, -⟩ := recomputeLocal_trip none t
    have hunits : (recomputeLocal none t).axis = t.axis ∧ (recomputeLocal none t).shafts = t.shafts ∧
        (recomputeLocal none t).chan = t.chan ∧ (recomputeLocal none t).ring = t.ring := by
      rw [recomputeLocal_none_of_le hle]
      dsimp only
      split <;> exact ⟨rfl, rfl, rfl, rfl⟩
    obtain ⟨haxis, hshafts, hchan, hring⟩ := hunits
    refine ⟨_, rfl, fun k => ?_, ?_, ?_, fun hne => ?_, ?_, ?_, ?_, ?_, ?_, ?_, ?_, ?_, ?_, ?_, ?_⟩
    · rw [State.source_of_sources hsources, hsource, Source.localCleared, Source.clearable]
      simp only [Bool.and_eq_true, Bool.not_eq_true', decide_eq_true_eq, and_assoc]
      rfl
    · rw [(tripped.ports .a).1, hcode]
      rfl
    · rw [hl]
      exact (TripUnit.highest_congr fun k => by rw [hsources]; exact ⟨rfl, rfl⟩).symm
    · rw [hl] at hne
      exact recomputeLocal_flag none (fun e => hne (e.trans (by rw [htrip]; rfl)))
    · rw [hlist, htrip]; rfl
    · rw [hv, TripClass.max, if_neg (by omega), htrip]; rfl
    · rw [hno, htrip]; rfl
    · rw [hshafts, hrest]; rfl
    · rw [haxis, hrest]; rfl
    · rw [hring, hrest]; rfl
    · rw [tripped.cyc, hrest]; rfl
    · rw [hchan, hrest]; rfl
    · rw [(recomputeLocal_kept none t).2.2.2.1, hrest]; rfl
    · rw [tripped.locks, hrest]; rfl
    · rw [tripped.pending, hrest]; rfl
  · rw [hexec]
    have hw' : ((s.touched .b).port .b).wide = false := hw
    exact congrArg _ (refuseWord_narrow .b localClearAddr .readOnly _ hw')
  · rw [hexec]
    have hw' : ((s.touched .b).port .b).wide = true := hw
    exact congrArg _ ((refuseWord_wide .b localClearAddr .readOnly _ hw').trans (if_pos rfl))

end Sys2Proof.Machine
end

