-- ==== Sys2Proof/Proofs/AxisPorts.lean ====
section
/-!
PROOFS. The ports' words of shafts and axes: the setpoint set and the actual positions (R70, R72), ENGAGE, DISENGAGE and DROP
(R58, R60, R61) and corrections (R62, R63, R67).
-/

namespace Sys2Proof.Machine

/-! ### Parts of the state at an access -/

@[simp] theorem State.touched_getShaft (s : State) (p : Port) (i : ShaftNo) : (s.touched p).getShaft i = s.getShaft i := rfl
@[simp] theorem State.touched_getAxis (s : State) (p : Port) (i : AxisNo) : (s.touched p).getAxis i = s.getAxis i := rfl
@[simp] theorem State.touched_getSource (s : State) (p : Port) (n : SourceNo) :
    (s.touched p).getSource n = s.getSource n := rfl
@[simp] theorem State.touched_getChannel (s : State) (p : Port) (c : ChannelNo) :
    (s.touched p).getChannel c = s.getChannel c := rfl
@[simp] theorem State.touched_getContext (s : State) (p : Port) (k : Fin 4) :
    (s.touched p).getContext k = s.getContext k := rfl
@[simp] theorem State.touched_getLock (s : State) (p : Port) (j : LockNo) : (s.touched p).getLock j = s.getLock j := rfl

@[simp] theorem State.touched_port_self (s : State) (p : Port) :
    (s.touched p).port p = { s.port p with latch := .empty } := State.modPort_port_self _ _ _

@[simp] theorem State.setCode_port_self (s : State) (p : Port) (f : ReadBacks → ReadBacks) :
    (s.setCode p f).port p = { s.port p with codes := f (s.port p).codes } := State.modPort_port_self _ _ _

/-! ### The setpoint set (R70) -/

/-- The lines of the set's first word: its cycle number, beside word 1 at a 32-bit port. -/
theorem setpointLines_first (s : State) (p : Port) : (s.setpointLines p 0).setWidth 16 = s.setpointWord p 0 := by
  unfold State.setpointLines
  split
  · exact BitVec.setWidth_append_eq_right
  · simp

theorem setpointLines_last {s : State} {u : SetpointSet} (h : ∀ off, s.setpointWord .a off = u.word off) :
    ((s.port .a).wide = false →
      s.setpointLines .a 0x31 = ((BitVec.ofInt 32 u.axes[7].velOut).extractLsb' 16 16).setWidth 32) ∧
    ((s.port .a).wide = true → s.setpointLines .a 0x31 = BitVec.ofInt 32 u.axes[7].velOut) := by
  unfold State.setpointLines
  constructor <;> intro hw <;> simp only [hw, h]
  · rfl
  · refine Eq.trans ?_ (BitVec.extractLsb'_eq_self (x := BitVec.ofInt 32 u.axes[7].velOut))
    exact BitVec.extractLsb'_append_extractLsb'_eq_extractLsb' (x := BitVec.ofInt 32 u.axes[7].velOut) (start₁ := 0)
      (len₁ := 16) (len₂ := 16) rfl

/-- Settles O39, from the words of the set. -/
theorem actualsAndSetpointReads : Obligations.ActualsAndSetpointReads := by
  intro s hready
  have hwrite (i : AxisNo) (v : Pos) : exec (.actualPositionWrite .a i v) s = .next (cmdActual .a i v (s.touched .a)) :=
    congrArg _ (portWrite_ready .a s _ hready)
  have hfirst (p : Port) : exec (.setpointSetFirstRead p) s = .next (cmdSetpointFirst p (s.touched p)) :=
    congrArg _ (portRead_ready p s _ hready)
  have hfinal (p : Port) : exec (.setpointSetFinalRead p) s = .next (cmdSetpointFinal p (s.touched p)) :=
    congrArg _ (portRead_ready p s _ hready)
  refine ⟨fun i v => ⟨fun hr => ?_, fun hr => ?_⟩, ⟨_, hfirst .a, setpointLines_first _ .a⟩,
    ⟨_, hfirst .b, setpointLines_first _ .b⟩, fun x hx => ?_, fun hx => ?_, ⟨_, hfinal .b⟩⟩
  · exact (hwrite i v).trans (congrArg _ (if_pos hr))
  · exact (hwrite i v).trans (congrArg _ (if_neg (by exact Bool.eq_false_iff.mp hr)))
  · let t := (s.touched .a).modAxisUnit fun u => { u with taken := some x.cycle }
    have hword (off : Nat) : t.setpointWord .a off = x.word off := by
      simp only [State.setpointWord, t, State.modAxisUnit_axis, State.touched_axis, hx]
    obtain ⟨hnarrow, hwide⟩ := setpointLines_last hword
    refine ⟨t.setpointLines .a 0x31, (hfinal .a).trans ?_, hnarrow, hwide⟩
    simp only [cmdSetpointFinal, State.touched_axis, hx]
    rfl
  · have hword (off : Nat) : (s.touched .a).setpointWord .a off = 0 := by
      simp only [State.setpointWord, State.touched_axis, hx]
    refine (hfinal .a).trans ?_
    simp only [cmdSetpointFinal, State.touched_axis, hx, State.setpointLines, hword]
    split <;> rfl

/-! ### ENGAGE, DISENGAGE and DROP (R58, R60, R61) -/

@[simp] theorem finOf_val {n : Nat} (i : Fin n) : finOf n i.val = some i := by simp [finOf]

theorem finOf_of_le {n v : Nat} (h : n ≤ v) : finOf n v = none := by simp [finOf, h]

/-- An accepted ENGAGE: g, r and k from the shaft's position, the remaining way to the phase in c_p (R58). -/
theorem Axis.engageFrom_spec (x : Axis) (start : Pos) {e : PlanEntry} (he : 1 ≤ e.den) (theta : Pos) :
    let y := x.engageFrom start e theta
    y.state = .engaging ∧ y.work = e.working ∧ y.p = start ∧ y.g + y.k = start ∧ 0 ≤ y.r ∧ y.r < e.den ∧
    (∃ q : Int, q * e.den + y.r = theta.toNat * e.num ∧ y.g = BitVec.ofInt 32 q) ∧ -524287 ≤ y.cp ∧ y.cp ≤ 524288 ∧
    (y.cp - ((y.g.toNat : Int) + e.phase - start.toNat)) % 1048576 = 0 := by
  have hd : (e.den : Int) ≠ 0 := by omega
  have hpos : 0 < (e.den : Int) := by omega
  obtain ⟨hlo, hhi⟩ := shortestPath_range
    (((toPos ((theta.toNat : Int) * e.num / e.den)).toNat : Int) + e.phase - start.toNat)
  refine ⟨rfl, rfl, rfl, (BitVec.add_comm _ _).trans (BitVec.sub_add_cancel _ _), Int.emod_nonneg _ hd, Int.emod_lt_of_pos _ hpos, ⟨_, ?_, rfl⟩, hlo, hhi, ?_⟩
  · rw [Int.mul_comm]
    exact Int.mul_ediv_add_emod _ _
  · exact Int.emod_eq_emod_iff_emod_sub_eq_zero.mp (shortestPath_mod _)

theorem exec_engage_a {s : State} (hready : s.clock.ready = true) (v : Word16) :
    exec (.engage .a v) s = .next (cmdEngage .a v (s.touched .a)) := congrArg _ (portWrite_ready .a s _ hready)

theorem exec_disengage_a {s : State} (hready : s.clock.ready = true) (v : Word16) :
    exec (.disengage .a v) s = .next (cmdDisengage .a v (s.touched .a)) := congrArg _ (portWrite_ready .a s _ hready)

theorem exec_drop_a {s : State} (hready : s.clock.ready = true) (v : Word16) :
    exec (.drop .a v) s = .next (cmdDrop .a v (s.touched .a)) := congrArg _ (portWrite_ready .a s _ hready)

/-- A refused ENGAGE only reads back its code. -/
theorem cmdEngage_refused {s : State} {i : AxisNo} {v : Word16} (hv : v.toNat = i.val) {c : Code} (hc : s.engageCode i = c)
    (hne : c ≠ .accepted) : cmdEngage .a v s = s.setCode .a fun k => { k with engage := c } := by
  simp [cmdEngage, hv, hc, hne]

theorem cmdEngage_accepted {s : State} {i : AxisNo} {v : Word16} (hv : v.toNat = i.val) (hc : s.engageCode i = .accepted) :
    cmdEngage .a v s = (s.setCode .a fun k => { k with engage := .accepted }).modAxis i fun x =>
      x.engageFrom (x.startFrom (s.axis.live.axes[i.val]).p) (s.activeEntry i)
        (s.getShaft (s.activeEntry i).shaft).posInt := by
  simp [cmdEngage, hv, hc]

/-- Settles O37, by the table of ENGAGE and the codes of DISENGAGE and DROP. -/
theorem engageDisengageDrop : Obligations.EngageDisengageDrop := by
  refine ⟨fun s i v hready hv => ?_, fun s v hready => ⟨fun hv => ?_, fun i hv => ⟨fun h => ?_, fun h => ?_, ?_⟩⟩⟩
  · intro x e answers
    have refused {c : Code} (hc : s.engageCode i = c) (hne : c ≠ .accepted) : answers c :=
      (exec_engage_a hready v).trans (congrArg _ (cmdEngage_refused hv hc hne))
    refine ⟨fun he => ?_, fun he hs => ?_, fun he hs hl => ?_, fun he hs hl hi => ?_, fun he hs hl hi hv => ?_,
      fun he hs hl hi hvalid hden => ?_⟩
    · exact refused (by simp [State.engageCode, show (s.getAxis i).enabled = false from he]) (by decide)
    · exact refused (by simp [State.engageCode, show (s.getAxis i).enabled = true from he,
        show (s.getAxis i).state ≠ .off from hs]) (by decide)
    · exact refused (by simp [State.engageCode, show (s.getAxis i).enabled = true from he,
        show (s.getAxis i).state = .off from hs, hl]) (by decide)
    · exact refused (by simp [State.engageCode, show (s.getAxis i).enabled = true from he,
        show (s.getAxis i).state = .off from hs, hl, hi]) (by decide)
    · exact refused (by simp [State.engageCode, show (s.getAxis i).enabled = true from he,
        show (s.getAxis i).state = .off from hs, hl, hi, show (s.activeEntry i).valid = false from hv]) (by decide)
    · have hc : (s.touched .a).engageCode i = .accepted := by
        change s.engageCode i = .accepted
        simp [State.engageCode, show (s.getAxis i).enabled = true from he, show (s.getAxis i).state = .off from hs, hl, hi,
          show (s.activeEntry i).valid = true from hvalid]
      refine ⟨_, (exec_engage_a hready v).trans (congrArg _ (cmdEngage_accepted hv hc)), by simp [State.port], ?_⟩
      simp only [State.modAxis_getAxis_self]
      have hstart : x.startFrom (s.axis.live.axes[i.val]).p =
          if x.actualReport = true ∧ x.fresh = true then x.actual else (s.axis.live.axes[i.val]).p := by
        simp [Axis.startFrom]
      obtain ⟨hstate, hwork, hp, hgk, hr0, hr, hq, hlo, hhi, hmod⟩ :=
        x.engageFrom_spec (x.startFrom (s.axis.live.axes[i.val]).p) hden (s.getShaft e.shaft).posInt
      refine ⟨hstate, hwork, hp.trans hstart, hgk.trans hstart, hr0, hr, hq, hlo, hhi, ?_, rfl, rfl, rfl,
        fun j hj => (State.modAxis_getAxis _ _ _ _).trans (if_neg hj), rfl⟩
      rw [← hstart]
      exact hmod
  · simp [exec_engage_a hready, exec_disengage_a hready, exec_drop_a hready, cmdEngage, cmdDisengage, cmdDrop,
      finOf_of_le hv]
  · have hno : ¬((s.getAxis i).state = .engaging ∨ (s.getAxis i).state = .follow) := by
      rcases h with h | h <;> simp [h]
    simp [exec_disengage_a hready, cmdDisengage, hv, hno]
  · simp [exec_disengage_a hready, cmdDisengage, hv, h]
    rfl
  · simp [exec_drop_a hready, cmdDrop, hv]
    rfl

/-! ### Corrections (R62, R63, R67) -/

theorem clampInt_eq (x : Int) {m : Int} (hm : 0 ≤ m) : clampInt x m = max (-m) (min x m) := by
  unfold clampInt
  split
  · omega
  · split <;> omega

/-- Two changes of a port that agree on its unit are the same change. -/
theorem State.modPort_congr {s : State} {p : Port} {f g : PortUnit → PortUnit} (h : f (s.port p) = g (s.port p)) :
    s.modPort p f = s.modPort p g := by
  have hp : s.ports.modify p f = s.ports.modify p g := by
    cases p <;> simp only [PortPair.modify]
    · rw [show f s.ports.a = _ from h]
      rfl
    · rw [show f s.ports.b = _ from h]
      rfl
  rw [State.modPort, hp]
  rfl

theorem State.modPort_modPort (s : State) (p : Port) (f g : PortUnit → PortUnit) :
    (s.modPort p f).modPort p g = s.modPort p fun u => g (f u) := by
  simp [State.modPort, PortPair.modify_modify]

/-- The oldest DONE entry of a port is the first one in the outbox. -/
theorem takeDone_first {p : Port} {before after : List OutboxEntry} {e : OutboxEntry}
    (hbefore : ∀ x ∈ before, ¬(x.state = .done ∧ x.port = p)) (he : e.state = .done ∧ e.port = p) :
    takeDone p (before ++ e :: after) = some (e, before ++ after) := by
  induction before with
  | nil => exact if_pos he
  | cons x xs ih =>
    rw [List.cons_append, takeDone, if_neg (hbefore x (by simp)), ih fun y hy => hbefore y (by simp [hy])]
    rfl

theorem takeDone_none {p : Port} {es : List OutboxEntry} (h : ∀ x ∈ es, ¬(x.state = .done ∧ x.port = p)) :
    takeDone p es = none := by
  induction es with
  | nil => rfl
  | cons x xs ih =>
    rw [takeDone, if_neg (h x (by simp)), ih fun y hy => h y (by simp [hy])]
    rfl

/-- A clamped delta sets the clamp flag of the axis unit, and no other change touches it. -/
theorem modAxisUnit_clampFlag (s : State) (a b : Int) :
    (if a = b then s else s.modAxisUnit fun u => { u with clampFlag := true }) =
      s.modAxisUnit fun u => { u with clampFlag := u.clampFlag || decide (a ≠ b) } := by
  split
  · next h => simp [State.modAxisUnit, h]
  · next h => simp [State.modAxisUnit, h]

theorem exec_correctionPost {s : State} (hready : s.clock.ready = true) (p : Port) :
    exec (.correctionPost p) s = .next (cmdCorrectionPost p (s.touched p)) := congrArg _ (portWrite_ready p s _ hready)

theorem exec_correctionResultRead {s : State} (hready : s.clock.ready = true) (p : Port) :
    exec (.correctionResultRead p) s = .next (cmdCorrectionResultRead p (s.touched p)) :=
  congrArg _ (portRead_ready p s _ hready)

theorem applyCorrection_of_axis {n : Nat} {i : AxisNo} (h : n = i.val) (delta : Int) (s : State) :
    applyCorrection n delta s = (((s.getAxis i).correct delta).1, s.modAxis i fun x => (x.correct delta).2) := by
  rw [applyCorrection, h, finOf_val]

theorem applyCorrection_of_no_axis {n : Nat} (h : 8 ≤ n) (delta : Int) (s : State) :
    applyCorrection n delta s = (.noAxis, s) := by
  rw [applyCorrection, finOf_of_le h]

/-- A correction applied at this node, with its DONE entry and the event: the axis unit alone changes besides. -/
theorem raise_applyCorrection (p : Port) (e : Event) (n : Nat) (delta : Int) (s : State) (entry : CorrOutcome → OutboxEntry) :
    let r := applyCorrection n delta s
    let u := raise p e (r.2.modAxisUnit fun u => { u with outbox := u.outbox ++ [entry r.1] })
    u.axis = { s.axis with axes := u.axis.axes, outbox := s.axis.outbox ++ [entry r.1] } ∧
      u = { raise p e s with axis := u.axis } := by
  unfold applyCorrection
  split <;> exact ⟨rfl, rfl⟩

/-- Settles O38, by the codes of a post and the oldest entry of a read. -/
theorem correctionsArePostedAndRead : Obligations.CorrectionsArePostedAndRead := by
  intro s p hready w delta
  have hw : ((s.touched p).port p).corrPosting = w := by rw [State.touched_port_self]
  have hdelta : clampInt (signed32 w.delta) 524288 = delta := clampInt_eq _ (by decide)
  rw [exec_correctionPost hready, exec_correctionResultRead hready]
  refine ⟨fun hfull => ?_, fun hroom htarget => ?_, fun hroom htarget hother => ?_, fun hroom htarget hown => ?_,
    fun before after e hbox hbefore hdone hport => ?_, fun hnone => ?_⟩
  · exact congrArg _ (if_pos hfull)
  · simp only [cmdCorrectionPost, State.touched_axis, hw, if_neg (Nat.not_le.mpr hroom), if_pos htarget]
  · simp only [cmdCorrectionPost, State.touched_axis, hw, if_neg (Nat.not_le.mpr hroom), if_neg (Nat.not_lt.mpr htarget),
      hdelta, modAxisUnit_clampFlag, State.modAxisUnit_cyc, State.setCode_cyc, State.touched_cyc, if_neg hother]
    rfl
  · simp only [cmdCorrectionPost, State.touched_axis, hw, if_neg (Nat.not_le.mpr hroom), if_neg (Nat.not_lt.mpr htarget),
      hdelta, modAxisUnit_clampFlag, State.modAxisUnit_cyc, State.setCode_cyc, State.touched_cyc, if_pos hown]
    obtain ⟨-, hrest⟩ := raise_applyCorrection p .corr w.axis.toNat delta
      (((s.touched p).setCode p fun c => { c with corrPost := .accepted }).modAxisUnit fun u =>
        { u with clampFlag := u.clampFlag || decide (delta ≠ signed32 w.delta) })
      fun o => { port := p, target := w.target.toNat, axis := w.axis.toNat, delta := delta, state := .done, outcome := o,
                 cycle := 0, place := 0 }
    refine ⟨_, rfl, ?_, raise_raises _ _ _, fun hn => ?_, fun i hi => ?_, ?_, ?_, ?_, ?_, ?_, ?_, ?_⟩
    · rw [hrest]
      change ((raise p .corr _).port p).codes.corrPost = _
      rw [raise_port]
      simp [State.port]
    · rw [applyCorrection_of_no_axis hn]
      exact ⟨rfl, rfl⟩
    · rw [applyCorrection_of_axis hi]
      exact ⟨State.modAxis_getAxis_self _ _ _, fun j hj => (State.modAxis_getAxis _ _ _ _).trans (if_neg hj), rfl⟩
    · rw [hrest]
      cases p <;> rfl
    all_goals rw [hrest]; rfl
  · simp only [cmdCorrectionResultRead, State.touched_axis, hbox, takeDone_first hbefore ⟨hdone, hport⟩, drivePair_eq,
      State.drive, State.modPort_modPort]
    exact congrArg _ (State.modPort_congr (by simp [State.port]))
  · simp only [cmdCorrectionResultRead, State.touched_axis, takeDone_none hnone, State.driveNat, State.drive,
      State.modPort_modPort]
    rfl

end Sys2Proof.Machine
end

