-- ==== Sys2Proof/Proofs/AxisWrites.lean ====
section
/-!
PROOFS. Port A's writes of shafts (R46), of plan entries (R53) and of axis parameters (R54), with the guard lock of an axis
(R75, R150, R161).
-/

namespace Sys2Proof.Machine

/-! ### Shafts (R46) -/

theorem clampNat_eq (v : Nat) {lo hi : Nat} (h : lo ≤ hi) : clampNat v lo hi = max lo (min v hi) := by
  unfold clampNat
  split
  · omega
  · split <;> omega

/-- A value outside its range is not the value it is stored as. -/
theorem clampNat_eq_iff (v : Nat) {lo hi : Nat} (h : lo ≤ hi) : clampNat v lo hi = v ↔ lo ≤ v ∧ v ≤ hi := by
  rw [clampNat_eq v h]
  omega

theorem clampInt_eq_iff (x : Int) {m : Int} (hm : 0 ≤ m) : clampInt x m = x ↔ -m ≤ x ∧ x ≤ m := by
  rw [clampInt_eq x hm]
  omega

/-- A shaft written at port A: that shaft and, where the value was clamped, the clamp flag change (R46). -/
theorem shaftWrite_spec (s : State) (i : ShaftNo) (g : Shaft → Shaft) (kept : Prop) [Decidable kept] :
    let u := if kept then s.modShaft i g else (s.modShaft i g).modShafts fun u => { u with clampFlag := true }
    u.getShaft i = g (s.getShaft i) ∧ (∀ j : ShaftNo, j ≠ i → u.getShaft j = s.getShaft j) ∧
      u.shafts.clampFlag = (s.shafts.clampFlag || decide ¬kept) ∧ u = { s with shafts := u.shafts } := by
  have hj (j : ShaftNo) (h : j ≠ i) : (s.modShaft i g).getShaft j = s.getShaft j :=
    (State.modShaft_getShaft _ _ _ _).trans (if_neg h)
  by_cases h : kept
  · simp only [h, if_true]
    exact ⟨State.modShaft_getShaft_self _ _ _, hj, by simp [State.modShaft], rfl⟩
  · simp only [h, if_false]
    exact ⟨State.modShaft_getShaft_self _ _ _, hj, by simp, rfl⟩

theorem targetVelocityWrite_spec {s : State} (hready : s.clock.ready = true) (i : ShaftNo) (v : BitVec 48) :
    ∃ u, exec (.targetVelocityWrite .a i v) s = .next u ∧
      u.getShaft i = { s.getShaft i with target := max (-137438953472) (min v.toInt 137438953472) } ∧
      (∀ j : ShaftNo, j ≠ i → u.getShaft j = s.getShaft j) ∧
      u.shafts.clampFlag = (s.shafts.clampFlag || decide (v.toInt < -137438953472 ∨ 137438953472 < v.toInt)) ∧
      u = { s.touched .a with shafts := u.shafts } := by
  obtain ⟨hi, hj, hflag, hrest⟩ :=
    shaftWrite_spec (s.touched .a) i (fun x => { x with target := targetOf v }) (targetOf v = v.toInt)
  have hexec : exec (.targetVelocityWrite .a i v) s = .next (cmdTargetVelocity .a i v (s.touched .a)) :=
    congrArg _ (portWrite_ready .a s _ hready)
  refine ⟨_, hexec, ?_, hj, ?_, hrest⟩
  · refine Eq.trans hi ?_
    rw [targetOf, clampInt_eq _ (by decide)]
    rfl
  · refine Eq.trans hflag ?_
    congr 1
    rw [decide_eq_decide, targetOf, clampInt_eq_iff _ (by decide)]
    omega

theorem shaftLimitWrite_spec {s : State} (hready : s.clock.ready = true) (i : ShaftNo) (l : ShaftLimit) (v : BitVec 32) :
    ∃ u, exec (.shaftLimitWrite .a i l v) s = .next u ∧
      u.getShaft i = (s.getShaft i).setLimit l (max 1 (min v.toNat 16777216)) ∧
      (∀ j : ShaftNo, j ≠ i → u.getShaft j = s.getShaft j) ∧
      u.shafts.clampFlag = (s.shafts.clampFlag || decide (v.toNat < 1 ∨ 16777216 < v.toNat)) ∧
      u = { s.touched .a with shafts := u.shafts } := by
  obtain ⟨hi, hj, hflag, hrest⟩ := shaftWrite_spec (s.touched .a) i
    (fun x => x.setLimit l (clampNat v.toNat 1 16777216)) (clampNat v.toNat 1 16777216 = v.toNat)
  have hexec : exec (.shaftLimitWrite .a i l v) s = .next (cmdShaftLimit .a i l v (s.touched .a)) :=
    congrArg _ (portWrite_ready .a s _ hready)
  refine ⟨_, hexec, ?_, hj, ?_, hrest⟩
  · refine Eq.trans hi ?_
    rw [clampNat_eq _ (by decide)]
    rfl
  · refine Eq.trans hflag ?_
    congr 1
    rw [decide_eq_decide, clampNat_eq_iff _ (by decide)]
    omega

/-! ### The guard lock of an axis (R150) -/

/-- A guard that a port holds, or that is not bound, lets its writes through. -/
theorem State.guardOpen_of_held {s : State} {p : Port} {g : Option LockNo}
    (h : ∀ j : LockNo, g = some j → (s.getLock j).holder = some p) : s.guardOpen p g = true := by
  unfold State.guardOpen
  split
  · rfl
  · next j => simpa [State.holds] using h j rfl

theorem State.guardOpen_of_not_held {s : State} {p : Port} {g : Option LockNo} {j : LockNo} (hg : g = some j)
    (h : (s.getLock j).holder ≠ some p) : s.guardOpen p g = false := by
  subst hg
  simpa [State.guardOpen, State.holds] using h

theorem guardedByAxis_open {s : State} {i : AxisNo} (h : s.guardOpen .a (s.getAxis i).guardLock = true) (addr : Word16)
    (field : Bool) (f : State → State) : guardedByAxis .a i addr field f s = f s := by
  rw [guardedByAxis, writeByA_a, if_pos h]

/-! ### Plan entries (R53) -/

theorem exec_planEntryWrite_open {s : State} (hready : s.clock.ready = true) {i : AxisNo}
    (h : s.guardOpen .a (s.getAxis i).guardLock = true) (plan : PlanNo) (f : EntryField) (v : BitVec 32) :
    exec (.planEntryWrite .a i plan f v) s = .next
      (if f = .denominator ∧ v.setWidth 16 = 0#16 then (s.touched .a).modAxisUnit fun u => { u with rangeFlag := true }
      else (s.touched .a).modAxis i fun x =>
        { x with entries := modifyAt x.entries plan fun e => e.setField f v }) := by
  have h' : (s.touched .a).guardOpen .a ((s.touched .a).getAxis i).guardLock = true := h
  change Host.Outcome.next _ = _
  rw [portWrite_ready .a s _ hready, cmdPlanEntry, guardedByAxis_open h']

/-- Only the entry of one plan of one axis takes a value. -/
theorem modEntry_spec (s : State) (i : AxisNo) (plan : PlanNo) (g : PlanEntry → PlanEntry) :
    let u := s.modAxis i fun x => { x with entries := modifyAt x.entries plan g }
    (u.getAxis i).entries[plan.val] = g ((s.getAxis i).entries[plan.val]) ∧
    (∀ k : PlanNo, k ≠ plan → (u.getAxis i).entries[k.val] = (s.getAxis i).entries[k.val]) ∧
    u.getAxis i = { s.getAxis i with entries := (u.getAxis i).entries } ∧
    (∀ j : AxisNo, j ≠ i → u.getAxis j = s.getAxis j) ∧ u = { s with axis := { s.axis with axes := u.axis.axes } } := by
  have hi : (s.modAxis i fun x => { x with entries := modifyAt x.entries plan g }).getAxis i = _ :=
    State.modAxis_getAxis_self _ _ _
  refine ⟨?_, fun k hk => ?_, ?_, fun j hj => (State.modAxis_getAxis _ _ _ _).trans (if_neg hj), rfl⟩
  · rw [hi]
    exact modifyAt_get_self _ _ _
  · rw [hi]
    exact modifyAt_get_other _ _ _ _ hk
  · rw [hi]

/-! ### Parameters (R54) -/

theorem modAxisUnit_clampFlag_bool (s : State) (b : Bool) :
    (if b then s.modAxisUnit fun u => { u with clampFlag := true } else s) =
      s.modAxisUnit fun u => { u with clampFlag := u.clampFlag || b } := by
  cases b <;> simp [State.modAxisUnit]

theorem exec_axisParameterWrite_open {s : State} (hready : s.clock.ready = true) {i : AxisNo}
    (h : s.guardOpen .a (s.getAxis i).guardLock = true) (q : AxisParam) (v : BitVec 32) :
    exec (.axisParameterWrite .a i q v) s = .next ((setParam i q (q.value v) (s.touched .a)).modAxisUnit fun u =>
      { u with clampFlag := u.clampFlag || q.clamps (q.value v) }) := by
  have h' : (s.touched .a).guardOpen .a ((s.touched .a).getAxis i).guardLock = true := h
  change Host.Outcome.next _ = _
  rw [portWrite_ready .a s _ hready, cmdAxisParam, guardedByAxis_open h', ← modAxisUnit_clampFlag_bool]

/-- A parameter that stands in its axis alone. -/
theorem axisParameterWrite_spec {s : State} (hready : s.clock.ready = true) {i : AxisNo}
    (h : s.guardOpen .a (s.getAxis i).guardLock = true) {q : AxisParam} {v : BitVec 32} {g : Axis → Axis}
    (hset : ∀ t : State, setParam i q (q.value v) t = t.modAxis i g) {y : Axis} (hy : g (s.getAxis i) = y) {clamped : Bool}
    (hclamped : q.clamps (q.value v) = clamped) :
    ∃ u, exec (.axisParameterWrite .a i q v) s = .next u ∧ u.getAxis i = y ∧
      (∀ j : AxisNo, j ≠ i → u.getAxis j = s.getAxis j) ∧ u.axis.clampFlag = (s.axis.clampFlag || clamped) ∧
      u = { s.touched .a with axis := { s.axis with axes := u.axis.axes, clampFlag := u.axis.clampFlag } } := by
  refine ⟨_, exec_axisParameterWrite_open hready h q v, ?_, fun j hj => ?_, ?_, ?_⟩ <;> rw [hset]
  · exact (State.modAxis_getAxis_self _ _ _).trans hy
  · exact (State.modAxis_getAxis _ _ _ _).trans (if_neg hj)
  · rw [hclamped]
    rfl
  · rfl

/-- Whether a number other than the guard lock's 65,535 is clamped. -/
theorem AxisParam.clamps_eq (q : AxisParam) (n : Nat) (h : q.range.1 ≤ q.range.2) (hq : ¬(q = .guardLock ∧ n = 65535)) :
    q.clamps n = decide (n < q.range.1 ∨ q.range.2 < n) := by
  rw [AxisParam.clamps, if_neg hq, decide_eq_decide, AxisParam.stored, ne_eq, clampNat_eq_iff n h]
  omega

theorem AxisParam.stored_eq (q : AxisParam) (n : Nat) (h : q.range.1 ≤ q.range.2) :
    q.stored n = max q.range.1 (min n q.range.2) := clampNat_eq n h

/-- Each parameter that stands in its axis alone takes its value in range. -/
theorem axisParameters_stored {s : State} (hready : s.clock.ready = true) {i : AxisNo}
    (h : s.guardOpen .a (s.getAxis i).guardLock = true) (v : BitVec 32) :
    let x := s.getAxis i
    let w := (v.setWidth 16).toNat
    let param (q : AxisParam) (y : Axis) (clamped : Bool) : Prop :=
      ∃ u, exec (.axisParameterWrite .a i q v) s = .next u ∧ u.getAxis i = y ∧
        (∀ j : AxisNo, j ≠ i → u.getAxis j = s.getAxis j) ∧ u.axis.clampFlag = (s.axis.clampFlag || clamped) ∧
        u = { s.touched .a with axis := { s.axis with axes := u.axis.axes, clampFlag := u.axis.clampFlag } }
    param .corrSlew { x with corrSlew := max 1 (min w 65535) } (decide (w < 1)) ∧
    param .engageSlew { x with engageSlew := max 1 (min v.toNat 1048576) } (decide (v.toNat < 1 ∨ 1048576 < v.toNat)) ∧
    param .decel { x with decel := max 1 (min w 65535) } (decide (w < 1)) ∧
    param .window { x with window := max 1 (min v.toNat 1048576) } (decide (v.toNat < 1 ∨ 1048576 < v.toNat)) ∧
    param .followCount { x with followCount := max 1 (min w 16) } (decide (w < 1 ∨ 16 < w)) ∧
    param .lag { x with lag := max 1 (min w 4) } (decide (w < 1 ∨ 4 < w)) ∧
    param .actualReport { x with actualReport := decide (1 ≤ w) } (decide (1 < w)) ∧
    (1 ≤ w → param .enabled { x with enabled := true } (decide (1 < w))) ∧
    (w = 65535 → param .guardLock { x with guardLock := none } false) ∧
    (∀ j : LockNo, w = j.val → param .guardLock { x with guardLock := some j } false) ∧
    (15 < w → w < 65535 → param .guardLock { x with guardLock := some 15 } true) := by
  intro x w param
  have hw : w < 65536 := (v.setWidth 16).isLt
  have stands {q : AxisParam} {y : Axis} {clamped : Bool} (g : Axis → Axis)
      (hset : ∀ t : State, setParam i q (q.value v) t = t.modAxis i g) (hy : g (s.getAxis i) = y)
      (hclamped : q.clamps (q.value v) = clamped) : param q y clamped :=
    axisParameterWrite_spec hready h hset hy hclamped
  have clamps (q : AxisParam) (n : Nat) (hr : q.range.1 ≤ q.range.2) (hq : q ≠ .guardLock) :
      q.clamps n = decide (n < q.range.1 ∨ q.range.2 < n) := q.clamps_eq n hr fun e => hq e.1
  refine ⟨stands _ (fun _ => rfl) ?_ ?_, stands _ (fun _ => rfl) ?_ ?_, stands _ (fun _ => rfl) ?_ ?_,
    stands _ (fun _ => rfl) ?_ ?_, stands _ (fun _ => rfl) ?_ ?_, stands _ (fun _ => rfl) ?_ ?_,
    stands _ (fun _ => rfl) ?_ ?_, fun h1 => stands _ (fun _ => rfl) ?_ ?_, fun hn => stands _ (fun _ => rfl) ?_ ?_,
    fun j hj => stands _ (fun _ => rfl) ?_ ?_, fun hlo hhi => stands _ (fun _ => rfl) ?_ ?_⟩
  · rw [AxisParam.stored_eq _ _ (by decide)]
    rfl
  · rw [clamps _ _ (by decide) (by decide), decide_eq_decide]
    change (w < 1 ∨ 65535 < w) ↔ _
    omega
  · rw [AxisParam.stored_eq _ _ (by decide)]
    rfl
  · exact clamps _ _ (by decide) (by decide)
  · rw [AxisParam.stored_eq _ _ (by decide)]
    rfl
  · rw [clamps _ _ (by decide) (by decide), decide_eq_decide]
    change (w < 1 ∨ 65535 < w) ↔ _
    omega
  · rw [AxisParam.stored_eq _ _ (by decide)]
    rfl
  · exact clamps _ _ (by decide) (by decide)
  · rw [AxisParam.stored_eq _ _ (by decide)]
    rfl
  · exact clamps _ _ (by decide) (by decide)
  · rw [AxisParam.stored_eq _ _ (by decide)]
    rfl
  · exact clamps _ _ (by decide) (by decide)
  · have hstored : (AxisParam.actualReport.stored (AxisParam.actualReport.value v) == 1) = decide (1 ≤ w) := by
      rw [AxisParam.stored_eq _ _ (by decide), Bool.beq_eq_decide_eq, decide_eq_decide]
      change max 0 (min w 1) = 1 ↔ _
      omega
    rw [hstored]
  · rw [clamps _ _ (by decide) (by decide), decide_eq_decide]
    change (w < 0 ∨ 1 < w) ↔ _
    omega
  · refine if_pos ?_
    rw [AxisParam.stored_eq _ _ (by decide)]
    change max 0 (min w 1) = 1
    omega
  · rw [clamps _ _ (by decide) (by decide), decide_eq_decide]
    change (w < 0 ∨ 1 < w) ↔ _
    omega
  · rw [show AxisParam.guardLock.value v = 65535 from hn]
    rfl
  · rw [show AxisParam.guardLock.value v = 65535 from hn]
    rfl
  · have := j.isLt
    rw [show AxisParam.guardLock.value v = j.val from hj, lockOrNone, if_neg (by omega),
      clampNat_of_range ⟨Nat.zero_le _, by omega⟩, finOf_val]
  · have := j.isLt
    rw [show AxisParam.guardLock.value v = j.val from hj, AxisParam.clamps_eq _ _ (by decide) (by omega)]
    exact decide_eq_false (show ¬(j.val < 0 ∨ 15 < j.val) by omega)
  · rw [lockOrNone, show AxisParam.guardLock.value v = w from rfl, if_neg (by omega), clampNat_eq _ (by decide),
      Nat.min_eq_right (by omega)]
    rfl
  · rw [show AxisParam.guardLock.value v = w from rfl, AxisParam.clamps_eq _ _ (by decide) (by omega)]
    exact decide_eq_true (show w < 0 ∨ 15 < w by omega)

/-- A class parameter of an axis does what the class write of its source does (R75). -/
theorem classParameter_spec {s : State} (hready : s.clock.ready = true) {i : AxisNo}
    (h : s.guardOpen .a (s.getAxis i).guardLock = true) (v : BitVec 32) {q : AxisParam} {n : SourceNo}
    (hq : (q = .followClass ∧ n.val = 16 + i.val) ∨ (q = .stepClass ∧ n.val = 24 + i.val)) :
    let w := (v.setWidth 16).toNat
    exec (.axisParameterWrite .a i q v) s =
      .next ((setSourceClass n (classOf (min w 3)) (s.touched .a)).modAxisUnit fun a =>
        { a with clampFlag := a.clampFlag || decide (3 < w) }) := by
  intro w
  have hset : setParam i q (q.value v) (s.touched .a) = setSourceClass n (classOf (q.stored (q.value v))) (s.touched .a) := by
    rcases hq with ⟨rfl, hn⟩ | ⟨rfl, hn⟩
    · rw [show n = followSource i from Fin.ext hn]
      rfl
    · rw [show n = stepSource i from Fin.ext hn]
      rfl
  have hvalue : q.value v = w ∧ q.range = (0, 3) ∧ q ≠ .guardLock := by
    rcases hq with ⟨rfl, -⟩ | ⟨rfl, -⟩ <;> exact ⟨rfl, rfl, by decide⟩
  obtain ⟨hval, hrange, hne⟩ := hvalue
  have hstored : q.stored w = min w 3 := by
    rw [AxisParam.stored_eq _ _ (by rw [hrange]; decide), hrange]
    exact Nat.zero_max _
  have hclamps : q.clamps w = decide (3 < w) := by
    rw [AxisParam.clamps_eq _ _ (by rw [hrange]; decide) fun e => hne e.1, hrange, decide_eq_decide]
    exact ⟨fun e => e.resolve_left (by omega), .inr⟩
  rw [exec_axisParameterWrite_open hready h, hset, hval, hstored, hclamps]

/-- The axis whose class parameter is the class of a source. -/
theorem sourceAxis_eq {n : SourceNo} {i : AxisNo} (h : n.val = 16 + i.val ∨ n.val = 24 + i.val) : sourceAxis n = some i := by
  have := i.isLt
  unfold sourceAxis
  rcases h with h | h
  · rw [if_neg (by omega), if_pos (by omega), show n.val - 16 = i.val by omega, finOf_val]
  · rw [if_pos (by omega), show n.val - 24 = i.val by omega, finOf_val]

theorem classGuardOpen_eq {s : State} {n : SourceNo} {i : AxisNo} (h : n.val = 16 + i.val ∨ n.val = 24 + i.val) :
    s.classGuardOpen n = s.guardOpen .a (s.getAxis i).guardLock := by
  rw [State.classGuardOpen, sourceAxis_eq h]

/-! ### Refusals (R150, R157, R158, R161) -/

theorem partnerTaken_entry (i : AxisNo) (plan : PlanNo) (f : EntryField) :
    partnerTaken (axisAddr i (8 * plan.val + f.off)).toNat = false := by
  revert i plan
  cases f <;> decide

theorem partnerTaken_param (i : AxisNo) (q : AxisParam) : partnerTaken (axisAddr i q.off).toNat = false := by
  revert i
  cases q <;> decide

theorem partnerTaken_class (n : SourceNo) : partnerTaken (sourceAddr n 1).toNat = false := by
  revert n
  decide

/-- The even word of a pair in an axis's window, and the word after one. -/
theorem axisAddr_even_entry (i : AxisNo) (plan : PlanNo) (f : EntryField) :
    axisAddr i (8 * plan.val + f.off) &&& 0xFFFE#16 = axisAddr i (8 * plan.val + f.off - (8 * plan.val + f.off) % 2) := by
  revert i plan
  cases f <;> decide

theorem axisAddr_even_param (i : AxisNo) (q : AxisParam) :
    axisAddr i q.off &&& 0xFFFE#16 = axisAddr i (q.off - q.off % 2) := by
  revert i
  cases q <;> decide

theorem sourceAddr_even_class (n : SourceNo) : sourceAddr n 1 &&& 0xFFFE#16 = sourceAddr n 0 := by
  revert n
  decide

theorem axisAddr_succ (i : AxisNo) (off : Nat) : axisAddr i off + 1 = axisAddr i (off + 1) := by
  exact (BitVec.ofNat_add (0x0200 + 0x80 * i.val + off) 1).symm

/-- A write that an axis's guard refuses: one ACCESS, with the address its port captures. -/
theorem guardedByAxis_refused {s : State} {i : AxisNo} (h : s.guardOpen .a (s.getAxis i).guardLock = false) {off : Nat}
    {field : Bool} (hpartner : partnerTaken (axisAddr i off).toNat = false)
    (heven : axisAddr i off &&& 0xFFFE#16 = axisAddr i (off - off % 2)) (hfield : field = true → off % 2 = 0)
    (f : State → State) :
    guardedByAxis .a i (axisAddr i off) field f s = access .a
      (if (s.port .a).wide = true then axisAddr i (off - off % 2)
        else axisAddr i (if field = true then off + 1 else off)) true .guarded s := by
  rw [guardedByAxis, writeByA_a, if_neg (by simp [h])]
  cases field with
  | true =>
    rw [if_pos rfl, refuseField, axisAddr_succ]
    simp [hfield rfl]
  | false =>
    rw [if_neg (by decide)]
    cases hw : (s.port .a).wide with
    | true => simp [refuseWord_wide _ _ _ _ hw, hpartner, heven]
    | false => simp [refuseWord_narrow _ _ _ _ hw]

/-- Settles O36, by the kinds of write: shafts, plan entries, parameters, classes, and the refusals of a guard lock. -/
theorem shaftAndAxisWrites : Obligations.ShaftAndAxisWrites := by
  refine ⟨fun s i hready => ⟨targetVelocityWrite_spec hready i, fun l v => ?_⟩,
    fun s i plan v hready => ⟨fun hguard => ?_, fun j hj hheld f q => ?_⟩⟩
  · obtain ⟨u, hexec, hi, hrest⟩ := shaftLimitWrite_spec hready i l v
    refine ⟨u, hexec, ?_, hrest⟩
    rw [hi]
    cases l <;> rfl
  · have hopen := State.guardOpen_of_held hguard
    intro entry e
    have written (f : EntryField) (h : ¬(f = .denominator ∧ v.setWidth 16 = 0#16)) :
        ∃ u, exec (.planEntryWrite .a i plan f v) s = .next u ∧ entry (e.setField f v) u := by
      have hexec := exec_planEntryWrite_open hready hopen plan f v
      rw [if_neg h] at hexec
      exact ⟨_, hexec, modEntry_spec (s.touched .a) i plan fun e => e.setField f v⟩
    have hlow (k : Nat) (hk : k < 65536) (hv : v.toNat = k) : (v.setWidth 16).toNat = k := by
      rw [BitVec.toNat_setWidth, hv]
      exact Nat.mod_eq_of_lt hk
    refine ⟨written .numerator (by simp), fun h => written .denominator (by simp [h]), fun h => ?_, written .phase (by simp),
      fun hv => ?_, fun k hk => ?_, ?_, ?_, ?_⟩
    · rw [exec_planEntryWrite_open hready hopen, if_pos ⟨rfl, h⟩]
    · obtain ⟨u, hexec, hu⟩ := written .valid (by simp)
      refine ⟨u, hexec, ?_⟩
      rwa [PlanEntry.setField, hlow v.toNat (by omega) rfl, listedBool_of_le hv] at hu
    · obtain ⟨u, hexec, hu⟩ := written .shaft (by simp)
      refine ⟨u, hexec, ?_⟩
      have hlt := k.isLt
      rw [PlanEntry.setField, hlow k.val (by omega) hk, listedCode, if_pos hlt] at hu
      rwa [show Fin.ofNat 4 k.val = k from Fin.ext (Nat.mod_eq_of_lt hlt)] at hu
    · obtain ⟨u, hexec, hu⟩ := written .valid (by simp)
      exact ⟨u, hexec, by rw [hu.1]; exact hu⟩
    · obtain ⟨u, hexec, hu⟩ := written .shaft (by simp)
      exact ⟨u, hexec, by rw [hu.1]; exact hu⟩
    · intro x w param
      obtain ⟨h1, h2, h3, h4, h5, h6, h7, h8, h9, h10, h11⟩ := axisParameters_stored hready hopen v
      refine ⟨h1, h2, h3, h4, h5, h6, h7, h8, h9, h10, h11, fun q n hq => ?_, fun h0 => ?_⟩
      · have hn : n.val = 16 + i.val ∨ n.val = 24 + i.val := hq.imp And.right And.right
        have hclass := exec_sourceClassWrite_a (v := BitVec.ofNat 16 (min w 3)) hready ((classGuardOpen_eq hn).trans hopen)
        have hcode : listedCode 4 (BitVec.ofNat 16 (min w 3)).toNat = min w 3 := by
          rw [BitVec.toNat_ofNat, Nat.mod_eq_of_lt (by omega), listedCode, if_pos (by omega)]
        rw [hcode] at hclass
        have hparam := classParameter_spec hready hopen v hq
        refine ⟨⟨_, hclass, hparam⟩, fun hl => ⟨_, hparam, ?_⟩⟩
        rw [setSourceClass_of_unlatched (s := s.touched .a) hl]
        have hsource (k : SourceNo) := State.modSource_getSource (s.touched .a) n k fun x =>
          { x with cls := classOf (min w 3) }
        refine ⟨?_, ?_, fun k hk => (hsource k).trans (if_neg hk), rfl⟩
        · refine (congrArg (fun x => x.cls.word) ((hsource n).trans (if_pos rfl))).trans ?_
          have : min w 3 < 4 := by omega
          change (classOf (min w 3)).word = _
          exact classOf_word this
        · refine ((hsource n).trans (if_pos rfl)).trans ?_
          exact congrArg (fun c => { s.getSource n with cls := c })
            (congrArg Source.cls ((hsource n).trans (if_pos rfl))).symm
      · have hexec := exec_axisParameterWrite_open hready hopen .enabled v
        have hvalue : AxisParam.enabled.value v = 0 := by
          change (v.setWidth 16).toNat = 0
          rw [h0]
          rfl
        rw [hvalue] at hexec
        have hself := State.modAxis_getAxis_self (s.touched .a) i fun x =>
          if AxisParam.enabled.stored 0 = 1 then { x with enabled := true }
          else if x.state = .off then { x with enabled := false } else { x.toOff with enabled := false }
        have hdisabled (x : Axis) : let y := if x.state = .off then { x with enabled := false }
              else { x.toOff with enabled := false }
            y.enabled = false ∧ y.state = .off ∧ y.p = x.p ∧ y.g = x.g ∧ y.entries = x.entries := by
          dsimp only
          split
          · next hoff => exact ⟨rfl, hoff, rfl, rfl, rfl⟩
          · exact ⟨rfl, rfl, rfl, rfl, rfl⟩
        obtain ⟨he, hs, hp, hg, hentries⟩ := hdisabled (s.getAxis i)
        rw [if_neg (by decide)] at hself
        refine ⟨_, hexec, ?_, ?_, ?_, ?_, ?_, fun j hj => (State.modAxis_getAxis _ _ _ _).trans (if_neg hj), ?_, rfl⟩
        · exact (congrArg Axis.enabled hself).trans he
        · exact (congrArg Axis.state hself).trans hs
        · exact (congrArg Axis.p hself).trans hp
        · exact (congrArg Axis.g hself).trans hg
        · exact (congrArg Axis.entries hself).trans hentries
        · exact Bool.or_false _
  · have hclosed : (s.touched .a).guardOpen .a ((s.touched .a).getAxis i).guardLock = false :=
      State.guardOpen_of_not_held hj hheld
    have hwide : ((s.touched .a).port .a).wide = (s.port .a).wide := rfl
    intro captured
    refine ⟨?_, ?_, fun n w hn => ?_⟩
    · change Host.Outcome.next _ = _
      rw [portWrite_ready .a s _ hready, cmdPlanEntry, guardedByAxis_refused hclosed (partnerTaken_entry i plan f)
        (axisAddr_even_entry i plan f) (by cases f <;> simp [EntryField.wide, EntryField.off]; omega)]
      rfl
    · change Host.Outcome.next _ = _
      rw [portWrite_ready .a s _ hready, cmdAxisParam, guardedByAxis_refused hclosed (partnerTaken_param i q)
        (axisAddr_even_param i q) (by cases q <;> simp [AxisParam.wide, AxisParam.off])]
      cases q <;> rfl
    · have hclass : (s.touched .a).classGuardOpen n = false := (classGuardOpen_eq hn).trans hclosed
      change Host.Outcome.next _ = _
      rw [portWrite_ready .a s _ hready, cmdSourceClass, writeByA_a, if_neg (by simp [hclass])]
      cases hw : (s.port .a).wide with
      | true => simp [refuseWord_wide _ _ _ _ (hwide.trans hw), partnerTaken_class, sourceAddr_even_class]
      | false => simp [refuseWord_narrow _ _ _ _ (hwide.trans hw)]

end Sys2Proof.Machine
end

