-- ==== Sys2Proof/Proofs/MemoryPorts.lean ====
section
/-!
PROOFS. The ports' words of the packet memory: taking and giving blocks (R95 to R97), and payload words of the block window
and of the common areas (R98, R149, R157, R159, R160).
-/

namespace Sys2Proof.Machine

/-! ### Taking blocks (R96) -/

theorem Pool.heldBy_length (u : Pool) (p : Port) :
    ((List.finRange 512).filter fun n => decide (u.owner n = .port p)).length = (u.heldBy p).length := by
  rw [Pool.heldBy]

/-- The lines of an answered take: SCREEN Take stands in the upper half at a 32-bit port. -/
def takeLines (screen wide : Bool) (v : Nat) : BitVec 32 :=
  if wide then (if screen then BitVec.ofNat 16 v ++ 0#16 else 0#16 ++ BitVec.ofNat 16 v) else BitVec.ofNat 32 v

theorem answerTake_eq (screen : Bool) (p : Port) (v : Nat) (s : State) :
    answerTake screen p v s = s.drive p (takeLines screen (s.port p).wide v) := by
  rw [answerTake, drivePair_eq, takeLines]
  cases screen <;> rfl

theorem takeRefused_eq (screen : Bool) (p : Port) (s : State) :
    takeRefused screen p s = s.modPort p fun u =>
      { u with takeRefused := true, takeRefusedCount := bump u.takeRefusedCount,
               lines := takeLines screen (s.port p).wide 65535 } := by
  rw [takeRefused, answerTake_eq, State.modPort_port_self, State.drive, State.modPort_modPort]

/-- The lines of Block Take hold the number alone, those of SCREEN Take in their half. -/
theorem takeLines_block (wide : Bool) {v : Nat} (h : v < 65536) : takeLines false wide v = BitVec.ofNat 32 v := by
  cases wide with
  | true =>
    refine BitVec.eq_of_toNat_eq ?_
    change (0#16 ++ BitVec.ofNat 16 v : BitVec (16 + 16)).toNat = _
    rw [BitVec.toNat_append]
    simp
    omega
  | false => rfl

theorem takeLines_screen (wide : Bool) {v : Nat} (h : v < 65536) :
    takeLines true wide v = if wide = true then BitVec.ofNat 16 v ++ 0#16 else (BitVec.ofNat 16 v).setWidth 32 := by
  cases wide with
  | true => rfl
  | false =>
    refine BitVec.eq_of_toNat_eq ?_
    simp [takeLines]
    omega

theorem cmdTake_refused {screen : Bool} {p : Port} {s : State}
    (h : 64 ≤ (s.pool.heldBy p).length ∨ s.pool.free = [] ∨ (screen = false ∧ s.pool.free.length ≤ s.pool.reserve)) :
    cmdTake screen p s = takeRefused screen p s := by
  unfold cmdTake
  split
  · rfl
  · next hheld =>
    split
    · rfl
    · next hreserve =>
      rcases h with h | h | ⟨hs, h⟩
      · exact absurd h hheld
      · simp [Pool.takeHead, h]
      · exact absurd (by simp [hs, h]) hreserve

theorem cmdTake_taken {screen : Bool} {p : Port} {s : State} {n : BlockNo} {rest : List BlockNo}
    (hheld : (s.pool.heldBy p).length < 64) (hfree : s.pool.free = n :: rest)
    (h : screen = true ∨ s.pool.reserve < s.pool.free.length) :
    cmdTake screen p s = answerTake screen p n.val (s.modPool fun _ => { s.pool.own [n] (.port p) with free := rest }) := by
  have hreserve : ¬(!screen && decide (s.pool.free.length ≤ s.pool.reserve)) = true := by
    rcases h with h | h
    · simp [h]
    · simp [Nat.not_le.mpr h]
  rw [cmdTake, if_neg (by omega), if_neg hreserve, Pool.takeHead_eq _ _ n rest hfree]

/-- What a take leaves: the head block is the port's, the others and all bytes as they were (R95, R96). -/
theorem cmdTake_spec {screen : Bool} {p : Port} {s : State} {n : BlockNo} {rest : List BlockNo}
    (hheld : (s.pool.heldBy p).length < 64) (hfree : s.pool.free = n :: rest)
    (h : screen = true ∨ s.pool.reserve < s.pool.free.length) :
    let u := cmdTake screen p s
    u.pool.free = rest ∧ u.pool.owner n = .port p ∧ (∀ m : BlockNo, m ≠ n → u.pool.owner m = s.pool.owner m) ∧
      u.pool.mem = s.pool.mem ∧ u.pool.reserve = s.pool.reserve ∧
      u = { s.drive p (takeLines screen (s.port p).wide n.val) with pool := u.pool } := by
  intro u
  have hu : u = _ := (cmdTake_taken hheld hfree h).trans (answerTake_eq _ _ _ _)
  have hpool : u.pool = { s.pool.own [n] (.port p) with free := rest } := by rw [hu]; rfl
  have howner (m : BlockNo) : u.pool.owner m = (s.pool.own [n] (.port p)).owner m := by rw [hpool]; rfl
  refine ⟨by rw [hpool], ?_, fun m hm => ?_, by rw [hpool]; rfl, by rw [hpool]; rfl, ?_⟩
  · rw [howner, Pool.own_owner, if_pos (by simp)]
  · rw [howner, Pool.own_owner, if_neg (by simp [hm])]
  · rw [hpool, hu]
    rfl

/-! ### Giving blocks (R97) -/

theorem cmdBlockGive_held {s : State} {p : Port} {v : Word16} {n : BlockNo} (hv : v.toNat = n.val)
    (h : s.pool.owner n = .port p) : cmdBlockGive p v s = freeBlocks [n] s := by
  simp only [cmdBlockGive, hv, finOf_val, h, if_true]

theorem cmdBlockGive_refused {s : State} {p : Port} {v : Word16}
    (h : ∀ n : BlockNo, v.toNat = n.val → s.pool.owner n ≠ .port p) :
    cmdBlockGive p v s = s.modPort p fun u => { u with giveRefused := true, giveRefusedCount := bump u.giveRefusedCount } := by
  unfold cmdBlockGive
  split
  · next n hn =>
    unfold finOf at hn
    split at hn
    · cases hn
      rw [if_neg (h _ rfl)]
    · cases hn
  · rfl

/-- Settles O43, by the refusals of a take, its answer, and the two fates of a give. -/
theorem blocksAreTakenAndGiven : Obligations.BlocksAreTakenAndGiven := by
  intro s p hready screenLines refused
  rw [Pool.heldBy_length]
  intro held taken
  have hscreenTake : exec (.screenTake p) s = .next (cmdTake true p (s.touched p)) :=
    congrArg Host.Outcome.next (portRead_ready p s _ hready)
  have hblockTake : exec (.blockTake p) s = .next (cmdTake false p (s.touched p)) :=
    congrArg Host.Outcome.next (portRead_ready p s _ hready)
  have hgive (v : Word16) : exec (.blockGive p v) s = .next (cmdBlockGive p v (s.touched p)) :=
    congrArg _ (portWrite_ready p s _ hready)
  have hwide : ((s.touched p).port p).wide = (s.port p).wide := by rw [State.touched_port_self]
  have hscreen {v : Nat} (hv : v < 65536) : takeLines true (s.port p).wide v = screenLines (BitVec.ofNat 16 v) :=
    takeLines_screen _ hv
  refine ⟨fun h => ?_, fun h => ?_, fun n rest hheld hfree => ⟨?_, fun hreserve => ?_⟩, fun n v hv hn => ?_, fun v h => ?_⟩
  · rw [hscreenTake, cmdTake_refused (s := s.touched p) (h.imp_right .inl), takeRefused_eq, hwide, hscreen (by decide)]
    rfl
  · rw [hblockTake, cmdTake_refused (s := s.touched p) (h.imp_right fun h => .inr ⟨rfl, h⟩), takeRefused_eq, takeLines_block _ (by decide)]
    rfl
  · have hspec := cmdTake_spec (screen := true) (s := s.touched p) (p := p) hheld hfree (.inl rfl)
    rw [hwide, hscreen (by omega)] at hspec
    exact ⟨_, hscreenTake, hspec⟩
  · have hspec := cmdTake_spec (screen := false) (s := s.touched p) (p := p) hheld hfree (.inr hreserve)
    rw [takeLines_block _ (by omega)] at hspec
    exact ⟨_, hblockTake, hspec⟩
  · rw [hgive, cmdBlockGive_held (s := s.touched p) hv hn]
    refine ⟨_, rfl, freeBlocks_free _ _, ?_, fun m hm => ?_, rfl, rfl⟩
    · rw [freeBlocks_owner, if_pos (by simp)]
    · rw [freeBlocks_owner, if_neg (by simp [hm])]
      rfl
  · rw [hgive, cmdBlockGive_refused (s := s.touched p) h]

/-! ### Payload bytes (R98, R159) -/

theorem bytesOfLines_length (wide big : Bool) (w : BitVec 32) : (bytesOfLines wide big w).length = accessBytes wide := by
  simp [bytesOfLines]

theorem bytesOfLines_getElem (wide big : Bool) (w : BitVec 32) {j : Nat} (h : j < accessBytes wide) :
    (bytesOfLines wide big w)[j]'(by rwa [bytesOfLines_length]) =
      w.extractLsb' (8 * (if big = true then accessBytes wide - 1 - j else j)) 8 := by
  simp only [bytesOfLines, List.getElem_map, List.getElem_range]
  cases big <;> cases wide <;> rfl

/-- A payload write at a port: the bytes of its lanes at its own address, and no other byte (R98, R159). -/
theorem writePayload_spec {s : State} (hmem : s.MemoryOk) (x : Nat) (wide big : Bool) (w : BitVec 32) :
    let u := writePayload x (bytesOfLines wide big w) s
    (∀ j : Nat, j < accessBytes wide →
      u.byte (x + j) = w.extractLsb' (8 * (if big = true then accessBytes wide - 1 - j else j)) 8) ∧
    (∀ y : Nat, y < x ∨ x + accessBytes wide ≤ y → u.byte y = s.byte y) ∧
    u = { s with pool := { s.pool with mem := u.pool.mem } } := by
  refine ⟨fun j hj => ?_, fun y hy => ?_, rfl⟩
  · rw [← bytesOfLines_getElem wide big w hj]
    exact Memory.read_writeBytes_at x j _ hmem (by rwa [bytesOfLines_length])
  · exact writePayload_byte_other x y _ s (by rwa [bytesOfLines_length])

/-- The lines that a 16-bit little-endian port reads two bytes on. -/
theorem linesOfBytes_narrow (a b : Byte) : linesOfBytes false false [a, b] = (b ++ a).setWidth 32 := by
  refine BitVec.eq_of_toNat_eq ?_
  have ha := a.isLt
  have hb := b.isLt
  simp only [linesOfBytes, accessBytes, laneOf, BitVec.toNat_ofNat, BitVec.toNat_setWidth, BitVec.toNat_append]
  rw [Nat.shiftLeft_eq, Nat.mul_comm b.toNat, ← Nat.two_pow_add_eq_or_of_lt ha]
  simp [List.range_succ]
  omega

/-- A little-endian 16-bit write stores its low byte first. -/
theorem writePayload_narrow {s : State} (hmem : s.MemoryOk) (x : Nat) (w : BitVec 32) :
    let u := writePayload x (bytesOfLines false false w) s
    u.byte x = w.extractLsb' 0 8 ∧ u.byte (x + 1) = w.extractLsb' 8 8 ∧
      (∀ y : Nat, y ≠ x → y ≠ x + 1 → u.byte y = s.byte y) ∧ u = { s with pool := { s.pool with mem := u.pool.mem } } := by
  obtain ⟨hbytes, hothers, hrest⟩ := writePayload_spec hmem x false false w
  exact ⟨hbytes 0 (by decide), hbytes 1 (by decide), fun y h0 h1 => hothers y (by change y < x ∨ x + 2 ≤ y; omega), hrest⟩

/-! ### The block window and the common areas (R98, R160) -/

theorem exec_blockWindowWrite {s : State} (hready : s.clock.ready = true) (p : Port) (word : Fin 128) (w : BitVec 32) :
    exec (.blockWindowAccess p word (some w)) s = .next (cmdBlockWindow p word (some w) (s.touched p)) :=
  congrArg _ (portWrite_ready p s _ hready)

theorem exec_blockWindowRead {s : State} (hready : s.clock.ready = true) (p : Port) (word : Fin 128) :
    exec (.blockWindowAccess p word none) s = .next (cmdBlockWindow p word none (s.touched p)) :=
  congrArg Host.Outcome.next (portRead_ready p s _ hready)

theorem exec_commonAreaWrite {s : State} (hready : s.clock.ready = true) (p : Port) (a : AreaNo) (word : Fin 512)
    (w : BitVec 32) : exec (.commonAreaWrite p a word w) s = .next (cmdAreaWrite p a word w (s.touched p)) :=
  congrArg _ (portWrite_ready p s _ hready)

/-- Without a held block the window refuses each access (R160). -/
theorem cmdBlockWindow_notHeld {s : State} {p : Port}
    (h : ∀ n : BlockNo, (s.port p).select = some n → s.pool.owner n ≠ .port p) (word : Fin 128) :
    (∀ w, cmdBlockWindow p word (some w) s =
      access p (blockWindowAddr (accessWord (s.port p).wide word.val)) true .notHeld s) ∧
    cmdBlockWindow p word none s = accessRead p (blockWindowAddr (accessWord (s.port p).wide word.val)) .notHeld s := by
  unfold cmdBlockWindow
  dsimp only
  split
  · next n hn => simp [h n hn]
  · exact ⟨fun _ => rfl, rfl⟩

/-- Settles O44, from the bytes and lanes of a payload write. -/
theorem payloadReachesMemory : Obligations.PayloadReachesMemory := by
  refine ⟨fun s p w hready hwide hbig hmem => ?_, fun s p w a word hready hbound hmem => ?_⟩
  · have hwide' : ((s.touched p).port p).wide = false := by rw [State.touched_port_self]; exact hwide
    have hbig' : ((s.touched p).port p).bigEndian = false := by rw [State.touched_port_self]; exact hbig
    have hselect : ((s.touched p).port p).select = (s.port p).select := by rw [State.touched_port_self]
    intro stored
    refine ⟨fun word n hn hheld => ⟨?_, ?_⟩, fun word hno => ?_, fun a word => ⟨fun hlock => ?_, fun j hj hother => ?_⟩⟩
    · have hwrite : cmdBlockWindow p word (some w) (s.touched p) =
          writePayload (256 * n.val + 2 * word.val) (bytesOfLines false false w) (s.touched p) := by
        simp only [cmdBlockWindow, hselect, hn, State.touched_pool, hheld, if_true, hwide', hbig']
        rfl
      exact ⟨_, (exec_blockWindowWrite hready p word w).trans (congrArg _ hwrite),
        writePayload_narrow (s := s.touched p) hmem _ w⟩
    · rw [exec_blockWindowRead hready]
      simp only [cmdBlockWindow, hselect, hn, State.touched_pool, hheld, if_true, hwide', hbig']
      exact congrArg (fun v => Host.Outcome.next ((s.touched p).drive p v)) (linesOfBytes_narrow _ _)
    · have hno' : ∀ n : BlockNo, ((s.touched p).port p).select = some n → (s.touched p).pool.owner n ≠ .port p := by
        rw [hselect]
        exact hno
      obtain ⟨hwrite, hread⟩ := cmdBlockWindow_notHeld hno' word
      rw [exec_blockWindowWrite hready, exec_blockWindowRead hready, hwrite, hread, hwide']
      exact ⟨rfl, rfl⟩
    · have hopen : (s.touched p).guardOpen p (s.touched p).locks.bindings[a.val] = true := State.guardOpen_of_held hlock
      have hwrite : cmdAreaWrite p a word w (s.touched p) =
          writePayload (131072 + 1024 * a.val + 2 * word.val) (bytesOfLines false false w) (s.touched p) := by
        simp only [cmdAreaWrite, hopen, if_true, hwide', hbig']
        rfl
      exact ⟨_, (exec_commonAreaWrite hready p a word w).trans (congrArg _ hwrite),
        writePayload_narrow (s := s.touched p) hmem _ w⟩
    · have hclosed : (s.touched p).guardOpen p (s.touched p).locks.bindings[a.val] = false :=
        State.guardOpen_of_not_held hj hother
      rw [exec_commonAreaWrite hready]
      simp only [cmdAreaWrite, hclosed, hwide']
      rfl
  · intro x count
    have hopen : (s.touched p).guardOpen p (s.touched p).locks.bindings[a.val] = true := by
      rw [State.touched_locks, hbound]
      rfl
    have hport : ((s.touched p).port p).wide = (s.port p).wide ∧ ((s.touched p).port p).bigEndian = (s.port p).bigEndian := by
      rw [State.touched_port_self]
      exact ⟨rfl, rfl⟩
    have hwrite : cmdAreaWrite p a word w (s.touched p) =
        writePayload x (bytesOfLines (s.port p).wide (s.port p).bigEndian w) (s.touched p) := by
      simp only [cmdAreaWrite, hopen, if_true, hport]
      rfl
    have hspec := writePayload_spec (s := s.touched p) hmem x (s.port p).wide (s.port p).bigEndian w
    exact ⟨_, (exec_commonAreaWrite hready p a word w).trans (congrArg _ hwrite), hspec⟩

end Sys2Proof.Machine
end

