-- ==== Sys2Proof/Proofs/LocksSignals.lean ====
section
/-!
PROOFS. Locks and their notify options (R145 to R147), signals (R151, R152), event flags and enables (R153) and the capture
(R161) at the ports.
-/

namespace Sys2Proof.Machine

/-! ### Locks -/

@[simp] theorem PortPair.get_set_self {α : Type} (x : PortPair α) (p : Port) (v : α) : (x.set p v).get p = v :=
  PortPair.get_modify_self x p _

@[simp] theorem PortPair.get_set_other {α : Type} (x : PortPair α) (p : Port) (v : α) :
    (x.set p v).get p.other = x.get p.other :=
  PortPair.get_modify_other x p _

theorem zero_append_word (x : BitVec 16) : 0#16 ++ x = x.setWidth 32 := by
  refine BitVec.eq_of_toNat_eq ?_
  have hx := x.isLt
  rw [BitVec.toNat_append, BitVec.toNat_setWidth]
  simp
  omega

theorem ofNat_wide {n : Nat} (h : n < 65536) : BitVec.ofNat 32 n = (BitVec.ofNat 16 n).setWidth 32 := by
  refine BitVec.eq_of_toNat_eq ?_
  simp
  omega

/-- A take word's answer: in the upper half beside a lock's status word where the lock is odd, else alone (R145, R157). -/
theorem drivePair_takeWord (s t : State) (p : Port) (j : LockNo) {n : Nat} (h : n < 65536) :
    t.drivePair p (0x1000 + 3 * j.val) n (s.besideTake j) = t.drive p
      (if (t.port p).wide = true ∧ j.val % 2 = 1 then BitVec.ofNat 16 n ++ BitVec.ofNat 16 (s.besideTake j)
        else (BitVec.ofNat 16 n).setWidth 32) := by
  have hparity : (0x1000 + 3 * j.val) % 2 = j.val % 2 := by omega
  rw [drivePair_eq, hparity]
  rcases Nat.mod_two_eq_zero_or_one j.val with heven | hodd
  · have hbeside : s.besideTake j = 0 := by rw [State.besideTake, if_pos heven]
    cases (t.port p).wide with
    | true => simp [heven, hbeside, zero_append_word]
    | false => simp [ofNat_wide h]
  · cases (t.port p).wide with
    | true => simp [hodd]
    | false => simp [ofNat_wide h]

theorem cmdLockTake_eq (p : Port) (j : LockNo) (s : State) {l : LockRec} (hl : s.getLock j = l)
    (hcode : (l.takeCode p).num < 65536) :
    cmdLockTake p j s = (s.modLock j fun l => l.take p ((s.locks.notify.get p).getLsbD j.val)).drive p
      (if (s.port p).wide = true ∧ j.val % 2 = 1 then
        BitVec.ofNat 16 (l.takeCode p).num ++ BitVec.ofNat 16 (s.besideTake j)
        else (BitVec.ofNat 16 (l.takeCode p).num).setWidth 32) := by
  rw [cmdLockTake, hl, drivePair_takeWord s _ p j hcode]
  rfl

/-- An entry is changed as its present value asks. -/
theorem modifyAt_congr {α : Type} {n : Nat} {v : Vector α n} {i : Fin n} {f g : α → α} (h : f v[i.val] = g v[i.val]) :
    modifyAt v i f = modifyAt v i g := by
  unfold modifyAt
  rw [h]

theorem modifyAt_id {α : Type} {n : Nat} {v : Vector α n} {i : Fin n} {f : α → α} (h : f v[i.val] = v[i.val]) :
    modifyAt v i f = v := by
  unfold modifyAt
  rw [h]
  exact Vector.set_getElem_self _

theorem State.modLock_congr {s : State} {j : LockNo} {f g : LockRec → LockRec} (h : f (s.getLock j) = g (s.getLock j)) :
    s.modLock j f = s.modLock j g :=
  congrArg (fun v => { s with locks := { s.locks with locks := v } }) (modifyAt_congr h)

theorem State.modLock_id {s : State} {j : LockNo} {f : LockRec → LockRec} (h : f (s.getLock j) = s.getLock j) :
    s.modLock j f = s :=
  congrArg (fun v => { s with locks := { s.locks with locks := v } }) (modifyAt_id h)

theorem Port.other_ne (p : Port) : p.other ≠ p := by cases p <;> decide

theorem cmdLockTake_free {s : State} {p : Port} {j : LockNo} (h : (s.getLock j).holder = none) :
    cmdLockTake p j s = (s.modLock j fun l => { l with holder := some p }).drive p
      (if (s.port p).wide = true ∧ j.val % 2 = 1 then 2#16 ++ BitVec.ofNat 16 (s.besideTake j) else (2#16).setWidth 32) := by
  have hcode : (s.getLock j).takeCode p = .granted := by rw [LockRec.takeCode, h]
  rw [cmdLockTake_eq p j s rfl (by rw [hcode]; decide), hcode]
  exact congrArg (State.drive · p _) (State.modLock_congr (by rw [LockRec.take, h]))

theorem cmdLockTake_own {s : State} {p : Port} {j : LockNo} (h : (s.getLock j).holder = some p) :
    cmdLockTake p j s = s.drive p
      (if (s.port p).wide = true ∧ j.val % 2 = 1 then 3#16 ++ BitVec.ofNat 16 (s.besideTake j) else (3#16).setWidth 32) := by
  have hcode : (s.getLock j).takeCode p = .alreadyHeld := by rw [LockRec.takeCode, h]; simp
  rw [cmdLockTake_eq p j s rfl (by rw [hcode]; decide), hcode, State.modLock_id (by simp [LockRec.take, h])]
  rfl

theorem LockRec.take_other {l : LockRec} {p : Port} (h : l.holder = some p.other) (notify : Bool) :
    l.take p notify = { l with waiter := if notify = true then some p else l.waiter } := by
  obtain ⟨holder, waiter⟩ := l
  cases h
  cases notify <;> simp [LockRec.take, Port.other_ne]

theorem cmdLockTake_other {s : State} {p : Port} {j : LockNo} (h : (s.getLock j).holder = some p.other) :
    cmdLockTake p j s = (s.modLock j fun l =>
        { l with waiter := if (s.locks.notify.get p).getLsbD j.val = true then some p else l.waiter }).drive p
      (if (s.port p).wide = true ∧ j.val % 2 = 1 then 4#16 ++ BitVec.ofNat 16 (s.besideTake j) else (4#16).setWidth 32) := by
  have hcode : (s.getLock j).takeCode p = .heldByOther := by rw [LockRec.takeCode, h]; simp [Port.other_ne]
  rw [cmdLockTake_eq p j s rfl (by rw [hcode]; decide), hcode]
  exact congrArg (State.drive · p _) (State.modLock_congr (LockRec.take_other h _))

theorem cmdLockGive_held {s : State} {p : Port} {j : LockNo} (h : (s.getLock j).holder = some p) :
    cmdLockGive p j s = match (s.getLock j).waiter with
      | some q => raise q .lockfree (s.modLock j fun _ => { holder := none, waiter := none })
      | none => s.modLock j fun _ => { holder := none, waiter := none } := by
  rw [cmdLockGive, if_pos h]
  rfl

/-- Notify options keep each holder and end a wait whose option is off (R147). -/
theorem cmdNotify_getLock (p : Port) (v : Word16) (s : State) (k : LockNo) :
    (cmdNotify p v s).getLock k = if v.getLsbD k.val = true then s.getLock k else (s.getLock k).unwait p := by
  simp [cmdNotify, State.getLock]

theorem LockRec.unwait_waiter_eq (l : LockRec) (p : Port) :
    (l.unwait p).waiter = if l.waiter = some p then none else l.waiter := by
  unfold LockRec.unwait
  split <;> rfl

theorem notifyOptionsWrite_spec (p : Port) (v : Word16) (s : State) :
    let u := cmdNotify p v s
    u.locks.notify.get p = v ∧ u.locks.notify.get p.other = s.locks.notify.get p.other ∧
      (∀ k : LockNo, (u.getLock k).holder = (s.getLock k).holder ∧ (u.getLock k).waiter =
        if v.getLsbD k.val = false ∧ (s.getLock k).waiter = some p then none else (s.getLock k).waiter) ∧
      u = { s with locks := { s.locks with locks := u.locks.locks, notify := u.locks.notify } } := by
  refine ⟨PortPair.get_set_self _ _ _, PortPair.get_set_other _ _ _, fun k => ?_, rfl⟩
  rw [cmdNotify_getLock]
  cases v.getLsbD k.val with
  | true => simp
  | false => simp [LockRec.unwait_holder, LockRec.unwait_waiter_eq]

/-! ### Signals -/

/-- Whether some bit is new in a word and stands in a mask. -/
theorem newBits_ne_zero {v old mask : Word16}
    (h : ∃ i : Fin 16, v.getLsbD i.val = true ∧ old.getLsbD i.val = false ∧ mask.getLsbD i.val = true) :
    v &&& ~~~old &&& mask ≠ 0 := by
  obtain ⟨i, hv, hold, hmask⟩ := h
  intro hzero
  have hbit : (v &&& ~~~old &&& mask).getLsbD i.val = false := by
    rw [hzero]
    exact BitVec.getLsbD_zero
  rw [BitVec.getLsbD_and, BitVec.getLsbD_and, BitVec.getLsbD_not, hv, hold, hmask] at hbit
  simp at hbit

theorem newBits_eq_zero {v old mask : Word16}
    (h : ∀ i : Fin 16, v.getLsbD i.val = true → mask.getLsbD i.val = true → old.getLsbD i.val = true) :
    v &&& ~~~old &&& mask = 0 := by
  refine BitVec.eq_of_getLsbD_eq fun i hi => ?_
  have hbit := h ⟨i, hi⟩
  simp only [] at hbit
  simp only [BitVec.getLsbD_and, BitVec.getLsbD_not, hi, decide_true, Bool.true_and]
  cases hv : v.getLsbD i <;> cases hm : mask.getLsbD i <;> simp_all

theorem signalSet_spec (p : Port) (v : Word16) (s : State) :
    let u := cmdSignalSet p v s
    u.locks = { s.locks with signals := s.locks.signals.set p.other (s.locks.signals.get p.other ||| v) } ∧
      ((∃ i : Fin 16, v.getLsbD i.val = true ∧ (s.locks.signals.get p.other).getLsbD i.val = false ∧
          (s.locks.enables.get p.other).getLsbD i.val = true) → u.flag p.other .signal = true) ∧
      ((∀ i : Fin 16, v.getLsbD i.val = true → (s.locks.enables.get p.other).getLsbD i.val = true →
          (s.locks.signals.get p.other).getLsbD i.val = true) → u.ports = s.ports) ∧
      u = { s with locks := u.locks, ports := u.ports } := by
  unfold cmdSignalSet
  dsimp only
  refine ⟨?_, fun h => ?_, fun h => ?_, ?_⟩
  · split <;> rfl
  · rw [if_pos (newBits_ne_zero h)]
    exact raise_raises _ _ _
  · rw [if_neg (Classical.not_not.mpr (newBits_eq_zero h))]
    rfl
  · split <;> rfl

theorem signalEnable_spec (p : Port) (v : Word16) (s : State) :
    let u := cmdSignalEnable p v s
    u.locks = { s.locks with enables := s.locks.enables.set p v } ∧
      ((∃ i : Fin 16, v.getLsbD i.val = true ∧ (s.locks.enables.get p).getLsbD i.val = false ∧
          (s.locks.signals.get p).getLsbD i.val = true) → u.flag p .signal = true) ∧
      ((∀ i : Fin 16, v.getLsbD i.val = true → (s.locks.signals.get p).getLsbD i.val = true →
          (s.locks.enables.get p).getLsbD i.val = true) → u.ports = s.ports) ∧
      u = { s with locks := u.locks, ports := u.ports } := by
  unfold cmdSignalEnable
  dsimp only
  refine ⟨?_, fun h => ?_, fun h => ?_, ?_⟩
  · split <;> rfl
  · rw [if_pos (newBits_ne_zero h)]
    exact raise_raises _ _ _
  · rw [if_neg (Classical.not_not.mpr (newBits_eq_zero h))]
    rfl
  · split <;> rfl

/-! ### Event flags -/

theorem Event.bit_lt (e : Event) : e.bit < 12 := by cases e <;> decide

theorem eventClear_spec (p : Port) (v : Word16) (s : State) :
    let u := cmdEventClear p v s
    (∀ e : Event, u.flag p e = (s.flag p e && !v.getLsbD e.bit)) ∧
      u = s.modPort p fun x => { x with flags := (u.port p).flags } := by
  have hport : ((cmdEventClear p v s).port p).flags = (s.port p).flags &&& ~~~(v.setWidth 12) := by
    rw [cmdEventClear, State.modPort_port_self]
  refine ⟨fun e => ?_, ?_⟩
  · simp only [State.flag, PortUnit.hasFlag, hport, BitVec.getLsbD_and, BitVec.getLsbD_not, BitVec.getLsbD_setWidth, e.bit_lt,
      decide_true, Bool.true_and]
  · rw [hport, cmdEventClear]
    exact State.modPort_congr rfl

theorem eventEnable_spec (p : Port) (v : Word16) (s : State) :
    let u := cmdEventEnable p v s
    (∀ e : Event, (u.port p).enables.getLsbD e.bit = v.getLsbD e.bit) ∧
      u = s.modPort p fun x => { x with enables := (u.port p).enables } := by
  have hport : ((cmdEventEnable p v s).port p).enables = v.setWidth 12 := by
    rw [cmdEventEnable, State.modPort_port_self]
  refine ⟨fun e => ?_, ?_⟩
  · simp [hport, e.bit_lt]
  · rw [hport, cmdEventEnable]

/-- Settles O58, by one rule for each word of the locks, the signals, the event flags and the capture. -/
theorem locksSignalsAndEvents : Obligations.LocksSignalsAndEvents := by
  refine ⟨fun s p j hready => ?_, fun s p v hready => ?_⟩
  · intro l answer
    have hlock : (s.touched p).getLock j = l := State.touched_getLock s p j
    have htake : exec (.lockTake p j) s = .next (cmdLockTake p j (s.touched p)) :=
      congrArg Host.Outcome.next (portRead_ready p s _ hready)
    have hgive : exec (.lockGive p j) s = .next (cmdLockGive p j (s.touched p)) :=
      congrArg Host.Outcome.next (portWrite_ready p s _ hready)
    have hanswer (code : BitVec 16) : answer code =
        if ((s.touched p).port p).wide = true ∧ j.val % 2 = 1 then
          code ++ BitVec.ofNat 16 ((s.touched p).besideTake j) else code.setWidth 32 := by
      rw [State.touched_port_self]
      rfl
    refine ⟨fun h => ?_, fun h => ?_, fun h => ?_, fun h hwaiter => ?_, fun q h hwaiter => ?_, fun h => ?_, fun v => ?_⟩
    · rw [htake, cmdLockTake_free (s := s.touched p) h, hanswer]
      rfl
    · rw [htake, cmdLockTake_own (s := s.touched p) h, hanswer]
      rfl
    · rw [htake, cmdLockTake_other (s := s.touched p) h, hanswer]
      rfl
    · rw [hgive, cmdLockGive_held (s := s.touched p) h, hlock, hwaiter]
    · rw [hgive, cmdLockGive_held (s := s.touched p) h, hlock, hwaiter]
      rfl
    · rw [hgive, cmdLockGive, hlock, if_neg h]
    · exact ⟨_, congrArg Host.Outcome.next (portWrite_ready p s _ hready), notifyOptionsWrite_spec p v (s.touched p)⟩
  · refine ⟨⟨_, congrArg Host.Outcome.next (portWrite_ready p s _ hready), signalSet_spec p v (s.touched p)⟩,
      congrArg Host.Outcome.next (portWrite_ready p s _ hready),
      ⟨_, congrArg Host.Outcome.next (portWrite_ready p s _ hready), signalEnable_spec p v (s.touched p)⟩,
      ⟨_, congrArg Host.Outcome.next (portWrite_ready p s _ hready), ?_, (eventClear_spec p v (s.touched p)).2⟩,
      ⟨_, congrArg Host.Outcome.next (portWrite_ready p s _ hready), eventEnable_spec p v (s.touched p)⟩,
      congrArg Host.Outcome.next (portWrite_ready p s _ hready)⟩
    intro e
    rw [(eventClear_spec p v (s.touched p)).1]
    simp only [State.flag, PortUnit.hasFlag, State.touched_flags]

end Sys2Proof.Machine
end

