-- ==== Sys2Proof/Proofs/ResetValues.lean ====
section
/-!
PROOFS. What RESET gives each block (R162), part by part.
-/

namespace Sys2Proof.Machine

section
variable (w e a b : Bool) (q : List Instr)

@[simp] theorem afterReset_getShaft (i : ShaftNo) : (State.afterReset w e a b q).getShaft i = Shaft.reset :=
  Vector.getElem_replicate _

@[simp] theorem afterReset_getAxis (i : AxisNo) : (State.afterReset w e a b q).getAxis i = Axis.reset :=
  Vector.getElem_replicate _

@[simp] theorem afterReset_getSource (n : SourceNo) : (State.afterReset w e a b q).getSource n = Source.reset n.val :=
  Vector.getElem_ofFn _

@[simp] theorem afterReset_getChannel (c : ChannelNo) : (State.afterReset w e a b q).getChannel c = Channel.reset :=
  Vector.getElem_replicate _

@[simp] theorem afterReset_getContext (k : Fin 4) : (State.afterReset w e a b q).getContext k = none :=
  Vector.getElem_replicate _

@[simp] theorem afterReset_getLock (j : LockNo) :
    (State.afterReset w e a b q).getLock j = { holder := none, waiter := none } :=
  Vector.getElem_replicate _

theorem afterReset_free : (State.afterReset w e a b q).pool.free = List.finRange 512 := by
  rw [State.afterReset, Pool.reset]

@[simp] theorem afterReset_link (d : Side) :
    (State.afterReset w e a b q).link d = LinkUnit.reset (match d with | .west => w | .east => e) := by
  cases d <;> rfl

@[simp] theorem afterReset_port (p : Port) :
    (State.afterReset w e a b q).port p = PortUnit.reset (match p with | .a => a | .b => b) := by
  cases p <;> rfl

end

/-- The classes after RESET (R75). -/
theorem resetClass_eq (n : SourceNo) :
    resetClass n.val = if n.val ≤ 10 ∨ n.val = 12 then .quick else if n.val = 15 then .notice else .stop := by
  unfold resetClass
  simp [Nat.lt_succ_iff]

/-- Settles O8, block by block. -/
theorem resetGivesResetValues : Obligations.ResetGivesResetValues := by
  intro wideA wideB s
  have hreset : exec (.reset wideA wideB) s =
    .next (State.afterReset s.links.west.signalDetect s.links.east.signalDetect wideA wideB s.pending) := rfl
  refine ⟨_, hreset, rfl, rfl, rfl, rfl, ?links, rfl, rfl, rfl, rfl, rfl, rfl, rfl, rfl, rfl, rfl, rfl, rfl, rfl, rfl, rfl,
    rfl, rfl, rfl, rfl, rfl, rfl, rfl, rfl, rfl, rfl, rfl, rfl, rfl, rfl, rfl, rfl, rfl, rfl, rfl, ?rosters, ?nodes, ?shafts,
    rfl, rfl, rfl, rfl, ?axes, rfl, rfl, rfl, rfl, rfl, rfl, rfl, rfl, ?live, ?sources, rfl, rfl, rfl, rfl, rfl, rfl, rfl,
    rfl, rfl, rfl, rfl, rfl, ?requests, afterReset_free _ _ _ _ _, rfl, rfl, fun n => afterReset_owner _ _ _ _ _ n, fun x => rfl, ?channels, rfl,
    rfl, rfl, rfl, afterReset_getContext _ _ _ _ _, ?locks, ?bindings, ?ports, rfl, rfl, rfl⟩
  case links =>
    intro d
    cases d <;> exact ⟨rfl, rfl, rfl, rfl, rfl, rfl, rfl, rfl, rfl, rfl, rfl, rfl, rfl, rfl⟩
  case rosters => exact fun k => Vector.getElem_replicate _
  case nodes =>
    refine fun n => ⟨Vector.getElem_replicate _, Vector.getElem_replicate _, fun i => ?_⟩
    simp [State.afterReset, CycleUnit.reset]
  case shafts =>
    intro i
    rw [afterReset_getShaft]
    rfl
  case axes =>
    intro i
    rw [afterReset_getAxis]
    refine ⟨rfl, rfl, rfl, rfl, rfl, rfl, rfl, rfl, rfl, rfl, rfl, rfl, rfl, rfl, rfl, rfl, rfl, rfl, rfl, rfl, rfl, rfl, rfl,
      fun k => Vector.getElem_replicate _⟩
  case live => exact fun i => Vector.getElem_replicate _
  case sources =>
    intro n
    rw [afterReset_getSource]
    exact ⟨rfl, rfl, rfl, rfl, resetClass_eq n⟩
  case requests => intro p; cases p <;> rfl
  case channels =>
    intro c
    rw [afterReset_getChannel]
    refine ⟨rfl, rfl, rfl, rfl, rfl, rfl, rfl, rfl, rfl, rfl, rfl, fun p => by cases p <;> exact ⟨rfl, rfl⟩, rfl, rfl, ?_, rfl,
      rfl, rfl, rfl, rfl, rfl⟩
    intro y hy
    rw [List.eq_of_mem_replicate hy]
    exact ⟨rfl, rfl⟩
  case locks =>
    intro j
    rw [afterReset_getLock]
    exact ⟨rfl, rfl⟩
  case bindings => exact fun n => Vector.getElem_replicate _
  case ports =>
    intro p
    cases p <;>
    exact ⟨rfl, rfl, rfl, rfl, rfl, rfl, rfl, rfl, rfl, rfl, rfl, rfl, rfl, rfl, rfl, rfl, rfl, rfl, rfl, rfl, rfl, rfl⟩

end Sys2Proof.Machine
end

