-- ==== Sys2Proof/Proofs/PathMode.lean ====
section
/-!
PROOFS. What a change of path mode and of lock state does and leaves (R10, R11, R22, R103), and the state of links, shafts and
axes that start or stop together (R1, R45, R50, R56).
-/

namespace Sys2Proof.Machine

/-! ### Path mode -/

/-- `t` is `s` after a change of path mode: it raises events, and at ISOLATED the own frames leave, the offered segment is
withdrawn and the outbox takes the own STATUS back. -/
structure State.Rerouted (s t : State) : Prop where
  clock : t.clock = s.clock
  links : t.links = s.links
  ring : t.ring = { s.ring with
    mode := t.ring.mode, ownFlash := t.ring.ownFlash, ownCycleStart := t.ring.ownCycleStart, ownStatus := t.ring.ownStatus }
  cyc : t.cyc = s.cyc
  shafts : t.shafts = s.shafts
  axis : t.axis = { s.axis with outbox := t.axis.outbox }
  trip : t.trip = s.trip
  pool : t.pool = s.pool
  chan : t.chan = { s.chan with offered := t.chan.offered }
  locks : t.locks = s.locks
  ports : s.OnlyRaises t
  pending : t.pending = s.pending

theorem State.Rerouted.refl (s : State) : s.Rerouted s :=
  ⟨rfl, rfl, rfl, rfl, rfl, rfl, rfl, rfl, rfl, rfl, .refl s, rfl⟩

theorem State.Rerouted.trans {s t u : State} (h : s.Rerouted t) (k : t.Rerouted u) : s.Rerouted u :=
  ⟨k.clock.trans h.clock, k.links.trans h.links, by rw [k.ring, h.ring], k.cyc.trans h.cyc, k.shafts.trans h.shafts,
    by rw [k.axis, h.axis], k.trip.trans h.trip, k.pool.trans h.pool, by rw [k.chan, h.chan], k.locks.trans h.locks,
    h.ports.trans k.ports, k.pending.trans h.pending⟩

theorem setOutbox_onlyRaises (new : List OutboxEntry) (s : State) : s.OnlyRaises (setOutbox new s) := by
  unfold setOutbox
  extract_lets old posted raised
  have hposted : s.OnlyRaises posted := .of_ports rfl
  have hraised : s.OnlyRaises raised := by
    unfold raised
    split
    · exact hposted.trans (raise_onlyRaises _ _ _)
    · exact hposted
  split
  · exact hraised.trans (raise_onlyRaises _ _ _)
  · exact hraised

theorem setOutbox_rerouted (new : List OutboxEntry) (s : State) : s.Rerouted (setOutbox new s) := by
  obtain ⟨hclock, hlinks, hring, hcyc, hshafts, htrip, hpool, hchan, hlocks, hpending, haxis⟩ := setOutbox_kept new s
  exact ⟨hclock, hlinks, by rw [hring], hcyc, hshafts, by rw [haxis], htrip, hpool, by rw [hchan], hlocks,
    setOutbox_onlyRaises new s, hpending⟩

theorem drainLoop_rerouted (s : State) : s.Rerouted (drainLoop s) := by
  unfold drainLoop
  extract_lets status emptied
  clear_value status
  have hemptied : s.Rerouted emptied := ⟨rfl, rfl, rfl, rfl, rfl, rfl, rfl, rfl, rfl, rfl, .of_ports rfl, rfl⟩
  split
  · split
    · exact hemptied.trans (setOutbox_rerouted _ _)
    · exact hemptied
  · exact hemptied

theorem drainLoop_mode (s : State) : (drainLoop s).ring.mode = s.ring.mode := by
  unfold drainLoop
  extract_lets status emptied
  clear_value status
  split
  · split
    · rw [ownStatusBack, (setOutbox_kept _ _).2.2.1]
      rfl
    · rfl
  · rfl

theorem modeRaised_rerouted (m : PathMode) (s : State) :
    s.Rerouted (raiseBoth .ring (s.modRing fun u => { u with mode := m })) :=
  ⟨rfl, rfl, rfl, rfl, rfl, rfl, rfl, rfl, rfl, rfl,
    (State.OnlyRaises.of_ports (t := s.modRing fun u => { u with mode := m }) rfl).trans (raiseBoth_onlyRaises _ _), rfl⟩

theorem withdrawAny_rerouted (s : State) : s.Rerouted (withdrawAny s) :=
  ⟨rfl, rfl, rfl, rfl, rfl, rfl, rfl, rfl, rfl, rfl, .of_ports rfl, rfl⟩

theorem setMode_rerouted (m : PathMode) (s : State) : s.Rerouted (setMode m s) := by
  rw [setMode_eq]
  split
  · exact .refl s
  · split
    · exact ((modeRaised_rerouted m s).trans (withdrawAny_rerouted _)).trans (drainLoop_rerouted _)
    · exact modeRaised_rerouted m s

theorem setMode_mode (m : PathMode) (s : State) : (setMode m s).ring.mode = m := by
  rw [setMode_eq]
  split
  · assumption
  · split
    · rw [drainLoop_mode]
      rfl
    · rfl

/-- A change of path mode raises RING at both ports (R10, R11). -/
theorem setMode_raises {m : PathMode} {s : State} (h : s.ring.mode ≠ m) (p : Port) : (setMode m s).flag p .ring = true := by
  rw [setMode_eq, if_neg h]
  have hraised := raiseBoth_raises .ring (s.modRing fun u => { u with mode := m }) p
  split
  · exact (((withdrawAny_rerouted _).trans (drainLoop_rerouted _)).ports p).2 _ hraised
  · exact hraised

/-! ### Lock state -/

theorem setLock_eq_frame (l : LockState) (s : State) :
    setLock l s = { s with cyc := { s.cyc with lock := l }, ports := (setLock l s).ports } := by
  rw [setLock_eq]
  split
  · next h => rw [← h]
  · rfl

theorem setLock_onlyRaises (l : LockState) (s : State) : s.OnlyRaises (setLock l s) := by
  rw [setLock_eq]
  split
  · exact .refl s
  · exact (State.OnlyRaises.of_ports (t := s.modCyc fun u => { u with lock := l }) rfl).trans (raiseBoth_onlyRaises _ _)

/-- A change of lock state raises TIMELOCK at both ports (R22). -/
theorem setLock_raises {l : LockState} {s : State} (h : s.cyc.lock ≠ l) (p : Port) :
    (setLock l s).flag p .timelock = true := by
  rw [setLock_eq, if_neg h]
  exact raiseBoth_raises _ _ p

/-! ### Links, shafts and axes together -/

@[simp] theorem bothLinks_link (f : LinkUnit → LinkUnit) (s : State) (d : Side) :
    (bothLinks f s).link d = f (s.link d) := by cases d <;> rfl

@[simp] theorem shaftsRest_getShaft (s : State) (i : ShaftNo) : (shaftsRest s).getShaft i = (s.getShaft i).rest := by
  simp [shaftsRest, State.getShaft]

@[simp] theorem shaftsAttach_getShaft (s : State) (i : ShaftNo) :
    (shaftsAttach s).getShaft i = { s.getShaft i with stepFault := false } := by
  simp [shaftsAttach, State.getShaft]

theorem State.getShaft_congr {s t : State} (h : t.shafts = s.shafts) (i : ShaftNo) : t.getShaft i = s.getShaft i := by
  unfold State.getShaft
  rw [h]

theorem State.getAxis_congr {s t : State} (h : t.axis.axes = s.axis.axes) (i : AxisNo) : t.getAxis i = s.getAxis i := by
  unfold State.getAxis
  rw [h]

theorem State.getSource_congr {s t : State} (h : t.trip = s.trip) (n : SourceNo) : t.getSource n = s.getSource n := by
  unfold State.getSource
  rw [h]

theorem State.link_congr {s t : State} (h : t.links = s.links) (d : Side) : t.link d = s.link d := by
  unfold State.link
  rw [h]

theorem Axis.state_of_tripped {s t : State} (h : s.Tripped t) {i : AxisNo} (hoff : (s.getAxis i).state = .off) :
    (t.getAxis i).state = .off := by
  rcases h.axis i with hi | hi <;> rw [hi]
  · exact hoff
  · rfl

end Sys2Proof.Machine
end

