-- ==== Sys2Proof/Proofs/StartUp.lean ====
section
/-!
PROOFS. The stabilisation wait (R162), the clock fault and the restart (R167, R168), and the configuration words (R23, R163).
-/

namespace Sys2Proof.Machine

/-! ### Accesses during the wait -/

/-- What an access of a port can do during the stabilisation wait. -/
def State.WaitsAt (s : State) (p : Port) (r : Host.Outcome State Fault Refusal) : Prop :=
  r = .next s ∨ r = .next (s.drive p 0) ∨ r = .next (s.drive p 0x60)

section
variable {s : State} (p : Port) (hready : s.clock.ready = false)
include hready

theorem portWrite_waits (f : State → State) : s.WaitsAt p (.next (portWrite p s f)) := by
  refine .inl ?_
  rw [portWrite_eq, hready]
  rfl

theorem portRead_waits (f : State → State) : s.WaitsAt p (.next (portRead p s f)) := by
  refine .inr (.inl ?_)
  rw [portRead_eq, hready]
  rfl

theorem busWrite_waits (a : Word16) (v : BitVec 32) : s.WaitsAt p (.next (busWrite p a v s)) := by
  refine .inl ?_
  rw [busWrite, hready]
  rfl

/-- The ready word reads STARTING, every other word 0 (R162). -/
theorem busRead_waits (a : Word16) : s.WaitsAt p (.next (busRead p a s)) := by
  have hread : busRead p a s = s.driveNat p (if a = 0 ∨ ((s.port p).wide ∧ a = 1) then Code.starting.num else 0) := by
    rw [busRead, hready]
    rfl
  rw [hread]
  split
  · exact .inr (.inr rfl)
  · exact .inr (.inl rfl)

theorem exec_waits {c : Instr} (hport : c.port = some p) : s.WaitsAt p (exec c s) := by
  cases c
  case blockWindowAccess q word w =>
    cases hport
    cases w with
    | none => exact portRead_waits p hready _
    | some v => exact portWrite_waits p hready _
  case undefinedAccess q a w =>
    cases hport
    cases w with
    | none => exact busRead_waits p hready a
    | some v => exact busWrite_waits p hready a v
  case registerWrite q target w =>
    cases hport
    cases target with
    | addr a => exact busWrite_waits p hready a w
    | unplaced x => exact portWrite_waits p hready _
  case wideFieldLowWordRead q target =>
    cases hport
    cases target with
    | addr a => exact busRead_waits p hready a
    | unplaced x => exact portRead_waits p hready _
  case correctionResultRead | setpointSetFirstRead | setpointSetFinalRead | blockTake | screenTake | outcomeRead |
    descriptorRead | streamRead | stripRead | lockTake =>
    cases hport
    exact portRead_waits p hready _
  case clockRestart | nodeAddress | roleWrite | configurationWrite | attach | detach | portSoftReset | rosterWrite |
    planStagingWrite | cancelPlan | targetVelocityWrite | shaftLimitWrite | planEntryWrite | axisParameterWrite | engage |
    disengage | drop | correctionPost | actualPositionWrite | sourceClassWrite | sourceEnableWrite | tripRequest |
    tripRelease | tripReset | localClear | blockGive | commonAreaWrite | areaBindingWrite | channelConfigWrite | post |
    cancelHead | discardHead | hold | release | openSlot | closeSlot | releaseSlot | freeze | resume | lockGive |
    notifyOptionsWrite | signalSet | signalClear | signalEnableWrite | eventClear | eventEnableWrite | captureClear =>
    cases hport
    exact portWrite_waits p hready _
  all_goals cases hport

end

/-! ### The pins sensed at the wait's end -/

/-- `t` is `s` after the conditions `ns` have appeared: they are present, latch their enabled sources, and clear nothing. -/
structure State.Sensed (ns : List SourceNo) (s t : State) : Prop where
  clock : t.clock = s.clock
  links : t.links = s.links
  shared : s.SharedKept t
  enabled : ∀ n : SourceNo, (t.getSource n).enabled = (s.getSource n).enabled
  present : ∀ n : SourceNo, (t.getSource n).present = (decide (n ∈ ns) || (s.getSource n).present)
  latched : ∀ n : SourceNo, (s.getSource n).latched = true ∨ (n ∈ ns ∧ (s.getSource n).enabled = true) →
    (t.getSource n).latched = true

theorem State.Sensed.refl (s : State) : s.Sensed [] s :=
  ⟨rfl, rfl, ⟨rfl, rfl, rfl⟩, fun _ => rfl, fun _ => by simp, fun _ h => by simpa using h⟩

theorem State.Sensed.trans {ns ms : List SourceNo} {s t u : State} (h : s.Sensed ns t) (k : t.Sensed ms u) :
    s.Sensed (ns ++ ms) u where
  clock := k.clock.trans h.clock
  links := k.links.trans h.links
  shared := by
    obtain ⟨hpool, hlocks, hpending⟩ := h.shared
    obtain ⟨kpool, klocks, kpending⟩ := k.shared
    exact ⟨kpool.trans hpool, klocks.trans hlocks, kpending.trans hpending⟩
  enabled n := (k.enabled n).trans (h.enabled n)
  present n := by
    rw [k.present, h.present]
    by_cases hn : n ∈ ns <;> by_cases hm : n ∈ ms <;> simp [hn, hm]
  latched n hn := by
    refine k.latched n ?_
    rw [h.enabled, List.mem_append] at *
    rcases hn with hl | ⟨hns | hms, he⟩
    · exact .inl (h.latched n (.inl hl))
    · exact .inl (h.latched n (.inr ⟨hns, he⟩))
    · exact .inr ⟨hms, he⟩

theorem conditionAppears_tripped (n : SourceNo) (s : State) :
    (s.modSource n fun x => { x with present := true }).Tripped (conditionAppears n s) := latchIfEnabled_tripped n _

theorem conditionAppears_sensed (n : SourceNo) (s : State) : s.Sensed [n] (conditionAppears n s) := by
  have h := conditionAppears_tripped n s
  refine ⟨h.clock, h.links, ⟨latchIfEnabled_pool _ _, h.locks, h.pending⟩, fun k => ?_, fun k => ?_, fun k hk => ?_⟩
  · rw [(h.source k).1, State.modSource_getSource]
    split
    · next hkn => rw [hkn]
    · rfl
  · rw [(h.source k).1, State.modSource_getSource]
    by_cases hkn : k = n <;> simp [hkn]
  · rcases hk with hl | ⟨hkn, he⟩
    · refine (h.source k).2 ?_
      rw [State.modSource_getSource]
      split
      · next hkn => exact hkn ▸ hl
      · exact hl
    · obtain rfl := List.mem_singleton.mp hkn
      have hself := State.modSource_getSource_self s k fun x => { x with present := true }
      rw [conditionAppears, latchIfEnabled_getSource_self (by rw [hself]; exact he)]

theorem foldl_sensed (low : BitVec 8) (pins : List (Fin 8)) (s : State) :
    s.Sensed ((pins.filter fun n => low.getLsbD n.val).map pinSource)
      (pins.foldl (fun s n => if low.getLsbD n.val then conditionAppears (pinSource n) s else s) s) := by
  induction pins generalizing s with
  | nil => exact .refl s
  | cons n pins ih =>
    rw [List.foldl_cons]
    cases hn : low.getLsbD n.val with
    | true =>
      rw [if_pos rfl, List.filter_cons_of_pos (p := fun n : Fin 8 => low.getLsbD n.val) hn]
      exact (conditionAppears_sensed (pinSource n) s).trans (ih _)
    | false =>
      rw [if_neg (by decide), List.filter_cons_of_neg (p := fun n : Fin 8 => low.getLsbD n.val) (by rw [hn]; decide)]
      exact ih s

/-- The sources of the low pins. -/
def lowSources (low : BitVec 8) : List SourceNo := (allPins.filter fun n => low.getLsbD n.val).map pinSource

theorem mem_lowSources (low : BitVec 8) (n : Fin 8) : pinSource n ∈ lowSources low ↔ low.getLsbD n.val = true := by
  have hall : ∀ k : Fin 8, k ∈ allPins := by decide
  have hinj : ∀ k : Fin 8, pinSource k = pinSource n → k = n := fun k hk => Fin.ext (congrArg (fun m : SourceNo => m.val) hk)
  simp only [lowSources, List.mem_map, List.mem_filter]
  constructor
  · rintro ⟨k, ⟨_, hk⟩, hkn⟩
    exact hinj k hkn ▸ hk
  · exact fun hn => ⟨n, ⟨hall n, hn⟩, rfl⟩

theorem senseTripins_sensed (low : BitVec 8) (s : State) : s.Sensed (lowSources low) (senseTripins low s) :=
  foldl_sensed low allPins s

/-- Sensing the low pins, and source 9 beside them or not, senses every pin as it stands. -/
theorem State.Sensed.sensedAs {low : BitVec 8} {more : List SourceNo} {s t : State} (h : s.Sensed (lowSources low ++ more) t)
    (hmore : ∀ n : Fin 8, pinSource n ∉ more) : s.SensedAs low t := by
  refine fun n => ⟨fun hlow => ⟨?_, fun he => ?_⟩, fun hhigh => ?_⟩
  · rw [h.present]
    simp [(mem_lowSources low n).mpr hlow]
  · exact h.latched _ (.inr ⟨List.mem_append_left _ ((mem_lowSources low n).mpr hlow), he⟩)
  · rw [h.present]
    have hnot : pinSource n ∉ lowSources low := by rw [mem_lowSources, hhigh]; decide
    simp [hnot, hmore n]

/-- Settles O9, by the rule for accesses of a port and the pins sensed at the wait's two ends. -/
theorem stabilisationWait : Obligations.StabilisationWait := by
  refine ⟨fun c p s hport hready => exec_waits p hready hport, fun s hready => ⟨?_, fun low => ?_, fun low => ?_⟩⟩
  · change Host.Outcome.next (if s.clock.ready = true then s else _) = _
    rw [hready]
    rfl
  · have hexec : exec (.stabilisationWaitEnd low) s = .next (waitEnds low s) := by
      change Host.Outcome.next (if s.clock.ready = true then s else _) = _
      rw [hready]
      rfl
    have hsensed : State.Sensed (lowSources low ++ [])
        (s.modClock fun u => { u with ready := true, state := .crystal, faults := 0, periods := 65536 }) (waitEnds low s) := by
      rw [List.append_nil]
      exact senseTripins_sensed low _
    have hclock := hsensed.clock
    exact ⟨_, hexec, by rw [hclock]; rfl, by rw [hclock]; rfl, by rw [hclock]; rfl,
      hsensed.sensedAs (by simp), hsensed.links, hsensed.shared⟩
  · have hexec : exec (.stabilisationTimeout low) s = .next (waitTimesOut low s) := by
      change Host.Outcome.next (if s.clock.ready = true then s else _) = _
      rw [hready]
      rfl
    have hsensed : State.Sensed (lowSources low ++ [9]) _ (waitTimesOut low s) :=
      (senseTripins_sensed low _).trans (conditionAppears_sensed 9 _)
    have hclock := hsensed.clock
    exact ⟨_, hexec, by rw [hclock]; rfl, by rw [hclock]; rfl, by rw [hclock]; rfl,
      hsensed.sensedAs (by decide), by rw [hsensed.present]; simp, fun he => hsensed.latched 9 (.inr ⟨by simp, he⟩),
      hsensed.links, hsensed.shared⟩

/-! ### The clock fault and the restart -/

/-- A clock fault up to source 9 (R167). -/
def clockStopped (s : State) : State :=
  let s := s.modClock fun u => { u with state := .fallback, faults := bump u.faults, periods := 0 }
  let s := bothLinks (LinkUnit.shutDown .clock) s
  let s := setMode .isolated (s.modRing fun u => { u with buffer := [] })
  let s := setLock .unlocked <| s.modCyc fun u => u.unlocked (if u.attached then u.waitingPhase else .none)
  let s := dropStagedReset (shaftsRest (axesOff s))
  s.modChan fun u => { u with openPhase := false }

theorem clockFault_eq (s : State) :
    clockFault s = if ((clockStopped s).getSource 9).present then clockStopped s else conditionAppears 9 (clockStopped s) := by
  unfold clockFault clockStopped
  rfl

/-- A link that a clock fault or a DETACH shuts down (R1, R5). -/
theorem LinkUnit.shutDown_spec (l : LinkUnit) (reason : DownReason) :
    (l.shutDown reason).state = .down ∧ (l.shutDown reason).laser = false ∧ (l.shutDown reason).heard = false ∧
      (l.shutDown reason).delay = l.delay ∧
      (l.state ≠ .down → (l.shutDown reason).downReason = reason ∧ (l.shutDown reason).downCount = bump l.downCount) ∧
      (l.state = .down → (l.shutDown reason).downReason = l.downReason ∧ (l.shutDown reason).downCount = l.downCount) :=
  ⟨rfl, rfl, rfl, rfl, fun h => ⟨if_neg h, if_neg h⟩, fun h => ⟨if_pos h, if_pos h⟩⟩

/-- What a clock fault does to each unit before source 9 is seen. -/
structure State.ClockStopped (s t : State) : Prop where
  clock : t.clock = { s.clock with state := .fallback, faults := bump s.clock.faults, periods := 0 }
  link : ∀ d : Side, t.link d = (s.link d).shutDown .clock
  mode : t.ring.mode = .isolated
  cyc : t.cyc = { s.cyc.unlocked (if s.cyc.attached then s.cyc.waitingPhase else .none) with lock := .unlocked }
  shaft : ∀ i : ShaftNo, t.getShaft i = (s.getShaft i).rest
  axis : ∀ i : AxisNo, (t.getAxis i).state = .off
  trip : t.trip = { s.trip with stagedReset := false }
  ring : s.ring.mode ≠ .isolated → ∀ p : Port, t.flag p .ring = true
  timelock : s.cyc.lock ≠ .unlocked → ∀ p : Port, t.flag p .timelock = true
  shared : s.SharedKept t

theorem clockStopped_spec (s : State) : s.ClockStopped (clockStopped s) := by
  unfold clockStopped
  extract_lets failed dark isolated unlocked rested
  have hmode : (dark.modRing fun u => { u with buffer := [] }).Rerouted isolated := setMode_rerouted _ _
  have hisolated : isolated.ring.mode = .isolated := setMode_mode _ _
  have hring (h : s.ring.mode ≠ .isolated) (p : Port) : isolated.flag p .ring = true :=
    setMode_raises (s := dark.modRing fun u => { u with buffer := [] }) h p
  clear_value isolated
  have hlock : unlocked = { isolated with
      cyc := { isolated.cyc.unlocked (if isolated.cyc.attached then isolated.cyc.waitingPhase else .none) with
        lock := .unlocked }
      ports := unlocked.ports } := setLock_eq_frame _ _
  have hraises : isolated.OnlyRaises unlocked :=
    (State.OnlyRaises.of_ports (t := isolated.modCyc _) rfl).trans (setLock_onlyRaises _ _)
  have htimelock (h : isolated.cyc.lock ≠ .unlocked) (p : Port) : unlocked.flag p .timelock = true :=
    setLock_raises (s := isolated.modCyc fun u => u.unlocked (if u.attached then u.waitingPhase else .none)) h p
  clear_value unlocked
  have hcyc : isolated.cyc = s.cyc := hmode.cyc
  rw [hcyc] at hlock htimelock
  exact
    { clock := by change unlocked.clock = _; rw [hlock]; exact hmode.clock
      link := fun d => by
        change unlocked.link d = _
        rw [hlock]
        exact (State.link_congr hmode.links d).trans (bothLinks_link _ failed d)
      mode := by change unlocked.ring.mode = _; rw [hlock]; exact hisolated
      cyc := by change unlocked.cyc = _; rw [hlock]
      shaft := fun i => by
        change (shaftsRest (axesOff unlocked)).getShaft i = _
        rw [shaftsRest_getShaft]
        refine congrArg Shaft.rest (State.getShaft_congr (s := s) ?_ i)
        rw [axesOff_shafts, hlock]
        exact hmode.shafts
      axis := fun i => axesOff_off unlocked i
      trip := by
        change { unlocked.trip with stagedReset := false } = _
        rw [hlock]
        exact congrArg (fun u : TripUnit => { u with stagedReset := false }) hmode.trip
      ring := fun h p => (hraises p).2 _ (hring h p)
      timelock := htimelock
      shared := by
        change unlocked.pool = _ ∧ unlocked.locks = _ ∧ unlocked.pending = _
        rw [hlock]
        exact ⟨hmode.pool, hmode.locks, hmode.pending⟩ }

/-- A clock fault stops the node and shows source 9, which latches if its condition appeared. -/
theorem clockFault_spec (s : State) : ∃ x : State, s.ClockStopped { x with trip := { s.trip with stagedReset := false } } ∧
    x.Tripped (clockFault s) ∧ (clockFault s).pool = x.pool ∧ x.trip.stagedReset = false ∧ (x.getSource 9).present = true ∧
      ((s.getSource 9).present = false → (s.getSource 9).enabled = true → ((clockFault s).getSource 9).latched = true) := by
  have hstopped := clockStopped_spec s
  have htrip := hstopped.trip
  have hsource : (clockStopped s).getSource 9 = s.getSource 9 := by
    unfold State.getSource
    rw [htrip]
  rw [clockFault_eq, hsource]
  generalize clockStopped s = t at *
  by_cases hpresent : (s.getSource 9).present = true
  · rw [if_pos hpresent]
    refine ⟨t, ?_, .refl _, rfl, by rw [htrip], by rw [hsource, hpresent], fun h => ?_⟩
    · rw [← htrip]
      exact hstopped
    · rw [hpresent] at h
      cases h
  · rw [if_neg hpresent]
    refine ⟨t.modSource 9 fun x => { x with present := true }, ?_, conditionAppears_tripped 9 _,
      latchIfEnabled_pool _ _, ?_, by rw [State.modSource_getSource_self], fun _ he => ?_⟩
    · rw [← htrip]
      exact hstopped
    · change t.trip.stagedReset = false
      rw [htrip]
    · have hself := State.modSource_getSource_self t 9 fun x => { x with present := true }
      rw [conditionAppears, latchIfEnabled_getSource_self (by rw [hself, hsource]; exact he)]

theorem exec_clockRestart_a {s : State} (hready : s.clock.ready = true) :
    exec (.clockRestart .a) s = .next (cmdClockRestart .a (s.touched .a)) :=
  congrArg Host.Outcome.next (portWrite_ready .a s _ hready)

theorem exec_clockRestartComplete {s : State} (h : s.clock.state = .restarting) :
    exec .clockRestartComplete s = .next (restartCompletes s) := by
  change Host.Outcome.next (if s.clock.state = .restarting then _ else s) = _
  rw [if_pos h]

/-- The end of RESTARTING takes source 9's condition away, and lights both links of an attached node (R168). -/
theorem restartCompletes_spec (s : State) :
    let t := restartCompletes s
    t.clock.state = .crystal ∧ (t.getSource 9).present = false ∧ (t.getSource 9).latched = (s.getSource 9).latched ∧
      (s.cyc.attached = true → ∀ d : Side, t.link d = (s.link d).startUp) ∧ (s.cyc.attached = false → t.links = s.links) ∧
      t = { s with clock := t.clock, links := t.links, trip := t.trip } := by
  intro t
  have hsource (u : State) : (conditionGoes 9 u).getSource 9 = { u.getSource 9 with present := false } :=
    State.modSource_getSource_self u 9 _
  rcases Bool.eq_false_or_eq_true s.cyc.attached with ha | ha
  · have ht : t = bothLinks LinkUnit.startUp (conditionGoes 9 (s.modClock fun u =>
        { u with state := .crystal, periods := 65536 })) := if_pos ha
    have hgone : t.getSource 9 = { s.getSource 9 with present := false } := by rw [ht]; exact hsource _
    refine ⟨by rw [ht]; rfl, by rw [hgone], by rw [hgone], fun _ d => ?_, fun h => ?_, by rw [ht]; rfl⟩
    · rw [ht, bothLinks_link]
      rfl
    · rw [ha] at h
      cases h
  · have ht : t = conditionGoes 9 (s.modClock fun u => { u with state := .crystal, periods := 65536 }) :=
      if_neg (by change ¬s.cyc.attached = true; rw [ha]; decide)
    have hgone : t.getSource 9 = { s.getSource 9 with present := false } := by rw [ht]; exact hsource _
    refine ⟨by rw [ht]; rfl, by rw [hgone], by rw [hgone], fun h => ?_, fun _ => by rw [ht]; rfl, by rw [ht]; rfl⟩
    rw [ha] at h
    cases h

/-- Settles O10, from what stops at the fault, source 9, and the end of the count. -/
theorem clockFaultAndRestart : Obligations.ClockFaultAndRestart := by
  refine ⟨fun s hready hcrystal => ?_, fun s hready => ⟨fun h => ?_, fun h => ?_, fun h => ?_, fun h => ?_, fun h => ?_⟩⟩
  · have hexec : exec .clockFault s = .next (clockFault s) := by
      change Host.Outcome.next (if (s.clock.ready && decide (s.clock.state = .crystal)) = true then _ else s) = _
      rw [hready, hcrystal]
      rfl
    obtain ⟨x, hx, htripped, hpool, hstaged, hpresent, hlatched⟩ := clockFault_spec s
    have hlink (d : Side) : (clockFault s).link d = (s.link d).shutDown .clock :=
      (State.link_congr htripped.links d).trans (hx.link d)
    have hcyc : (clockFault s).cyc = _ := htripped.cyc.trans hx.cyc
    refine ⟨_, hexec, ?_, ?_, fun d => ?_, htripped.mode.trans hx.mode, fun h p => ?_, ?_, fun h p => ?_, ?_, ?_, ?_, ?_,
      fun ha hr => ?_, fun i => ?_, fun i => Axis.state_of_tripped htripped (hx.axis i), ?_, ?_, hlatched, ?_⟩
    · rw [htripped.clock]
      exact congrArg ClockUnit.state hx.clock
    · rw [htripped.clock]
      exact congrArg ClockUnit.faults hx.clock
    · rw [hlink]
      exact LinkUnit.shutDown_spec _ _
    · exact (htripped.ports p).2 _ (hx.ring h p)
    · rw [hcyc]
    · exact (htripped.ports p).2 _ (hx.timelock h p)
    · rw [hcyc]; rfl
    · rw [hcyc]; rfl
    · rw [hcyc]; rfl
    · rw [hcyc]; rfl
    · rw [hcyc]
      simp [CycleUnit.unlocked, CycleUnit.waitingPhase, ha, hr]
    · have hrest : x.getShaft i = (s.getShaft i).rest := hx.shaft i
      obtain ⟨v, w, heq, hv, hw⟩ := htripped.shaft i
      rw [hrest] at heq hv hw
      rw [heq]
      exact ⟨rfl, hv.elim id fun h => h.1, hw.elim id fun h => h.1, rfl⟩
    · rw [htripped.stagedReset, hstaged]
    · rw [(htripped.source 9).1]
      exact hpresent
    · obtain ⟨kpool, klocks, kpending⟩ := hx.shared
      exact ⟨hpool.trans kpool, htripped.locks.trans klocks, htripped.pending.trans kpending⟩
  · rw [exec_clockRestart_a hready, cmdClockRestart, writeByA_a]
    simp only [State.touched_clock, h]
  · rw [exec_clockRestart_a hready, cmdClockRestart, writeByA_a]
    simp only [State.touched_clock, h]
  · rw [exec_clockRestart_a hready, cmdClockRestart, writeByA_a]
    simp only [State.touched_clock, h]
  · change Host.Outcome.next (if s.clock.state = .restarting then _ else s) = _
    rw [if_pos h]
    rfl
  · obtain ⟨hstate, hpresent, hlatched, hlit, hdark, hrest⟩ := restartCompletes_spec s
    refine ⟨_, exec_clockRestartComplete h, hstate, hpresent, hlatched, fun ha d => ?_, hdark, ?_⟩
    · rw [hlit ha d]
      exact ⟨rfl, rfl, rfl, rfl⟩
    · rw [hrest]
      exact ⟨rfl, rfl, rfl, rfl, rfl, rfl, rfl, rfl, rfl⟩

/-! ### The configuration words -/

theorem exec_nodeAddress_a {s : State} (hready : s.clock.ready = true) (v : Word16) :
    exec (.nodeAddress .a v) s = .next (cmdNodeAddress .a v (s.touched .a)) :=
  congrArg Host.Outcome.next (portWrite_ready .a s _ hready)

theorem exec_roleWrite_a {s : State} (hready : s.clock.ready = true) (v : Word16) :
    exec (.roleWrite .a v) s = .next (cmdRole .a v (s.touched .a)) :=
  congrArg Host.Outcome.next (portWrite_ready .a s _ hready)

theorem exec_configurationWrite_a {s : State} (hready : s.clock.ready = true) (q : ConfigItem) (v : Word16) :
    exec (.configurationWrite .a q v) s = .next (cmdConfig .a q v (s.touched .a)) :=
  congrArg Host.Outcome.next (portWrite_ready .a s _ hready)

/-- The role that a written word is stored as (R23). -/
theorem roleOf_clamped (n : Nat) :
    roleOf (clampNat n 0 2) = if n = 0 then .follower else if n = 1 then .standby else .leader := by
  rw [clampNat_eq n (by decide)]
  match n with
  | 0 => rfl
  | 1 => rfl
  | k + 2 =>
    have hmin : max 0 (min (k + 2) 2) = 2 := by omega
    rw [hmin]
    simp [roleOf]

theorem refusesRole_iff (u : CycleUnit) (n : Nat) : u.refusesRole (roleOf (clampNat n 0 2)) = true ↔
    u.attached = true ∧ (u.role = .leader ∨ 2 ≤ n) := by
  have hleader : roleOf (clampNat n 0 2) = .leader ↔ 2 ≤ n := by
    rw [roleOf_clamped]
    match n with
    | 0 => decide
    | 1 => decide
    | k + 2 => simp
  simp [CycleUnit.refusesRole, hleader]

/-- A configuration word that is not refused is stored in its range, under the clamp flag (R23). -/
theorem cmdConfig_stored {q : ConfigItem} {v : Word16} {s : State} (h : ¬(q = .period ∧ s.cyc.attached = true))
    (hrange : q.range.1 ≤ q.range.2) :
    cmdConfig .a q v s = s.modCyc fun u =>
      { u with
        config := u.config.setItem q (max q.range.1 (min (q.rounded v.toNat) q.range.2))
        configResult := .accepted
        clampFlag := u.clampFlag || decide (q.rounded v.toNat < q.range.1 ∨ q.range.2 < q.rounded v.toNat) } := by
  have hflag : decide (q.stored v.toNat ≠ q.rounded v.toNat) =
      decide (q.rounded v.toNat < q.range.1 ∨ q.range.2 < q.rounded v.toNat) := by
    rw [decide_eq_decide, ConfigItem.stored, ne_eq, clampNat_eq_iff _ hrange]
    omega
  rw [cmdConfig, writeByA_a, if_neg h, hflag, ConfigItem.stored, clampNat_eq _ hrange]

theorem cmdConfig_refused {v : Word16} {s : State} (h : s.cyc.attached = true) :
    cmdConfig .a .period v s = s.modCyc fun u => { u with configResult := .attached } := by
  rw [cmdConfig, writeByA_a, if_pos ⟨rfl, h⟩]

/-- Settles O52, by the refusals of the address and the role and one rule for the configuration words. -/
theorem configurationWordsAreStored : Obligations.ConfigurationWordsAreStored := by
  intro s v hready
  refine ⟨fun h => ?_, fun h hv => ?_, fun h hv => ?_, fun h => ?_, fun h => ?_, fun h => ?_, ?_⟩
  · rw [exec_nodeAddress_a hready, cmdNodeAddress, writeByA_a, State.touched_cyc, if_pos h]
  · rw [exec_nodeAddress_a hready, cmdNodeAddress, writeByA_a, State.touched_cyc, if_neg (by simp [h]), if_pos hv]
  · rw [exec_nodeAddress_a hready, cmdNodeAddress, writeByA_a, State.touched_cyc, if_neg (by simp [h]),
      if_neg (Nat.not_lt.mpr hv)]
  · rw [exec_roleWrite_a hready, cmdRole, writeByA_a]
    exact congrArg Host.Outcome.next (if_pos ((refusesRole_iff s.cyc v.toNat).mpr h))
  · have hnot : ¬s.cyc.refusesRole (roleOf (clampNat v.toNat 0 2)) = true := by
      rw [refusesRole_iff]
      rintro ⟨ha, hr⟩
      rcases h with h | ⟨hrole, hv⟩
      · rw [ha] at h
        cases h
      · exact hr.elim hrole fun h2 => by omega
    rw [exec_roleWrite_a hready, cmdRole, writeByA_a]
    refine congrArg Host.Outcome.next ((if_neg hnot).trans ?_)
    rw [roleOf_clamped]
  · rw [exec_configurationWrite_a hready, cmdConfig_refused (s := s.touched .a) h]
  · intro stored x
    have hitem {q : ConfigItem} (h : ¬(q = .period ∧ (s.touched .a).cyc.attached = true)) (hrange : q.range.1 ≤ q.range.2) :
        exec (.configurationWrite .a q v) s =
          .next (stored (q.rounded v.toNat) q.range.1 q.range.2 fun n => s.cyc.config.setItem q n) := by
      rw [exec_configurationWrite_a hready, cmdConfig_stored h hrange]
      rfl
    exact ⟨fun h => hitem (q := .period) (by simp [h]) (by decide), hitem (q := .holdLimit) nofun (by decide),
      hitem (q := .captureWindow) nofun (by decide), hitem (q := .lockCount) nofun (by decide),
      hitem (q := .takeCount) nofun (by decide), hitem (q := .allowance) nofun (by decide)⟩

end Sys2Proof.Machine
end

