-- ==== Sys2Proof/Proofs/AttachDetach.lean ====
section
/-!
PROOFS. ATTACH and DETACH at port A (R164, R165).
-/

namespace Sys2Proof.Machine

/-! ### ATTACH -/

theorem exec_attach_a {s : State} (hready : s.clock.ready = true) : exec (.attach .a) s = .next (cmdAttach .a (s.touched .a)) :=
  congrArg Host.Outcome.next (portWrite_ready .a s _ hready)

theorem cmdAttach_refused {s : State} {c : Code} (hcode : s.attachCode = c) (h : c ≠ .accepted) :
    cmdAttach .a s = s.setCode .a fun k => { k with attach := c } := by
  rw [cmdAttach, writeByA_a, hcode, if_neg h]

theorem cmdAttach_accepted {s : State} (hcode : s.attachCode = .accepted) :
    cmdAttach .a s = attachNode (s.setCode .a fun k => { k with attach := .accepted }) := by
  rw [cmdAttach, writeByA_a, hcode, if_pos rfl]

/-- What becoming ATTACHED does to each unit (R164). -/
structure State.Attached (s t : State) : Prop where
  clock : t.clock = s.clock
  link : ∀ d : Side, t.link d = (s.link d).startUp
  mode : t.ring.mode = .isolated
  cyc : t.cyc = { s.cyc.unlocked s.cyc.waitingPhase with
    attached := true, ring := .closed, missing := Vector.replicate 31 0, lock := .unlocked
    presence := Vector.replicate 31 none }
  shaft : ∀ i : ShaftNo, t.getShaft i = { s.getShaft i with stepFault := false }
  resync : t.shafts.resyncPending = false
  axis : ∀ i : AxisNo, t.getAxis i = if (s.getAxis i).state = .off then s.getAxis i else (s.getAxis i).toOff
  trip : t.trip = s.trip
  ports : s.OnlyRaises t
  shared : s.SharedKept t

theorem attachNode_spec (s : State) : s.Attached (attachNode s) := by
  unfold attachNode
  extract_lets off unlocked
  have hmode := setMode_rerouted .isolated (off.modCyc fun u =>
    { u.unlocked u.waitingPhase with attached := true, ring := .closed, missing := Vector.replicate 31 0 })
  have hisolated := setMode_mode .isolated (off.modCyc fun u =>
    { u.unlocked u.waitingPhase with attached := true, ring := .closed, missing := Vector.replicate 31 0 })
  unfold unlocked
  generalize setMode .isolated (off.modCyc _) = isolated at *
  have hlock := setLock_eq_frame .unlocked isolated
  have hraises := setLock_onlyRaises .unlocked isolated
  generalize setLock .unlocked isolated = x at *
  exact
    { clock := by change x.clock = _; rw [hlock]; exact hmode.clock
      link := fun d => by
        change x.link d = _
        rw [hlock]
        exact (State.link_congr hmode.links d).trans (bothLinks_link _ s d)
      mode := by change x.ring.mode = _; rw [hlock]; exact hisolated
      cyc := by
        change { x.cyc with presence := Vector.replicate 31 none } = _
        rw [hlock]
        exact congrArg (fun u : CycleUnit => { u with lock := .unlocked, presence := Vector.replicate 31 none }) hmode.cyc
      shaft := fun i => by
        refine (State.getShaft_congr (s := shaftsAttach s) ?_ i).trans (shaftsAttach_getShaft s i)
        change x.shafts = _
        rw [hlock]
        exact hmode.shafts
      resync := by
        change x.shafts.resyncPending = _
        rw [hlock]
        exact congrArg ShaftUnit.resyncPending hmode.shafts
      axis := fun i => by
        have haxes : x.axis.axes = off.axis.axes := by
          rw [hlock]
          change isolated.axis.axes = _
          rw [hmode.axis]
          rfl
        exact (State.getAxis_congr haxes i).trans (axesOff_getAxis _ i)
      trip := by change x.trip = _; rw [hlock]; exact hmode.trip
      ports := fun p => (((State.OnlyRaises.of_ports rfl).trans hmode.ports).trans hraises) p
      shared := by
        change x.pool = _ ∧ x.locks = _ ∧ x.pending = _
        rw [hlock]
        exact ⟨hmode.pool, hmode.locks, hmode.pending⟩ }

/-- The codes of an ATTACH, in their order (R164). -/
theorem State.attachCode_eq (s : State) : s.attachCode =
    if s.cyc.attached = true then .attached else if s.cyc.address = none then .noAddress
    else if s.clock.state ≠ .crystal then .clockFault else .accepted := by
  simp only [State.attachCode, Option.isNone_iff_eq_none]

/-- Settles O53, by the code of the ATTACH and what becoming ATTACHED does. -/
theorem attachStartsTheNode : Obligations.AttachStartsTheNode := by
  intro s hready answers
  have hrefused {c : Code} (hcode : s.attachCode = c) (h : c ≠ .accepted) : answers c := by
    change exec (.attach .a) s = _
    rw [exec_attach_a hready, cmdAttach_refused (s := s.touched .a) hcode h]
  refine ⟨fun h => ?_, fun h haddr => ?_, fun h haddr hclock => ?_, fun h haddr hclock => ?_⟩
  · exact hrefused (by rw [State.attachCode_eq, if_pos h]) (by decide)
  · exact hrefused (by rw [State.attachCode_eq, if_neg (by simp [h]), if_pos haddr]) (by decide)
  · exact hrefused (by rw [State.attachCode_eq, if_neg (by simp [h]), if_neg haddr, if_pos hclock]) (by decide)
  · have hcode : (s.touched .a).attachCode = .accepted := by
      change s.attachCode = _
      rw [State.attachCode_eq, if_neg (by simp [h]), if_neg haddr, if_neg (Classical.not_not.mpr hclock)]
    have hspec := attachNode_spec ((s.touched .a).setCode .a fun k => { k with attach := .accepted })
    have hports := hspec.ports .a
    refine ⟨_, (exec_attach_a hready).trans (congrArg Host.Outcome.next (cmdAttach_accepted hcode)), ?_⟩
    generalize attachNode ((s.touched .a).setCode .a fun k => { k with attach := .accepted }) = u at *
    have hcyc := hspec.cyc
    rw [State.setCode_port_self] at hports
    rw [hcyc]
    refine ⟨by rw [hports.1], rfl, rfl, rfl, rfl, rfl, rfl, rfl, rfl, rfl, rfl, rfl, rfl, rfl, rfl, rfl, rfl, rfl,
      fun a => ⟨Vector.getElem_replicate _, Vector.getElem_replicate _⟩, hspec.mode, fun d => ?_, hspec.shaft, hspec.resync,
      fun i => ?_, hspec.trip, hspec.clock, hspec.shared⟩
    · rw [hspec.link]
      exact ⟨rfl, rfl, rfl, rfl, rfl, rfl, rfl⟩
    · have hi : u.getAxis i = if (s.getAxis i).state = .off then s.getAxis i else (s.getAxis i).toOff := hspec.axis i
      rw [hi]
      split
      · next hoff => exact ⟨hoff, rfl⟩
      · exact ⟨rfl, rfl⟩

/-! ### DETACH -/

/-- `t` is `s` after its channel unit has dropped attempts and contexts: no queue of receipts or outcomes changes, and no
segment is offered anew. -/
structure State.AttemptsDropped (s t : State) : Prop extends s.ChannelWorked t where
  receipts : ∀ c : ChannelNo, (t.getChannel c).rx = (s.getChannel c).rx ∧ (t.getChannel c).outcomes = (s.getChannel c).outcomes
  offered : s.chan.offered = none → t.chan.offered = none
  freed : ∀ k : Fin 4, s.getContext k = none → t.getContext k = none

theorem State.AttemptsDropped.refl (s : State) : s.AttemptsDropped s :=
  { State.ChannelWorked.refl s with receipts := fun _ => ⟨rfl, rfl⟩, offered := id, freed := fun _ => id }

theorem State.AttemptsDropped.trans {s t u : State} (h : s.AttemptsDropped t) (k : t.AttemptsDropped u) : s.AttemptsDropped u :=
  { h.toChannelWorked.trans k.toChannelWorked with
    receipts := fun c => ⟨(k.receipts c).1.trans (h.receipts c).1, (k.receipts c).2.trans (h.receipts c).2⟩
    offered := k.offered ∘ h.offered
    freed := fun n => k.freed n ∘ h.freed n }

theorem modChannel_attemptsDropped {s : State} {c : ChannelNo} {f : Channel → Channel}
    (hf : ∀ x : Channel, (f x).rx = x.rx ∧ (f x).outcomes = x.outcomes) : s.AttemptsDropped (s.modChannel c f) :=
  { modChannel_channelWorked s c f with
    receipts := fun k => by
      rw [State.modChannel_getChannel]
      split
      · next hk => rw [hk]; exact hf _
      · exact ⟨rfl, rfl⟩
    offered := id
    freed := fun _ => id }

theorem freeBlocks_attemptsDropped (bs : List BlockNo) (s : State) : s.AttemptsDropped (freeBlocks bs s) :=
  { freeBlocks_channelWorked bs s with receipts := fun _ => ⟨rfl, rfl⟩, offered := id, freed := fun _ => id }

theorem modChan_attemptsDropped {s : State} {f : ChannelUnit → ChannelUnit} (hchannels : (f s.chan).channels = s.chan.channels)
    (hcontexts : (f s.chan).contexts = s.chan.contexts) (hoffered : s.chan.offered = none → (f s.chan).offered = none) :
    s.AttemptsDropped (s.modChan f) :=
  { modChan_channelWorked s f with
    receipts := fun c => by
      have : (s.modChan f).getChannel c = s.getChannel c := by
        unfold State.getChannel
        rw [State.modChan_chan, hchannels]
      rw [this]
      exact ⟨rfl, rfl⟩
    offered := hoffered
    freed := fun k hk => by
      unfold State.getContext at *
      rw [State.modChan_chan, hcontexts, hk] }

theorem withdraw_attemptsDropped (c : ChannelNo) (s : State) : s.AttemptsDropped (withdraw c s) :=
  modChan_attemptsDropped rfl rfl fun h => by rw [h]

theorem idleHead_attemptsDropped (b : Bool) (c : ChannelNo) (s : State) : s.AttemptsDropped (idleHead b c s) :=
  modChannel_attemptsDropped fun _ => ⟨rfl, rfl⟩

theorem removeMessage_attemptsDropped (c : ChannelNo) (i : Nat) (s : State) : s.AttemptsDropped (removeMessage c i s) := by
  unfold removeMessage
  split
  · exact .refl s
  · rename_i m _
    have hqueue : s.AttemptsDropped (s.modChannel c fun x => { x with queue := x.queue.eraseIdx i }) :=
      modChannel_attemptsDropped fun _ => ⟨rfl, rfl⟩
    have removed := hqueue.trans (freeBlocks_attemptsDropped m.blocks _)
    dsimp only
    split
    · exact (removed.trans (withdraw_attemptsDropped c _)).trans (idleHead_attemptsDropped false c _)
    · exact removed

theorem abandonAttempt_attemptsDropped (c : ChannelNo) (s : State) : s.AttemptsDropped (abandonAttempt c s) := by
  unfold abandonAttempt
  split
  · split
    · exact removeMessage_attemptsDropped c 0 s
    · exact idleHead_attemptsDropped false c s
  · exact .refl s

theorem setContext_none_attemptsDropped (s : State) (k : Fin 4) : s.AttemptsDropped (s.setContext k none) :=
  { setContext_channelWorked s k none with
    receipts := fun _ => ⟨rfl, rfl⟩
    offered := id
    freed := fun l hl => by
      rw [State.setContext_getContext]
      split
      · rfl
      · exact hl }

theorem reopenEntry_attemptsDropped (x : Context) (s : State) : s.AttemptsDropped (reopenEntry x s) := by
  unfold reopenEntry
  split
  · exact modChannel_attemptsDropped fun _ => ⟨rfl, rfl⟩
  · exact .refl s

/-- What discarding a context does once its place is free: its blocks, its slot and its entry. -/
theorem contextDiscarded_attemptsDropped (x : Context) (s : State) :
    s.AttemptsDropped (reopenEntry x ((match x.slot with
      | some i => emptySlot x.channel i (freeBlocks x.blocks s)
      | none => freeBlocks x.blocks s).modChan fun u => { u with discards := bump u.discards })) := by
  refine .trans ?_ (reopenEntry_attemptsDropped x _)
  refine .trans ?_ (modChan_attemptsDropped rfl rfl id)
  split
  · exact (freeBlocks_attemptsDropped _ _).trans (modChannel_attemptsDropped fun _ => ⟨rfl, rfl⟩)
  · exact freeBlocks_attemptsDropped _ _

theorem discardContext_attemptsDropped (k : Fin 4) (s : State) :
    s.AttemptsDropped (discardContext k s) ∧ (discardContext k s).getContext k = none := by
  unfold discardContext
  split
  · next h => exact ⟨.refl s, h⟩
  · rename_i x _
    have hdiscarded := contextDiscarded_attemptsDropped x (s.setContext k none)
    exact ⟨(setContext_none_attemptsDropped s k).trans hdiscarded,
      hdiscarded.freed k (by rw [State.setContext_getContext, if_pos rfl])⟩

theorem foldl_attemptsDropped {α : Type} {f : State → α → State} (h : ∀ (s : State) a, s.AttemptsDropped (f s a)) (xs : List α)
    (s : State) : s.AttemptsDropped (xs.foldl f s) := by
  induction xs generalizing s with
  | nil => exact .refl s
  | cons x xs ih => exact (h s x).trans (ih _)

/-- Every context that is worked is free afterwards. -/
theorem discardContexts_free (ks : List (Fin 4)) (s : State) {k : Fin 4} (hk : k ∈ ks) :
    (ks.foldl (fun s k => discardContext k s) s).getContext k = none := by
  induction ks generalizing s with
  | nil => cases hk
  | cons j ks ih =>
    rw [List.foldl_cons]
    rcases List.mem_cons.mp hk with rfl | hk
    · exact (foldl_attemptsDropped (fun s k => (discardContext_attemptsDropped k s).1) ks _).freed _
        (discardContext_attemptsDropped _ s).2
    · exact ih _ hk

theorem detachChannels_spec (s : State) : s.AttemptsDropped (detachChannels s) ∧ (detachChannels s).chan.openPhase = false ∧
    ∀ k : Fin 4, (detachChannels s).getContext k = none := by
  unfold detachChannels
  extract_lets abandoned discarded
  have habandoned : s.AttemptsDropped abandoned := foldl_attemptsDropped (fun s c => abandonAttempt_attemptsDropped c s) _ s
  have hdiscarded : abandoned.AttemptsDropped discarded :=
    foldl_attemptsDropped (fun s k => (discardContext_attemptsDropped k s).1) _ _
  have hall : ∀ k : Fin 4, k ∈ allContexts := by decide
  have hfree (k : Fin 4) : discarded.getContext k = none := discardContexts_free allContexts abandoned (hall k)
  clear_value discarded
  exact ⟨(habandoned.trans hdiscarded).trans (modChan_attemptsDropped rfl rfl id), rfl, hfree⟩

theorem exec_detach_a {s : State} (hready : s.clock.ready = true) : exec (.detach .a) s = .next (cmdDetach .a (s.touched .a)) :=
  congrArg Host.Outcome.next (portWrite_ready .a s _ hready)

theorem cmdDetach_refused {s : State} {c : Code} (hcode : s.detachCode = c) (h : c ≠ .accepted) :
    cmdDetach .a s = s.setCode .a fun k => { k with detach := c } := by
  rw [cmdDetach, writeByA_a, hcode, if_neg h]

theorem cmdDetach_accepted {s : State} (hcode : s.detachCode = .accepted) :
    cmdDetach .a s = detachNode (s.setCode .a fun k => { k with detach := .accepted }) := by
  rw [cmdDetach, writeByA_a, hcode, if_pos rfl]

theorem drainLoop_of_no_status {s : State} (h : s.ring.ownStatus = none) :
    drainLoop s = s.modRing fun u => { u with ownFlash := [], ownCycleStart := none, ownStatus := none } := by
  unfold drainLoop
  dsimp only
  rw [h]

/-- ISOLATED with no own frame waiting: only the mode, and the offered segment (R10). -/
theorem setMode_isolated_drained {s : State} (hflash : s.ring.ownFlash = []) (hstart : s.ring.ownCycleStart = none)
    (hstatus : s.ring.ownStatus = none) : (setMode .isolated s).ring = { s.ring with mode := .isolated } ∧
      (setMode .isolated s).axis = s.axis ∧ (s.chan.offered = none → (setMode .isolated s).chan.offered = none) := by
  rw [setMode_eq]
  split
  · next hmode => exact ⟨by rw [← hmode], rfl, id⟩
  · rw [if_pos rfl, drainLoop_of_no_status (s := withdrawAny (raiseBoth .ring (s.modRing fun u =>
      { u with mode := .isolated }))) hstatus]
    refine ⟨?_, rfl, fun _ => rfl⟩
    change { s.ring with mode := PathMode.isolated, ownFlash := [], ownCycleStart := none, ownStatus := none } = _
    simp only [hflash, hstart, hstatus]

/-- What becoming DETACHED does to each unit (R165). -/
structure State.Detached (s t : State) : Prop where
  clock : t.clock = s.clock
  link : ∀ d : Side, t.link d = (s.link d).shutDown .detached
  ring : t.ring = { s.ring with mode := .isolated, buffer := [], ownFlash := [], ownCycleStart := none, ownStatus := none }
  cyc : t.cyc = { s.cyc.unlocked .none with attached := false, lock := .unlocked }
  shaft : ∀ i : ShaftNo, t.getShaft i = (s.getShaft i).rest
  axis : t.axis = { s.axis with outbox := loseSent s.axis.outbox }
  context : ∀ k : Fin 4, t.getContext k = none
  offered : t.chan.offered = none
  openPhase : t.chan.openPhase = false
  receipts : ∀ c : ChannelNo, (t.getChannel c).rx = (s.getChannel c).rx ∧ (t.getChannel c).outcomes = (s.getChannel c).outcomes
  trip : t.trip = { s.trip with stagedReset := false }
  mem : t.pool.mem = s.pool.mem
  locks : t.locks = s.locks
  ports : s.OnlyRaises t
  pending : t.pending = s.pending

theorem detachNode_spec (s : State) : s.Detached (detachNode s) := by
  unfold detachNode
  extract_lets dark emptied isolated unlocked rested
  obtain ⟨hring, haxis, hoffered⟩ := setMode_isolated_drained (s := emptied) rfl rfl rfl
  have hmode := setMode_rerouted .isolated emptied
  change emptied.Rerouted isolated at hmode
  change isolated.ring = _ at hring
  change isolated.axis = _ at haxis
  replace hoffered : isolated.chan.offered = none := hoffered rfl
  clear_value isolated
  have hlock := setLock_eq_frame .unlocked (isolated.modCyc fun u => { u.unlocked .none with attached := false })
  have hraises : isolated.OnlyRaises unlocked :=
    (State.OnlyRaises.of_ports rfl).trans
      (setLock_onlyRaises .unlocked (isolated.modCyc fun u => { u.unlocked .none with attached := false }))
  change unlocked = _ at hlock
  clear_value unlocked
  have hrested : rested = { unlocked with shafts := rested.shafts, trip := { unlocked.trip with stagedReset := false } } := rfl
  have hshaft (i : ShaftNo) : rested.getShaft i = (unlocked.getShaft i).rest := shaftsRest_getShaft unlocked i
  clear_value rested
  have hlost := setOutbox_rerouted (loseSent rested.axis.outbox) rested
  obtain ⟨-, -, kring, -, -, -, -, kchan, -, -, kaxis⟩ := setOutbox_kept (loseSent rested.axis.outbox) rested
  generalize setOutbox (loseSent rested.axis.outbox) rested = lost at *
  obtain ⟨hdropped, hopen, hcontext⟩ := detachChannels_spec lost
  generalize detachChannels lost = t at *
  have haxes : rested.axis = s.axis := by rw [hrested, hlock]; exact haxis
  have hchan : rested.chan = isolated.chan := by rw [hrested, hlock]; rfl
  exact
    { clock := by rw [hdropped.clock, hlost.clock, hrested, hlock]; exact hmode.clock
      link := fun d => by
        have hlinks : t.links = isolated.links := by rw [hdropped.links, hlost.links, hrested, hlock]; rfl
        exact (State.link_congr (hlinks.trans hmode.links) d).trans (bothLinks_link _ s d)
      ring := by rw [hdropped.ring, kring, hrested, hlock]; exact hring
      cyc := by
        rw [hdropped.cyc, hlost.cyc, hrested, hlock]
        exact congrArg (fun u : CycleUnit => { u.unlocked .none with attached := false, lock := .unlocked }) hmode.cyc
      shaft := fun i => by
        rw [State.getShaft_congr (hdropped.shafts.trans hlost.shafts) i, hshaft]
        refine congrArg Shaft.rest (State.getShaft_congr ?_ i)
        rw [hlock]
        exact hmode.shafts
      axis := by rw [hdropped.axis, kaxis, haxes]
      context := hcontext
      offered := hdropped.offered (by rw [kchan, hchan, hoffered])
      openPhase := hopen
      receipts := fun c => by
        have hkept : lost.getChannel c = s.getChannel c := by
          unfold State.getChannel
          rw [kchan, hchan, hmode.chan]
          rfl
        rw [← hkept]
        exact hdropped.receipts c
      trip := by
        rw [hdropped.trip, hlost.trip, hrested, hlock]
        exact congrArg (fun u : TripUnit => { u with stagedReset := false }) hmode.trip
      mem := by
        rw [hdropped.mem, hlost.pool, hrested, hlock]
        exact congrArg Pool.mem hmode.pool
      locks := by rw [hdropped.locks, hlost.locks, hrested, hlock]; exact hmode.locks
      ports := by
        have hkept : unlocked.OnlyRaises rested := .of_ports (by rw [hrested])
        have hstart : s.OnlyRaises emptied := .of_ports rfl
        exact ((((hstart.trans hmode.ports).trans hraises).trans hkept).trans hlost.ports).trans hdropped.ports
      pending := by rw [hdropped.pending, hlost.pending, hrested, hlock]; exact hmode.pending }

theorem State.detachCode_eq (s : State) : s.detachCode =
    if s.cyc.attached = false then .notAttached else if s.axis.anyActive = true then .axesActive else .accepted := by
  simp [State.detachCode]

/-- Settles O54, by the code of the DETACH and what becoming DETACHED does. -/
theorem detachStopsTheNode : Obligations.DetachStopsTheNode := by
  intro s hready answers
  have hrefused {c : Code} (hcode : s.detachCode = c) (h : c ≠ .accepted) : answers c := by
    change exec (.detach .a) s = _
    rw [exec_detach_a hready, cmdDetach_refused (s := s.touched .a) hcode h]
  refine ⟨fun h => ?_, fun h hactive => ?_, fun h hoff => ?_⟩
  · exact hrefused (by rw [State.detachCode_eq, if_pos h]) (by decide)
  · have hany : s.axis.anyActive = true := (AxisUnit.anyActive_iff s.axis).mpr hactive
    exact hrefused (by rw [State.detachCode_eq, if_neg (by simp [h]), if_pos hany]) (by decide)
  · have hnone : ¬s.axis.anyActive = true := by
      rw [AxisUnit.anyActive_iff]
      rintro ⟨i, hi⟩
      exact hi (hoff i)
    have hcode : (s.touched .a).detachCode = .accepted := by
      change s.detachCode = _
      rw [State.detachCode_eq, if_neg (by simp [h]), if_neg hnone]
    have hspec := detachNode_spec ((s.touched .a).setCode .a fun k => { k with detach := .accepted })
    have hports := hspec.ports .a
    refine ⟨_, (exec_detach_a hready).trans (congrArg Host.Outcome.next (cmdDetach_accepted hcode)), ?_⟩
    generalize detachNode ((s.touched .a).setCode .a fun k => { k with detach := .accepted }) = u at *
    have hcyc := hspec.cyc
    rw [State.setCode_port_self] at hports
    rw [hcyc]
    refine ⟨by rw [hports.1], rfl, rfl, rfl, rfl, rfl, rfl, rfl, rfl, rfl, rfl, rfl, fun d => ?_, hspec.ring, hspec.shaft,
      hspec.axis, hspec.context, hspec.offered, hspec.openPhase, hspec.receipts, hspec.trip, hspec.mem, hspec.locks,
      hspec.clock, hspec.pending⟩
    rw [hspec.link]
    obtain ⟨hstate, hlaser, hheard, -, hup, hdown⟩ := LinkUnit.shutDown_spec (s.link d) .detached
    exact ⟨hstate, hlaser, hheard, hup, hdown⟩

end Sys2Proof.Machine
end

