-- ==== Sys2Proof/Proofs/PlanStaging.lean ====
section
/-!
PROOFS. Rosters and plan staging at port A (R38, R40), the ports at a cancelled switch (R43), and the end of a listen (R24).
-/

namespace Sys2Proof.Machine

/-! ### Rosters (R38) -/

theorem exec_rosterWrite_a {s : State} (hready : s.clock.ready = true) (k : PlanNo) (v : BitVec 32) :
    exec (.rosterWrite .a k v) s = .next (cmdRoster .a k v (s.touched .a)) :=
  congrArg Host.Outcome.next (portWrite_ready .a s _ hready)

/-- Whether a written roster adds an address. -/
theorem addedBits_iff (set : BitVec 32) (old : BitVec 31) (a : Fin 31) :
    (set.setWidth 31 &&& ~~~old).getLsbD a.val = true ↔ set.getLsbD a.val = true ∧ old.getLsbD a.val = false := by
  rw [BitVec.getLsbD_and, BitVec.getLsbD_not, BitVec.getLsbD_setWidth]
  simp [a.isLt]

theorem CycleUnit.setRoster_missing (u : CycleUnit) (leading : Bool) (k : PlanNo) (set : BitVec 32) (a : Fin 31) :
    (u.setRoster leading k (set.setWidth 31)).missing[a.val] =
      if leading = true ∧ k = u.activePlan ∧ set.getLsbD a.val = true ∧ (u.rosters[k.val]).getLsbD a.val = false then 0
      else u.missing[a.val] := by
  simp only [CycleUnit.setRoster, Vector.getElem_ofFn, Bool.and_eq_true, decide_eq_true_eq, addedBits_iff, and_assoc]

theorem CycleUnit.setRoster_added (u : CycleUnit) (leading : Bool) (k j : PlanNo) (set : BitVec 32) (a : Fin 31) :
    ((u.setRoster leading k (set.setWidth 31)).added[j.val]).getLsbD a.val =
      if leading = true ∧ j = k ∧ k ≠ u.activePlan then
        set.getLsbD a.val && ((u.added[k.val]).getLsbD a.val || !(u.rosters[k.val]).getLsbD a.val)
      else (u.added[j.val]).getLsbD a.val := by
  have hbits (x y : BitVec 31) : ((x &&& set.setWidth 31) ||| (set.setWidth 31 &&& ~~~y)).getLsbD a.val =
      (set.getLsbD a.val && (x.getLsbD a.val || !y.getLsbD a.val)) := by
    rw [BitVec.getLsbD_or, BitVec.getLsbD_and, BitVec.getLsbD_and, BitVec.getLsbD_not, BitVec.getLsbD_setWidth]
    simp only [a.isLt, decide_true, Bool.true_and]
    cases x.getLsbD a.val <;> cases set.getLsbD a.val <;> simp
  by_cases hwaits : leading = true ∧ k ≠ u.activePlan
  · have hadded : (u.setRoster leading k (set.setWidth 31)).added = modifyAt u.added k fun x =>
        (x &&& set.setWidth 31) ||| (set.setWidth 31 &&& ~~~u.rosters[k.val]) :=
      if_pos (by simpa [Bool.and_eq_true] using hwaits)
    rw [hadded, modifyAt_get]
    by_cases hjk : j = k
    · subst hjk
      rw [if_pos rfl, if_pos ⟨hwaits.1, rfl, hwaits.2⟩]
      exact hbits _ _
    · rw [if_neg hjk, if_neg fun h => hjk h.2.1]
  · have hadded : (u.setRoster leading k (set.setWidth 31)).added = u.added :=
      if_neg (by simpa [Bool.and_eq_true] using hwaits)
    rw [hadded, if_neg fun h => hwaits ⟨h.1, h.2.2⟩]

theorem rosterWrite_spec (s : State) (k : PlanNo) (set : BitVec 32) :
    let u := cmdRoster .a k set s
    u.cyc.rosters[k.val] = set.setWidth 31 ∧ (∀ j : PlanNo, j ≠ k → u.cyc.rosters[j.val] = s.cyc.rosters[j.val]) ∧
      (∀ a : Fin 31, u.cyc.missing[a.val] =
        if s.leading = true ∧ k = s.cyc.activePlan ∧ set.getLsbD a.val = true ∧
            (s.cyc.rosters[k.val]).getLsbD a.val = false then 0 else s.cyc.missing[a.val]) ∧
      (∀ (j : PlanNo) (a : Fin 31), (u.cyc.added[j.val]).getLsbD a.val =
        if s.leading = true ∧ j = k ∧ k ≠ s.cyc.activePlan then
          set.getLsbD a.val && ((s.cyc.added[k.val]).getLsbD a.val || !(s.cyc.rosters[k.val]).getLsbD a.val)
        else (s.cyc.added[j.val]).getLsbD a.val) ∧
      u = { s with cyc := { s.cyc with rosters := u.cyc.rosters, missing := u.cyc.missing, added := u.cyc.added } } :=
  ⟨modifyAt_get_self _ _ _, fun _ hj => modifyAt_get_other _ _ _ _ hj,
    CycleUnit.setRoster_missing s.cyc s.leading k set, fun j a => CycleUnit.setRoster_added s.cyc s.leading k j set a, rfl⟩

/-! ### Staging (R40) -/

theorem exec_planStagingWrite_a {s : State} (hready : s.clock.ready = true) (v : Word16) (n : Cycle) :
    exec (.planStagingWrite .a v n) s = .next (cmdStaging .a v n (s.touched .a)) :=
  congrArg Host.Outcome.next (portWrite_ready .a s _ hready)

/-- A staging that is refused keeps the pair and answers its code. -/
theorem cmdStaging_refused {s : State} {v : Word16} {n : Cycle} {c : Code} (hcode : s.stagingCode v.toNat n = c)
    (h : c ≠ .accepted) : cmdStaging .a v n s = (s.setCode .a fun k => { k with staging := c }).modCyc fun u =>
      { u with stagingPlan := v, stagingCycle := n } := by
  rw [cmdStaging, writeByA_a]
  dsimp only
  rw [hcode]
  split
  · exact absurd rfl h
  · rfl

theorem cmdStaging_accepted {s : State} {v : Word16} {n : Cycle} {k : PlanNo} (hcode : s.stagingCode v.toNat n = .accepted)
    (hk : v.toNat = k.val) : cmdStaging .a v n s = (s.setCode .a fun k => { k with staging := .accepted }).modCyc fun u =>
      { u with stagingPlan := v, stagingCycle := n, pendingSwitch := some { plan := k, cycle := n } } := by
  rw [cmdStaging, writeByA_a]
  dsimp only
  rw [hcode, hk, finOf_val]
  rfl

/-- The codes of a staging, in their order (R40). -/
theorem State.stagingCode_leading {s : State} (v : Nat) (n : Cycle) (hlead : s.leading = true)
    (hnone : s.cyc.pendingSwitch = none) : s.stagingCode v n =
      if v = s.cyc.activePlan.val then .noChange
      else if (n - s.cyc.cycle).toNat < 8 ∨ 32767 < (n - s.cyc.cycle).toNat then .tooSoon
      else match finOf 4 v with
        | some q => if s.cyc.rosters[q.val] ≠ 0 then .accepted else .noRoster
        | none => .noRoster := by
  simp only [State.stagingCode, hlead, hnone, CycleUnit.hasRoster, decide_eq_true_eq, cycleDist]
  rfl

/-- Settles O56, by one rule each for a roster, a cancelled switch and a staging. -/
theorem planSwitchesAreStaged : Obligations.PlanSwitchesAreStaged := by
  intro s hready
  refine ⟨fun k set => ⟨_, exec_rosterWrite_a hready k set, rosterWrite_spec (s.touched .a) k set⟩,
    fun w hlead hsome htime => ?_, fun v n => ?_⟩
  · refine ⟨_, (exec_cancelPlan_ready .a hready).trans
      (congrArg Host.Outcome.next (cmdCancelPlan_of_in_time (s := s.touched .a) hlead hsome htime)), fun p => ?_⟩
    rw [planEvent_port, State.switchDropped_flags, State.touched_flags, State.switchDropped, State.modCyc_port]
    cases p with
    | a => rw [State.setCode_port_self, State.touched_port_self]; rfl
    | b => rfl
  · intro ahead answers
    have hrefused {c : Code} (hcode : s.stagingCode v.toNat n = c) (h : c ≠ .accepted) : answers c s.cyc.pendingSwitch := by
      change exec (.planStagingWrite .a v n) s = _
      rw [exec_planStagingWrite_a hready, cmdStaging_refused (s := s.touched .a) hcode h]
      rfl
    refine ⟨fun hlead => ?_, fun hlead hsome => ?_, fun hlead hnone => ?_⟩
    · exact hrefused (by simp [State.stagingCode, hlead]) (by decide)
    · exact hrefused (by simp [State.stagingCode, hlead, Option.isSome_iff_ne_none.mpr hsome]) (by decide)
    · have hcode := State.stagingCode_leading v.toNat n hlead hnone
      rw [hnone] at hrefused
      refine ⟨fun hsame => ?_, fun hother htime => ?_, fun hother hsoon hlate k hk => ⟨fun hroster => ?_, fun hroster => ?_⟩⟩
      · exact hrefused (by rw [hcode, if_pos hsame]) (by decide)
      · exact hrefused (by rw [hcode, if_neg hother, if_pos htime]) (by decide)
      · refine hrefused ?_ (by decide : Code.noRoster ≠ .accepted)
        rw [hcode, if_neg hother, if_neg (by omega), hk, finOf_val]
        exact if_neg (Classical.not_not.mpr hroster)
      · have haccepted : s.stagingCode v.toNat n = .accepted := by
          rw [hcode, if_neg hother, if_neg (by omega), hk, finOf_val]
          exact if_pos hroster
        change exec (.planStagingWrite .a v n) s = _
        rw [exec_planStagingWrite_a hready, cmdStaging_accepted (s := s.touched .a) haccepted hk]

/-! ### Leadership begins (R24, R36) -/

/-- The cycle unit as leadership begins. -/
def CycleUnit.led (u : CycleUnit) (period boundary : Int) : CycleUnit :=
  { u with
    phase := .emitting, epoch := u.epoch + 1, leader := u.address, lock := .locked, missed := 0, timerPeriod := period
    nextBoundary := boundary, missing := Vector.replicate 31 0, added := Vector.replicate 4 0
    presence := Vector.replicate 31 none, freshLead := true }

/-- What the beginning of leadership does and leaves: the cycle unit leads, its view is announced, and TIMELOCK is raised where
the lock state changes. -/
theorem beginLeading_spec {s : State} (hrole : s.cyc.role = .leader) (period boundary : Int) :
    let u := beginLeading period boundary s
    u = { s with cyc := s.cyc.led period boundary, trip := u.trip, ports := u.ports } ∧
      u.trip = { s.trip with announced := s.trip.view, firstFault := s.trip.list.head? } ∧
      s.OnlyRaises u ∧ (s.cyc.lock ≠ .locked → ∀ p : Port, u.flag p .timelock = true) ∧
      (s.cyc.lock = .locked → u.ports = s.ports) := by
  unfold beginLeading
  generalize hstarted : s.modCyc _ = started
  have hlock := setLock_eq_frame .locked started
  have hraises := setLock_onlyRaises .locked started
  have htimelock (h : started.cyc.lock ≠ .locked) (p : Port) := setLock_raises h p
  have hsame (h : started.cyc.lock = .locked) : (setLock .locked started).ports = started.ports := by
    rw [setLock_eq, if_pos h]
  generalize setLock .locked started = locked at *
  subst hstarted
  have hcyc : (clearPresence locked).cyc = s.cyc.led period boundary := by
    change { locked.cyc with presence := Vector.replicate 31 none } = _
    rw [hlock]
    rfl
  have hleading : (clearPresence locked).leading = true := by
    rw [State.leading, hcyc]
    simp [CycleUnit.led, hrole]
  have htrip : locked.trip = s.trip := by rw [hlock]; rfl
  have hframe : clearPresence locked = { s with cyc := s.cyc.led period boundary, ports := locked.ports } := by
    change { locked with cyc := (clearPresence locked).cyc } = _
    rw [hcyc, hlock]
    rfl
  have hsync : leadSync (clearPresence locked) = { s with
      cyc := s.cyc.led period boundary
      trip := { s.trip with announced := s.trip.view, firstFault := s.trip.list.head? }
      ports := locked.ports } := by
    rw [leadSync, if_pos hleading, hframe]
    rfl
  rw [hsync]
  exact ⟨rfl, rfl, (State.OnlyRaises.of_ports rfl).trans (fun p => hraises p), fun h p => htimelock h p,
    hsame⟩

/-- Settles O23. -/
theorem listenEndStartsLeading : Obligations.ListenEndStartsLeading := by
  intro s hrole hphase
  have hexec : exec .listenEnd s = .next (beginLeading s.cyc.periodNs s.cyc.listenEnd s) :=
    congrArg Host.Outcome.next (if_pos ⟨hrole, hphase⟩)
  obtain ⟨hframe, htrip, -, htimelock, hports⟩ := beginLeading_spec hrole s.cyc.periodNs s.cyc.listenEnd
  refine ⟨_, hexec, ?_, htrip, htimelock, hports, ?_⟩
  · rw [hframe]
    rfl
  · rw [hframe]
    exact ⟨rfl, rfl, rfl, rfl, rfl, rfl, rfl, rfl, rfl⟩

end Sys2Proof.Machine
end

