-- ==== Sys2Proof/Proofs/LinkTraining.lean ====
section
/-!
PROOFS. The link units: entering TRAINING (R2), the loss of a link and the path wrap (R5, R6, R10), and good LINK_IDLEs (R3 to
R6).
-/

namespace Sys2Proof.Machine

@[simp] theorem State.modLink_link_other (s : State) (d : Side) (f : LinkUnit → LinkUnit) :
    (s.modLink d f).link d.other = s.link d.other := SidePair.get_modify_other _ _ _

theorem LinkUnit.isUp_iff (l : LinkUnit) : l.isUp = true ↔ l.state = .up := decide_eq_true_iff

theorem LinkUnit.tryTraining_eq (l : LinkUnit) : l.tryTraining = { l with
    state := if l.state = .down ∧ l.laser = true ∧ l.signalDetect = true ∧ l.holdOff = false then .training else l.state } := by
  unfold LinkUnit.tryTraining
  simp only [Bool.not_eq_true']
  split <;> rfl

/-! ### The loss of a link (R5, R6, R10) -/

theorem linkDrop_unused {d : Side} {reason : DownReason} {s : State}
    (h : ¬((s.link d).state = .up ∧ s.ring.mode.uses d = true)) :
    linkDrop d reason s = s.modLink d fun l => l.enterDown reason := by
  refine if_neg ?_
  rwa [Bool.and_eq_true, LinkUnit.isUp_iff]

theorem linkDrop_used {d : Side} {reason : DownReason} {s : State}
    (h : (s.link d).state = .up ∧ s.ring.mode.uses d = true) : linkDrop d reason s =
      setMode (s.ring.mode.without d) (discardBound d (s.modLink d fun l => l.enterDown reason)) := by
  refine if_pos ?_
  rwa [Bool.and_eq_true, LinkUnit.isUp_iff]

theorem PathMode.without_of_uses {m : PathMode} {d : Side} (h : m.uses d = true) : m.without d ≠ m ∧ m.without d =
    if m = .through then (if d = .west then .wrapWest else .wrapEast) else .isolated := by
  revert h
  cases m <;> cases d <;> decide

/-- `t` is `s` after a link has gone DOWN: the link, and, where it was in use, what the change of path mode changes. -/
structure State.LinkDropped (s : State) (d : Side) (reason : DownReason) (t : State) : Prop where
  links : t.links = s.links.modify d fun l => l.enterDown reason
  shafts : t.shafts = s.shafts
  trip : t.trip = s.trip
  cyc : t.cyc = s.cyc
  shared : s.SharedKept t
  unused : (s.link d).state ≠ .up ∨ s.ring.mode.uses d = false →
    t.ring = s.ring ∧ t.ports = s.ports ∧ t.chan = s.chan ∧ t.axis = s.axis
  used : (s.link d).state = .up → s.ring.mode.uses d = true →
    t.ring.mode = (if s.ring.mode = .through then (if d = .west then .wrapWest else .wrapEast) else .isolated) ∧
    t.ring.buffer = s.ring.buffer.filter (fun e => decide (e.out ≠ d)) ∧
    t.ring.wrapDiscards = bumpBy s.ring.wrapDiscards (s.ring.buffer.filter fun e => decide (e.out = d)).length ∧
    ∀ p : Port, t.flag p .ring = true

theorem linkDrop_spec (d : Side) (reason : DownReason) (s : State) : s.LinkDropped d reason (linkDrop d reason s) := by
  by_cases h : (s.link d).state = .up ∧ s.ring.mode.uses d = true
  · obtain ⟨hchanges, hwithout⟩ := PathMode.without_of_uses h.2
    have hmode := setMode_rerouted (s.ring.mode.without d) (discardBound d (s.modLink d fun l => l.enterDown reason))
    have hnew := setMode_mode (s.ring.mode.without d) (discardBound d (s.modLink d fun l => l.enterDown reason))
    have hring (p : Port) := setMode_raises (s := discardBound d (s.modLink d fun l => l.enterDown reason)) hchanges.symm p
    rw [linkDrop_used h]
    generalize setMode (s.ring.mode.without d) _ = t at *
    exact
      { links := hmode.links, shafts := hmode.shafts, trip := hmode.trip, cyc := hmode.cyc
        shared := ⟨hmode.pool, hmode.locks, hmode.pending⟩
        unused := fun hu => by
          rcases hu with hu | hu
          · exact absurd h.1 hu
          · rw [h.2] at hu
            cases hu
        used := fun _ _ => ⟨hnew.trans hwithout, by rw [hmode.ring]; rfl, by rw [hmode.ring]; rfl, hring⟩ }
  · rw [linkDrop_unused h]
    exact
      { links := rfl, shafts := rfl, trip := rfl, cyc := rfl, shared := ⟨rfl, rfl, rfl⟩
        unused := fun _ => ⟨rfl, rfl, rfl, rfl⟩
        used := fun hup huses => absurd ⟨hup, huses⟩ h }

theorem State.LinkDropped.link_self {s t : State} {d : Side} {reason : DownReason} (h : s.LinkDropped d reason t) :
    t.link d = (s.link d).enterDown reason := by
  unfold State.link
  rw [h.links, SidePair.get_modify_self]

theorem State.LinkDropped.link_other {s t : State} {d : Side} {reason : DownReason} (h : s.LinkDropped d reason t) :
    t.link d.other = s.link d.other := by
  unfold State.link
  rw [h.links, SidePair.get_modify_other]

theorem exec_signalDetectLost {s : State} {d : Side} (h : (s.link d).state ≠ .down) :
    exec (.signalDetectLost d) s = .next (linkDrop d .loss (s.modLink d fun l => { l with signalDetect := false })) := by
  refine congrArg Host.Outcome.next (if_neg ?_)
  rw [State.modLink_link_self]
  exact h

theorem exec_linkSilent {s : State} {d : Side} (h : (s.link d).state ≠ .down) :
    exec (.linkSilent d) s = .next (linkDrop d .silent s) := congrArg Host.Outcome.next (if_neg h)

/-- Settles O12, by the rule for a link that goes DOWN. -/
theorem linksTrainAndFall : Obligations.LinksTrainAndFall := by
  refine ⟨fun s d => ⟨?_, fun hdown => ?_⟩, fun s d hstate c reason hc => ?_⟩
  · refine congrArg Host.Outcome.next (congrArg (State.modLink s d) (funext fun l => ?_))
    rw [LinkUnit.tryTraining_eq]
    simp only [true_and]
  · have hexec : exec (.holdOffEnd d) s =
        .next (s.modLink d fun l => ({ l with holdOff := false } : LinkUnit).tryTraining) :=
      congrArg Host.Outcome.next (if_pos hdown)
    rw [hexec]
    refine congrArg (fun l => Host.Outcome.next { s with links := l }) ?_
    have htry : ({ s.link d with holdOff := false } : LinkUnit).tryTraining = { s.link d with
        holdOff := false
        state := if (s.link d).laser = true ∧ (s.link d).signalDetect = true then .training else .down } := by
      rw [LinkUnit.tryTraining_eq]
      simp only [hdown, true_and, and_true]
    cases d
    · exact congrArg (fun l => { s.links with west := l }) htry
    · exact congrArg (fun l => { s.links with east := l }) htry
  · obtain ⟨x, hexec, hlink, hother, hkept⟩ : ∃ x : State, exec c s = .next (linkDrop d reason x) ∧
        (∃ b : Bool, x.link d = { s.link d with signalDetect := b }) ∧ x.link d.other = s.link d.other ∧
        x = { s with links := x.links } := by
      rcases hc with ⟨rfl, rfl⟩ | ⟨rfl, rfl⟩
      · exact ⟨_, exec_signalDetectLost hstate, ⟨false, State.modLink_link_self _ _ _⟩, State.modLink_link_other _ _ _, rfl⟩
      · exact ⟨s, exec_linkSilent hstate, ⟨_, rfl⟩, rfl, rfl⟩
    obtain ⟨b, hb⟩ := hlink
    have hdrop := linkDrop_spec d reason x
    have hself := hdrop.link_self
    have hentered : x.link d = { s.link d with signalDetect := b } := hb
    have hup : (x.link d).state = (s.link d).state := by rw [hb]
    have hxring : x.ring = s.ring := by rw [hkept]
    refine ⟨_, hexec, ?_⟩
    rw [hself, hentered]
    refine ⟨rfl, rfl, if_neg hstate, if_neg hstate, rfl, rfl, rfl, rfl, rfl, rfl, rfl, hdrop.link_other.trans hother,
      hdrop.shafts.trans (by rw [hkept]), hdrop.trip.trans (by rw [hkept]), hdrop.cyc.trans (by rw [hkept]), ?_,
      fun hunused => ?_, fun hisUp huses => ?_⟩
    · obtain ⟨hpool, hlocks, hpending⟩ := hdrop.shared
      exact ⟨hpool.trans (by rw [hkept]), hlocks.trans (by rw [hkept]), hpending.trans (by rw [hkept])⟩
    · have hx : (x.link d).state ≠ .up ∨ x.ring.mode.uses d = false := by
        rw [hup, hxring]
        exact hunused.imp_left fun ht => by rw [ht]; decide
      obtain ⟨hring, hports, hchan, haxis⟩ := hdrop.unused hx
      exact ⟨hring.trans (by rw [hkept]), hports.trans (by rw [hkept]), hchan.trans (by rw [hkept]),
        haxis.trans (by rw [hkept])⟩
    · rw [← hxring] at huses ⊢
      exact hdrop.used (hup.trans hisUp) huses

/-! ### A link comes UP (R5, R11, R24) -/

theorem modeAtUp_rerouted (s : State) : s.Rerouted (modeAtUp s) := by
  unfold modeAtUp
  split
  · exact .refl s
  · exact setMode_rerouted _ s

/-- A link that comes UP: its window empties, and the node may take the called mode and start its listen. -/
theorem linkUp_spec (d : Side) (now : Nat) (s : State) :
    let t := linkUp d now s
    t.link d = { s.link d with state := .up, window := [] } ∧ t.link d.other = s.link d.other ∧ t.shafts = s.shafts ∧
      t.trip = s.trip ∧ s.SharedKept t := by
  have hmode := modeAtUp_rerouted (s.modLink d fun l => { l with state := .up, window := [] })
  have hself := (State.link_congr hmode.links d).trans (State.modLink_link_self _ _ _)
  have hother := (State.link_congr hmode.links d.other).trans (State.modLink_link_other _ _ _)
  unfold linkUp listenAtUp
  generalize modeAtUp _ = x at *
  dsimp only
  split
  · exact ⟨hself, hother, hmode.shafts, hmode.trip, hmode.pool, hmode.locks, hmode.pending⟩
  · exact ⟨hself, hother, hmode.shafts, hmode.trip, hmode.pool, hmode.locks, hmode.pending⟩

/-! ### Good LINK_IDLEs (R3 to R6) -/

/-- What a good LINK_IDLE measures: the delay in range, and the delay-measured mark while the link is not DOWN (R3). -/
def LinkUnit.Measured (t : RxTime) (f : LinkIdle) (old new : LinkUnit) : Prop :=
  (∀ e : BitVec 32, f.echo = some e →
    let trip : Int := (BitVec.ofNat 32 t.arrival - e).toNat
    let half : Int := (trip - f.turnaround.toNat) / 2
    (0 ≤ half - half % 4 ∧ half - half % 4 ≤ 100000 →
      (new.delay : Int) = half - half % 4 ∧ (new.state ≠ .down → new.delayMeasured = true)) ∧
    (half - half % 4 < 0 ∨ 100000 < half - half % 4 →
      new.delay = old.delay ∧ (new.state ≠ .down → new.delayMeasured = old.delayMeasured))) ∧
  (f.echo = none → new.delay = old.delay ∧ (new.state ≠ .down → new.delayMeasured = old.delayMeasured))

theorem LinkUnit.measure_frame (l : LinkUnit) (arrival : Nat) (f : LinkIdle) : l.measure arrival f =
    { l with
      echo := (l.measure arrival f).echo, delay := (l.measure arrival f).delay
      delayMeasured := (l.measure arrival f).delayMeasured } := by
  unfold LinkUnit.measure
  dsimp only
  split <;> rfl

theorem LinkUnit.measure_of_none {l : LinkUnit} {arrival : Nat} {f : LinkIdle} (h : measuredDelay arrival f = none) :
    (l.measure arrival f).delay = l.delay ∧ (l.measure arrival f).delayMeasured = l.delayMeasured := by
  unfold LinkUnit.measure
  rw [h]
  exact ⟨rfl, rfl⟩

theorem LinkUnit.measure_of_some {l : LinkUnit} {arrival n : Nat} {f : LinkIdle} (h : measuredDelay arrival f = some n) :
    (l.measure arrival f).delay = n ∧ (l.measure arrival f).delayMeasured = true := by
  unfold LinkUnit.measure
  rw [h]
  exact ⟨rfl, rfl⟩

/-- A measurement, read off a link that keeps the measured delay and, unless it is DOWN, the mark. -/
theorem LinkUnit.Measured.of_measure {t : RxTime} {f : LinkIdle} {old l new : LinkUnit} (hdelay : l.delay = old.delay)
    (hmark : l.delayMeasured = old.delayMeasured) (hnew : new.delay = (l.measure t.arrival f).delay)
    (hnewMark : new.state ≠ .down → new.delayMeasured = (l.measure t.arrival f).delayMeasured) :
    LinkUnit.Measured t f old new := by
  have hkept (h : measuredDelay t.arrival f = none) :
      new.delay = old.delay ∧ (new.state ≠ .down → new.delayMeasured = old.delayMeasured) := by
    obtain ⟨kdelay, kmark⟩ := LinkUnit.measure_of_none (l := l) h
    exact ⟨(hnew.trans kdelay).trans hdelay, fun hs => ((hnewMark hs).trans kmark).trans hmark⟩
  refine ⟨fun e he => ?_, fun hnone => hkept (by rw [measuredDelay, hnone])⟩
  intro trip half
  have hmeasured : measuredDelay t.arrival f =
      if 0 ≤ half - half % 4 ∧ half - half % 4 ≤ 100000 then some (half - half % 4).toNat else none := by
    rw [measuredDelay, he]
    rfl
  refine ⟨fun hrange => ?_, fun hrange => hkept (by rw [hmeasured, if_neg (by omega)])⟩
  rw [if_pos hrange] at hmeasured
  obtain ⟨kdelay, kmark⟩ := LinkUnit.measure_of_some (l := l) hmeasured
  refine ⟨?_, fun hs => (hnewMark hs).trans kmark⟩
  rw [hnew, kdelay, Int.toNat_of_nonneg hrange.1]

theorem exec_linkIdleReceived {s : State} {d : Side} (t : RxTime) {f : LinkIdle} (hsender : f.sender ≤ 30) :
    exec (.linkIdleReceived d t f) s = .next (receiveIdle d t f s) :=
  congrArg Host.Outcome.next (if_pos (decide_eq_true hsender))

theorem receiveIdle_training {s : State} {d : Side} (t : RxTime) {f : LinkIdle} (hother : s.cyc.address ≠ some f.sender)
    (h : (s.link d).state = .training) : receiveIdle d t f s = idleTraining d t f s := by
  unfold receiveIdle
  simp [h, hother]

theorem receiveIdle_up {s : State} {d : Side} (t : RxTime) {f : LinkIdle} (hother : s.cyc.address ≠ some f.sender)
    (h : (s.link d).state = .up) : receiveIdle d t f s = idleUp d t f (s.modLink d fun l => l.record false) := by
  unfold receiveIdle
  simp [h, hother]

/-- The link after a good LINK_IDLE in TRAINING, before it may enter UP. -/
def LinkUnit.trained (l : LinkUnit) (arrival : Nat) (f : LinkIdle) : LinkUnit :=
  { ((l.goodIdle f.sender).measure arrival f) with upCount := l.countAfter f }

theorem idleTraining_eq (d : Side) (t : RxTime) (f : LinkIdle) (s : State) : idleTraining d t f s =
    if 16 ≤ (s.link d).countAfter f ∧ ((s.link d).goodIdle f.sender).heard = true ∧ (s.link d).delayMeasured = true then
      linkUp d t.received (s.modLink d fun l =>
        { ((l.goodIdle f.sender).measure t.arrival f) with upCount := (s.link d).countAfter f })
    else s.modLink d fun l => { ((l.goodIdle f.sender).measure t.arrival f) with upCount := (s.link d).countAfter f } := by
  unfold idleTraining
  simp only [Bool.and_eq_true, decide_eq_true_eq, and_assoc]

theorem idleTraining_spec (d : Side) (t : RxTime) (f : LinkIdle) {s : State} (h : (s.link d).state = .training) :
    let u := idleTraining d t f s
    (∃ st w, u.link d = { (s.link d).trained t.arrival f with state := st, window := w } ∧
      st = if 16 ≤ (s.link d).countAfter f ∧ ((s.link d).goodIdle f.sender).heard = true ∧ (s.link d).delayMeasured = true
        then .up else .training) ∧
      u.link d.other = s.link d.other ∧ u.shafts = s.shafts ∧ u.trip = s.trip ∧ s.SharedKept u := by
  have hstate : ((s.link d).trained t.arrival f).state = .training := by
    unfold LinkUnit.trained
    rw [LinkUnit.measure_frame]
    exact h
  rw [idleTraining_eq]
  generalize hx : State.modLink s d _ = x
  have hself : x.link d = (s.link d).trained t.arrival f := by
    rw [← hx, State.modLink_link_self]
    rfl
  have hothers : x.link d.other = s.link d.other := by rw [← hx, State.modLink_link_other]
  by_cases hup : 16 ≤ (s.link d).countAfter f ∧ ((s.link d).goodIdle f.sender).heard = true ∧
      (s.link d).delayMeasured = true
  · rw [if_pos hup, if_pos hup]
    obtain ⟨uself, uothers, ushafts, utrip, upool, ulocks, upending⟩ := linkUp_spec d t.received x
    rw [hself] at uself
    subst hx
    exact ⟨⟨_, _, uself, rfl⟩, uothers.trans hothers, ushafts, utrip, upool, ulocks, upending⟩
  · rw [if_neg hup, if_neg hup]
    subst hx
    exact ⟨⟨_, _, hself.trans (by rw [← hstate]), rfl⟩, hothers, rfl, rfl, rfl, rfl, rfl⟩

theorem idleUp_spec (d : Side) (t : RxTime) (f : LinkIdle) (s : State) :
    (f.heard = true → (s.link d).neighbour = some f.sender →
      idleUp d t f s = s.modLink d fun l => (l.goodIdle f.sender).measure t.arrival f) ∧
    (f.heard = false ∨ (s.link d).neighbour ≠ some f.sender → idleUp d t f s =
      linkDrop d .farEnd (s.modLink d fun l => (l.goodIdle f.sender).measure t.arrival f)) := by
  refine ⟨fun hheard hsame => if_neg ?_, fun hfar => if_pos ?_⟩
  · simp [hheard, hsame]
  · rcases hfar with hheard | hdiffers
    · simp [hheard]
    · simp [hdiffers]

/-- Settles O13, from the rules for a good LINK_IDLE in TRAINING and in UP. -/
theorem linkIdlesTrainAndHoldTheLink : Obligations.LinkIdlesTrainAndHoldTheLink := by
  refine ⟨fun s d t f hsender hother htraining => ?_, fun s d t f hsender hother hup => ?_⟩
  · obtain ⟨⟨st, w, hlink, hst⟩, hothers⟩ := idleTraining_spec d t f htraining
    refine ⟨_, (exec_linkIdleReceived t hsender).trans (congrArg Host.Outcome.next (receiveIdle_training t hother htraining)), ?_⟩
    generalize idleTraining d t f s = u at *
    have hframe := LinkUnit.measure_frame ((s.link d).goodIdle f.sender) t.arrival f
    have hmeasured : LinkUnit.Measured t f (s.link d) (u.link d) :=
      LinkUnit.Measured.of_measure (l := (s.link d).goodIdle f.sender) rfl rfl (by rw [hlink]; rfl)
        fun _ => by rw [hlink]; rfl
    refine ⟨?_, ?_, ?_, ?_, hmeasured, ?_, hothers⟩
    · rw [hlink, LinkUnit.trained, hframe]
      rfl
    · rw [hlink, LinkUnit.trained, hframe]
      rfl
    · rw [hlink, LinkUnit.trained, hframe]
      rfl
    · rw [hlink]
      simp [LinkUnit.trained, LinkUnit.countAfter]
    · rw [hlink, hst, LinkUnit.trained, hframe]
  · have hexec : exec (.linkIdleReceived d t f) s = .next (idleUp d t f (s.modLink d fun l => l.record false)) :=
      (exec_linkIdleReceived t hsender).trans (congrArg Host.Outcome.next (receiveIdle_up t hother hup))
    have hrecorded : (s.modLink d fun l => l.record false).link d = (s.link d).record false := State.modLink_link_self _ _ _
    have hframe := LinkUnit.measure_frame (((s.link d).record false).goodIdle f.sender) t.arrival f
    obtain ⟨hnear, hfar⟩ := idleUp_spec d t f (s.modLink d fun l => l.record false)
    rw [hrecorded] at hnear hfar
    refine ⟨_, hexec, ?_⟩
    by_cases hkeeps : f.heard = true ∧ (s.link d).neighbour = some f.sender
    · rw [hnear hkeeps.1 hkeeps.2]
      generalize hu : State.modLink _ d _ = u
      have hlink : u.link d = ((((s.link d).record false).goodIdle f.sender).measure t.arrival f) := by
        rw [← hu, State.modLink_link_self, hrecorded]
      have hothers : u.link d.other = s.link d.other := by
        rw [← hu, State.modLink_link_other, State.modLink_link_other]
      refine ⟨hothers, LinkUnit.Measured.of_measure (l := ((s.link d).record false).goodIdle f.sender) rfl rfl
        (by rw [hlink]) fun _ => by rw [hlink], fun _ _ => ?_, fun h => ?_⟩
      · rw [hlink, hframe, ← hu]
        exact ⟨hup, rfl, rfl, rfl, rfl⟩
      · rw [hkeeps.1] at h
        exact absurd hkeeps.2 (h.resolve_left nofun)
    · have hfarEnd : f.heard = false ∨ (s.link d).neighbour ≠ some f.sender := by
        cases hheard : f.heard with
        | true => exact .inr fun hsame => hkeeps ⟨hheard, hsame⟩
        | false => exact .inl rfl
      rw [hfar hfarEnd]
      have hdrop := linkDrop_spec d .farEnd
        ((s.modLink d fun l => l.record false).modLink d fun l => (l.goodIdle f.sender).measure t.arrival f)
      have hlink := hdrop.link_self
      have hothers := hdrop.link_other
      generalize linkDrop d .farEnd _ = u at *
      rw [State.modLink_link_self, hrecorded] at hlink
      rw [State.modLink_link_other, State.modLink_link_other] at hothers
      have hstate : ((((s.link d).record false).goodIdle f.sender).measure t.arrival f).state = .up := by
        rw [hframe]
        exact hup
      refine ⟨hothers, LinkUnit.Measured.of_measure (l := ((s.link d).record false).goodIdle f.sender) rfl rfl
        (by rw [hlink]; rfl) fun h => absurd (by rw [hlink]; rfl) h, fun hheard hsame => absurd ⟨hheard, hsame⟩ hkeeps, fun _ => ?_⟩
      have hcount : ((((s.link d).record false).goodIdle f.sender).measure t.arrival f).downCount = (s.link d).downCount := by
        rw [hframe]
        rfl
      rw [hlink]
      refine ⟨rfl, ?_, rfl, ?_, rfl, rfl⟩
      · exact if_neg (by rw [hstate]; decide)
      · rw [← hcount]
        exact if_neg (by rw [hstate]; decide)

end Sys2Proof.Machine
end

