-- ==== Sys2Proof/Proofs/RingService.lean ====
section
/-!
PROOFS. The ring path unit: frames without effect (R2, R4, R8, R15), forwarding on the secondary path (R14, R16, R17, R20), and
the order of service of an output (R18).
-/

namespace Sys2Proof.Machine

/-! ### The ways of a received ring frame -/

@[simp] theorem Frame.arriveTransit_hdr (f : Frame) (delay : Nat) : (f.arriveTransit delay).hdr = f.hdr := by
  unfold Frame.arriveTransit
  split <;> rfl

@[simp] theorem Frame.arriveTransit_len (f : Frame) (delay : Nat) : (f.arriveTransit delay).len = f.len := by
  unfold Frame.arriveTransit
  split
  · next h => simp [Frame.len, h]
  · rfl

theorem PathMode.uses_of_procInput {m : PathMode} {d : Side} (h : m.procInput = some d) : m.uses d = true := by
  revert h
  cases m <;> cases d <;> decide

/-- An own frame at its processing input is removed (R15). -/
theorem receiveRing_of_own {s : State} {d : Side} (t : RxTime) {f : Frame} (hproc : s.ring.mode.procInput = some d)
    (hown : s.cyc.address = some f.hdr.origin) :
    receiveRing d t f s = removeOwn (f.arriveTransit (s.link d).delay) s := by
  simp [receiveRing, PathMode.uses_of_procInput hproc, hproc, hown]

/-- A frame of another origin at the processing input is handed over and goes on (R14). -/
theorem receiveRing_of_other {s : State} {d : Side} (t : RxTime) {f : Frame} (hproc : s.ring.mode.procInput = some d)
    (hother : s.cyc.address ≠ some f.hdr.origin) : receiveRing d t f s =
      forwardProcessed t (handFrame t (f.arriveTransit (s.link d).delay) s).1
        (handFrame t (f.arriveTransit (s.link d).delay) s).2 := by
  simp [receiveRing, PathMode.uses_of_procInput hproc, hproc, hother]

/-- A frame at a used input that does not process is forwarded (R14). -/
theorem receiveRing_of_secondary {s : State} {d : Side} (t : RxTime) (f : Frame) (huses : s.ring.mode.uses d = true)
    (hproc : s.ring.mode.procInput ≠ some d) :
    receiveRing d t f s = forward d.other t (f.arriveTransit (s.link d).delay) s := by
  simp [receiveRing, huses, hproc]

@[simp] theorem State.passed_delay (s : State) (d e : Side) : ((s.passed d).link e).delay = (s.link e).delay := by
  rw [State.passed, State.modLink_link]
  split <;> rfl

theorem State.passed_link_other (s : State) (d : Side) : (s.passed d).link d.other = s.link d.other :=
  State.modLink_link_other s d _

/-- Settles O15, by the link unit's states and the removal of an own frame. -/
theorem framesWithoutEffect : Obligations.FramesWithoutEffect := by
  refine ⟨fun s d t bytes hparse => ?_, fun s d t f hrange hstate => ?_, fun s d t f hremoves hbody => ?_⟩
  · have hexec : exec (.frameCrcFail d t bytes) s = .next (badFrame d s) := by
      change Host.Outcome.next (receiveBytes d t bytes s) = _
      rw [receiveBytes, hparse]
    rw [hexec]
    refine ⟨fun hdown => ?_, fun htraining => ?_⟩
    · rw [badFrame, hdown]
    · rw [badFrame, htraining]
      rfl
  · change Host.Outcome.next (receiveFrame d t f s) = _
    rw [receiveFrame, hrange]
    cases hlink : (s.link d).state with
    | down => rfl
    | training => rfl
    | up => exact absurd hlink hstate
  · obtain ⟨hreaches, hproc, hown⟩ := hremoves
    change Host.Outcome.next (receiveFrame d t f s) = _
    rw [receiveFrame_of_reaches t hreaches, receiveRing_of_own (s := s.passed d) t hproc hown]
    rcases hbody with ⟨c, hc⟩ | ⟨b, hb⟩
    · simp [removeOwn, Frame.arriveTransit, hc]
    · simp [removeOwn, Frame.arriveTransit, hb]

/-! ### Forwarding (R16, R17, R20) -/

theorem forward_hopDrop {d : Side} {t : RxTime} {f : Frame} {s : State} (h : 64 ≤ f.hdr.hops) :
    forward d t f s = s.modRing fun u => { u with hopDrops := bump u.hopDrops } := if_pos h

/-- The frame that is sent on: one hop more. -/
def Frame.hopped (f : Frame) : Frame := { f with hdr := { f.hdr with hops := f.hdr.hops + 1 } }

@[simp] theorem Frame.hopped_len (f : Frame) : f.hopped.len = f.len := rfl

/-- Output `d` is free: nothing on the wire, nothing waiting, no quiet time. -/
theorem forward_free {d : Side} {t : RxTime} {f : Frame} {s : State} (hhops : f.hdr.hops < 64)
    (hwire : (s.link d).wire = none) (hwaits : s.waitingFor d = false) (hquiet : s.quiet d t.received = false) :
    forward d t f s = sendOn d (.ring (f.hopped.departTransit t.arrival t.received)) s := by
  simp [forward, Nat.not_le.mpr hhops, hwire, hwaits, hquiet, Frame.hopped]

theorem forward_buffered {d : Side} {t : RxTime} {f : Frame} {s : State} (hhops : f.hdr.hops < 64)
    (hbusy : (s.link d).wire ≠ none ∨ s.waitingFor d = true) (hfits : s.ring.used + f.len ≤ 1024) :
    forward d t f s =
      s.modRing fun u => { u with buffer := u.buffer ++ [{ out := d, arrival := t.arrival, frame := f.hopped }] } := by
  have hnot : ¬((s.link d).wire.isNone && !s.waitingFor d && !s.quiet d t.received) = true := by
    rcases hbusy with h | h
    · simp [Option.isNone_iff_eq_none, h]
    · simp [h]
  unfold forward
  rw [if_neg (Nat.not_le.mpr hhops)]
  dsimp only
  rw [if_neg hnot]
  exact if_pos hfits

theorem forward_overflow {d : Side} {t : RxTime} {f : Frame} {s : State} (hhops : f.hdr.hops < 64)
    (hbusy : (s.link d).wire ≠ none ∨ s.waitingFor d = true) (hfull : 1024 < s.ring.used + f.len) :
    forward d t f s = s.modRing fun u => { u with overflows := bump u.overflows } := by
  have hnot : ¬((s.link d).wire.isNone && !s.waitingFor d && !s.quiet d t.received) = true := by
    rcases hbusy with h | h
    · simp [Option.isNone_iff_eq_none, h]
    · simp [h]
  unfold forward
  rw [if_neg (Nat.not_le.mpr hhops)]
  dsimp only
  rw [if_neg hnot]
  exact if_neg (Nat.not_le.mpr hfull)

/-- The hop and the transit of a frame that arrives, waits and departs (R16, R20). -/
theorem Frame.hopped_departTransit (f : Frame) (delay arrival now : Nat) :
    (f.arriveTransit delay).hopped.departTransit arrival now = f.leaving delay arrival now := by
  obtain ⟨hdr, body⟩ := f
  cases body with
  | cycleStart c =>
    simp [Frame.arriveTransit, Frame.hopped, Frame.departTransit, Frame.leaving, CycleStart.addTransit, floor4]
  | status b => rfl
  | tripFlash b => rfl
  | data b => rfl

/-- On the output that carries no own frames, only the through buffer waits (R18). -/
theorem State.waitingFor_secondary {s : State} {d : Side} (h : s.ring.mode.ownOutput ≠ some d) :
    s.waitingFor d = true ↔ ∃ e ∈ s.ring.buffer, e.out = d := by
  simp [State.waitingFor, h]

theorem State.quiet_secondary {s : State} {d : Side} (h : s.ring.mode.ownOutput ≠ some d) (now : Nat) :
    s.quiet d now = false := by
  simp [State.quiet, h]

/-- Settles O17, by the fates of a forwarded frame. -/
theorem secondaryFramesAreForwarded : Obligations.SecondaryFramesAreForwarded := by
  intro s t f hreaches hmode
  have hexec : exec (.frameForwarded .east t f) s =
      .next (forward .west t (f.arriveTransit (s.link .east).delay) (s.passed .east)) := by
    change Host.Outcome.next (receiveFrame .east t f s) = _
    rw [receiveFrame_of_reaches t hreaches, receiveRing_of_secondary (s := s.passed .east) t f (by rw [State.passed_ring, hmode]; rfl)
      (by rw [State.passed_ring, hmode]; decide), State.passed_delay]
    rfl
  have hown : (s.passed .east).ring.mode.ownOutput ≠ some .west := by rw [State.passed_ring, hmode]; decide
  have hwire : ((s.passed .east).link .west).wire = (s.link .west).wire :=
    congrArg LinkUnit.wire (State.passed_link_other s .east)
  have hwaits := State.waitingFor_secondary (s := s.passed .east) (d := .west) hown
  have hhops : (f.arriveTransit (s.link .east).delay).hdr.hops = f.hdr.hops := by rw [Frame.arriveTransit_hdr]
  have hlen : (f.arriveTransit (s.link .east).delay).len = f.len := Frame.arriveTransit_len _ _
  rw [hexec]
  refine ⟨fun h => ?_, fun h hidle hempty => ?_, fun h hbusy => ?_⟩
  · rw [forward_hopDrop (by omega)]
  · have hnone : (s.passed .east).waitingFor .west = false := by
      rw [Bool.eq_false_iff, ne_eq, hwaits]
      rintro ⟨e, he, hout⟩
      exact hempty e he hout
    rw [forward_free (by omega) (hwire.trans hidle) hnone (State.quiet_secondary hown _), Frame.hopped_departTransit]
    rfl
  · have hbusy' : ((s.passed .east).link .west).wire ≠ none ∨ (s.passed .east).waitingFor .west = true := by
      rw [hwire, hwaits]
      exact hbusy
    refine ⟨fun hfits => ?_, fun hfull => ?_⟩
    · rw [forward_buffered (by omega) hbusy' (by rw [hlen]; exact hfits)]
      refine ⟨_, rfl, ⟨_, rfl, rfl, rfl, ?_, Frame.hopped_departTransit _ _ _ _⟩, rfl, rfl, rfl, rfl, rfl, rfl, rfl⟩
      rw [Frame.hopped, Frame.arriveTransit_hdr]
    · rw [forward_overflow (by omega) hbusy' (by rw [hlen]; exact hfull)]

/-! ### The order of service (R18) -/

theorem takeBound_none {d : Side} {es : List BufEntry} (h : ∀ e ∈ es, e.out ≠ d) : takeBound d es = none := by
  induction es with
  | nil => rfl
  | cons e es ih =>
    rw [takeBound, if_neg (h e (by simp)), ih fun x hx => h x (by simp [hx])]
    rfl

/-- The oldest entry bound for an output is taken from its place. -/
theorem takeBound_some {d : Side} {before after : List BufEntry} {e : BufEntry} (h : ∀ x ∈ before, x.out ≠ d) (he : e.out = d) :
    takeBound d (before ++ e :: after) = some (e, before ++ after) := by
  induction before with
  | nil => rw [List.nil_append, takeBound, if_pos he]; rfl
  | cons b before ih =>
    rw [List.cons_append, takeBound, if_neg (h b (by simp)), ih fun x hx => h x (by simp [hx])]
    rfl

theorem serveRest_buffered {d : Side} {own : Bool} {now : Nat} {s : State} {e : BufEntry} {rest : List BufEntry}
    (h : takeBound d s.ring.buffer = some (e, rest)) : serveRest d own now s =
      sendOn d (.ring (e.frame.departTransit e.arrival now)) (s.modRing fun u => { u with buffer := rest }) := by
  unfold serveRest
  rw [h]

theorem serveRest_status {d : Side} {now : Nat} {s : State} {f : Frame} (h : takeBound d s.ring.buffer = none)
    (hstatus : s.ring.ownStatus = some f) :
    serveRest d true now s = sendOn d (.ring f) (s.modRing fun u => { u with ownStatus := none }) := by
  unfold serveRest
  rw [h, hstatus]

theorem serveRest_offered {d : Side} {now : Nat} {s : State} {o : Offered} (h : takeBound d s.ring.buffer = none)
    (hstatus : s.ring.ownStatus = none) (hoffered : s.chan.offered = some o) (hopen : s.chan.openPhase = true) :
    serveRest d true now s = sendOn d (.ring o.frame) (startOffered o s) := by
  unfold serveRest
  rw [h, hstatus, hoffered]
  exact if_pos hopen

theorem serveRest_idle {d : Side} {own : Bool} {now : Nat} {s : State} (h : takeBound d s.ring.buffer = none)
    (hnone : own = true → s.ring.ownStatus = none ∧ s.chan.offered = none) :
    serveRest d own now s = sendOn d (.idle (s.linkIdle d now)) s := by
  unfold serveRest
  rw [h]
  cases own with
  | false => rfl
  | true =>
    obtain ⟨hstatus, hoffered⟩ := hnone rfl
    rw [hstatus, hoffered]

section
variable {s : State} {d : Side} {now : Nat}

theorem serve_flash {f : Frame} {rest : List Frame} (hown : s.ring.mode.ownOutput = some d)
    (h : s.ring.ownFlash = f :: rest) :
    serve d now s = sendOn d (.ring f) (s.modRing fun u => { u with ownFlash := rest }) := by
  unfold serve
  rw [hown, h, decide_eq_true rfl]

theorem serve_cycleStart {f : Frame} (hown : s.ring.mode.ownOutput = some d) (hflash : s.ring.ownFlash = [])
    (h : s.ring.ownCycleStart = some f) :
    serve d now s = sendOn d (.ring f) (s.modRing fun u => { u with ownCycleStart := none }) := by
  unfold serve
  rw [hown, hflash, h, decide_eq_true rfl]

theorem serve_own_rest (hown : s.ring.mode.ownOutput = some d) (hflash : s.ring.ownFlash = [])
    (hstart : s.ring.ownCycleStart = none) : serve d now s = serveRest d true now s := by
  unfold serve
  rw [hown, hflash, hstart, decide_eq_true rfl]

theorem serve_other_rest (hown : s.ring.mode.ownOutput ≠ some d) : serve d now s = serveRest d false now s := by
  unfold serve
  rw [decide_eq_false hown]

end

/-- Settles O18, by one rule for each place in the order of service. -/
theorem outputOrderOfService : Obligations.OutputOrderOfService := by
  intro s d now hlaser hup huses hquiet
  have hexec : exec (.outputIdle d now) s = .next (serve d now s) := by
    change Host.Outcome.next (outputIdle d now s) = _
    rw [outputIdle, if_neg (by simp [hlaser]), if_pos (by simp [LinkUnit.isUp, hup, huses, hquiet])]
  rw [hexec]
  refine ⟨fun hown => ⟨fun f rest hflash => ?_, fun f hflash hstart => ?_, fun f hflash hstart hbuffer hstatus => ?_,
    fun o hflash hstart hbuffer hstatus hoffered hopen => ?_⟩, fun hplace before e after hbuffer hbefore he => ?_,
    fun hnone => ?_⟩
  · rw [serve_flash hown hflash]
    rfl
  · rw [serve_cycleStart hown hflash hstart]
    rfl
  · rw [serve_own_rest hown hflash hstart, serveRest_status (takeBound_none hbuffer) hstatus]
    rfl
  · rw [serve_own_rest hown hflash hstart, serveRest_offered (takeBound_none hbuffer) hstatus hoffered hopen]
    refine ⟨_, rfl, ?_, rfl, rfl, rfl, rfl, rfl, rfl, rfl⟩
    rw [sendOn, State.modLink_link_self]
  · have hbound : takeBound d s.ring.buffer = some (e, before ++ after) := by rw [hbuffer, takeBound_some hbefore he]
    have hserve : serve d now s = serveRest d (decide (s.ring.mode.ownOutput = some d)) now s := by
      rcases hplace with ⟨hown, hflash, hstart⟩ | hother
      · rw [serve_own_rest hown hflash hstart, decide_eq_true hown]
      · rw [serve_other_rest hother, decide_eq_false hother]
    rw [hserve, serveRest_buffered hbound]
    rfl
  · have hbuffer : takeBound d s.ring.buffer = none := by
      refine takeBound_none fun e he hout => ?_
      have hwaits : s.waitingFor d = true := by
        rw [State.waitingFor, List.any_eq_true.mpr ⟨e, he, decide_eq_true hout⟩]
        rfl
      rw [hwaits] at hnone
      cases hnone
    by_cases hown : s.ring.mode.ownOutput = some d
    · obtain ⟨hflash, hstart, hstatus, hoffered⟩ : s.ring.ownFlash = [] ∧ s.ring.ownCycleStart = none ∧
          s.ring.ownStatus = none ∧ s.chan.offered = none := by
        simpa [State.waitingFor, hown, and_assoc] using (Bool.or_eq_false_iff.mp hnone).2
      rw [serve_own_rest hown hflash hstart, serveRest_idle hbuffer fun _ => ⟨hstatus, hoffered⟩]
      rfl
    · rw [serve_other_rest hown, serveRest_idle (own := false) hbuffer nofun]
      rfl

end Sys2Proof.Machine
end

