-- ==== Sys2Proof/Proofs/LocalEvents.lean ====
section
/-!
PROOFS. The parts of a cycle event before its close (R11, R35, R41, R44, R50), and the events of the local timer: missed
CYCLE_STARTs, holdover, takeover and running down (R32 to R36, R50, R52).
-/

namespace Sys2Proof.Machine

/-! ### What the opening and the middle of a cycle event leave -/

/-- `t` is `s` after parts of a cycle event that come before its close: the path mode, the cycle unit, the shafts, the reset
guard and event flags may have changed. -/
structure State.Prepared (s t : State) : Prop where
  clock : t.clock = s.clock
  links : t.links = s.links
  buffer : t.ring.buffer = s.ring.buffer
  shaftUnit : t.shafts.resyncWindow = s.shafts.resyncWindow
  axis : t.axis = { s.axis with outbox := t.axis.outbox }
  trip : t.trip = { s.trip with guard := t.trip.guard }
  pool : t.pool = s.pool
  chan : t.chan = { s.chan with offered := t.chan.offered }
  locks : t.locks = s.locks
  ports : s.OnlyRaises t
  pending : t.pending = s.pending

theorem State.Prepared.refl (s : State) : s.Prepared s :=
  ⟨rfl, rfl, rfl, rfl, rfl, rfl, rfl, rfl, rfl, .refl s, rfl⟩

theorem State.Prepared.trans {s t u : State} (h : s.Prepared t) (k : t.Prepared u) : s.Prepared u :=
  ⟨k.clock.trans h.clock, k.links.trans h.links, k.buffer.trans h.buffer, k.shaftUnit.trans h.shaftUnit, by rw [k.axis, h.axis],
    by rw [k.trip, h.trip], k.pool.trans h.pool, by rw [k.chan, h.chan], k.locks.trans h.locks, h.ports.trans k.ports,
    k.pending.trans h.pending⟩

theorem State.Prepared.view {s t : State} (h : s.Prepared t) : t.trip.view = s.trip.view := by rw [h.trip]

theorem State.Prepared.getSource {s t : State} (h : s.Prepared t) (n : SourceNo) : t.getSource n = s.getSource n := by
  unfold State.getSource
  rw [h.trip]

theorem State.Prepared.getAxis {s t : State} (h : s.Prepared t) (i : AxisNo) : t.getAxis i = s.getAxis i := by
  unfold State.getAxis
  rw [h.axis]

theorem State.Rerouted.prepared {s t : State} (h : s.Rerouted t) : s.Prepared t :=
  ⟨h.clock, h.links, by rw [h.ring], by rw [h.shafts], h.axis, by rw [h.trip], h.pool, h.chan, h.locks, h.ports, h.pending⟩

theorem modCyc_prepared (s : State) (f : CycleUnit → CycleUnit) : s.Prepared (s.modCyc f) :=
  ⟨rfl, rfl, rfl, rfl, rfl, rfl, rfl, rfl, rfl, .of_ports rfl, rfl⟩

theorem guardTick_prepared (s : State) : s.Prepared (guardTick s) :=
  ⟨rfl, rfl, rfl, rfl, rfl, rfl, rfl, rfl, rfl, .of_ports rfl, rfl⟩

theorem moveShafts_prepared (w : ShaftWork) (s : State) : s.Prepared (moveShafts w s) :=
  ⟨rfl, rfl, rfl, rfl, rfl, rfl, rfl, rfl, rfl, .of_ports rfl, rfl⟩

theorem planEvent_prepared (o : PlanOutcome) (k : PlanNo) (s : State) : s.Prepared (planEvent o k s) :=
  ⟨rfl, rfl, rfl, rfl, rfl, rfl, rfl, rfl, rfl,
    .trans (.of_ports (t := s.modCyc fun u => { u with planRecord := { outcome := o, plan := k, cycle := u.cycle } }) rfl)
      (raiseBoth_onlyRaises _ _), rfl⟩

theorem setLock_prepared (l : LockState) (s : State) : s.Prepared (setLock l s) := by
  have hraises := setLock_onlyRaises l s
  have hframe := setLock_eq_frame l s
  generalize setLock l s = t at *
  refine ⟨?_, ?_, ?_, ?_, ?_, ?_, ?_, ?_, ?_, hraises, ?_⟩ <;> rw [hframe]

/-! ### The opening (R11, R35, R89) -/

theorem beginEvent_prepared (n : Cycle) (send : Int) (s : State) : s.Prepared (beginEvent n send s) :=
  ((setMode_rerouted s.calledMode s).prepared.trans (guardTick_prepared _)).trans (modCyc_prepared _ _)

theorem beginEvent_cyc (n : Cycle) (send : Int) (s : State) :
    (beginEvent n send s).cyc = { s.cyc with cycle := n, cycleSend := send } :=
  congrArg (fun u : CycleUnit => { u with cycle := n, cycleSend := send }) (setMode_rerouted s.calledMode s).cyc

theorem beginEvent_shafts (n : Cycle) (send : Int) (s : State) : (beginEvent n send s).shafts = s.shafts :=
  (setMode_rerouted s.calledMode s).shafts

theorem beginEvent_mode (n : Cycle) (send : Int) (s : State) : (beginEvent n send s).ring.mode = s.calledMode :=
  setMode_mode s.calledMode s

/-! ### Plans at an event (R41, R44) -/

/-- `v` is `u` after the plan handling of an event. -/
def CycleUnit.PlanHandled (u v : CycleUnit) : Prop :=
  v = { u with
    activePlan := v.activePlan, pendingSwitch := v.pendingSwitch, planRecord := v.planRecord, planReady := v.planReady
    presence := v.presence }

theorem CycleUnit.PlanHandled.trans {u v w : CycleUnit} (h : u.PlanHandled v) (k : v.PlanHandled w) : u.PlanHandled w := by
  unfold CycleUnit.PlanHandled at *
  rw [k, h]

theorem CycleUnit.PlanHandled.runningDown {u v : CycleUnit} (h : u.PlanHandled v) : v.runningDown = u.runningDown := by
  unfold CycleUnit.PlanHandled at h
  rw [h]

theorem applySwitch_prepared (s : State) : s.Prepared (applySwitch s) := by
  unfold applySwitch
  split
  · split
    · exact (modCyc_prepared s _).trans (planEvent_prepared _ _ _)
    · exact .refl s
  · exact .refl s

theorem applySwitch_cyc (s : State) : s.cyc.PlanHandled (applySwitch s).cyc := by
  unfold applySwitch
  split
  · split <;> rfl
  · rfl

theorem applySwitch_shafts (s : State) : (applySwitch s).shafts = s.shafts := by
  unfold applySwitch
  split
  · split <;> rfl
  · rfl

theorem applySwitch_ring (s : State) : (applySwitch s).ring = s.ring := by
  unfold applySwitch
  split
  · split <;> rfl
  · rfl

/-! ### The shafts at an event (R47, R49, R50) -/

theorem moveShafts_getShaft (w : ShaftWork) (s : State) (i : ShaftNo) : (moveShafts w s).getShaft i =
    w.shaft s.cyc.runningDown s.trip.view s.shafts.resyncWindow i (s.getShaft i) := by
  simp [moveShafts, State.getShaft]

/-- One shaft that an extrapolation moved (R50). -/
theorem Shaft.extrapolate_spec (x : Shaft) (runningDown : Bool) {view : TripClass} (h : view ≠ .instant) :
    (x.extrapolate runningDown view).vel = (if runningDown = true ∨ 2 ≤ view.rank then ramp x.vel 0 x.aQuick else x.vel) ∧
      (x.extrapolate runningDown view).pos = x.pos + BitVec.ofInt 48 (x.extrapolate runningDown view).vel := by
  refine ⟨?_, rfl⟩
  change x.extrapolateVel runningDown view = _
  simp [Shaft.extrapolateVel, h]

theorem localWork_prepared (s : State) : s.Prepared (localWork s) :=
  (((applySwitch_prepared s).trans (modCyc_prepared _ _)).trans (modCyc_prepared _ _)).trans (moveShafts_prepared _ _)

theorem localWork_cyc (s : State) : s.cyc.PlanHandled (localWork s).cyc :=
  (applySwitch_cyc s).trans rfl

theorem localWork_ring (s : State) : (localWork s).ring = s.ring := applySwitch_ring s

theorem localWork_getShaft (s : State) (i : ShaftNo) :
    (localWork s).getShaft i = (s.getShaft i).extrapolate s.cyc.runningDown s.trip.view := by
  unfold localWork
  rw [moveShafts_getShaft]
  have hcyc : (clearPresence (markReady (applySwitch s))).cyc.runningDown = s.cyc.runningDown :=
    (applySwitch_cyc s).runningDown
  have hview : (clearPresence (markReady (applySwitch s))).trip.view = s.trip.view := (applySwitch_prepared s).view
  have hshaft : (clearPresence (markReady (applySwitch s))).getShaft i = s.getShaft i :=
    State.getShaft_congr (applySwitch_shafts s) i
  rw [hcyc, hview, hshaft]
  rfl

/-! ### A cycle event of the local timer -/

/-- The state in which a cycle event of the local timer closes, but for a takeover. -/
def localMiddle (first : State → State) (s : State) : State :=
  localWork (first (beginEvent (s.cyc.cycle + 1) (s.cyc.predicted (s.cyc.cycle + 1)) s))

theorem localEvent_eq (first : State → State) (s : State) : ∃ (switched : Bool) (elapsed : Int), ∀ last : State → State,
    localEvent first last s = finishEvent switched elapsed (last (localMiddle first s)) := ⟨_, _, fun _ => rfl⟩

/-- The middle of an event at which nothing is raised first. -/
theorem localMiddle_prepared (s : State) : s.Prepared (localMiddle id s) :=
  (beginEvent_prepared _ _ s).trans (localWork_prepared _)

theorem localMiddle_cyc (s : State) : ∃ send : Int,
    { s.cyc with cycle := s.cyc.cycle + 1, cycleSend := send }.PlanHandled (localMiddle id s).cyc := by
  have h := localWork_cyc (beginEvent (s.cyc.cycle + 1) (s.cyc.predicted (s.cyc.cycle + 1)) s)
  rw [beginEvent_cyc] at h
  exact ⟨_, h⟩

theorem localMiddle_getShaft (s : State) (i : ShaftNo) :
    (localMiddle id s).getShaft i = (s.getShaft i).extrapolate s.cyc.runningDown s.trip.view := by
  unfold localMiddle
  rw [localWork_getShaft, id_eq, beginEvent_cyc, (beginEvent_prepared _ _ s).view,
    State.getShaft_congr (beginEvent_shafts _ _ s)]

/-- What an event leaves of a shaft's velocity and position where the view stays below INSTANT. -/
theorem State.EventWorked.running {s t : State} (h : s.EventWorked t) (hview : t.trip.view ≠ .instant) (i : ShaftNo) :
    (t.getShaft i).vel = (s.getShaft i).vel ∧ (t.getShaft i).pos = (s.getShaft i).pos ∧ s.trip.view ≠ .instant := by
  obtain ⟨v, w, heq, hv, -⟩ := h.shaft i
  rw [heq]
  exact ⟨hv.elim id fun hi => absurd hi.2.1 hview, rfl,
    fun hs => hview (TripClass.eq_instant_of_rank (hs ▸ h.view))⟩

/-- A shaft that a cycle event of the local timer extrapolated, where the view stays below INSTANT. -/
theorem extrapolated_running {s x u : State} (h : x.EventWorked u) (hview : u.trip.view ≠ .instant) {i : ShaftNo}
    (hx : x.getShaft i = (s.getShaft i).extrapolate s.cyc.runningDown s.trip.view) (htrip : x.trip.view = s.trip.view) :
    (u.getShaft i).vel =
        (if s.cyc.runningDown = true ∨ 2 ≤ s.trip.view.rank then ramp (s.getShaft i).vel 0 (s.getShaft i).aQuick
          else (s.getShaft i).vel) ∧
      (u.getShaft i).pos = (s.getShaft i).pos + BitVec.ofInt 48 (u.getShaft i).vel := by
  obtain ⟨hvel, hpos, hbelow⟩ := h.running hview i
  rw [htrip] at hbelow
  obtain ⟨kvel, kpos⟩ := (s.getShaft i).extrapolate_spec s.cyc.runningDown hbelow
  rw [hvel, hpos, hx]
  exact ⟨kvel, kpos⟩

/-- An event of the local timer at which nothing is raised first and no leadership begins. -/
structure State.TimedOut (s u : State) : Prop where
  cyc : ∃ send : Int, { s.cyc with cycle := s.cyc.cycle + 1, cycleSend := send }.PlanHandled u.cyc
  shaft : u.trip.view ≠ .instant → ∀ i : ShaftNo,
    (u.getShaft i).vel =
        (if s.cyc.runningDown = true ∨ 2 ≤ s.trip.view.rank then ramp (s.getShaft i).vel 0 (s.getShaft i).aQuick
          else (s.getShaft i).vel) ∧
      (u.getShaft i).pos = (s.getShaft i).pos + BitVec.ofInt 48 (u.getShaft i).vel
  live : s.cyc.lock = .locked ∨ s.cyc.lock = .holdover → u.axis.live.cycle = s.cyc.cycle + 1
  cycle : ∀ p : Port, u.flag p .cycle = true
  ports : s.OnlyRaises u
  locks : u.locks = s.locks
  mem : u.pool.mem = s.pool.mem
  pending : u.pending = s.pending

theorem localEvent_timedOut (s : State) : s.TimedOut (localEvent id id s) := by
  obtain ⟨switched, elapsed, heq⟩ := localEvent_eq id s
  rw [heq, id_eq]
  have hprepared := localMiddle_prepared s
  have hshaft := localMiddle_getShaft s
  obtain ⟨send, hcyc⟩ := localMiddle_cyc s
  generalize localMiddle id s = x at *
  have hworked := finishEvent_eventWorked switched elapsed x
  exact
    { cyc := ⟨send, by rw [hworked.cyc]; exact hcyc⟩
      shaft := fun hview i => extrapolated_running hworked hview (hshaft i) hprepared.view
      live := fun hlock => by
        have hxlock : x.cyc.lock = s.cyc.lock := by rw [hcyc]
        have hxcycle : x.cyc.cycle = s.cyc.cycle + 1 := by rw [hcyc]
        rw [finishEvent_live (by rcases hlock with h | h <;> simp [State.publishes, hxlock, h]), hxcycle]
      cycle := finishEvent_raises switched elapsed x
      ports := hprepared.ports.trans hworked.ports
      locks := hworked.locks.trans hprepared.locks
      mem := hworked.mem.trans (by rw [hprepared.pool])
      pending := hworked.pending.trans hprepared.pending }

/-! ### Missed CYCLE_STARTs (R32, R33) -/

/-- Settles O25: giving up in ACQUIRING, and the cycle event of the local timer that starts HOLDOVER. -/
theorem missedCycleStarts : Obligations.MissedCycleStarts := by
  intro s
  have hacquire (h : s.cyc.lock = .acquiring) : exec .acquireMiss s = .next (acquireMiss s) :=
    congrArg Host.Outcome.next (if_pos h)
  refine ⟨fun hlock hwithin => ?_, fun hlock hpast => ?_, fun hlock hfollows hruns => ?_⟩
  · rw [hacquire hlock]
    exact congrArg Host.Outcome.next (if_neg (Nat.not_lt.mpr hwithin))
  · let missed := s.modCyc fun u => { u with good := 0, missed := u.missed + 1 }
    have hmissed : acquireMiss s = (setLock .unlocked (missed.modCyc fun u => { u with leader := none, reference := none })).modChan
        fun u => { u with openPhase := false } := if_pos hpast
    have htimelock (p : Port) := setLock_raises (l := .unlocked)
      (s := missed.modCyc fun u => { u with leader := none, reference := none })
      (by change s.cyc.lock ≠ _; rw [hlock]; decide) p
    have hframe := setLock_eq_frame .unlocked (missed.modCyc fun u => { u with leader := none, reference := none })
    rw [hacquire hlock, hmissed]
    generalize setLock .unlocked _ = x at *
    refine ⟨_, rfl, ?_, htimelock, rfl, ?_⟩
    · change x.cyc = _
      rw [hframe]
      rfl
    · rw [hframe]
      exact ⟨rfl, rfl, rfl, rfl, rfl, rfl, rfl, rfl, rfl⟩
  · let missed := s.modCyc fun u => { u with missed := 1, holdovers := bump u.holdovers }
    have hexec : exec .holdoverEntry s = .next (localEvent id id (setLock .holdover missed)) :=
      congrArg Host.Outcome.next (if_pos ⟨hlock, by rw [hfollows]; rfl⟩)
    have htimelock (p : Port) := setLock_raises (l := .holdover) (s := missed)
      (by change s.cyc.lock ≠ _; rw [hlock]; decide) p
    have hframe := setLock_eq_frame .holdover missed
    rw [hexec]
    generalize setLock .holdover missed = x at *
    have hevent := localEvent_timedOut x
    generalize localEvent id id x = u at *
    obtain ⟨send, hcyc⟩ := hevent.cyc
    have hx : x.cyc = { missed.cyc with lock := .holdover } := by rw [hframe]
    have hlive := hevent.live (.inr (by rw [hx]))
    have hshaft := hevent.shaft
    rw [hx] at hcyc hlive hshaft
    refine ⟨u, rfl, by rw [hcyc], by rw [hcyc]; rfl, by rw [hcyc]; rfl, by rw [hcyc]; rfl, by rw [hcyc]; rfl,
      by rw [hcyc]; rfl, by rw [hcyc]; rfl, by rw [hcyc]; rfl, fun p => ⟨(hevent.ports p).2 _ (htimelock p), hevent.cycle p⟩,
      fun hview i => ?_, hlive, hevent.locks.trans (by rw [hframe]; rfl), hevent.mem.trans (by rw [hframe]; rfl),
      hevent.pending.trans (by rw [hframe]; rfl)⟩
    have hi := hshaft hview i
    have hgi : x.getShaft i = s.getShaft i := by rw [hframe]; rfl
    have hview' : x.trip.view = s.trip.view := by rw [hframe]; rfl
    rw [hgi, hview'] at hi
    simpa [show missed.cyc.runningDown = false from hruns] using hi

end Sys2Proof.Machine
end

