-- ==== Sys2Proof/Proofs/Holdover.lean ====
section
/-!
PROOFS. Holdover events, expiry, a standby's takeover, and running down (R31, R34 to R36, R50, R52, R77).
-/

namespace Sys2Proof.Machine

/-! ### A pulse source of the cycle unit (R77) -/

/-- A pulse raises the source's count, and then only what its latch does. -/
theorem raisePulse_counted (n : SourceNo) (s : State) :
    (s.modSource n fun x => { x with raises := bump x.raises }).Tripped (raisePulse n s) := latchIfEnabled_tripped n _

theorem raisePulse_raises {n : SourceNo} (hn : leadershipSource n) (s : State) :
    ((raisePulse n s).getSource n).raises = bump (s.getSource n).raises := by
  rw [(raisePulse_counted n s).raises n hn, State.modSource_getSource_self]

theorem raisePulse_latches {n : SourceNo} {s : State} (h : (s.getSource n).enabled = true) :
    ((raisePulse n s).getSource n).latched = true := by
  have hself := State.modSource_getSource_self s n fun x => { x with raises := bump x.raises }
  rw [raisePulse, latchIfEnabled_getSource_self (by rw [hself]; exact h)]

/-- What an event leaves of a shaft's target where the view stays below STOP. -/
theorem State.EventWorked.target {s t : State} (h : s.EventWorked t) (hview : t.trip.view.rank < 2) (i : ShaftNo) :
    (t.getShaft i).target = (s.getShaft i).target := by
  obtain ⟨v, w, heq, -, hw⟩ := h.shaft i
  rw [heq]
  exact hw.elim id fun hs => absurd hs.2 (by omega)

theorem TripClass.ne_instant_of_rank {c : TripClass} (h : c.rank < 2) : c ≠ .instant := by
  rintro rfl
  exact absurd h (by decide)

/-! ### Expiry (R34) -/

/-- The event at which a node that has no leader starts to run down. -/
structure State.Expired (s u : State) : Prop where
  cyc : ∃ send : Int, { s.cyc with cycle := s.cyc.cycle + 1, cycleSend := send }.PlanHandled u.cyc
  raises : (u.getSource 8).raises = bump (s.getSource 8).raises
  latched : (s.getSource 8).enabled = true → (u.getSource 8).latched = true
  shaft : s.cyc.runningDown = true → u.trip.view ≠ .instant → ∀ i : ShaftNo,
    (u.getShaft i).vel = ramp (s.getShaft i).vel 0 (s.getShaft i).aQuick ∧
      (u.getShaft i).pos = (s.getShaft i).pos + BitVec.ofInt 48 (u.getShaft i).vel
  cycle : ∀ p : Port, u.flag p .cycle = true
  ports : s.OnlyRaises u
  locks : u.locks = s.locks
  mem : u.pool.mem = s.pool.mem
  pending : u.pending = s.pending

theorem localEvent_expired (s : State) : s.Expired (localEvent (raisePulse 8) id s) := by
  obtain ⟨switched, elapsed, heq⟩ := localEvent_eq (raisePulse 8) s
  rw [heq, id_eq, localMiddle]
  have hopened := beginEvent_prepared (s.cyc.cycle + 1) (s.cyc.predicted (s.cyc.cycle + 1)) s
  have hcyc := beginEvent_cyc (s.cyc.cycle + 1) (s.cyc.predicted (s.cyc.cycle + 1)) s
  have hshafts := beginEvent_shafts (s.cyc.cycle + 1) (s.cyc.predicted (s.cyc.cycle + 1)) s
  generalize beginEvent _ _ s = b at *
  have hpulse := raisePulse_counted 8 b
  have hraises := raisePulse_raises (n := 8) (.inl rfl) b
  have hlatches := raisePulse_latches (n := 8) (s := b)
  have hpool : (raisePulse 8 b).pool = b.pool := latchIfEnabled_pool _ _
  generalize raisePulse 8 b = x at *
  have hwork := localWork_prepared x
  have hworkCyc := localWork_cyc x
  have hworkShaft := localWork_getShaft x
  generalize localWork x = m at *
  have hworked := finishEvent_eventWorked switched elapsed m
  have hxcyc : x.cyc = _ := hpulse.cyc.trans hcyc
  exact
    { cyc := ⟨_, by rw [hworked.cyc, ← hxcyc]; exact hworkCyc⟩
      raises := by rw [hworked.raises 8 (.inl rfl), hwork.getSource, hraises, hopened.getSource]
      latched := fun he => (hworked.source 8).2 (by rw [hwork.getSource]; exact hlatches (by rw [hopened.getSource]; exact he))
      shaft := fun hruns hview i => by
        obtain ⟨kvel, kpos, kview⟩ := hworked.running hview i
        rw [hwork.view] at kview
        obtain ⟨xvel, xpos, -⟩ := hpulse.running kview i
        have hquick : (x.getShaft i).aQuick = (b.getShaft i).aQuick := by
          obtain ⟨v, w, hslowed, -, -⟩ := hpulse.shaft i
          rw [hslowed]
          rfl
        obtain ⟨evel, epos⟩ := (x.getShaft i).extrapolate_spec x.cyc.runningDown kview
        have hxruns : x.cyc.runningDown = true := by rw [hxcyc]; exact hruns
        have hb : b.getShaft i = s.getShaft i := State.getShaft_congr hshafts i
        change (x.getShaft i).vel = (b.getShaft i).vel at xvel
        change (x.getShaft i).pos = (b.getShaft i).pos at xpos
        rw [if_pos (.inl hxruns), xvel, hquick, hb] at evel
        rw [xpos, hb] at epos
        rw [kvel, kpos, hworkShaft]
        exact ⟨evel, epos⟩
      cycle := finishEvent_raises switched elapsed m
      ports := ((hopened.ports.trans ((State.OnlyRaises.of_ports rfl).trans hpulse.ports)).trans hwork.ports).trans hworked.ports
      locks := ((hworked.locks.trans hwork.locks).trans hpulse.locks).trans hopened.locks
      mem := by rw [hworked.mem, hwork.pool, hpool, hopened.pool]
      pending := ((hworked.pending.trans hwork.pending).trans hpulse.pending).trans hopened.pending }

/-! ### A standby takes over (R36, R52) -/

theorem takeOver_eq {s : State} (h : s.takesOver = true) : takeOver s =
    raisePulse 15 (shaftsTakeOver (beginLeading s.cyc.period (s.cyc.predicted (s.cyc.cycle + 1))
      (s.modCyc fun u => { u with role := .leader }))) := if_pos h

theorem takeOver_id {s : State} (h : s.takesOver = false) : takeOver s = s := if_neg (by simp [h])

theorem shaftsTakeOver_getShaft (s : State) (i : ShaftNo) :
    (shaftsTakeOver s).getShaft i = { s.getShaft i with target := (s.getShaft i).vel } := by
  simp [shaftsTakeOver, State.getShaft]

/-- What a takeover does: leadership begins, source 15 is raised, and the shafts keep their velocities. -/
theorem takeOver_spec {s : State} (h : s.takesOver = true) : ∃ x boundary, x.Tripped (takeOver s) ∧
    x.cyc = { s.cyc with role := .leader }.led s.cyc.period boundary ∧ x.pool = s.pool ∧ (takeOver s).pool = s.pool ∧
      x.locks = s.locks ∧ x.pending = s.pending ∧ s.OnlyRaises x ∧
      (s.cyc.lock ≠ .locked → ∀ p : Port, x.flag p .timelock = true) ∧
      (∀ i : ShaftNo, (x.getShaft i).target = (x.getShaft i).vel) ∧
      ((takeOver s).getSource 15).raises = bump (s.getSource 15).raises := by
  obtain ⟨hframe, htrip, hraises, htimelock, -⟩ := beginLeading_spec
    (s := s.modCyc fun u => { u with role := .leader }) rfl s.cyc.period (s.cyc.predicted (s.cyc.cycle + 1))
  rw [takeOver_eq h]
  generalize beginLeading _ _ _ = l at *
  have hpulse := raisePulse_counted 15 (shaftsTakeOver l)
  have hcount := raisePulse_raises (n := 15) (.inr rfl) (shaftsTakeOver l)
  have hpool : (raisePulse 15 (shaftsTakeOver l)).pool = l.pool := latchIfEnabled_pool _ _
  have hsource : (shaftsTakeOver l).getSource 15 = s.getSource 15 := by
    change l.getSource 15 = _
    unfold State.getSource
    rw [htrip]
    rfl
  rw [hsource] at hcount
  refine ⟨_, s.cyc.predicted (s.cyc.cycle + 1), hpulse, ?_, ?_, ?_, ?_, ?_, ?_, fun hlock p => htimelock hlock p, fun i => ?_, hcount⟩
  · change l.cyc = _
    rw [hframe]
    rfl
  · change l.pool = _
    rw [hframe]
    rfl
  · rw [hpool, hframe]
    rfl
  · change l.locks = _
    rw [hframe]
    rfl
  · change l.pending = _
    rw [hframe]
    rfl
  · exact hraises
  · change ((shaftsTakeOver l).getShaft i).target = ((shaftsTakeOver l).getShaft i).vel
    rw [shaftsTakeOver_getShaft]

/-- Whether a standby takes over at its holdover event (R36). -/
theorem localMiddle_takesOver {s : State} (hrole : s.cyc.role = .standby) (hmode : s.calledMode ≠ .isolated)
    (hcount : min s.cyc.config.takeCount s.cyc.config.holdLimit ≤ s.cyc.missed) : (localMiddle id s).takesOver = true := by
  obtain ⟨send, hcyc⟩ := localMiddle_cyc s
  have hring : (localMiddle id s).ring.mode = s.calledMode := by
    rw [localMiddle, localWork_ring]
    exact beginEvent_mode _ _ _
  simp only [State.takesOver, Bool.and_eq_true, decide_eq_true_eq, hring]
  rw [hcyc]
  exact ⟨⟨hrole, hmode⟩, hcount⟩

theorem localMiddle_staysFollower {s : State} (hrole : s.cyc.role = .follower) : takeOver (localMiddle id s) = localMiddle id s := by
  obtain ⟨send, hcyc⟩ := localMiddle_cyc s
  refine takeOver_id ?_
  have : (localMiddle id s).cyc.role = .follower := by rw [hcyc]; exact hrole
  simp [State.takesOver, this]

/-! ### The four events -/

theorem exec_holdoverEvent {s : State} (h : s.cyc.lock = .holdover) : exec .holdoverEvent s = .next (holdoverEvent s) :=
  congrArg Host.Outcome.next (if_pos h)

theorem localEvent_follower {s : State} (hrole : s.cyc.role = .follower) : localEvent id takeOver s = localEvent id id s := by
  obtain ⟨switched, elapsed, heq⟩ := localEvent_eq id s
  rw [heq, heq, localMiddle_staysFollower hrole, id_eq]

/-- The holdover event at which a standby takes over. -/
theorem localEvent_takesOver {s : State} (hrole : s.cyc.role = .standby) (hlock : s.cyc.lock = .holdover)
    (hmode : s.calledMode ≠ .isolated) (hcount : min s.cyc.config.takeCount s.cyc.config.holdLimit ≤ s.cyc.missed) :
    let u := localEvent id takeOver s
    u.cyc.role = .leader ∧ u.cyc.phase = .emitting ∧ u.cyc.lock = .locked ∧ u.cyc.epoch = s.cyc.epoch + 1 ∧
      u.cyc.leader = s.cyc.address ∧ u.cyc.missed = 0 ∧ u.cyc.timerPeriod = s.cyc.period ∧ u.cyc.freshLead = true ∧
      u.cyc.cycle = s.cyc.cycle + 1 ∧ (u.getSource 15).raises = bump (s.getSource 15).raises ∧
      (∀ p : Port, u.flag p .timelock = true ∧ u.flag p .cycle = true) ∧
      (u.trip.view.rank < 2 → ∀ i : ShaftNo, (u.getShaft i).target = (u.getShaft i).vel) ∧
      u.locks = s.locks ∧ u.pool.mem = s.pool.mem ∧ u.pending = s.pending := by
  obtain ⟨switched, elapsed, heq⟩ := localEvent_eq id s
  rw [heq]
  have hprepared := localMiddle_prepared s
  obtain ⟨send, hcyc⟩ := localMiddle_cyc s
  have htakes := localMiddle_takesOver hrole hmode hcount
  generalize localMiddle id s = m at *
  obtain ⟨x, boundary, htripped, hxcyc, -, hpool, hlocks, hpending, hports, htimelock, htarget, hcount15⟩ := takeOver_spec htakes
  generalize takeOver m = y at *
  have hworked := finishEvent_eventWorked switched elapsed y
  have hcycle := finishEvent_raises switched elapsed y
  generalize finishEvent switched elapsed y = u at *
  have hall := htripped.toEventWorked.trans hworked
  have hmlock : m.cyc.lock ≠ .locked := by rw [hcyc, hlock]; decide
  have hucyc : u.cyc = { m.cyc with role := .leader }.led m.cyc.period boundary := hall.cyc.trans hxcyc
  intro _
  rw [hucyc, hcyc]
  refine ⟨rfl, rfl, rfl, rfl, rfl, rfl, rfl, rfl, rfl, ?_, fun p => ⟨?_, hcycle p⟩, fun hview i => ?_, ?_, ?_, ?_⟩
  · rw [hworked.raises 15 (.inr rfl), hcount15, hprepared.getSource]
  · exact (hall.ports p).2 _ (htimelock hmlock p)
  · rw [hall.target hview, (hall.running (TripClass.ne_instant_of_rank hview) i).1]
    exact htarget i
  · exact (hall.locks.trans hlocks).trans hprepared.locks
  · rw [hworked.mem, hpool, hprepared.pool]
  · exact (hall.pending.trans hpending).trans hprepared.pending

/-- Settles O26, by the events of the local timer and a standby's takeover. -/
theorem holdoverRunsOut : Obligations.HoldoverRunsOut := by
  intro s
  let counted := s.modCyc fun u => { u with missed := u.missed + 1 }
  have hwithin (h : s.cyc.missed + 1 ≤ s.cyc.config.holdLimit) : holdoverEvent s = localEvent id takeOver counted :=
    if_neg (Nat.not_lt.mpr h)
  refine ⟨fun hlock hlimit hrole => ?_, fun hlock hpast => ?_, fun hlock hlimit hrole hcount hmode => ?_, fun hruns => ?_⟩
  · rw [exec_holdoverEvent hlock, hwithin hlimit, localEvent_follower (s := counted) hrole]
    have hevent := localEvent_timedOut counted
    generalize localEvent id id counted = u at *
    obtain ⟨send, hcyc⟩ := hevent.cyc
    have hlive := hevent.live (.inr hlock)
    exact ⟨u, rfl, by rw [hcyc]; exact hlock, by rw [hcyc]; rfl, by rw [hcyc]; rfl, by rw [hcyc]; rfl,
      by rw [hcyc]; exact hrole, hlive, hevent.cycle, hevent.locks, hevent.mem, hevent.pending⟩
  · let lost := s.modCyc fun u => { u with runningDown := true, leader := none }
    have hpastEq : holdoverEvent s = localEvent (raisePulse 8) id (setLock .unlocked lost) := if_pos hpast
    have htimelock (p : Port) := setLock_raises (l := .unlocked) (s := lost)
      (by change s.cyc.lock ≠ _; rw [hlock]; decide) p
    have hframe := setLock_eq_frame .unlocked lost
    rw [exec_holdoverEvent hlock, hpastEq]
    generalize setLock .unlocked lost = x at *
    have hevent := localEvent_expired x
    generalize localEvent (raisePulse 8) id x = u at *
    obtain ⟨send, hcyc⟩ := hevent.cyc
    have hxcyc : x.cyc = { lost.cyc with lock := .unlocked } := by rw [hframe]
    have hsource : x.getSource 8 = s.getSource 8 := by rw [hframe]; rfl
    have hshaft := hevent.shaft (by rw [hxcyc]; rfl)
    rw [hxcyc] at hcyc
    refine ⟨u, rfl, by rw [hcyc], by rw [hcyc]; rfl, by rw [hcyc]; rfl, by rw [hcyc]; rfl, by rw [hcyc]; rfl,
      by rw [hevent.raises, hsource], fun he => hevent.latched (by rw [hsource]; exact he),
      fun p => ⟨(hevent.ports p).2 _ (htimelock p), hevent.cycle p⟩, fun hview i => ?_, ?_, ?_, ?_⟩
    · have hgi : x.getShaft i = s.getShaft i := by rw [hframe]; rfl
      rw [← hgi]
      exact hshaft hview i
    · rw [hevent.locks, hframe]
      rfl
    · rw [hevent.mem, hframe]
      rfl
    · rw [hevent.pending, hframe]
      rfl
  · rw [exec_holdoverEvent hlock, hwithin hlimit]
    have hmin : min counted.cyc.config.takeCount counted.cyc.config.holdLimit ≤ counted.cyc.missed := by
      change min s.cyc.config.takeCount s.cyc.config.holdLimit ≤ s.cyc.missed + 1
      omega
    exact ⟨_, rfl, localEvent_takesOver (s := counted) hrole hlock hmode hmin⟩
  · have hexec : exec .runningDownEvent s = .next (localEvent id id s) := congrArg Host.Outcome.next (if_pos hruns)
    rw [hexec]
    have hevent := localEvent_timedOut s
    generalize localEvent id id s = u at *
    obtain ⟨send, hcyc⟩ := hevent.cyc
    refine ⟨u, rfl, by rw [hcyc]; exact hruns, by rw [hcyc], by rw [hcyc], by rw [hcyc], hevent.cycle, fun hview i => ?_,
      hevent.locks, hevent.mem, hevent.pending⟩
    have hi := hevent.shaft hview i
    rwa [if_pos (.inl hruns)] at hi

end Sys2Proof.Machine
end

