-- ==== Sys2Proof/Proofs/LeaderBoundary.lean ====
section
/-!
PROOFS. The parts of a cycle event that change the cycle unit and event flags alone (R39, R41, R42, R44), and a leader's
boundary (R25, R26, R35, R47, R88).
-/

namespace Sys2Proof.Machine

/-! ### Work that changes the cycle unit and event flags alone -/

/-- `t` is `s` after work of the cycle unit alone: no other unit changes, and event flags are only raised. -/
structure State.CycleOnly (s t : State) : Prop where
  frame : t = { s with cyc := t.cyc, ports := t.ports }
  ports : s.OnlyRaises t

theorem State.CycleOnly.refl (s : State) : s.CycleOnly s := ⟨rfl, .refl s⟩

theorem State.CycleOnly.trans {s t u : State} (h : s.CycleOnly t) (k : t.CycleOnly u) : s.CycleOnly u :=
  ⟨by rw [k.frame, h.frame], h.ports.trans k.ports⟩

theorem State.CycleOnly.prepared {s t : State} (h : s.CycleOnly t) : s.Prepared t := by
  refine ⟨?_, ?_, ?_, ?_, ?_, ?_, ?_, ?_, ?_, h.ports, ?_⟩ <;> rw [h.frame]

theorem State.CycleOnly.ring {s t : State} (h : s.CycleOnly t) : t.ring = s.ring := by rw [h.frame]

theorem State.CycleOnly.shafts {s t : State} (h : s.CycleOnly t) : t.shafts = s.shafts := by rw [h.frame]

theorem State.CycleOnly.axis {s t : State} (h : s.CycleOnly t) : t.axis = s.axis := by rw [h.frame]

theorem State.CycleOnly.trip {s t : State} (h : s.CycleOnly t) : t.trip = s.trip := by rw [h.frame]

theorem modCyc_cycleOnly (s : State) (f : CycleUnit → CycleUnit) : s.CycleOnly (s.modCyc f) := ⟨rfl, .of_ports rfl⟩

theorem raiseBoth_cycleOnly (e : Event) (s : State) : s.CycleOnly (raiseBoth e s) := ⟨rfl, raiseBoth_onlyRaises e s⟩

theorem planEvent_cycleOnly (o : PlanOutcome) (k : PlanNo) (s : State) : s.CycleOnly (planEvent o k s) :=
  (modCyc_cycleOnly s _).trans (raiseBoth_cycleOnly _ _)

theorem planEvent_raises (o : PlanOutcome) (k : PlanNo) (s : State) (p : Port) : (planEvent o k s).flag p .plan = true :=
  raiseBoth_raises _ _ p

theorem setLock_cycleOnly (l : LockState) (s : State) : s.CycleOnly (setLock l s) := by
  refine ⟨?_, setLock_onlyRaises l s⟩
  have hframe := setLock_eq_frame l s
  have hcyc := setLock_cyc l s
  generalize setLock l s = t at *
  rw [hframe]

theorem setRing_cycleOnly (r : RingState) (s : State) : s.CycleOnly (setRing r s) := by
  unfold setRing
  split
  · exact .refl s
  · exact (modCyc_cycleOnly s _).trans (raiseBoth_cycleOnly _ _)

theorem markReady_cycleOnly (s : State) : s.CycleOnly (markReady s) :=
  modCyc_cycleOnly s fun u => { u with planReady := s.ready }

theorem clearPresence_cycleOnly (s : State) : s.CycleOnly (clearPresence s) := modCyc_cycleOnly s _

theorem State.ready_iff {s : State} {w : PlanSwitch} (h : s.cyc.pendingSwitch = some w) :
    s.ready = true ↔ ∀ i : AxisNo, (s.getAxis i).state = .off ∨ ((s.getAxis i).entries[w.plan.val]).valid = true := by
  simp only [State.ready, h, List.all_eq_true, Bool.or_eq_true, decide_eq_true_eq, State.getAxis]
  constructor
  · intro hall i
    exact hall _ (by simp)
  · intro hall x hx
    obtain ⟨i, hi, rfl⟩ := List.mem_iff_getElem.mp hx
    simpa using hall ⟨i, by simpa using hi⟩

/-! ### A pending switch (R41, R42, R44) -/

/-- A switch whose cycle is not this event's number stays pending. -/
theorem applySwitch_notDue {s : State} (h : ∀ w : PlanSwitch, s.cyc.pendingSwitch = some w → w.cycle ≠ s.cyc.cycle) :
    applySwitch s = s := by
  unfold applySwitch
  split
  · next w hw => rw [if_neg (h w hw)]
  · rfl

/-- A switch at its cycle is applied. -/
theorem applySwitch_due {s : State} {w : PlanSwitch} (hw : s.cyc.pendingSwitch = some w) (h : w.cycle = s.cyc.cycle) :
    applySwitch s = planEvent .done w.plan (s.modCyc fun u => { u with activePlan := w.plan, pendingSwitch := none }) := by
  unfold applySwitch
  rw [hw]
  exact if_pos h

theorem applySwitch_cycleOnly (s : State) : s.CycleOnly (applySwitch s) := by
  unfold applySwitch
  split
  · split
    · exact (modCyc_cycleOnly s _).trans (planEvent_cycleOnly _ _ _)
    · exact .refl s
  · exact .refl s

theorem leaderSwitch_cycleOnly (s : State) : s.CycleOnly (leaderSwitch s) := by
  unfold leaderSwitch
  dsimp only
  split
  · exact applySwitch_cycleOnly s
  · exact (applySwitch_cycleOnly s).trans (modCyc_cycleOnly _ _)

theorem leaderSwitch_notDue {s : State} (h : ∀ w : PlanSwitch, s.cyc.pendingSwitch = some w → w.cycle ≠ s.cyc.cycle) :
    leaderSwitch s = s := by
  have hsame := applySwitch_notDue h
  rw [leaderSwitch_same s (by rw [hsame]), hsame]

/-- The leader's switch at its cycle: the plan, its record and PLAN, and the counts of the addresses it had gained. -/
theorem leaderSwitch_due {s : State} {w : PlanSwitch} (hw : s.cyc.pendingSwitch = some w) (h : w.cycle = s.cyc.cycle) :
    (leaderSwitch s).cyc.activePlan = w.plan ∧ (leaderSwitch s).cyc.pendingSwitch = none ∧
      (leaderSwitch s).cyc.planRecord = { outcome := .done, plan := w.plan, cycle := s.cyc.cycle } ∧
      (w.plan ≠ s.cyc.activePlan → (leaderSwitch s).cyc.added[w.plan.val] = 0 ∧
        ∀ a : Fin 31, (s.cyc.added[w.plan.val]).getLsbD a.val = true →
          (s.cyc.rosters[s.cyc.activePlan.val]).getLsbD a.val = false → (leaderSwitch s).cyc.missing[a.val] = 0) ∧
      ∀ p : Port, (leaderSwitch s).flag p .plan = true := by
  have hdue := applySwitch_due hw h
  by_cases hplan : w.plan = s.cyc.activePlan
  · rw [leaderSwitch_same s (by rw [hdue]; exact hplan), hdue]
    exact ⟨rfl, rfl, rfl, fun hne => absurd hplan hne, planEvent_raises _ _ _⟩
  · have hraised := planEvent_raises .done w.plan (s.modCyc fun u => { u with activePlan := w.plan, pendingSwitch := none })
    rw [leaderSwitch_other s (by rw [hdue]; exact hplan), hdue]
    refine ⟨rfl, rfl, rfl, fun _ => ⟨?_, fun a hadded hroster => ?_⟩, fun p => ?_⟩
    · change (modifyAt s.cyc.added w.plan fun _ => 0)[w.plan.val] = 0
      simp [modifyAt]
    · rw [State.modCyc_cyc, CycleUnit.startAdded_missing, if_pos]
      exact ⟨hadded, hroster⟩
    · have hflag (t : State) (f : CycleUnit → CycleUnit) : (t.modCyc f).flag p .plan = t.flag p .plan := rfl
      rw [hflag]
      exact hraised p

theorem vetoCheck_cycleOnly (s : State) : s.CycleOnly (vetoCheck s) := by
  unfold vetoCheck
  split
  · split
    · exact (modCyc_cycleOnly s _).trans (planEvent_cycleOnly _ _ _)
    · exact .refl s
  · exact .refl s

/-- No check is due, or every member is ready. -/
theorem vetoCheck_stands {s : State} (h : ∀ w : PlanSwitch, s.cyc.pendingSwitch = some w →
    cycleDist w.cycle s.cyc.cycle = 2 → s.cyc.allReady w.plan = true) : vetoCheck s = s := by
  unfold vetoCheck
  split
  · next w hw =>
    refine if_neg fun hveto : _ = true => ?_
    rw [Bool.and_eq_true, decide_eq_true_eq] at hveto
    rw [h w hw hveto.1] at hveto
    exact absurd hveto.2 (by decide)
  · rfl

theorem vetoCheck_vetoes {s : State} {w : PlanSwitch} (hw : s.cyc.pendingSwitch = some w)
    (hdist : cycleDist w.cycle s.cyc.cycle = 2) (hready : s.cyc.allReady w.plan = false) :
    vetoCheck s = planEvent .vetoed w.plan (s.modCyc fun u => { u with pendingSwitch := none }) := by
  unfold vetoCheck
  rw [hw]
  exact if_pos (by rw [hdist, hready]; rfl)

theorem CycleUnit.allReady_iff (u : CycleUnit) (k : PlanNo) : u.allReady k = true ↔ u.rosters[k.val] ≠ 0 ∧
    ∀ a : Fin 31, (u.rosters[k.val]).getLsbD a.val = true → (u.address = some a.val → u.planReady = true) ∧
      (u.address ≠ some a.val → ((u.presence[a.val]).map fun q => q.planReady) = some true) := by
  simp only [CycleUnit.allReady, CycleUnit.hasRoster, CycleUnit.member, CycleUnit.isOwn, Bool.and_eq_true, decide_eq_true_eq,
    List.all_eq_true, allAddresses, List.mem_finRange, forall_const, Bool.or_eq_true, Bool.not_eq_true']
  refine and_congr_right fun _ => forall_congr' fun a => ?_
  cases (u.rosters[k.val]).getLsbD a.val with
  | false => simp
  | true =>
    by_cases hown : u.address = some a.val
    · simp [hown]
    · cases u.presence[a.val] <;> simp [hown]

/-! ### The plan handling of a boundary -/

/-- A boundary's plan handling: the switch, readiness and the check two cycles ahead. -/
def boundaryPlans (s : State) : State := vetoCheck (markReady (leaderSwitch s))

theorem boundaryPlans_cycleOnly (s : State) : s.CycleOnly (boundaryPlans s) :=
  ((leaderSwitch_cycleOnly s).trans (markReady_cycleOnly _)).trans (vetoCheck_cycleOnly _)

/-- `v` is `u` after a boundary's plan handling. -/
def CycleUnit.BoundaryHandled (u v : CycleUnit) : Prop :=
  v = { u with
    activePlan := v.activePlan, pendingSwitch := v.pendingSwitch, planRecord := v.planRecord, planReady := v.planReady
    missing := v.missing, added := v.added }

theorem CycleUnit.BoundaryHandled.trans {u v w : CycleUnit} (h : u.BoundaryHandled v) (k : v.BoundaryHandled w) :
    u.BoundaryHandled w := by
  unfold CycleUnit.BoundaryHandled at *
  rw [k, h]

theorem CycleUnit.startAdded_handled (u : CycleUnit) (before : PlanNo) : u.BoundaryHandled (u.startAdded before) := by
  simp only [CycleUnit.BoundaryHandled, CycleUnit.startAdded]

theorem leaderSwitch_cyc (s : State) : s.cyc.BoundaryHandled (leaderSwitch s).cyc := by
  have happlied : s.cyc.BoundaryHandled (applySwitch s).cyc := by
    unfold applySwitch
    split
    · split <;> rfl
    · rfl
  unfold leaderSwitch
  generalize applySwitch s = t at happlied ⊢
  dsimp only
  split
  · exact happlied
  · rw [State.modCyc_cyc]
    exact happlied.trans (t.cyc.startAdded_handled s.cyc.activePlan)

theorem vetoCheck_cyc (s : State) : s.cyc.BoundaryHandled (vetoCheck s).cyc := by
  unfold vetoCheck
  split
  · split <;> rfl
  · rfl

theorem markReady_cyc (s : State) : s.cyc.BoundaryHandled (markReady s).cyc := rfl

theorem boundaryPlans_cyc (s : State) : s.cyc.BoundaryHandled (boundaryPlans s).cyc :=
  ((leaderSwitch_cyc s).trans (markReady_cyc _)).trans (vetoCheck_cyc _)

theorem boundaryPlans_notDue {s : State} (h : ∀ w : PlanSwitch, s.cyc.pendingSwitch = some w → w.cycle ≠ s.cyc.cycle) :
    boundaryPlans s = vetoCheck (markReady s) := by
  rw [boundaryPlans, leaderSwitch_notDue h]

/-- A boundary that neither applies a switch nor checks one determines readiness alone. -/
theorem boundaryPlans_idle {s : State} (h : ∀ w : PlanSwitch, s.cyc.pendingSwitch = some w →
    w.cycle ≠ s.cyc.cycle ∧ cycleDist w.cycle s.cyc.cycle ≠ 2) : boundaryPlans s = markReady s := by
  rw [boundaryPlans_notDue fun w hw => (h w hw).1]
  exact vetoCheck_stands fun w hw hdist => absurd hdist (h w hw).2

/-- A switch at its cycle leaves none for the check. -/
theorem boundaryPlans_due {s : State} {w : PlanSwitch} (hw : s.cyc.pendingSwitch = some w) (h : w.cycle = s.cyc.cycle) :
    boundaryPlans s = markReady (leaderSwitch s) := by
  obtain ⟨-, hnone, -⟩ := leaderSwitch_due hw h
  refine vetoCheck_stands fun v hv => ?_
  rw [show (markReady (leaderSwitch s)).cyc.pendingSwitch = (leaderSwitch s).cyc.pendingSwitch from rfl, hnone] at hv
  cases hv

/-- The check two cycles ahead (R42): the switch stands where every member is ready, and is vetoed where not. -/
theorem boundaryPlans_checked {s : State} {w : PlanSwitch} (hw : s.cyc.pendingSwitch = some w)
    (h : cycleDist w.cycle s.cyc.cycle = 2) :
    let u := boundaryPlans s
    u.cyc.activePlan = s.cyc.activePlan ∧ u.cyc.planReady = s.ready ∧
      ((markReady s).cyc.allReady w.plan = true →
        u.cyc.pendingSwitch = some w ∧ u.cyc.planRecord = s.cyc.planRecord) ∧
      ((markReady s).cyc.allReady w.plan = false → u.cyc.pendingSwitch = none ∧ (∀ p : Port, u.flag p .plan = true) ∧
        u.cyc.planRecord = { outcome := .vetoed, plan := w.plan, cycle := s.cyc.cycle }) := by
  have hnotDue : boundaryPlans s = vetoCheck (markReady s) := boundaryPlans_notDue fun v hv hdue => by
    obtain rfl : w = v := Option.some.inj (hw.symm.trans hv)
    simp [cycleDist, hdue] at h
  rw [hnotDue]
  cases hready : (markReady s).cyc.allReady w.plan with
  | true =>
    rw [vetoCheck_stands fun v hv _ => by obtain rfl : w = v := Option.some.inj (hw.symm.trans hv); exact hready]
    exact ⟨rfl, rfl, fun _ => ⟨hw, rfl⟩, nofun⟩
  | false =>
    rw [vetoCheck_vetoes (s := markReady s) hw h hready]
    exact ⟨rfl, rfl, nofun, fun _ => ⟨rfl, planEvent_raises _ _ _, rfl⟩⟩

/-! ### A staged reset (R88) -/

theorem applyReset_mode (number : BitVec 8) (cycle : Cycle) (s : State) :
    (applyReset number cycle s).ring.mode = s.ring.mode := by
  unfold applyReset
  extract_lets oldLocal oldView t u cls v w x
  have hw : w.ring = v.ring := by unfold w; split <;> simp
  have hv : v.ring = s.ring := by simp [v, u, t]
  have hx : w.Tripped x := by
    unfold x
    split
    · exact ite_tripped (fun _ => .refl w) fun _ => emitFlash_tripped _ w
    · exact .refl w
  change x.ring.mode = _
  rw [hx.mode, hw, hv]

/-- What the boundary's trip reset leaves, and what it does with a staged one. -/
theorem applyStagedReset_spec (s : State) :
    let t := applyStagedReset s
    t.clock = s.clock ∧ t.links = s.links ∧ t.ring.mode = s.ring.mode ∧ t.cyc = s.cyc ∧ t.shafts = s.shafts ∧
      t.axis = s.axis ∧ t.pool = s.pool ∧ t.locks = s.locks ∧ t.pending = s.pending ∧ s.OnlyRaises t ∧
      t.trip.stagedReset = false ∧
      t.trip.resetNo = (if s.trip.stagedReset = true then s.trip.resetNo + 1 else s.trip.resetNo) := by
  by_cases hstaged : s.trip.stagedReset = true
  · let x := s.modTrip fun u => { u with stagedReset := false }
    rw [show applyStagedReset s = applyReset (s.trip.resetNo + 1) s.cyc.cycle x from if_pos hstaged, if_pos hstaged]
    obtain ⟨hclock, hlinks, hcyc, hshafts, haxis, hpool, -, hlocks, hpending⟩ :=
      applyReset_kept (s.trip.resetNo + 1) s.cyc.cycle x
    obtain ⟨-, hno, -, -, -, hnot⟩ := applyReset_rest (s.trip.resetNo + 1) s.cyc.cycle x
    have hports : s.OnlyRaises x := .of_ports rfl
    exact ⟨hclock, hlinks, applyReset_mode _ _ x, hcyc, hshafts, haxis, hpool, hlocks, hpending,
      hports.trans (applyReset_onlyRaises _ _ x), hnot, hno⟩
  · rw [show applyStagedReset s = s from if_neg hstaged, if_neg hstaged]
    exact ⟨rfl, rfl, rfl, rfl, rfl, rfl, rfl, rfl, rfl, .refl s, by simpa using hstaged, rfl⟩

/-! ### The boundary (R25, R26) -/

/-- A boundary up to its plan handling: the path mode, the numbers of the cycle, and the ring state. -/
def boundaryOpened (s : State) : State :=
  let b := (beginEvent (s.cyc.cycle + 1) s.cyc.nextBoundary s).modCyc fun u =>
    { u with nextBoundary := u.nextBoundary + u.timerPeriod, missing := u.nextMissing }
  setRing b.evaluatedRing b

theorem boundaryOpened_prepared (s : State) : s.Prepared (boundaryOpened s) :=
  ((beginEvent_prepared _ _ s).trans (modCyc_prepared _ _)).trans (setRing_cycleOnly _ _).prepared

theorem boundaryOpened_shafts (s : State) : (boundaryOpened s).shafts = s.shafts := by
  unfold boundaryOpened
  extract_lets b
  have hbegun : b.shafts = s.shafts :=
    (modCyc_cycleOnly _ _).shafts.trans (beginEvent_shafts (s.cyc.cycle + 1) s.cyc.nextBoundary s)
  clear_value b
  exact (setRing_cycleOnly _ b).shafts.trans hbegun

theorem boundaryOpened_mode (s : State) : (boundaryOpened s).ring.mode = s.calledMode := by
  unfold boundaryOpened
  extract_lets b
  have hbegun : b.ring.mode = s.calledMode :=
    (congrArg RingPath.mode (modCyc_cycleOnly _ _).ring).trans (beginEvent_mode (s.cyc.cycle + 1) s.cyc.nextBoundary s)
  clear_value b
  rw [(setRing_cycleOnly _ b).ring, hbegun]

theorem boundaryOpened_cyc (s : State) : ∃ ring missing, (boundaryOpened s).cyc = { s.cyc with
    cycle := s.cyc.cycle + 1, cycleSend := s.cyc.nextBoundary
    nextBoundary := s.cyc.nextBoundary + s.cyc.timerPeriod, ring := ring, missing := missing } := by
  unfold boundaryOpened
  dsimp only
  rw [setRing_cyc, State.modCyc_cyc, beginEvent_cyc]
  exact ⟨_, _, rfl⟩

/-- The state whose values the CYCLE_START of a boundary carries. -/
def boundaryMiddle (s : State) : State :=
  applyStagedReset <| moveShafts .generate <|
    (clearPresence (boundaryPlans (boundaryOpened s))).modCyc fun u => { u with freshLead := false }

theorem leaderBoundary_eq (s : State) : ∃ switched : Bool, leaderBoundary s =
    finishEvent switched 0 (emitCycleStart (boundaryMiddle s).cycleStart (boundaryMiddle s)) := ⟨_, rfl⟩

/-- `m` is the state whose values the CYCLE_START of a boundary of `s` carries; `plans` is the state after the plan handling. -/
structure State.BoundaryWorked (s plans m : State) : Prop where
  cyc : m.cyc = { plans.cyc with presence := m.cyc.presence, freshLead := false }
  shaft : ∀ i : ShaftNo, m.getShaft i = (s.getShaft i).generate s.trip.view
  mode : m.ring.mode = s.calledMode
  stagedReset : m.trip.stagedReset = false
  resetNo : m.trip.resetNo = if s.trip.stagedReset = true then s.trip.resetNo + 1 else s.trip.resetNo
  plansPorts : plans.OnlyRaises m
  pool : m.pool = s.pool
  locks : m.locks = s.locks
  pending : m.pending = s.pending

theorem boundaryMiddle_spec (s : State) : s.BoundaryWorked (boundaryPlans (boundaryOpened s)) (boundaryMiddle s) := by
  unfold boundaryMiddle
  have hopened := boundaryOpened_prepared s
  have hshafts := boundaryOpened_shafts s
  have hmode := boundaryOpened_mode s
  have hplans := boundaryPlans_cycleOnly (boundaryOpened s)
  generalize boundaryPlans (boundaryOpened s) = plans at *
  generalize boundaryOpened s = x at *
  have hcleared : plans.CycleOnly ((clearPresence plans).modCyc fun u => { u with freshLead := false }) :=
    (clearPresence_cycleOnly plans).trans (modCyc_cycleOnly _ _)
  have hcyc : ((clearPresence plans).modCyc fun u => { u with freshLead := false }).cyc =
      { plans.cyc with presence := Vector.replicate 31 none, freshLead := false } := rfl
  generalize (clearPresence plans).modCyc _ = c at *
  have hall := (hopened.trans hplans.prepared).trans hcleared.prepared
  have hmoved := moveShafts_prepared .generate c
  have hshaft := moveShafts_getShaft .generate c
  have hring : (moveShafts .generate c).ring = c.ring := rfl
  have hmovedCyc : (moveShafts .generate c).cyc = c.cyc := rfl
  generalize moveShafts .generate c = m at *
  obtain ⟨-, -, kmode, kcyc, kshafts, -, kpool, klocks, kpending, kports, kstaged, kno⟩ := applyStagedReset_spec m
  have htrip := (hall.trans hmoved).trip
  exact
    { cyc := by rw [kcyc, hmovedCyc, hcyc]
      shaft := fun i => by
        rw [State.getShaft_congr kshafts, hshaft, hall.view]
        change (c.getShaft i).generate _ = _
        rw [State.getShaft_congr (hcleared.shafts.trans (hplans.shafts.trans hshafts))]
      mode := by rw [kmode, hring, hcleared.ring, hplans.ring, hmode]
      stagedReset := kstaged
      resetNo := by rw [kno, htrip]
      plansPorts := (hcleared.ports.trans hmoved.ports).trans kports
      pool := by rw [kpool, hmoved.pool, hall.pool]
      locks := by rw [klocks, hmoved.locks, hall.locks]
      pending := by rw [kpending, hmoved.pending, hall.pending] }

/-- The own CYCLE_START waits for the output; no other unit changes. -/
theorem emitCycleStart_frame (c : CycleStart) (s : State) :
    emitCycleStart c s = { s with ring := (emitCycleStart c s).ring } ∧ (emitCycleStart c s).ring.mode = s.ring.mode ∧
      (s.ring.mode ≠ .isolated →
        (emitCycleStart c s).ring.ownCycleStart = some { hdr := s.ownHeader 31, body := .cycleStart c }) := by
  unfold emitCycleStart
  split
  · next h => exact ⟨rfl, rfl, fun hne => absurd h hne⟩
  · exact ⟨rfl, rfl, fun _ => rfl⟩

/-- The samples of a CYCLE_START are the shafts as they stand (R26). -/
theorem State.cycleStart_shaft (s : State) (i : ShaftNo) : s.cycleStart.shafts[i.val] =
    { posInt := (s.getShaft i).posInt, posFrac := (s.getShaft i).posFrac, vel := (s.getShaft i).vel } := by
  simp [State.cycleStart, State.getShaft]

/-- A shaft of a boundary after the close of its event (R47, R48). -/
theorem generated_worked {x y : Shaft} {stops : Bool} {view after : TripClass}
    (h : (x.generate view).Slowed stops after y) (hview : after ≠ .instant ∨ view = .instant) :
    y.vel = x.generatorVel view := by
  obtain ⟨v, w, rfl, hv, -⟩ := h
  rcases hv with hv | ⟨hv, hinstant, -⟩
  · exact hv
  · rcases hview with hne | rfl
    · exact absurd hinstant hne
    · exact hv

/-- Settles O24, by the opening, the plan handling, the generator, the staged reset and the close of a boundary. -/
theorem leaderBoundaryStartsACycle : Obligations.LeaderBoundaryStartsACycle := by
  intro s hlead
  have hexec : exec .leaderBoundary s = .next (leaderBoundary s) := congrArg Host.Outcome.next (if_pos hlead)
  obtain ⟨hrole, hphase⟩ : s.cyc.role = .leader ∧ s.cyc.phase = .emitting := by simpa [State.leading] using hlead
  obtain ⟨switched, heq⟩ := leaderBoundary_eq s
  rw [hexec, heq]
  have hmiddle := boundaryMiddle_spec s
  obtain ⟨ring, missing, hopened⟩ := boundaryOpened_cyc s
  have haxes : (boundaryOpened s).axis.axes = s.axis.axes := by rw [(boundaryOpened_prepared s).axis]
  have hplans := boundaryPlans_cyc (boundaryOpened s)
  generalize boundaryMiddle s = m at *
  have hidle := boundaryPlans_idle (s := boundaryOpened s)
  have hdue (w : PlanSwitch) := boundaryPlans_due (s := boundaryOpened s) (w := w)
  have hchecked (w : PlanSwitch) := boundaryPlans_checked (s := boundaryOpened s) (w := w)
  generalize boundaryPlans (boundaryOpened s) = plans at *
  generalize boundaryOpened s = x at *
  obtain ⟨hframe, hmode, hown⟩ := emitCycleStart_frame m.cycleStart m
  generalize emitCycleStart m.cycleStart m = e at *
  have hworked := finishEvent_eventWorked switched 0 e
  have hcycle := finishEvent_raises switched 0 e
  clear heq
  generalize finishEvent switched 0 e = u at *
  have hucyc : u.cyc = { s.cyc with
      cycle := s.cyc.cycle + 1, cycleSend := s.cyc.nextBoundary
      nextBoundary := s.cyc.nextBoundary + s.cyc.timerPeriod, ring := ring
      activePlan := plans.cyc.activePlan, pendingSwitch := plans.cyc.pendingSwitch, planRecord := plans.cyc.planRecord
      planReady := plans.cyc.planReady, missing := plans.cyc.missing, added := plans.cyc.added
      presence := m.cyc.presence, freshLead := false } := by
    unfold CycleUnit.BoundaryHandled at hplans
    rw [hworked.cyc, hframe]
    change m.cyc = _
    rw [hmiddle.cyc, hplans, hopened]
  have hshaft (i : ShaftNo) : ((s.getShaft i).generate s.trip.view).Slowed e.stopsAtInstant u.trip.view (u.getShaft i) := by
    have hi := hworked.shaft i
    rwa [show e.getShaft i = m.getShaft i by rw [hframe]; rfl, hmiddle.shaft i] at hi
  have hflag {p : Port} (h : plans.flag p .plan = true) : u.flag p .plan = true :=
    (hworked.ports p).2 _ (((State.OnlyRaises.of_ports (t := e) (by rw [hframe])) p).2 _ ((hmiddle.plansPorts p).2 _ h))
  have hxcycle : x.cyc.cycle = s.cyc.cycle + 1 := by rw [hopened]
  have hxpending : x.cyc.pendingSwitch = s.cyc.pendingSwitch := by rw [hopened]
  have hkept (h : ∀ w : PlanSwitch, s.cyc.pendingSwitch = some w →
      w.cycle ≠ s.cyc.cycle + 1 ∧ cycleDist w.cycle (s.cyc.cycle + 1) ≠ 2) :
      u.cyc.activePlan = s.cyc.activePlan ∧ u.cyc.pendingSwitch = s.cyc.pendingSwitch ∧
        u.cyc.planRecord = s.cyc.planRecord := by
    rw [hxpending, hxcycle] at hidle
    rw [hucyc, hidle h]
    change x.cyc.activePlan = _ ∧ x.cyc.pendingSwitch = _ ∧ x.cyc.planRecord = _
    rw [hopened]
    exact ⟨rfl, rfl, rfl⟩
  refine ⟨u, rfl, by rw [hucyc], by rw [hucyc], by rw [hucyc], by rw [hucyc], by rw [hucyc]; exact hrole,
    by rw [hucyc]; exact hphase, by rw [hucyc], by rw [hucyc], by rw [hucyc], by rw [hucyc], by rw [hucyc], ?_, fun i => ?_,
    fun hnone => ?_, fun w hw hat => ?_, fun w hw hfar => ?_, fun w hw htwo => ?_, ?_, ?_, fun hring => ?_, hcycle, ?_, ?_, ?_⟩
  · rw [hworked.mode, hmode, hmiddle.mode]
  · obtain ⟨v, w, hslowed, -, -⟩ := hshaft i
    exact ⟨by rw [hslowed]; rfl, generated_worked (hshaft i), by rw [hslowed]; rfl, by rw [hslowed]; rfl, by rw [hslowed]; rfl⟩
  · obtain ⟨hactive, hpending, hrecord⟩ := hkept fun w hw => by rw [hnone] at hw; cases hw
    exact ⟨hactive, hpending.trans hnone, hrecord⟩
  · rw [← hxcycle] at hat
    rw [← hxpending] at hw
    obtain ⟨hactive, hpending, hrecord, hadded, hraised⟩ := leaderSwitch_due hw hat
    rw [hucyc]
    rw [hdue w hw hat] at hflag ⊢
    generalize leaderSwitch x = l at *
    simp only [hopened] at hrecord hadded
    exact ⟨hactive, hpending, hrecord, hadded, fun p => hflag (hraised p)⟩
  · obtain ⟨hactive, hpending, hrecord⟩ := hkept fun v hv => by
      obtain rfl : w = v := Option.some.inj (hw.symm.trans hv)
      refine ⟨fun heq => ?_, fun heq => ?_⟩
      · rw [heq] at hfar
        simp at hfar
      · rw [cycleDist] at heq
        omega
    exact ⟨hactive, hpending.trans hw, hrecord⟩
  · rw [← hxpending] at hw
    rw [← hxcycle] at htwo
    obtain ⟨hactive, hready, hstands, hvetoed⟩ := hchecked w hw htwo
    have hmarked : (markReady x).cyc = { x.cyc with planReady := x.ready } := rfl
    have huready : u.cyc.planReady = x.ready := by rw [hucyc, ← hready]
    intro stands
    have hall : (markReady x).cyc.allReady w.plan = true ↔ stands := by
      rw [CycleUnit.allReady_iff]
      simp only [hmarked, hopened, stands, huready]
    rw [hucyc]
    refine ⟨by rw [hactive, hopened], fun _ => ?_, fun h => ?_, fun h => ?_⟩
    · change plans.cyc.planReady = true ↔ _
      rw [hready, State.ready_iff hw]
      simp only [State.getAxis_congr haxes]
    · obtain ⟨hpending, hrecord⟩ := hstands (hall.mpr h)
      exact ⟨hpending, by rw [hrecord, hopened]⟩
    · obtain ⟨hpending, hraised, hrecord⟩ := hvetoed (Bool.eq_false_iff.mpr fun hready => h (hall.mp hready))
      exact ⟨hpending, fun p => hflag (hraised p), by rw [hrecord, hxcycle]⟩
  · exact hworked.stagedReset.trans (by rw [hframe]; exact hmiddle.stagedReset)
  · exact hworked.resetNo.trans (by rw [hframe]; exact hmiddle.resetNo)
  · have hmcyc : m.cyc = u.cyc := by rw [hworked.cyc, hframe]
    have hmown : m.own = s.own := by
      unfold State.own
      rw [hmcyc, hucyc]
    have hno : u.trip.resetNo = m.trip.resetNo := by rw [hworked.resetNo, hframe]
    refine ⟨m.cycleStart, ?_, ?_, hmown, ?_, ?_, hno.symm, ?_, ?_, rfl, fun i => ?_⟩
    · rw [hworked.ownCycleStart, hown (by rw [hmiddle.mode]; exact hring), State.ownHeader, hmown]
    · change m.cyc.cycle = _
      rw [hmcyc, hucyc]
    · change m.cyc.epoch = _
      rw [hmcyc, hucyc]
    · rw [← hmcyc]
      rfl
    · rw [← hmcyc]
      rfl
    · rw [← hmcyc]
      rfl
    · obtain ⟨v, w, hslowed, -, -⟩ := hshaft i
      rw [State.cycleStart_shaft, hmiddle.shaft, hslowed]
      rfl
  · exact hworked.locks.trans (by rw [hframe]; exact hmiddle.locks)
  · exact hworked.mem.trans (by rw [hframe, ← hmiddle.pool])
  · exact hworked.pending.trans (by rw [hframe]; exact hmiddle.pending)

end Sys2Proof.Machine
end

