-- ==== Sys2Proof/Proofs/FrameEvents.lean ====
section
/-!
PROOFS. What an accepted CYCLE_START does at a cycle event: ring state, plans, shafts, trip fields, and the close of the event
(R30, R35, R39, R41, R44, R49 to R51, R83).
-/

namespace Sys2Proof.Machine

/-! ### The frame's plans (R41, R44) -/

theorem takeActivePlan_cycleOnly (c : CycleStart) (s : State) : s.CycleOnly (takeActivePlan c s) := by
  unfold takeActivePlan
  split
  · exact .refl s
  · exact (modCyc_cycleOnly s _).trans (planEvent_cycleOnly _ _ _)

theorem takeActivePlan_cyc (c : CycleStart) (s : State) :
    s.cyc.PlanHandled (takeActivePlan c s).cyc ∧ (takeActivePlan c s).cyc.activePlan = c.activePlan := by
  unfold takeActivePlan
  split
  · next h => exact ⟨rfl, h⟩
  · exact ⟨rfl, rfl⟩

theorem takePendingSwitch_cycleOnly (c : CycleStart) (s : State) : s.CycleOnly (takePendingSwitch c s) := by
  unfold takePendingSwitch
  extract_lets old t
  have ht : s.CycleOnly t := modCyc_cycleOnly s _
  split
  · split
    · exact ht
    · exact ht.trans (planEvent_cycleOnly _ _ _)
  · exact ht

theorem takePendingSwitch_cyc (c : CycleStart) (s : State) :
    s.cyc.PlanHandled (takePendingSwitch c s).cyc ∧ (takePendingSwitch c s).cyc.pendingSwitch = c.pendingSwitch ∧
      (takePendingSwitch c s).cyc.activePlan = s.cyc.activePlan := by
  unfold takePendingSwitch
  dsimp only
  split
  · split <;> exact ⟨rfl, rfl, rfl⟩
  · exact ⟨rfl, rfl, rfl⟩

/-- The plan handling of a frame's event: a due switch, the frame's active plan and pending switch, and readiness. -/
def framePlans (c : CycleStart) (s : State) : State := markReady (takePendingSwitch c (takeActivePlan c (applySwitch s)))

theorem framePlans_cycleOnly (c : CycleStart) (s : State) : s.CycleOnly (framePlans c s) :=
  (((applySwitch_cycleOnly s).trans (takeActivePlan_cycleOnly c _)).trans (takePendingSwitch_cycleOnly c _)).trans
    (markReady_cycleOnly _)

theorem framePlans_cyc (c : CycleStart) (s : State) : s.cyc.PlanHandled (framePlans c s).cyc ∧
    (framePlans c s).cyc.activePlan = c.activePlan ∧ (framePlans c s).cyc.pendingSwitch = c.pendingSwitch := by
  unfold framePlans
  have happly := applySwitch_cyc s
  generalize applySwitch s = x at *
  obtain ⟨htake, hactive⟩ := takeActivePlan_cyc c x
  generalize takeActivePlan c x = y at *
  obtain ⟨hpend, hpending, hkept⟩ := takePendingSwitch_cyc c y
  generalize takePendingSwitch c y = z at *
  exact ⟨((happly.trans htake).trans hpend).trans rfl, hkept.trans hactive, hpending⟩

/-! ### Trip fields and pulses of the event (R77, R83) -/

/-- `t` is `s` after the trip unit's work between the shafts and the axes of a frame's event: the frame's trip fields, or a
pulse. It drops axes to OFF at most, and at a node whose shafts a view of INSTANT does not stop it changes targets alone. -/
structure State.TripTaken (s t : State) : Prop where
  links : t.links = s.links
  cyc : t.cyc = s.cyc
  shaftUnit : t.shafts = { s.shafts with shafts := t.shafts.shafts }
  shaft : s.stopsAtInstant = false → ∀ i : ShaftNo, ∃ target : Int, t.getShaft i = { s.getShaft i with target := target }
  axisUnit : t.axis = { s.axis with axes := t.axis.axes }
  axis : ∀ i : AxisNo, t.getAxis i = s.getAxis i ∨ t.getAxis i = (s.getAxis i).toOff
  stagedReset : t.trip.stagedReset = s.trip.stagedReset
  mem : t.pool.mem = s.pool.mem
  locks : t.locks = s.locks
  ports : s.OnlyRaises t
  pending : t.pending = s.pending

theorem State.TripTaken.trans {s t u : State} (h : s.TripTaken t) (k : t.TripTaken u) : s.TripTaken u where
  links := k.links.trans h.links
  cyc := k.cyc.trans h.cyc
  shaftUnit := by rw [k.shaftUnit, h.shaftUnit]
  shaft hstops i := by
    obtain ⟨a, ha⟩ := h.shaft hstops i
    obtain ⟨b, hb⟩ := k.shaft (State.stopsAtInstant_congr h.cyc ▸ hstops) i
    exact ⟨b, by rw [hb, ha]⟩
  axisUnit := by rw [k.axisUnit, h.axisUnit]
  axis i := by
    rcases k.axis i with hk | hk
    · rw [hk]
      exact h.axis i
    · refine .inr (hk.trans ?_)
      rcases h.axis i with hh | hh <;> rw [hh]
      rfl
  stagedReset := k.stagedReset.trans h.stagedReset
  mem := k.mem.trans h.mem
  locks := k.locks.trans h.locks
  ports := h.ports.trans k.ports
  pending := k.pending.trans h.pending

/-- Work after the shafts leaves a shaft but for its target where a view of INSTANT does not stop it. -/
theorem State.EventWorked.keepsShaft {s t : State} (h : s.EventWorked t) (hstops : s.stopsAtInstant = false) (i : ShaftNo) :
    ∃ target : Int, t.getShaft i = { s.getShaft i with target := target } := by
  obtain ⟨v, w, heq, hv, -⟩ := h.shaft i
  refine ⟨w, ?_⟩
  rw [heq, hv.resolve_right fun hi => by simp [hstops] at hi]

theorem State.Tripped.tripTaken {s t : State} (h : s.Tripped t) : s.TripTaken t :=
  ⟨h.links, h.cyc, h.shaftUnit, fun hstops i => h.keepsShaft hstops i, h.axisUnit, h.axis, h.stagedReset, h.mem, h.locks,
    h.ports, h.pending⟩

theorem State.TripTaken.refl (s : State) : s.TripTaken s := (State.Tripped.refl s).tripTaken

/-- A change of the trip unit alone that leaves a staged reset. -/
theorem modTrip_tripTaken {s : State} {f : TripUnit → TripUnit} (h : (f s.trip).stagedReset = s.trip.stagedReset) :
    s.TripTaken (s.modTrip f) :=
  ⟨rfl, rfl, rfl, fun _ i => ⟨(s.getShaft i).target, rfl⟩, rfl, fun _ => .inl rfl, h, rfl, rfl, .of_ports rfl, rfl⟩

theorem raisePulse_tripTaken (n : SourceNo) (s : State) : s.TripTaken (raisePulse n s) :=
  (modTrip_tripTaken (s := s) rfl).trans (raisePulse_counted n s).tripTaken

theorem applyReset_tripTaken (number : BitVec 8) (cycle : Cycle) (s : State) : s.TripTaken (applyReset number cycle s) := by
  obtain ⟨-, hlinks, hcyc, hshafts, haxis, hpool, -, hlocks, hpending⟩ := applyReset_kept number cycle s
  obtain ⟨-, -, -, -, -, hstaged⟩ := applyReset_rest number cycle s
  refine ⟨hlinks, hcyc, by rw [hshafts], fun _ i => ⟨(s.getShaft i).target, State.getShaft_congr hshafts i⟩, by rw [haxis],
    fun i => .inl (State.getAxis_congr (by rw [haxis]) i), hstaged, by rw [hpool], hlocks, applyReset_onlyRaises number cycle s,
    hpending⟩

/-- A source's raise count and enable. -/
def State.SourcesCounted (s t : State) : Prop :=
  ∀ n : SourceNo, (t.getSource n).raises = (s.getSource n).raises ∧ (t.getSource n).enabled = (s.getSource n).enabled

theorem State.SourcesCounted.of_sources {s t : State} (h : t.trip.sources = s.trip.sources) : s.SourcesCounted t := fun n => by
  unfold State.getSource
  rw [h]
  exact ⟨rfl, rfl⟩

theorem takeTripFields_spec (c : CycleStart) (s : State) : s.TripTaken (takeTripFields c s) ∧
    (takeTripFields c s).trip.tripLeader = some c.leaderId ∧ s.SourcesCounted (takeTripFields c s) := by
  unfold takeTripFields
  extract_lets leader numbered announced
  have hnumbered : s.TripTaken numbered ∧ numbered.trip.tripLeader = some leader ∧ s.SourcesCounted numbered := by
    unfold numbered
    split
    · exact ⟨modTrip_tripTaken rfl, rfl, .of_sources rfl⟩
    · next hleader =>
      rw [Classical.not_not] at hleader
      split
      · obtain ⟨-, -, -, -, htrip, -⟩ := applyReset_rest c.resetNo c.cycle s
        refine ⟨applyReset_tripTaken _ _ s, htrip.trans hleader, fun n => ?_⟩
        rw [applyReset_getSource]
        exact ⟨rfl, rfl⟩
      · exact ⟨.refl s, hleader, .of_sources rfl⟩
  clear_value numbered
  obtain ⟨htaken, hleader, hsources⟩ := hnumbered
  have hview := raiseView_tripped c.cls (numbered.modTrip fun u => { u with announced := c.cls })
  have hviewSources : announced.trip.sources = numbered.trip.sources := by
    unfold announced
    simp
  have hannounced : announced.trip.tripLeader = some leader := hview.tripLeader.trans hleader
  have htakenView : (numbered.modTrip fun u => { u with announced := c.cls }).TripTaken announced := hview.tripTaken
  clear_value announced
  refine ⟨((htaken.trans (modTrip_tripTaken rfl)).trans htakenView).trans (modTrip_tripTaken rfl), hannounced, fun n => ?_⟩
  have hn := hsources n
  have hlast : (announced.modTrip fun u => { u with firstFault := c.firstFault }).getSource n = numbered.getSource n := by
    change announced.trip.sources[n.val] = numbered.trip.sources[n.val]
    rw [hviewSources]
  rw [hlast]
  exact hn

/-! ### Step faults (R51) -/

/-- Nothing of the axis unit but its axes has changed. -/
def AxisUnit.OnlyAxes (u v : AxisUnit) : Prop := v = { u with axes := v.axes }

theorem AxisUnit.OnlyAxes.trans {u v w : AxisUnit} (h : u.OnlyAxes v) (k : v.OnlyAxes w) : u.OnlyAxes w := by
  unfold AxisUnit.OnlyAxes at *
  rw [k, h]

theorem dropFaulted_axisUnit (a : AxisNo) (s : State) : s.axis.OnlyAxes (dropFaulted a s).axis := by
  unfold dropFaulted
  dsimp only
  split
  · have hdropped : s.axis.OnlyAxes (s.modAxis a Axis.toOff).axis := rfl
    exact hdropped.trans (raisePulse_tripped (stepSource_not_leadership a) _).axisUnit
  · rfl

theorem dropAllFaulted_axisUnit (s : State) : s.axis.OnlyAxes (dropAllFaulted s).axis := by
  have all (as : List AxisNo) (t : State) : t.axis.OnlyAxes (as.foldl (fun s a => dropFaulted a s) t).axis := by
    induction as generalizing t with
    | nil => rfl
    | cons a as ih => exact (dropFaulted_axisUnit a t).trans (ih _)
  exact all _ s

/-- Where every axis is OFF a step fault drops none. -/
theorem dropAllFaulted_of_off {s : State} (h : ∀ i : AxisNo, (s.getAxis i).state = .off) : dropAllFaulted s = s := by
  have one (a : AxisNo) : dropFaulted a s = s := if_neg (by simp [h a])
  have all (as : List AxisNo) : as.foldl (fun s a => dropFaulted a s) s = s := by
    induction as with
    | nil => rfl
    | cons a as ih => rw [List.foldl_cons, one, ih]
  exact all _

/-! ### The cycle event of a frame -/

/-- A frame's event up to its trip fields: the numbers of the cycle, ring state and plans, and the shafts' move. -/
def frameMoved (w : ShaftWork) (c : CycleStart) (t : RxTime) (s : State) : State :=
  moveShafts w (clearPresence (framePlans c (setRing c.ring (beginEvent c.cycle (c.estimated t) s))))

theorem frameEvent_eq (w : ShaftWork) (first : State → State) (c : CycleStart) (t : RxTime) (s : State) :
    ∃ (switched : Bool) (elapsed : Int), frameEvent w first c t s =
      finishEvent switched elapsed (dropAllFaulted (first (takeTripFields c (frameMoved w c t s)))) := ⟨_, _, rfl⟩

/-- `m` is `s` after a frame's event up to its trip fields. -/
structure State.FrameMoved (w : ShaftWork) (c : CycleStart) (t : RxTime) (s m : State) : Prop where
  prepared : s.Prepared m
  cyc : { s.cyc with cycle := c.cycle, cycleSend := c.estimated t, ring := c.ring }.PlanHandled m.cyc
  activePlan : m.cyc.activePlan = c.activePlan
  pendingSwitch : m.cyc.pendingSwitch = c.pendingSwitch
  presence : ∀ a : Fin 31, m.cyc.presence[a.val] = none
  shaft : ∀ i : ShaftNo, m.getShaft i =
    w.shaft s.cyc.runningDown s.trip.view s.shafts.resyncWindow i (s.getShaft i)
  taken : m.shafts.lastTaken = w.taken.or s.shafts.lastTaken

theorem frameMoved_spec (w : ShaftWork) (c : CycleStart) (t : RxTime) (s : State) : s.FrameMoved w c t (frameMoved w c t s) := by
  unfold frameMoved
  have hopened := beginEvent_prepared c.cycle (c.estimated t) s
  have hopenedCyc := beginEvent_cyc c.cycle (c.estimated t) s
  have hopenedShafts := beginEvent_shafts c.cycle (c.estimated t) s
  generalize beginEvent _ _ s = b at *
  have hring := setRing_cycleOnly c.ring b
  have hringCyc := setRing_cyc c.ring b
  generalize setRing c.ring b = r at *
  have hplans := framePlans_cycleOnly c r
  obtain ⟨hplansCyc, hactive, hpending⟩ := framePlans_cyc c r
  generalize framePlans c r = p at *
  have hcleared := clearPresence_cycleOnly p
  have hpresence (a : Fin 31) : (clearPresence p).cyc.presence[a.val] = none := by simp [clearPresence]
  have hclearedCyc : p.cyc.PlanHandled (clearPresence p).cyc := rfl
  have hclearedPlans : (clearPresence p).cyc.activePlan = p.cyc.activePlan ∧
      (clearPresence p).cyc.pendingSwitch = p.cyc.pendingSwitch := ⟨rfl, rfl⟩
  generalize clearPresence p = q at *
  have hall := ((hopened.trans hring.prepared).trans hplans.prepared).trans hcleared.prepared
  have hcyc : { s.cyc with cycle := c.cycle, cycleSend := c.estimated t, ring := c.ring }.PlanHandled q.cyc := by
    have := hplansCyc.trans hclearedCyc
    rwa [hringCyc, hopenedCyc] at this
  have hshafts : q.shafts = s.shafts :=
    hcleared.shafts.trans (hplans.shafts.trans (hring.shafts.trans hopenedShafts))
  exact
    { prepared := hall.trans (moveShafts_prepared w q)
      cyc := hcyc
      activePlan := hclearedPlans.1.trans hactive
      pendingSwitch := hclearedPlans.2.trans hpending
      presence := hpresence
      shaft := fun i => by
        rw [moveShafts_getShaft, hcyc.runningDown, hall.view, hshafts, State.getShaft_congr hshafts]
      taken := by
        change w.taken.or q.shafts.lastTaken = _
        rw [hshafts] }

/-- `u` is `s` after the cycle event that the frame `c` made, the shafts moving by `w` and `first` being the cycle unit's
raise. -/
structure State.FrameTaken (w : ShaftWork) (first : State → State) (c : CycleStart) (t : RxTime) (s u : State) : Prop where
  links : u.links = s.links
  cyc : { s.cyc with cycle := c.cycle, cycleSend := c.estimated t, ring := c.ring }.PlanHandled u.cyc
  activePlan : u.cyc.activePlan = c.activePlan
  pendingSwitch : u.cyc.pendingSwitch = c.pendingSwitch
  presence : ∀ a : Fin 31, u.cyc.presence[a.val] = none
  shaft : s.stopsAtInstant = false → ∀ i : ShaftNo, ∃ target : Int, u.getShaft i =
    { w.shaft s.cyc.runningDown s.trip.view s.shafts.resyncWindow i (s.getShaft i) with target := target }
  taken : u.shafts.lastTaken = w.taken.or s.shafts.lastTaken
  tripLeader : u.trip.tripLeader = some c.leaderId
  stagedReset : u.trip.stagedReset = s.trip.stagedReset
  published : s.cyc.lock = .locked → u.axis.live.cycle = c.cycle
  unpublished : s.cyc.lock = .acquiring → s.cyc.runningDown = false → u.axis.live = s.axis.live
  off : s.cyc.lock = .acquiring → s.cyc.runningDown = false → (∀ i : AxisNo, (s.getAxis i).state = .off) →
    ∀ i : AxisNo, (u.getAxis i).state = .off ∧ (u.getAxis i).entries = (s.getAxis i).entries
  pulsed : ∃ x : State, s.SourcesCounted x ∧
    (∀ n : SourceNo, leadershipSource n → (u.getSource n).raises = ((first x).getSource n).raises) ∧
    ∀ n : SourceNo, ((first x).getSource n).latched = true → (u.getSource n).latched = true
  cycle : ∀ p : Port, u.flag p .cycle = true
  ports : s.OnlyRaises u
  locks : u.locks = s.locks
  mem : u.pool.mem = s.pool.mem
  pending : u.pending = s.pending

theorem CycleUnit.PlanHandled.lock {u v : CycleUnit} (h : u.PlanHandled v) : v.lock = u.lock := by
  unfold CycleUnit.PlanHandled at h
  rw [h]

theorem State.publishes_of_locked {s : State} (h : s.cyc.lock = .locked) : s.publishes = true := by
  simp [State.publishes, h]

theorem State.publishes_of_acquiring {s : State} (h : s.cyc.lock = .acquiring) (hruns : s.cyc.runningDown = false) :
    s.publishes = false := by
  simp [State.publishes, h, hruns]

/-- The axes of a state whose axes are those of `s` or dropped to OFF are OFF with their entries where those of `s` are OFF. -/
theorem Axis.off_of_dropped {x y : Axis} (h : y = x ∨ y = x.toOff) (hoff : x.state = .off) :
    y.state = .off ∧ y.entries = x.entries := by
  rcases h with rfl | rfl
  · exact ⟨hoff, rfl⟩
  · exact ⟨rfl, rfl⟩

theorem frameEvent_taken (w : ShaftWork) {first : State → State} (hfirst : ∀ x : State, x.TripTaken (first x))
    (hleader : ∀ x : State, (first x).trip.tripLeader = x.trip.tripLeader) (c : CycleStart) (t : RxTime) (s : State) :
    s.FrameTaken w first c t (frameEvent w first c t s) := by
  obtain ⟨switched, elapsed, heq⟩ := frameEvent_eq w first c t s
  rw [heq]
  have hmoved := frameMoved_spec w c t s
  generalize frameMoved w c t s = m at *
  obtain ⟨hfields, hfieldsLeader, hcounted⟩ := takeTripFields_spec c m
  generalize takeTripFields c m = x at *
  have hraised := hfirst x
  have hraisedLeader := hleader x
  generalize hy : first x = y at *
  have hdropped := dropAllFaulted_eventWorked y
  have hdroppedAxis := dropAllFaulted_axisUnit y
  have hdroppedOff := dropAllFaulted_of_off (s := y)
  generalize dropAllFaulted y = z at *
  have hworked := finishEvent_eventWorked switched elapsed z
  have hcycle := finishEvent_raises switched elapsed z
  have hlive := finishEvent_live (b := switched) (elapsed := elapsed) (s := z)
  have hunpublished := finishEvent_unpublished (b := switched) (elapsed := elapsed) (s := z)
  generalize finishEvent switched elapsed z = u at *
  have htaken := hfields.trans hraised
  have hclosed := hdropped.trans hworked
  have hzm : z.cyc = m.cyc := hdropped.cyc.trans htaken.cyc
  have hum : u.cyc = m.cyc := hworked.cyc.trans hzm
  have hmlock : m.cyc.lock = s.cyc.lock := hmoved.cyc.lock
  have hmruns : m.cyc.runningDown = s.cyc.runningDown := hmoved.cyc.runningDown
  have hsilent (hlock : s.cyc.lock = .acquiring) (hruns : s.cyc.runningDown = false) : z.publishes = false :=
    State.publishes_of_acquiring (by rw [hzm, hmlock, hlock]) (by rw [hzm, hmruns, hruns])
  exact
    { links := hclosed.links.trans (htaken.links.trans hmoved.prepared.links)
      cyc := by rw [hum]; exact hmoved.cyc
      activePlan := by rw [hum]; exact hmoved.activePlan
      pendingSwitch := by rw [hum]; exact hmoved.pendingSwitch
      presence := by rw [hum]; exact hmoved.presence
      shaft := fun hstops i => by
        have hleading : m.stopsAtInstant = false := by
          have hcyc := hmoved.cyc
          unfold CycleUnit.PlanHandled at hcyc
          rw [← hstops]
          unfold State.stopsAtInstant State.leading
          rw [hcyc]
        obtain ⟨a, ha⟩ := htaken.shaft hleading i
        obtain ⟨b, hb⟩ := hclosed.keepsShaft (State.stopsAtInstant_congr htaken.cyc ▸ hleading) i
        exact ⟨b, by rw [hb, ha, hmoved.shaft]⟩
      taken := by
        rw [hclosed.shaftUnit, htaken.shaftUnit]
        exact hmoved.taken
      tripLeader := hclosed.tripLeader.trans (hraisedLeader.trans hfieldsLeader)
      stagedReset := by rw [hclosed.stagedReset, htaken.stagedReset, hmoved.prepared.trip]
      published := fun hlock => by
        have hmcycle : m.cyc.cycle = c.cycle := by
          have hcyc := hmoved.cyc
          unfold CycleUnit.PlanHandled at hcyc
          rw [hcyc]
        rw [hlive (State.publishes_of_locked (by rw [hzm, hmlock, hlock])), hzm, hmcycle]
      unpublished := fun hlock hruns => by
        unfold AxisUnit.OnlyAxes at hdroppedAxis
        rw [(hunpublished (hsilent hlock hruns)).1, hdroppedAxis, htaken.axisUnit, hmoved.prepared.axis]
      off := fun hlock hruns hoff i => by
        have hy (i : AxisNo) : (y.getAxis i).state = .off ∧ (y.getAxis i).entries = (s.getAxis i).entries := by
          rw [← hmoved.prepared.getAxis i]
          exact Axis.off_of_dropped (htaken.axis i) (by rw [hmoved.prepared.getAxis]; exact hoff i)
        have hzy : z = y := hdroppedOff fun i => (hy i).1
        obtain ⟨hstate, hentries⟩ := Axis.off_of_dropped ((hunpublished (hsilent hlock hruns)).2 i) (by rw [hzy]; exact (hy i).1)
        exact ⟨hstate, by rw [hentries, hzy, (hy i).2]⟩
      pulsed := by
        refine ⟨x, fun n => ?_, fun n hn => ?_, fun n hlatched => (hclosed.source n).2 ?_⟩
        · rw [← hmoved.prepared.getSource n]
          exact hcounted n
        · rw [hy]
          exact hclosed.raises n hn
        · rwa [hy] at hlatched
      cycle := hcycle
      ports := (hmoved.prepared.ports.trans htaken.ports).trans hclosed.ports
      locks := hclosed.locks.trans (htaken.locks.trans hmoved.prepared.locks)
      mem := by rw [hclosed.mem, htaken.mem, hmoved.prepared.pool]
      pending := hclosed.pending.trans (htaken.pending.trans hmoved.prepared.pending) }

end Sys2Proof.Machine
end

