-- ==== Sys2Proof/Proofs/CycleStarts.lean ====
section
/-!
PROOFS. CYCLE_STARTs received from another node: what forwarding leaves, how a frame is accepted or refused (R29, R37), and
the time lock's judgement in each lock state (R30 to R34).
-/

namespace Sys2Proof.Machine

/-! ### Forwarding a processed frame (R14, R16, R17) -/

/-- `t` is `s` after a frame was forwarded: an output's wire, the through buffer and its counts. -/
structure State.Forwarded (s t : State) : Prop where
  frame : t = { s with links := t.links, ring := t.ring }
  link : ∀ d : Side, t.link d = { s.link d with wire := (t.link d).wire }
  ring : t.ring = { s.ring with buffer := t.ring.buffer, hopDrops := t.ring.hopDrops, overflows := t.ring.overflows }

theorem State.Forwarded.refl (s : State) : s.Forwarded s := ⟨rfl, fun _ => rfl, rfl⟩

theorem modRing_forwarded {s : State} {f : RingPath → RingPath}
    (h : f s.ring = { s.ring with buffer := (f s.ring).buffer, hopDrops := (f s.ring).hopDrops,
                                  overflows := (f s.ring).overflows }) : s.Forwarded (s.modRing f) :=
  ⟨rfl, fun _ => rfl, h⟩

theorem sendOn_forwarded (d : Side) (w : WireFrame) (s : State) : s.Forwarded (sendOn d w s) := by
  refine ⟨rfl, fun e => ?_, rfl⟩
  unfold sendOn
  rw [State.modLink_link]
  split <;> rfl

theorem forward_forwarded (d : Side) (t : RxTime) (f : Frame) (s : State) : s.Forwarded (forward d t f s) := by
  unfold forward
  dsimp only
  split
  · exact modRing_forwarded rfl
  · split
    · exact sendOn_forwarded _ _ s
    · split
      · exact modRing_forwarded rfl
      · exact modRing_forwarded rfl

theorem forwardProcessed_forwarded (t : RxTime) (f : Frame) (s : State) : s.Forwarded (forwardProcessed t f s) := by
  unfold forwardProcessed
  split
  · exact forward_forwarded _ t f s
  · exact .refl s

theorem receiveFrame_of_processes {s : State} {d : Side} {f : Frame} (t : RxTime) (h : s.Processes d f) :
    receiveFrame d t f s =
      forwardProcessed t (handFrame t (f.arriveTransit (s.link d).delay) (s.passed d)).1
        (handFrame t (f.arriveTransit (s.link d).delay) (s.passed d)).2 := by
  obtain ⟨hreaches, hproc, hother⟩ := h
  rw [receiveFrame_of_reaches t hreaches, receiveRing_of_other (s := s.passed d) t hproc hother, State.passed_delay]

/-- A CYCLE_START of another node at the processing input is taken with its transit, and goes on. -/
theorem exec_cycleStart {s : State} {d : Side} {t : RxTime} {h : Header} {c : CycleStart}
    (hp : s.Processes d { hdr := h, body := .cycleStart c }) : ∃ u, exec (.cycleStartReceived d t h c) s = .next u ∧
      (takeCycleStart (c.arrived (s.link d).delay) t (s.passed d)).Forwarded u := by
  have harrived : c.addTransit (s.link d).delay = c.arrived (s.link d).delay := by
    simp [CycleStart.addTransit, CycleStart.arrived, BitVec.ofInt_natCast]
  refine ⟨_, congrArg Host.Outcome.next (receiveFrame_of_processes t hp), ?_⟩
  rw [← harrived]
  exact forwardProcessed_forwarded _ _ _

/-! ### Acceptance (R29, R37) -/

theorem State.modCyc_id {s : State} {f : CycleUnit → CycleUnit} (h : f s.cyc = s.cyc) : s.modCyc f = s := by
  unfold State.modCyc
  rw [h]

theorem State.not_leading_of_role {s : State} (h : s.cyc.role ≠ .leader) : s.leading = false := by simp [State.leading, h]

theorem takeCycleStart_accepts {c : CycleStart} {t : RxTime} {s : State} (hlead : s.leading = false)
    (h : s.cyc.accepts c = true) : takeCycleStart c t s = judge c t s := by
  simp [takeCycleStart, hlead, h]

theorem takeCycleStart_refuses {c : CycleStart} {t : RxTime} {s : State} (hlead : s.leading = false)
    (h : s.cyc.accepts c = false) : takeCycleStart c t s = s.modCyc fun u => { u with foreign := bump u.foreign } := by
  simp [takeCycleStart, hlead, h]

theorem takeCycleStart_yields {c : CycleStart} {t : RxTime} {s : State} (hlead : s.leading = true)
    (h : s.yields c = true) : takeCycleStart c t s = yieldTo c t s := by
  simp [takeCycleStart, hlead, h]

theorem takeCycleStart_keepsLeading {c : CycleStart} {t : RxTime} {s : State} (hlead : s.leading = true)
    (h : s.yields c = false) : takeCycleStart c t s = s.modCyc fun u => { u with foreign := bump u.foreign } := by
  simp [takeCycleStart, hlead, h]

/-- The frame of the followed leader and epoch is judged by the lock state. -/
theorem takeCycleStart_follows {c : CycleStart} {t : RxTime} {s : State} (hrole : s.cyc.role ≠ .leader)
    (hleader : s.cyc.leader = some c.leader) (hepoch : s.cyc.epoch = c.epoch) : takeCycleStart c t s =
      match s.cyc.lock with
      | .unlocked => enterAcquiring id c t s
      | .acquiring => judgeAcquiring c t s
      | .locked => judgeLocked c t s
      | .holdover => judgeHoldover c t s := by
  rw [takeCycleStart_accepts (State.not_leading_of_role hrole) (by simp [CycleUnit.accepts, hleader, hepoch]), judge]
  have hsame : (s.modCyc fun u => { u with epoch := c.epoch, leader := some c.leader }) = s :=
    State.modCyc_id (by rw [← hleader, ← hepoch])
  rw [hsame]
  exact if_neg hrole

/-! ### The shafts of a taken frame (R49, R51) -/

theorem takeWork_shaft (s : State) (good returning : Bool) (c : CycleStart) (runningDown : Bool) (view : TripClass)
    (window : Nat) (i : ShaftNo) (x : Shaft) : ∃ fault : Bool,
      (s.takeWork good returning c).shaft runningDown view window i x =
        { x.take c.shafts[i.val] with stepFault := fault } := by
  unfold State.takeWork
  split
  · exact ⟨_, rfl⟩
  · exact ⟨_, rfl⟩

theorem CycleUnit.predicted_of_reference {u : CycleUnit} {r : Reference} (h : u.reference = some r) (m : Cycle) :
    u.predicted m = r.send + (m - r.cycle).toNat * u.period := by
  simp [CycleUnit.predicted, h, cycleDist]

theorem CycleUnit.distance_of_reference {u : CycleUnit} {r : Reference} (h : u.reference = some r) (m : Cycle) :
    u.distance m = (m - r.cycle).toNat := by
  simp [CycleUnit.distance, h, cycleDist]

theorem CycleUnit.within_iff (u : CycleUnit) (eps : Int) :
    u.within eps = true ↔ -(u.config.captureMicros * 1000 : Int) ≤ eps ∧ eps ≤ u.config.captureMicros * 1000 := by
  rw [CycleUnit.within, CycleUnit.captureNs, decide_eq_true_iff]
  omega

/-! ### Entering ACQUIRING (R31, R37, R56) -/

/-- The state in which a node that enters ACQUIRING on a frame makes its cycle event. -/
def acquiringOn (c : CycleStart) (t : RxTime) (s : State) : State :=
  axesOff <| (setLock .acquiring s).modCyc fun u =>
    { (u.anchor c (c.estimated t)) with
      runningDown := false, good := 0, missed := 0, period := u.periodNs, epoch := c.epoch, leader := some c.leader }

theorem enterAcquiring_eq (first : State → State) (c : CycleStart) (t : RxTime) (s : State) : enterAcquiring first c t s =
    frameEvent (if s.cyc.lock = .unlocked then .takeFirst c else .take c) first c t (acquiringOn c t s) := rfl

theorem acquiringOn_frame (c : CycleStart) (t : RxTime) (s : State) : acquiringOn c t s =
    { s with
      cyc := { s.cyc.anchor c (c.estimated t) with
        lock := .acquiring, runningDown := false, good := 0, missed := 0, period := s.cyc.periodNs, epoch := c.epoch
        leader := some c.leader }
      axis := (axesOff s).axis
      ports := (acquiringOn c t s).ports } := by
  unfold acquiringOn
  have hframe := setLock_eq_frame .acquiring s
  generalize setLock .acquiring s = x at *
  rw [hframe]
  rfl

theorem acquiringOn_raises {c : CycleStart} {t : RxTime} {s : State} (h : s.cyc.lock ≠ .acquiring) (p : Port) :
    (acquiringOn c t s).flag p .timelock = true := setLock_raises h p

theorem acquiringOn_getAxis (c : CycleStart) (t : RxTime) (s : State) (i : AxisNo) :
    ((acquiringOn c t s).getAxis i).state = .off ∧ ((acquiringOn c t s).getAxis i).entries = (s.getAxis i).entries := by
  have haxis : (acquiringOn c t s).getAxis i = (axesOff s).getAxis i :=
    State.getAxis_congr (by rw [acquiringOn_frame]) i
  rw [haxis]
  refine ⟨axesOff_off s i, ?_⟩
  rcases Axis.toOff_of_axesOff s i with h | h <;> rw [h]
  rfl

theorem acquiringOn_stopsAtInstant {c : CycleStart} {t : RxTime} {s : State} (h : s.leading = false) :
    (acquiringOn c t s).stopsAtInstant = false := by
  have hlead : (acquiringOn c t s).leading = s.leading := by
    unfold State.leading
    rw [acquiringOn_frame]
    rfl
  rw [State.stopsAtInstant, hlead, h, acquiringOn_frame]
  rfl

/-- What the cycle event with which a node enters ACQUIRING leaves of the state before. -/
structure State.Acquires (w : ShaftWork) (first : State → State) (c : CycleStart) (t : RxTime) (s u : State) : Prop where
  cyc : { s.cyc.anchor c (c.estimated t) with
      lock := .acquiring, runningDown := false, good := 0, missed := 0, period := s.cyc.periodNs, epoch := c.epoch
      leader := some c.leader, cycle := c.cycle, cycleSend := c.estimated t, ring := c.ring }.PlanHandled u.cyc
  activePlan : u.cyc.activePlan = c.activePlan
  pendingSwitch : u.cyc.pendingSwitch = c.pendingSwitch
  presence : ∀ a : Fin 31, u.cyc.presence[a.val] = none
  shaft : s.leading = false → ∀ i : ShaftNo, ∃ target : Int, u.getShaft i =
    { w.shaft false s.trip.view s.shafts.resyncWindow i (s.getShaft i) with target := target }
  taken : u.shafts.lastTaken = w.taken.or s.shafts.lastTaken
  tripLeader : u.trip.tripLeader = some c.leaderId
  stagedReset : u.trip.stagedReset = s.trip.stagedReset
  axis : ∀ i : AxisNo, (u.getAxis i).state = .off ∧ (u.getAxis i).entries = (s.getAxis i).entries
  pulsed : ∃ x : State, s.SourcesCounted x ∧
    (∀ n : SourceNo, leadershipSource n → (u.getSource n).raises = ((first x).getSource n).raises) ∧
    ∀ n : SourceNo, ((first x).getSource n).latched = true → (u.getSource n).latched = true
  timelock : s.cyc.lock ≠ .acquiring → ∀ p : Port, u.flag p .timelock = true
  cycle : ∀ p : Port, u.flag p .cycle = true
  locks : u.locks = s.locks
  mem : u.pool.mem = s.pool.mem
  pending : u.pending = s.pending

theorem enterAcquiring_acquires {first : State → State} (hfirst : ∀ x : State, x.TripTaken (first x))
    (hleader : ∀ x : State, (first x).trip.tripLeader = x.trip.tripLeader) (c : CycleStart) (t : RxTime) (s : State) :
    s.Acquires (if s.cyc.lock = .unlocked then .takeFirst c else .take c) first c t (enterAcquiring first c t s) := by
  rw [enterAcquiring_eq]
  generalize (if s.cyc.lock = .unlocked then ShaftWork.takeFirst c else .take c) = w
  have hframe := acquiringOn_frame c t s
  have htimelock := acquiringOn_raises (c := c) (t := t) (s := s)
  have haxis := acquiringOn_getAxis c t s
  have hstops := acquiringOn_stopsAtInstant (c := c) (t := t) (s := s)
  generalize acquiringOn c t s = a at *
  have htaken := frameEvent_taken w hfirst hleader c t a
  generalize frameEvent w first c t a = u at *
  have hacyc : a.cyc = { s.cyc.anchor c (c.estimated t) with
      lock := .acquiring, runningDown := false, good := 0, missed := 0, period := s.cyc.periodNs, epoch := c.epoch
      leader := some c.leader } := by rw [hframe]
  have hshafts : a.shafts = s.shafts := by rw [hframe]
  exact
    { cyc := by
        have := htaken.cyc
        rwa [hacyc] at this
      activePlan := htaken.activePlan
      pendingSwitch := htaken.pendingSwitch
      presence := htaken.presence
      shaft := fun hlead i => by
        have := htaken.shaft (hstops hlead) i
        rwa [hacyc, show a.trip = s.trip by rw [hframe], hshafts, State.getShaft_congr hshafts] at this
      taken := by rw [htaken.taken, hshafts]
      tripLeader := htaken.tripLeader
      stagedReset := by rw [htaken.stagedReset, hframe]
      axis := fun i => by
        obtain ⟨hstate, hentries⟩ := htaken.off (by rw [hacyc]) (by rw [hacyc]) (fun i => (haxis i).1) i
        exact ⟨hstate, hentries.trans (haxis i).2⟩
      pulsed := by
        obtain ⟨x, hcounted, hraises⟩ := htaken.pulsed
        refine ⟨x, fun n => ?_, hraises⟩
        have hn := hcounted n
        rwa [State.getSource_congr (show a.trip = s.trip by rw [hframe])] at hn
      timelock := fun hlock p => (htaken.ports p).2 _ (htimelock hlock p)
      cycle := htaken.cycle
      locks := by rw [htaken.locks, hframe]
      mem := by rw [htaken.mem, hframe]
      pending := by rw [htaken.pending, hframe] }

/-! ### The first frame (R31) -/

theorem takeCycleStart_first {c : CycleStart} {t : RxTime} {s : State} (hrole : s.cyc.role ≠ .leader)
    (hleader : s.cyc.leader = none) (hlock : s.cyc.lock = .unlocked) : takeCycleStart c t s =
      enterAcquiring id c t (s.modCyc fun u => { u with epoch := c.epoch, leader := some c.leader }) := by
  have haccepts : s.cyc.accepts c = true := by simp [CycleUnit.accepts, hleader]
  rw [takeCycleStart_accepts (State.not_leading_of_role hrole) haccepts]
  simp [judge, hrole, hlock]

/-- Settles O19: an unlocked node that follows nobody enters ACQUIRING on the frame. -/
theorem firstCycleStartStartsAcquiring : Obligations.FirstCycleStartStartsAcquiring := by
  intro s d t h c hprocesses hrole hleader hlock
  obtain ⟨u, hexec, hforwarded⟩ := exec_cycleStart (t := t) hprocesses
  refine ⟨u, hexec, ?_⟩
  generalize hc : c.arrived (s.link d).delay = c' at *
  rw [takeCycleStart_first (s := s.passed d) hrole hleader hlock] at hforwarded
  generalize hx : (s.passed d).modCyc _ = x at hforwarded
  have hlead : x.leading = false := State.not_leading_of_role (by rw [← hx]; exact hrole)
  have hacquires := enterAcquiring_acquires (first := id) .refl (fun _ => rfl) c' t x
  have hxlock : x.cyc.lock = .unlocked := by rw [← hx]; exact hlock
  rw [if_pos hxlock] at hacquires
  have htimelock := hacquires.timelock (by rw [hxlock]; decide)
  have hcyc := hacquires.cyc
  have hu := hforwarded.frame
  generalize enterAcquiring id c' t x = y at *
  generalize u.links = links at hu
  generalize u.ring = ring at hu
  subst hu
  unfold CycleUnit.PlanHandled at hcyc
  subst hx hc
  refine ⟨congrArg CycleUnit.lock hcyc, congrArg CycleUnit.cycle hcyc, congrArg CycleUnit.epoch hcyc,
    congrArg CycleUnit.leader hcyc, congrArg CycleUnit.reference hcyc, congrArg CycleUnit.refTransit hcyc,
    congrArg CycleUnit.period hcyc, congrArg CycleUnit.good hcyc, congrArg CycleUnit.missed hcyc,
    congrArg CycleUnit.runningDown hcyc, hacquires.activePlan, hacquires.pendingSwitch, congrArg CycleUnit.ring hcyc,
    (congrArg CycleUnit.config hcyc :), (congrArg CycleUnit.address hcyc :), (congrArg CycleUnit.attached hcyc :),
    (congrArg CycleUnit.role hcyc :), (congrArg CycleUnit.rosters hcyc :), (congrArg CycleUnit.missing hcyc :),
    hacquires.presence, fun i => ?_, hacquires.taken, hacquires.axis, hacquires.tripLeader, fun p => ⟨hacquires.cycle p, htimelock p⟩,
    hacquires.locks, hacquires.mem, hacquires.pending⟩
  obtain ⟨target, htarget⟩ := hacquires.shaft hlead i
  change (y.getShaft i).pos = _ ∧ (y.getShaft i).vel = _ ∧ (y.getShaft i).step = _ ∧ (y.getShaft i).stepFault = _ ∧
    (y.getShaft i).aUp = _ ∧ (y.getShaft i).aQuick = _
  rw [htarget]
  exact ⟨rfl, rfl, rfl, rfl, rfl, rfl⟩

/-! ### Frames of the followed leader (R30, R32 to R34) -/

theorem State.stopsAtInstant_of_following {s : State} (hrole : s.cyc.role ≠ .leader) (hlock : s.cyc.lock ≠ .holdover)
    (hruns : s.cyc.runningDown = false) : s.stopsAtInstant = false := by
  simp [State.stopsAtInstant, State.not_leading_of_role hrole, hlock, hruns]

/-- What a frame's event leaves where the cycle unit alone had worked on it before. -/
structure State.FrameJudged (c : CycleStart) (t : RxTime) (s b u : State) : Prop where
  cyc : { b.cyc with cycle := c.cycle, cycleSend := c.estimated t, ring := c.ring }.PlanHandled u.cyc
  activePlan : u.cyc.activePlan = c.activePlan
  pendingSwitch : u.cyc.pendingSwitch = c.pendingSwitch
  shaft : ∀ i : ShaftNo, (u.getShaft i).pos = c.shafts[i.val].posInt ++ c.shafts[i.val].posFrac ∧
    (u.getShaft i).vel = c.shafts[i.val].vel ∧
    (u.getShaft i).step = (c.shafts[i.val].posInt - (s.getShaft i).posInt).toInt
  published : b.cyc.lock = .locked → u.axis.live.cycle = c.cycle
  unpublished : b.cyc.lock = .acquiring → u.axis.live = s.axis.live
  cycle : ∀ p : Port, u.flag p .cycle = true
  ports : b.OnlyRaises u
  locks : u.locks = s.locks
  mem : u.pool.mem = s.pool.mem
  pending : u.pending = s.pending

theorem frameEvent_judged {s b x : State} (hb : s.CycleOnly b) (hrole : b.cyc.role ≠ .leader) (hlock : b.cyc.lock ≠ .holdover)
    (hruns : b.cyc.runningDown = false) (good returning : Bool) (c : CycleStart) (t : RxTime) :
    s.FrameJudged c t b (frameEvent (x.takeWork good returning c) id c t b) := by
  have h := frameEvent_taken (x.takeWork good returning c) (first := id) .refl (fun _ => rfl) c t b
  generalize frameEvent _ id c t b = u at *
  exact
    { cyc := h.cyc
      activePlan := h.activePlan
      pendingSwitch := h.pendingSwitch
      shaft := fun i => by
        obtain ⟨target, htarget⟩ := h.shaft (State.stopsAtInstant_of_following hrole hlock hruns) i
        obtain ⟨fault, hfault⟩ := takeWork_shaft x good returning c b.cyc.runningDown b.trip.view b.shafts.resyncWindow i
          (b.getShaft i)
        rw [htarget, hfault, State.getShaft_congr hb.shafts]
        exact ⟨rfl, rfl, rfl⟩
      published := h.published
      unpublished := fun hl => (h.unpublished hl hruns).trans (by rw [hb.axis])
      cycle := h.cycle
      ports := h.ports
      locks := h.locks.trans (by rw [hb.frame])
      mem := h.mem.trans (by rw [hb.frame])
      pending := h.pending.trans (by rw [hb.frame]) }

section
variable {s : State} {c : CycleStart} {t : RxTime} {r : Reference}

/-- The cycle unit's values at a good frame in LOCKED. -/
def CycleUnit.kept (u : CycleUnit) (c : CycleStart) (est eps : Int) : CycleUnit :=
  { u.anchor c est with lastEps := eps, period := u.corrected eps }

theorem judgeLocked_good (hlock : s.cyc.lock = .locked) (hrole : s.cyc.role ≠ .leader) (hruns : s.cyc.runningDown = false)
    (href : s.cyc.reference = some r) (hk : (c.cycle - r.cycle).toNat = 1) {eps : Int}
    (heps : eps = c.estimated t - (r.send + s.cyc.period)) (hwithin : s.cyc.within eps = true) :
    s.FrameJudged c t (s.modCyc fun u => u.kept c (c.estimated t) eps) (judgeLocked c t s) := by
  have hpredicted : c.estimated t - s.cyc.predicted c.cycle = eps := by
    rw [CycleUnit.predicted_of_reference href, hk, heps]
    simp
  have hdistance : s.cyc.distance c.cycle = 1 := (CycleUnit.distance_of_reference href _).trans hk
  unfold judgeLocked
  dsimp only
  rw [hpredicted, if_pos ⟨hdistance, hwithin⟩]
  exact frameEvent_judged (b := s.modCyc fun u => u.kept c (c.estimated t) eps) (modCyc_cycleOnly s _) hrole (by change s.cyc.lock ≠ _; rw [hlock]; decide) hruns _ _ _ _

theorem judgeLocked_ignores {eps : Int} (heps : c.estimated t - s.cyc.predicted c.cycle = eps)
    (h : ¬(s.cyc.distance c.cycle = 1 ∧ s.cyc.within eps = true)) : judgeLocked c t s = ignoreFrame eps s := by
  unfold judgeLocked
  dsimp only
  rw [heps, if_neg h]

/-- Whether a frame in ACQUIRING is near: one cycle from the reference and within half a local period. -/
def CycleUnit.near (u : CycleUnit) (k : Nat) (eps : Int) : Bool := decide (k = 1) && decide (2 * (eps.natAbs : Int) ≤ u.period)

theorem CycleUnit.near_iff (u : CycleUnit) (k : Nat) (eps : Int) :
    u.near k eps = true ↔ k = 1 ∧ -u.period ≤ 2 * eps ∧ 2 * eps ≤ u.period := by
  rw [CycleUnit.near, Bool.and_eq_true, decide_eq_true_iff, decide_eq_true_iff]
  omega

/-- The good count after a frame in ACQUIRING. -/
def CycleUnit.gained (u : CycleUnit) (k : Nat) (eps : Int) : Nat :=
  if u.near k eps && u.within eps then min (u.good + 1) 64 else 0

/-- The cycle unit's values at a frame in ACQUIRING, but for the lock state. -/
def CycleUnit.acquired (u : CycleUnit) (c : CycleStart) (est eps : Int) (k : Nat) : CycleUnit :=
  { u.anchor c est with
    lastEps := eps
    period := if u.near k eps then u.corrected eps else u.period
    missed := if u.near k eps then 0 else u.missed
    good := u.gained k eps }

/-- The state in which the event of a frame in ACQUIRING starts. -/
def State.acquired (s : State) (c : CycleStart) (est eps : Int) (k : Nat) : State :=
  let x := s.modCyc fun u => u.acquired c est eps k
  if s.cyc.config.lockCount ≤ s.cyc.gained k eps then setLock .locked x else x

theorem State.acquired_cycleOnly (s : State) (c : CycleStart) (est eps : Int) (k : Nat) :
    s.CycleOnly (s.acquired c est eps k) := by
  unfold State.acquired
  dsimp only
  split
  · exact (modCyc_cycleOnly s _).trans (setLock_cycleOnly _ _)
  · exact modCyc_cycleOnly s _

theorem State.acquired_cyc (hlock : s.cyc.lock = .acquiring) (est eps : Int) (k : Nat) : (s.acquired c est eps k).cyc =
    { s.cyc.acquired c est eps k with
      lock := if s.cyc.config.lockCount ≤ s.cyc.gained k eps then .locked else .acquiring } := by
  unfold State.acquired
  dsimp only
  split
  · rw [setLock_cyc]
    rfl
  · rw [← hlock]
    rfl

theorem State.acquired_raises (hlock : s.cyc.lock = .acquiring) {est eps : Int} {k : Nat}
    (h : s.cyc.config.lockCount ≤ s.cyc.gained k eps) (p : Port) : (s.acquired c est eps k).flag p .timelock = true := by
  unfold State.acquired
  dsimp only
  rw [if_pos h]
  exact setLock_raises (by change s.cyc.lock ≠ _; rw [hlock]; decide) p

theorem judgeAcquiring_judged (hlock : s.cyc.lock = .acquiring) (hrole : s.cyc.role ≠ .leader)
    (hruns : s.cyc.runningDown = false) {eps : Int} (heps : c.estimated t - s.cyc.predicted c.cycle = eps) :
    s.FrameJudged c t (s.acquired c (c.estimated t) eps (s.cyc.distance c.cycle)) (judgeAcquiring c t s) := by
  have hcyc := State.acquired_cyc (c := c) hlock (c.estimated t) eps (s.cyc.distance c.cycle)
  have honly := s.acquired_cycleOnly c (c.estimated t) eps (s.cyc.distance c.cycle)
  have heq : judgeAcquiring c t s = frameEvent (s.takeWork (s.cyc.near (s.cyc.distance c.cycle) eps && s.cyc.within eps) false c)
      id c t (s.acquired c (c.estimated t) eps (s.cyc.distance c.cycle)) := by
    subst heps
    rfl
  rw [heq]
  generalize s.acquired c (c.estimated t) eps _ = b at *
  refine frameEvent_judged honly (by rw [hcyc]; exact hrole) ?_ (by rw [hcyc]; exact hruns) _ _ _ _
  rw [hcyc]
  dsimp only
  split <;> decide

/-- The state in which a frame in HOLDOVER has returned the node to LOCKED. -/
def State.returned (s : State) (c : CycleStart) (est eps : Int) (k : Nat) : State :=
  setLock .locked <| s.modCyc fun u =>
    { u.anchor c est with lastEps := eps, period := if k = 1 then u.corrected eps else u.period, missed := 0 }

theorem State.returned_cycleOnly (s : State) (c : CycleStart) (est eps : Int) (k : Nat) :
    s.CycleOnly (s.returned c est eps k) := (modCyc_cycleOnly s _).trans (setLock_cycleOnly _ _)

theorem State.returned_cyc (s : State) (c : CycleStart) (est eps : Int) (k : Nat) : (s.returned c est eps k).cyc =
    { s.cyc.anchor c est with
      lock := .locked, lastEps := eps, period := if k = 1 then s.cyc.corrected eps else s.cyc.period, missed := 0 } :=
  setLock_cyc _ _

theorem State.returned_raises (h : s.cyc.lock ≠ .locked) (est eps : Int) (k : Nat) (p : Port) :
    (s.returned c est eps k).flag p .timelock = true := by
  unfold State.returned
  exact setLock_raises (by exact h) p

theorem judgeHoldover_next (hrole : s.cyc.role ≠ .leader) (hruns : s.cyc.runningDown = false) {eps : Int}
    (heps : c.estimated t - s.cyc.predicted c.cycle = eps) (hwithin : s.cyc.within eps = true)
    (hk : s.cyc.distance c.cycle = s.cyc.missed + 1) :
    s.FrameJudged c t (s.returned c (c.estimated t) eps (s.cyc.distance c.cycle)) (judgeHoldover c t s) := by
  have hcyc := s.returned_cyc c (c.estimated t) eps (s.cyc.distance c.cycle)
  have honly := s.returned_cycleOnly c (c.estimated t) eps (s.cyc.distance c.cycle)
  have heq : judgeHoldover c t s =
      frameEvent ((s.returned c (c.estimated t) eps (s.cyc.distance c.cycle)).takeWork true true c) id c t
        (s.returned c (c.estimated t) eps (s.cyc.distance c.cycle)) := by
    unfold judgeHoldover
    dsimp only
    rw [heps, hwithin, decide_eq_true hk, Bool.or_true, Bool.true_and, if_pos rfl, if_pos hk]
    rfl
  rw [heq]
  generalize s.returned c (c.estimated t) eps _ = b at *
  exact frameEvent_judged honly (by rw [hcyc]; exact hrole) (by rw [hcyc]; exact nofun) (by rw [hcyc]; exact hruns) _ _ _ _

/-- A late frame returns the node to LOCKED without a cycle event. -/
theorem judgeHoldover_late {eps : Int} (heps : c.estimated t - s.cyc.predicted c.cycle = eps)
    (hwithin : s.cyc.within eps = true) (hk : s.cyc.distance c.cycle = s.cyc.missed) : judgeHoldover c t s =
      takeTripFields c ((s.returned c (c.estimated t) eps (s.cyc.distance c.cycle)).modShafts fun u =>
        { u with resyncPending := true }) := by
  unfold judgeHoldover
  dsimp only
  rw [heps, hwithin, decide_eq_true hk, Bool.true_or, Bool.true_and, if_pos rfl, if_neg (by omega)]
  rfl

end

end Sys2Proof.Machine
end

