-- ==== Sys2Proof/Proofs/TimeLock.lean ====
section
/-!
PROOFS. The time lock at a frame of the followed leader (R30, R32 to R34), frames that are not taken, and a leading node that
yields (R29, R33, R37).
-/

namespace Sys2Proof.Machine

/-- A frame of the followed leader and epoch is judged by the lock state, and goes on. -/
theorem exec_cycleStart_follows {s : State} {d : Side} {t : RxTime} {h : Header} {c : CycleStart}
    (hp : s.Processes d { hdr := h, body := .cycleStart c }) (hrole : s.cyc.role ≠ .leader)
    (hleader : s.cyc.leader = some c.leader) (hepoch : s.cyc.epoch = c.epoch) :
    ∃ u, exec (.cycleStartReceived d t h c) s = .next u ∧
      (match s.cyc.lock with
      | .unlocked => enterAcquiring id (c.arrived (s.link d).delay) t (s.passed d)
      | .acquiring => judgeAcquiring (c.arrived (s.link d).delay) t (s.passed d)
      | .locked => judgeLocked (c.arrived (s.link d).delay) t (s.passed d)
      | .holdover => judgeHoldover (c.arrived (s.link d).delay) t (s.passed d)).Forwarded u := by
  obtain ⟨u, hexec, hforwarded⟩ := exec_cycleStart (t := t) hp
  rw [takeCycleStart_follows (s := s.passed d) (c := c.arrived (s.link d).delay) hrole hleader hepoch] at hforwarded
  exact ⟨u, hexec, hforwarded⟩

/-- Settles O20, by the judgement of a good frame in LOCKED and of any frame in ACQUIRING. -/
theorem goodCycleStartsGainAndKeepTheLock : Obligations.GoodCycleStartsGainAndKeepTheLock := by
  refine ⟨fun s d t h c r hprocesses hrole hruns hleader hepoch hlock href hk => ?_,
    fun s d t h c r hprocesses hrole hruns hleader hepoch hlock href => ?_⟩
  · intro est eps hlow hhigh
    obtain ⟨u, hexec, hforwarded⟩ := exec_cycleStart_follows (t := t) hprocesses hrole hleader hepoch
    rw [hlock] at hforwarded
    refine ⟨u, hexec, ?_⟩
    have hjudged := judgeLocked_good (s := s.passed d) (c := c.arrived (s.link d).delay) (t := t) (eps := eps) hlock hrole hruns
      href hk rfl ((CycleUnit.within_iff _ _).mpr ⟨hlow, hhigh⟩)
    generalize judgeLocked (c.arrived (s.link d).delay) t (s.passed d) = y at *
    have hcyc := hjudged.cyc
    have hu := hforwarded.frame
    generalize u.links = links at hu
    generalize u.ring = ring at hu
    subst hu
    unfold CycleUnit.PlanHandled at hcyc
    exact ⟨(congrArg CycleUnit.lock hcyc).trans hlock, congrArg CycleUnit.cycle hcyc, congrArg CycleUnit.reference hcyc,
      congrArg CycleUnit.lastEps hcyc, congrArg CycleUnit.period hcyc, (congrArg CycleUnit.missed hcyc :),
      (congrArg CycleUnit.good hcyc :), (congrArg CycleUnit.leader hcyc :), (congrArg CycleUnit.epoch hcyc :),
      hjudged.activePlan, hjudged.pendingSwitch, congrArg CycleUnit.ring hcyc, (congrArg CycleUnit.outOfWindow hcyc :),
      hjudged.shaft, hjudged.published hlock, hjudged.cycle, hjudged.locks, hjudged.mem, hjudged.pending⟩
  · intro k est eps near good
    obtain ⟨u, hexec, hforwarded⟩ := exec_cycleStart_follows (t := t) hprocesses hrole hleader hepoch
    rw [hlock] at hforwarded
    refine ⟨u, hexec, ?_⟩
    have hk : s.cyc.distance c.cycle = k := CycleUnit.distance_of_reference href _
    have heps : (c.arrived (s.link d).delay).estimated t - s.cyc.predicted c.cycle = eps := by
      rw [CycleUnit.predicted_of_reference href]
      rfl
    have hnear : s.cyc.near k eps = true ↔ near := CycleUnit.near_iff _ _ _
    have hgood : s.cyc.gained k eps = good := by
      unfold CycleUnit.gained good
      simp only [Bool.and_eq_true, hnear, CycleUnit.within_iff]
    have hjudged := judgeAcquiring_judged (s := s.passed d) (c := c.arrived (s.link d).delay) (t := t) hlock hrole hruns heps
    have hbcyc := State.acquired_cyc (s := s.passed d) (c := c.arrived (s.link d).delay) hlock
      ((c.arrived (s.link d).delay).estimated t) eps k
    have htimelock := State.acquired_raises (s := s.passed d) (c := c.arrived (s.link d).delay) hlock
      (est := (c.arrived (s.link d).delay).estimated t) (eps := eps) (k := k)
    have hpassed : (s.passed d).cyc = s.cyc := rfl
    have harrived : (c.arrived (s.link d).delay).cycle = c.cycle := rfl
    rw [hpassed, harrived, hk] at hjudged
    rw [hpassed, hgood] at hbcyc htimelock
    generalize judgeAcquiring (c.arrived (s.link d).delay) t (s.passed d) = y at *
    generalize (s.passed d).acquired _ _ eps k = b at hjudged hbcyc htimelock
    have hcyc := hjudged.cyc
    have hu := hforwarded.frame
    generalize u.links = links at hu
    generalize u.ring = ring at hu
    subst hu
    unfold CycleUnit.PlanHandled at hcyc
    rw [hbcyc] at hcyc
    have hyport := hjudged.ports
    refine ⟨(congrArg CycleUnit.good hcyc).trans hgood, congrArg CycleUnit.lastEps hcyc, congrArg CycleUnit.reference hcyc,
      congrArg CycleUnit.refTransit hcyc, fun hn => ⟨(congrArg CycleUnit.missed hcyc).trans (if_pos (hnear.mpr hn)),
        (congrArg CycleUnit.period hcyc).trans (if_pos (hnear.mpr hn))⟩,
      fun hn => ⟨(congrArg CycleUnit.missed hcyc).trans (if_neg fun h => hn (hnear.mp h)),
        (congrArg CycleUnit.period hcyc).trans (if_neg fun h => hn (hnear.mp h))⟩,
      fun hcount => ⟨(congrArg CycleUnit.lock hcyc).trans (if_pos hcount),
        hjudged.published ((congrArg CycleUnit.lock hbcyc).trans (if_pos hcount)),
        fun p => (hyport p).2 _ (htimelock hcount p)⟩,
      fun hcount => ⟨(congrArg CycleUnit.lock hcyc).trans (if_neg (Nat.not_le.mpr hcount)),
        hjudged.unpublished ((congrArg CycleUnit.lock hbcyc).trans (if_neg (Nat.not_le.mpr hcount)))⟩,
      congrArg CycleUnit.cycle hcyc, (congrArg CycleUnit.leader hcyc :), (congrArg CycleUnit.epoch hcyc :),
      (congrArg CycleUnit.role hcyc :), hjudged.activePlan, hjudged.pendingSwitch, congrArg CycleUnit.ring hcyc,
      (congrArg CycleUnit.outOfWindow hcyc :), (congrArg CycleUnit.config hcyc :), hjudged.shaft, hjudged.cycle, hjudged.locks,
      hjudged.mem, hjudged.pending⟩

/-- Settles O21: a frame one past the missed count makes a cycle event, one at the missed count does not. -/
theorem holdoverReturnsToLocked : Obligations.HoldoverReturnsToLocked := by
  intro s d t h c r hprocesses hrole hruns hleader hepoch hlock href k est eps hlow hhigh hdist
  obtain ⟨u, hexec, hforwarded⟩ := exec_cycleStart_follows (t := t) hprocesses hrole hleader hepoch
  rw [hlock] at hforwarded
  refine ⟨u, hexec, ?_⟩
  have hk : s.cyc.distance c.cycle = k := CycleUnit.distance_of_reference href _
  have heps : (c.arrived (s.link d).delay).estimated t - s.cyc.predicted c.cycle = eps := by
    rw [CycleUnit.predicted_of_reference href]
    rfl
  have hwithin : (s.passed d).cyc.within eps = true := (CycleUnit.within_iff _ _).mpr ⟨hlow, hhigh⟩
  have hpassed : (s.passed d).cyc = s.cyc := rfl
  have harrived : (c.arrived (s.link d).delay).cycle = c.cycle := rfl
  have hbcyc := (s.passed d).returned_cyc (c.arrived (s.link d).delay) ((c.arrived (s.link d).delay).estimated t) eps k
  have hbraises := State.returned_raises (s := s.passed d) (c := c.arrived (s.link d).delay)
    (show s.cyc.lock ≠ .locked by rw [hlock]; decide) ((c.arrived (s.link d).delay).estimated t) eps k
  have hbonly := (s.passed d).returned_cycleOnly (c.arrived (s.link d).delay) ((c.arrived (s.link d).delay).estimated t) eps k
  have hu := hforwarded.frame
  generalize u.links = links at hu
  generalize u.ring = ring at hu
  subst hu
  rcases hdist with hlate | hnext
  · rw [judgeHoldover_late (s := s.passed d) heps hwithin (hk.trans hlate), hpassed, harrived, hk]
    generalize (s.passed d).returned _ _ eps k = b at *
    obtain ⟨htaken, -, -⟩ := takeTripFields_spec (c.arrived (s.link d).delay)
      (b.modShafts fun u => { u with resyncPending := true })
    generalize takeTripFields _ _ = y at *
    have hcyc : y.cyc = _ := htaken.cyc.trans hbcyc
    have hstops : (b.modShafts fun u => { u with resyncPending := true }).stopsAtInstant = false :=
      State.stopsAtInstant_of_following (by change b.cyc.role ≠ _; rw [hbcyc]; exact hrole)
        (by change b.cyc.lock ≠ _; rw [hbcyc]; exact nofun) (by change b.cyc.runningDown = _; rw [hbcyc]; exact hruns)
    have hlive : y.axis.live = s.axis.live := by
      rw [htaken.axisUnit]
      change b.axis.live = _
      rw [hbonly.axis]
      rfl
    have hresync : y.shafts.resyncPending = true := by rw [htaken.shaftUnit]; rfl
    have hshaft (i : ShaftNo) : (y.getShaft i).pos = (s.getShaft i).pos ∧ (y.getShaft i).vel = (s.getShaft i).vel ∧
        (y.getShaft i).step = (s.getShaft i).step := by
      obtain ⟨target, htarget⟩ := htaken.shaft hstops i
      have hb : (b.modShafts fun u => { u with resyncPending := true }).getShaft i = s.getShaft i :=
        State.getShaft_congr hbonly.shafts i
      rw [htarget, hb]
      exact ⟨rfl, rfl, rfl⟩
    have hkept : y.locks = s.locks ∧ y.pool.mem = s.pool.mem ∧ y.pending = s.pending := by
      refine ⟨htaken.locks.trans ?_, htaken.mem.trans ?_, htaken.pending.trans ?_⟩
      · change b.locks = _
        rw [hbonly.frame]
        rfl
      · change b.pool.mem = _
        rw [hbonly.frame]
        rfl
      · change b.pending = _
        rw [hbonly.frame]
        rfl
    exact ⟨congrArg CycleUnit.lock hcyc, congrArg CycleUnit.missed hcyc, congrArg CycleUnit.lastEps hcyc,
      congrArg CycleUnit.reference hcyc, congrArg CycleUnit.period hcyc, fun p => (htaken.ports p).2 _ (hbraises p),
      fun hnext => absurd (hlate.symm.trans hnext) (by omega),
      fun _ => ⟨(congrArg CycleUnit.cycle hcyc :), hresync, (congrArg CycleUnit.activePlan hcyc :), hlive, hshaft⟩, hkept⟩
  · have hjudged := judgeHoldover_next (s := s.passed d) hrole hruns heps hwithin (hk.trans hnext)
    rw [hpassed, harrived, hk] at hjudged
    generalize judgeHoldover _ t (s.passed d) = y at *
    generalize (s.passed d).returned _ _ eps k = b at hjudged hbcyc hbraises
    have hcyc := hjudged.cyc
    unfold CycleUnit.PlanHandled at hcyc
    rw [hbcyc] at hcyc
    exact ⟨congrArg CycleUnit.lock hcyc, congrArg CycleUnit.missed hcyc, congrArg CycleUnit.lastEps hcyc,
      congrArg CycleUnit.reference hcyc, congrArg CycleUnit.period hcyc, fun p => (hjudged.ports p).2 _ (hbraises p),
      fun _ => ⟨congrArg CycleUnit.cycle hcyc, hjudged.published (congrArg CycleUnit.lock hbcyc), hjudged.activePlan,
        hjudged.cycle, hjudged.shaft⟩,
      fun hlate => absurd (hlate.symm.trans hnext) (by omega), hjudged.locks, hjudged.mem, hjudged.pending⟩

/-! ### Frames that are not taken (R29, R33, R37) -/

/-- A frame at which the cycle unit does not start an event changes that unit alone. -/
theorem exec_cycleStart_counted {s : State} {d : Side} {t : RxTime} {h : Header} {c : CycleStart} {f : CycleUnit → CycleUnit}
    (hp : s.Processes d { hdr := h, body := .cycleStart c })
    (htake : takeCycleStart (c.arrived (s.link d).delay) t (s.passed d) = (s.passed d).modCyc f) :
    ∃ u, exec (.cycleStartReceived d t h c) s = .next u ∧ u.cyc = f s.cyc ∧ u.shafts = s.shafts ∧ u.axis = s.axis ∧
      u.trip = s.trip ∧ u.chan = s.chan ∧ u.ports = s.ports ∧ u.clock = s.clock ∧ s.SharedKept u := by
  obtain ⟨u, hexec, hforwarded⟩ := exec_cycleStart (t := t) hp
  rw [htake] at hforwarded
  have hu := hforwarded.frame
  refine ⟨u, hexec, ?_⟩
  rw [hu]
  exact ⟨rfl, rfl, rfl, rfl, rfl, rfl, rfl, rfl, rfl, rfl⟩

theorem takeCycleStart_counts {s : State} {c : CycleStart} {t : RxTime}
    (h : (s.leading = true ∧ s.yields c = false) ∨ (s.leading = false ∧ s.cyc.accepts c = false)) :
    takeCycleStart c t s = s.modCyc fun u => { u with foreign := bump u.foreign } := by
  rcases h with ⟨hlead, hyields⟩ | ⟨hlead, haccepts⟩
  · exact takeCycleStart_keepsLeading hlead hyields
  · exact takeCycleStart_refuses hlead haccepts

/-! ### A leading node yields (R37) -/

/-- The state in which a yielding node enters ACQUIRING. -/
def State.yielded (s : State) : State :=
  (dropStagedReset (s.modRing fun u => { u with ownCycleStart := none })).modCyc fun u =>
    { u with role := .follower, phase := .none }

theorem yieldTo_eq (c : CycleStart) (t : RxTime) (s : State) :
    yieldTo c t s = enterAcquiring (raisePulse 15) c t s.yielded := rfl

theorem yieldTo_acquires (c : CycleStart) (t : RxTime) (s : State) : s.yielded.Acquires
    (if s.cyc.lock = .unlocked then .takeFirst c else .take c) (raisePulse 15) c t (yieldTo c t s) :=
  enterAcquiring_acquires (raisePulse_tripTaken 15) (fun x => (raisePulse_counted 15 x).tripLeader) c t s.yielded

/-- Settles O22: frames that only count, and a leading node that yields. -/
theorem cycleStartsOfOtherLeaders : Obligations.CycleStartsOfOtherLeaders := by
  refine ⟨fun s d t h c hprocesses => ?_, fun s d t h c hprocesses hlead hyields => ?_⟩
  · intro kept est
    refine ⟨fun r hrole hleader hepoch hlock href => ?_, fun l hlead hleader hother hold => ?_, fun hlead hold hyields => ?_⟩
    · intro k eps hbad
      refine exec_cycleStart_counted (f := fun u => { u with lastEps := eps, outOfWindow := bump u.outOfWindow }) hprocesses ?_
      rw [takeCycleStart_follows (s := s.passed d) (c := c.arrived (s.link d).delay) hrole hleader hepoch,
        show (s.passed d).cyc.lock = .locked from hlock]
      refine judgeLocked_ignores (s := s.passed d) (eps := eps) ?_ ?_
      · rw [CycleUnit.predicted_of_reference (u := (s.passed d).cyc) href]
        rfl
      · rw [CycleUnit.distance_of_reference (u := (s.passed d).cyc) href, CycleUnit.within_iff]
        rintro ⟨hk, hlow, hhigh⟩
        rcases hbad with hne | hlt | hgt
        · exact hne hk
        · exact absurd hlow (Int.not_le.mpr hlt)
        · exact absurd hhigh (Int.not_le.mpr hgt)
    · refine exec_cycleStart_counted hprocesses (takeCycleStart_counts (.inr ⟨hlead, ?_⟩))
      have hnot : ¬(s.cyc.epoch = c.epoch ∧ s.cyc.leader = some c.leader) := by
        rintro ⟨hepoch, hsame⟩
        rw [hleader] at hsame
        exact hother.elim (fun h => h hepoch.symm) fun h => h (Option.some.inj hsame).symm
      change s.cyc.accepts (c.arrived (s.link d).delay) = false
      have haccepts : s.cyc.accepts (c.arrived (s.link d).delay) = s.cyc.accepts c := rfl
      rw [haccepts, CycleUnit.accepts, hold, decide_eq_false hnot, hleader]
      rfl
    · refine exec_cycleStart_counted hprocesses (takeCycleStart_counts (.inl ⟨hlead, ?_⟩))
      change s.yields c = false
      rw [State.yields, hold]
      rcases hyields with hnewer | hown
      · rw [hnewer]
        rfl
      · rw [decide_eq_false (Nat.not_lt.mpr hown), Bool.and_false]
        rfl
  · obtain ⟨u, hexec, hforwarded⟩ := exec_cycleStart (t := t) hprocesses
    refine ⟨u, hexec, ?_⟩
    have hyields' : s.yields c = true := by
      rw [State.yields]
      rcases hyields with hnewer | ⟨hold, hlower⟩
      · rw [hnewer, Bool.true_or]
      · rw [hold, decide_eq_true hlower, Bool.not_false, Bool.true_and, Bool.or_true]
    rw [takeCycleStart_yields (s := s.passed d) (c := c.arrived (s.link d).delay) hlead hyields'] at hforwarded
    have hacquires := yieldTo_acquires (c.arrived (s.link d).delay) t (s.passed d)
    generalize yieldTo _ t (s.passed d) = y at *
    have hu := hforwarded.frame
    generalize u.links = links at hu
    generalize u.ring = ring at hu
    subst hu
    have hcyc := hacquires.cyc
    unfold CycleUnit.PlanHandled at hcyc
    obtain ⟨x, hcounted, hraises, hlatched⟩ := hacquires.pulsed
    have hsource := hcounted 15
    refine ⟨congrArg CycleUnit.role hcyc, congrArg CycleUnit.phase hcyc, congrArg CycleUnit.lock hcyc,
      congrArg CycleUnit.leader hcyc, congrArg CycleUnit.epoch hcyc, congrArg CycleUnit.cycle hcyc,
      congrArg CycleUnit.good hcyc, congrArg CycleUnit.missed hcyc, hacquires.activePlan, hacquires.pendingSwitch,
      hacquires.stagedReset, ?_, fun henabled => hlatched 15 (raisePulse_latches (hsource.2.trans henabled)),
      fun i => (hacquires.axis i).1, fun i => ?_, hacquires.cycle, hacquires.locks, hacquires.mem, hacquires.pending⟩
    · change (y.getSource 15).raises = _
      rw [hraises 15 (.inr rfl), raisePulse_raises (.inr rfl), hsource.1]
      rfl
    · obtain ⟨target, htarget⟩ := hacquires.shaft (State.not_leading_of_role nofun) i
      change (y.getShaft i).pos = _ ∧ (y.getShaft i).vel = _
      rw [htarget]
      split <;> exact ⟨rfl, rfl⟩

end Sys2Proof.Machine
end

