-- ==== Sys2Proof/Proofs/Reports.lean ====
section
/-!
PROOFS. What a TRIP_FLASH and a STATUS of another node do (R39, R48, R56, R62, R65, R81, R82, R84, R85), and how a processed frame
leaves on a free output (R14, R17, R18).
-/

namespace Sys2Proof.Machine

/-! ### A processed frame leaves at once on a free output (R17) -/

theorem State.OutputFree.congr {s y : State} {o : Side} {now : Nat} (h : s.OutputFree o now) (hring : y.ring = s.ring)
    (hwire : (y.link o).wire = (s.link o).wire) (hoffered : s.chan.offered = none → y.chan.offered = none)
    (hrole : y.cyc.role = s.cyc.role) (hphase : y.cyc.phase = s.cyc.phase)
    (hboundary : y.cyc.nextBoundary = s.cyc.nextBoundary) : y.OutputFree o now := by
  obtain ⟨hown, hnone, hwaits, hquiet⟩ := h
  refine ⟨by rw [hring, hown], hwire.trans hnone, ?_, ?_⟩
  · have hleft : s.chan.offered = none := by
      simp only [State.waitingFor, hown, Bool.or_eq_false_iff, Bool.and_eq_false_iff, decide_true] at hwaits
      simp at hwaits
      exact hwaits.2.2
    rw [State.waitingFor, hring, hoffered hleft, ← hleft]
    exact hwaits
  · rw [State.quiet, State.leading, hrole, hphase, hring, hboundary]
    exact hquiet

theorem forwardProcessed_free {s : State} {o : Side} {t : RxTime} {f : Frame} (hhops : f.hdr.hops < 64)
    (h : s.OutputFree o t.received) :
    ((forwardProcessed t f s).link o).wire = some (.ring (f.hopped.departTransit t.arrival t.received)) := by
  obtain ⟨hown, hnone, hwaits, hquiet⟩ := h
  rw [forwardProcessed, hown]
  change ((forward o t f s).link o).wire = _
  rw [forward_free hhops hnone hwaits hquiet, sendOn, State.modLink_link_self]

theorem State.passed_wire (s : State) (d o : Side) : ((s.passed d).link o).wire = (s.link o).wire := by
  rw [State.passed, State.modLink_link]
  split <;> rfl

/-! ### A rise that another node reports (R81, R82) -/

/-- `t` is `s` after another node's report of class `c`: the view rises to it, and its record may have joined the list. -/
structure State.Reported (c : TripClass) (s t : State) : Prop where
  clock : t.clock = s.clock
  links : t.links = s.links
  ring : t.ring = s.ring
  cyc : t.cyc = s.cyc
  shafts : t.shafts = (raiseView c s).shafts
  axis : t.axis = (raiseView c s).axis
  ports : t.ports = (raiseView c s).ports
  view : t.trip.view = s.trip.view.max c
  localClass : t.trip.localClass = s.trip.localClass
  sources : t.trip.sources = s.trip.sources
  ignored : t.trip.ignored = s.trip.ignored
  resetNo : t.trip.resetNo = s.trip.resetNo
  offered : t.chan.offered = s.chan.offered
  shared : s.SharedKept t

theorem freezeStore_offered (c : ChannelNo) (s : State) : (freezeStore c s).chan.offered = s.chan.offered := by
  unfold freezeStore
  split <;> rfl

theorem tripFreeze_offered (s : State) : (tripFreeze s).chan.offered = s.chan.offered := by
  unfold tripFreeze
  refine foldl_left (part := fun s => s.chan.offered) (fun s c => ?_) _ s
  split
  · exact freezeStore_offered c s
  · rfl

theorem raiseView_offered (c : TripClass) (s : State) : (raiseView c s).chan.offered = s.chan.offered := by
  unfold raiseView
  extract_lets old risen slowed stopped
  have hrisen : risen.chan = s.chan := by simp [risen]
  have hslowed : slowed.chan = risen.chan := by unfold slowed; split <;> simp
  have hstopped : stopped.chan = slowed.chan := by unfold stopped; split <;> simp
  have hall : stopped.chan = s.chan := hstopped.trans (hslowed.trans hrisen)
  split
  · split
    · rw [tripFreeze_offered, hall]
    · rw [hall]
  · rfl

theorem raiseView_reported (c : TripClass) (s : State) : s.Reported c (raiseView c s) := by
  obtain ⟨hclock, hlinks, hring, hcyc, hpool, hlocks, hpending⟩ := raiseView_kept c s
  obtain ⟨hsources, hlocal, -, hview, -, -, hno, -, -, -, hignored, -⟩ := raiseView_trip c s
  exact ⟨hclock, hlinks, hring, hcyc, rfl, rfl, rfl, hview, hlocal, hsources, hignored, hno, raiseView_offered c s, hpool,
    hlocks, hpending⟩

theorem addRecord_reported (c : TripClass) (r : TripRecord) (s : State) : s.Reported c (addRecord r (raiseView c s)) := by
  have h := raiseView_reported c s
  generalize hx : raiseView c s = x at *
  obtain ⟨hclock, hlinks, hring, hcyc, hshafts, haxis, hpool, hchan, hlocks, hports, hpending⟩ := addRecord_kept r x
  obtain ⟨hsources, hlocal, -, hview, hno, -, -, -, hignored, -⟩ := addRecord_trip r x
  obtain ⟨kpool, klocks, kpending⟩ := h.shared
  refine ⟨hclock.trans h.clock, hlinks.trans h.links, hring.trans h.ring, hcyc.trans h.cyc, ?_, ?_, ?_,
    hview.trans h.view, hlocal.trans h.localClass, hsources.trans h.sources, hignored.trans h.ignored, hno.trans h.resetNo,
    by rw [hchan, h.offered], hpool.trans kpool, hlocks.trans klocks, hpending.trans kpending⟩
  · rw [hx, hshafts]
  · rw [hx, haxis]
  · rw [hx, hports]

/-- The record of a report joins the list where there is room and none of its origin and source (R85). -/
theorem addRecord_raiseView_list {c : TripClass} {s : State} {origin : Nat} {n : SourceNo} {cls : TripClass} {cycle : Cycle}
    (hroom : s.trip.list.length < 16)
    (hnew : ∀ q ∈ s.trip.list, ¬(q.node s.cyc.address = some origin ∧ q.source = n)) :
    (addRecord { origin := some origin, source := n, cls := cls, cycle := cycle } (raiseView c s)).trip.list =
      s.trip.list ++ [{ origin := some origin, source := n, cls := cls, cycle := cycle }] := by
  have hlist : (raiseView c s).trip.list = s.trip.list := by simp
  have hcyc : (raiseView c s).cyc = s.cyc := by simp
  rw [addRecord_list (by rw [hlist]; exact hroom), hlist]
  rw [hlist, hcyc]
  intro q hq
  have := hnew q hq
  simpa [TripRecord.same, TripRecord.node] using this

theorem State.Reported.rank {c : TripClass} {s t : State} (h : s.Reported c t) :
    t.trip.view.rank = max s.trip.view.rank c.rank := by rw [h.view, TripClass.max_rank]

theorem State.Reported.raises {c : TripClass} {s t : State} (h : s.Reported c t) (hrise : s.trip.view.rank < c.rank) (p : Port) :
    t.flag p .trip = true := by
  rw [← raiseView_raises hrise p]
  unfold State.flag State.port
  rw [h.ports]

theorem State.Reported.getShaft {c : TripClass} {s t : State} (h : s.Reported c t) (i : ShaftNo) :
    t.getShaft i = if s.trip.view.rank < c.rank then
      { s.getShaft i with
        vel := if c = .instant ∧ s.stopsAtInstant = true then 0 else (s.getShaft i).vel
        target := if 2 ≤ c.rank then 0 else (s.getShaft i).target } else s.getShaft i := by
  rw [State.getShaft_congr h.shafts, raiseView_getShaft]

/-- A report of a class below INSTANT leaves the axis unit (R56). -/
theorem State.Reported.axis_kept {c : TripClass} {s t : State} (h : s.Reported c t) (hc : c ≠ .instant) : t.axis = s.axis := by
  rw [h.axis, raiseView_axis, if_neg fun hi => hc hi.2]

/-! ### A TRIP_FLASH (R81) -/

theorem takeFlash_guarded {origin : Nat} {f : TripFlash} {s : State} (h : s.trip.guarded f.cycle = true) :
    takeFlash origin f s = s.modTrip fun u => { u with ignored := bump u.ignored } := if_pos h

theorem takeFlash_reports {origin : Nat} {f : TripFlash} {s : State} (h : s.trip.guarded f.cycle = false) :
    takeFlash origin f s =
      addRecord { origin := some origin, source := f.source, cls := f.cls, cycle := s.cyc.cycle } (raiseView f.cls s) :=
  if_neg (by simp [h])

theorem exec_tripFlash {s : State} {d : Side} {t : RxTime} {h : Header} {b : TripFlash}
    (hp : s.Processes d { hdr := h, body := .tripFlash b }) : ∃ u, exec (.tripFlashReceived d t h b) s = .next u ∧
      (takeFlash h.origin b (s.passed d)).Forwarded u :=
  ⟨_, congrArg Host.Outcome.next (receiveFrame_of_processes t hp), forwardProcessed_forwarded _ _ _⟩

/-- Settles O28, by the guard and by the rise that a TRIP_FLASH reports. -/
theorem tripFlashReachesTheView : Obligations.TripFlashReachesTheView := by
  intro s d t h b hprocesses
  obtain ⟨u, hexec, hforwarded⟩ := exec_tripFlash (t := t) hprocesses
  refine ⟨u, hexec, ?_⟩
  have hu := hforwarded.frame
  generalize u.links = links at hu
  generalize u.ring = ring at hu
  cases hguard : (s.passed d).trip.guarded b.cycle with
  | true =>
    rw [takeFlash_guarded hguard] at hu
    subst hu
    refine ⟨fun g hg hlow hhigh => ⟨rfl, rfl, rfl, rfl⟩, fun hopen => ?_, rfl, rfl, rfl, rfl, rfl⟩
    have hpassed : (s.passed d).trip = s.trip := rfl
    rw [hpassed, TripUnit.guarded] at hguard
    split at hguard
    · next g hg =>
      rw [decide_eq_true_iff, cycleDist] at hguard
      rcases hopen g hg with heq | hfar
      · simp [heq] at hguard
      · omega
    · cases hguard
  | false =>
    rw [takeFlash_reports hguard] at hu
    have hlist := addRecord_raiseView_list (c := b.cls) (s := s.passed d) (origin := h.origin) (n := b.source) (cls := b.cls)
      (cycle := s.cyc.cycle)
    have hreported := addRecord_reported b.cls { origin := some h.origin, source := b.source, cls := b.cls, cycle := s.cyc.cycle }
      (s.passed d)
    change u = { addRecord { origin := some h.origin, source := b.source, cls := b.cls, cycle := s.cyc.cycle }
      (raiseView b.cls (s.passed d)) with links := links, ring := ring } at hu
    generalize addRecord _ _ = y at *
    subst hu
    refine ⟨fun g hg hlow hhigh => ?_, fun _ => ⟨hreported.rank, hreported.localClass, hreported.sources,
      hreported.ignored, hreported.resetNo, hlist, fun hrise => ⟨hreported.raises hrise, fun hstop i => ?_, fun hinstant =>
        ⟨fun i => ?_, fun hlead i => ?_⟩⟩, fun i => ?_, fun hle => ⟨?_, ?_⟩⟩, hreported.cyc, hreported.clock, hreported.shared⟩
    · have hpassed : (s.passed d).trip = s.trip := rfl
      rw [hpassed, TripUnit.guarded, hg] at hguard
      exact absurd ⟨hlow, hhigh⟩ (decide_eq_false_iff_not.mp hguard)
    · have hi := (hreported.getShaft i).trans (if_pos hrise)
      change (y.getShaft i).target = 0
      rw [hi]
      exact if_pos hstop
    · have haxis : y.axis = (axesOff (s.passed d)).axis := by
        rw [hreported.axis, raiseView_axis]
        exact if_pos ⟨hrise, hinstant⟩
      have hi : y.getAxis i = (axesOff (s.passed d)).getAxis i := State.getAxis_congr (by rw [haxis]) i
      change (y.getAxis i).state = .off
      rw [hi]
      exact axesOff_off (s.passed d) i
    · have hi := (hreported.getShaft i).trans (if_pos hrise)
      change (y.getShaft i).vel = 0
      rw [hi]
      have hstops : (s.passed d).stopsAtInstant = true := by
        change s.stopsAtInstant = true
        rw [State.stopsAtInstant, hlead, Bool.true_or, Bool.true_or]
      exact if_pos ⟨hinstant, hstops⟩
    · have hi := hreported.getShaft i
      change (y.getShaft i).pos = _
      rw [hi]
      split <;> rfl
    · change y.shafts = _
      rw [hreported.shafts, raiseView_of_le (s := s.passed d) hle]
      rfl
    · change y.axis = _
      rw [hreported.axis, raiseView_of_le (s := s.passed d) hle]
      rfl

/-! ### A STATUS (R39, R62, R65, R82) -/

/-- What the presence record and the remote axis states take from a STATUS. -/
theorem markPresent_spec (origin : Nat) (b : StatusBody) (s : State) : ∃ presence remote,
    markPresent origin b s = s.modCyc (fun u => { u with presence := presence, remoteAxes := remote }) ∧
      ∀ a : Fin 31, (a.val = origin → presence[a.val] = some { mode := b.mode, planReady := b.planReady } ∧
          remote[a.val] = b.axisStates) ∧
        (a.val ≠ origin → presence[a.val] = s.cyc.presence[a.val] ∧ remote[a.val] = s.cyc.remoteAxes[a.val]) := by
  unfold markPresent
  split
  · next k hk =>
    obtain ⟨hlt, hval⟩ : ∃ h : origin < 31, (⟨origin, h⟩ : Fin 31) = k := by simpa [finOf] using hk
    refine ⟨_, _, rfl, fun a => ⟨fun ha => ?_, fun ha => ?_⟩⟩
    · obtain rfl : a = k := by rw [← hval]; exact Fin.ext ha
      exact ⟨modifyAt_get_self _ _ _, modifyAt_get_self _ _ _⟩
    · have hne : a ≠ k := fun h => ha (by rw [h, ← hval])
      exact ⟨modifyAt_get_other _ _ _ _ hne, modifyAt_get_other _ _ _ _ hne⟩
  · next hk =>
    refine ⟨s.cyc.presence, s.cyc.remoteAxes, rfl, fun a => ⟨fun ha => ?_, fun _ => ⟨rfl, rfl⟩⟩⟩
    have hlt : origin < 31 := ha ▸ a.isLt
    simp [finOf, hlt] at hk

theorem takeStatusTrip_older {origin : Nat} {b : StatusBody} {s : State} (h : newer s.trip.resetNo b.resetNo = true) :
    takeStatusTrip origin b s = s.modTrip fun u => { u with ignored := bump u.ignored } := if_pos h

/-- A STATUS that is not older reports its class (R82). -/
theorem takeStatusTrip_reported {origin : Nat} {b : StatusBody} {s : State} (h : newer s.trip.resetNo b.resetNo = false) :
    s.Reported b.cls (takeStatusTrip origin b s) := by
  unfold takeStatusTrip
  rw [if_neg (by simp [h])]
  split
  · next hnone =>
    have hself : raiseView b.cls s = s := raiseView_of_le (by rw [hnone]; exact Nat.zero_le _)
    have := raiseView_reported b.cls s
    rwa [hself] at this
  · dsimp only
    split
    · exact addRecord_reported _ _ s
    · exact raiseView_reported _ s

/-- The record of a STATUS that is not older (R82, R85). -/
theorem takeStatusTrip_list {origin : Nat} {b : StatusBody} {s : State} (h : newer s.trip.resetNo b.resetNo = false) :
    (∀ n : SourceNo, b.cls ≠ .none → b.topSource = some n → s.trip.list.length < 16 →
      (∀ q ∈ s.trip.list, ¬(q.node s.cyc.address = some origin ∧ q.source = n)) →
      (takeStatusTrip origin b s).trip.list =
        s.trip.list ++ [{ origin := some origin, source := n, cls := b.cls, cycle := s.cyc.cycle }]) ∧
    ((b.cls = .none ∨ b.topSource = none) → (takeStatusTrip origin b s).trip.list = s.trip.list) := by
  unfold takeStatusTrip
  rw [if_neg (by simp [h])]
  refine ⟨fun n hcls htop hroom hnew => ?_, fun hnone => ?_⟩
  · rw [if_neg hcls, htop]
    have hcyc : (raiseView b.cls s).cyc = s.cyc := by simp
    dsimp only
    rw [hcyc]
    exact addRecord_raiseView_list hroom hnew
  · rcases hnone with hcls | htop
    · rw [if_pos hcls]
    · rw [htop]
      split
      · rfl
      · simp

/-- The axis unit alone meets the correction entries of a STATUS. -/
theorem applyEntries_frame (own : Option Nat) (es : List CorrEntry) (s : State) :
    (applyEntries own es s).2 = { s with axis := (applyEntries own es s).2.axis } := by
  induction es generalizing s with
  | nil => rfl
  | cons e es ih =>
    unfold applyEntries
    split
    · have hone : (applyCorrection e.axis e.delta s).2 = { s with axis := (applyCorrection e.axis e.delta s).2.axis } := by
        unfold applyCorrection
        split <;> rfl
      generalize applyCorrection e.axis e.delta s = r at *
      dsimp only
      rw [ih, hone]
    · exact ih s

theorem applyEntries_of_marked {own : Option Nat} {es : List CorrEntry} {s : State}
    (h : ∀ e ∈ es, ¬(own = some e.target ∧ e.outcome = .none)) : applyEntries own es s = (es, s) := by
  induction es with
  | nil => rfl
  | cons e es ih =>
    unfold applyEntries
    rw [if_neg (h e (List.mem_cons_self ..)), ih fun x hx => h x (List.mem_cons_of_mem _ hx)]

/-- A single entry for an axis of this node is applied and marked. -/
theorem applyEntries_single {own : Option Nat} {e : CorrEntry} {i : AxisNo} {s : State} (hown : own = some e.target)
    (hnone : e.outcome = .none) (hi : e.axis = i.val) : applyEntries own [e] s =
      ([{ e with outcome := ((s.getAxis i).correct e.delta).1 }], s.modAxis i fun x => (x.correct e.delta).2) := by
  unfold applyEntries
  rw [if_pos ⟨hown, hnone⟩, applyCorrection_of_axis hi]
  rfl

/-- A STATUS of another node goes through presence, trip fields and corrections, and goes on marked. -/
theorem exec_status {s : State} {d : Side} {t : RxTime} {h : Header} {b : StatusBody}
    (hp : s.Processes d { hdr := h, body := .status b }) :
    let m := markPresent h.origin b (s.passed d)
    let r := takeStatusTrip h.origin b m
    let q := applyEntries s.cyc.address b.entries r
    exec (.statusReceived d t h b) s =
      .next (forwardProcessed t { hdr := h, body := .status { b with entries := q.1 } } q.2) :=
  congrArg Host.Outcome.next (receiveFrame_of_processes t hp)

/-- Settles O27, by presence, the trip fields and the correction entries of a STATUS in turn. -/
theorem statusIsReadAndMarked : Obligations.StatusIsReadAndMarked := by
  intro s d t h b hprocesses
  rw [exec_status hprocesses]
  obtain ⟨presence, remote, hmarked, hpresence⟩ := markPresent_spec h.origin b (s.passed d)
  rw [hmarked]
  generalize hm : (s.passed d).modCyc (fun u => { u with presence := presence, remoteAxes := remote }) = m
  have hmtrip : m.trip = s.trip := by rw [← hm]; rfl
  have hmcyc : m.cyc = { s.cyc with presence := presence, remoteAxes := remote } := by rw [← hm]; rfl
  have holder := takeStatusTrip_older (origin := h.origin) (b := b) (s := m)
  have hreported := takeStatusTrip_reported (origin := h.origin) (b := b) (s := m)
  have hlist := takeStatusTrip_list (origin := h.origin) (b := b) (s := m)
  rw [hmtrip] at holder hreported hlist
  generalize takeStatusTrip h.origin b m = r at *
  have hentries := applyEntries_frame s.cyc.address b.entries r
  have hmarkedAll := applyEntries_of_marked (own := s.cyc.address) (es := b.entries) (s := r)
  have hforwarded := forwardProcessed_forwarded t
    { hdr := h, body := .status { b with entries := (applyEntries s.cyc.address b.entries r).1 } }
    (applyEntries s.cyc.address b.entries r).2
  have hkept : r.links = m.links ∧ r.ring = m.ring ∧ r.cyc = m.cyc ∧ r.chan.offered = m.chan.offered ∧ m.SharedKept r ∧
      (b.cls ≠ .instant → r.axis = m.axis) := by
    cases hnewer : newer s.trip.resetNo b.resetNo with
    | true =>
      rw [holder hnewer]
      exact ⟨rfl, rfl, rfl, rfl, ⟨rfl, rfl, rfl⟩, fun _ => rfl⟩
    | false =>
      have h := hreported hnewer
      exact ⟨h.links, h.ring, h.cyc, h.offered, h.shared, h.axis_kept⟩
  obtain ⟨hlinks, hring, hcyc, hoffered, hshared, haxis⟩ := hkept
  have hmaxis : m.axis = s.axis := by rw [← hm]; rfl
  have hfree (o : Side) (hout : s.OutputFree o t.received) : r.OutputFree o t.received := by
    refine hout.congr (by rw [hring, ← hm]; rfl) ?_ (fun h => by rw [hoffered, ← hm]; exact h) ?_ ?_ ?_
    · rw [State.link_congr hlinks, ← hm]
      exact s.passed_wire d o
    · rw [hcyc, hmcyc]
    · rw [hcyc, hmcyc]
    · rw [hcyc, hmcyc]
  generalize hq : applyEntries s.cyc.address b.entries r = q at *
  have hwire (o : Side) (hhops : h.hops < 64) (hout : q.2.OutputFree o t.received) :
      ((forwardProcessed t { hdr := h, body := .status { b with entries := q.1 } } q.2).link o).wire =
        some (.ring { hdr := { h with hops := h.hops + 1 }, body := .status { b with entries := q.1 } }) :=
    forwardProcessed_free hhops hout
  generalize forwardProcessed _ _ _ = u at *
  have hframe : u = { r with links := u.links, ring := u.ring, axis := q.2.axis } := by
    rw [hforwarded.frame, hentries]
  have htrip : u.trip = r.trip := by rw [hframe]
  have hucyc : u.cyc = { s.cyc with presence := presence, remoteAxes := remote } := by rw [hframe, ← hmcyc, ← hcyc]
  refine ⟨u, rfl, fun a => ?_, by rw [hucyc], fun hnewer => ?_, fun hnewer => ?_, fun hnone hcls => ?_,
    fun e i hsingle hown hunmarked hi hcls henabled hfollow hlow hhigh => ?_, ?_⟩
  · rw [hucyc]
    exact hpresence a
  · rw [hframe, holder hnewer, ← hm]
    exact ⟨rfl, rfl, rfl⟩
  · have h := hreported hnewer
    obtain ⟨hadded, hsame⟩ := hlist hnewer
    rw [htrip, h.rank, hmtrip, h.localClass, h.sources, h.ignored, hmtrip]
    rw [hmcyc] at hadded
    refine ⟨rfl, rfl, rfl, rfl, fun hrise p => ?_, hadded, hsame⟩
    have hraised := h.raises (by rw [hmtrip]; exact hrise) p
    rw [hframe]
    exact hraised
  · rw [hframe, hmarkedAll hnone]
    exact (haxis hcls).trans hmaxis
  · have hraxis : r.axis = s.axis := (haxis hcls).trans hmaxis
    have hri : r.getAxis i = s.getAxis i := State.getAxis_congr (by rw [hraxis]) i
    rw [hsingle, applyEntries_single hown hunmarked hi, hri, Axis.correct_follow _ henabled hfollow, if_pos ⟨hlow, hhigh⟩] at hq
    have hself : u.getAxis i = ((s.getAxis i).correct e.delta).2 := by
      rw [hframe, ← hq, ← hri]
      exact State.modAxis_getAxis_self _ _ _
    refine ⟨?_, fun j hj => ?_, fun o hhops hout => ?_⟩
    · rw [hself, Axis.correct_follow _ henabled hfollow, if_pos ⟨hlow, hhigh⟩]
    · rw [hframe, ← hq]
      exact (State.modAxis_getAxis r i j _).trans ((if_neg hj).trans (State.getAxis_congr (by rw [hraxis]) j))
    · rw [hwire o hhops (by rw [← hq]; exact (hfree o hout).congr rfl rfl id rfl rfl rfl), ← hq]
  · obtain ⟨hpool, hlocks, hpending⟩ := hshared
    rw [hframe]
    refine ⟨hpool.trans ?_, hlocks.trans ?_, hpending.trans ?_⟩ <;> rw [← hm] <;> rfl

end Sys2Proof.Machine
end

