-- ==== Sys2Proof/Proofs/Receiving.lean ====
section
/-!
PROOFS. What taking a DATA segment leaves (R106 to R110), that no frame handed over changes a link, and the error window (R7).
-/

namespace Sys2Proof.Machine

/-! ### Work on channels and packet memory -/

/-- `t` is `s` after work on channels and packet memory alone: event flags are only raised, and no segment is offered anew. -/
structure State.ChannelTaken (s t : State) : Prop where
  frame : t = { s with pool := t.pool, chan := t.chan, ports := t.ports }
  ports : s.OnlyRaises t
  offered : s.chan.offered = none → t.chan.offered = none

theorem State.ChannelTaken.refl (s : State) : s.ChannelTaken s := ⟨rfl, .refl s, id⟩

theorem State.ChannelTaken.trans {s t u : State} (h : s.ChannelTaken t) (k : t.ChannelTaken u) : s.ChannelTaken u :=
  ⟨by rw [k.frame, h.frame], h.ports.trans k.ports, k.offered ∘ h.offered⟩

theorem State.AttemptsDropped.channelTaken {s t : State} (h : s.AttemptsDropped t) : s.ChannelTaken t := by
  refine ⟨?_, h.ports, h.offered⟩
  rw [← h.clock, ← h.links, ← h.ring, ← h.cyc, ← h.shafts, ← h.axis, ← h.trip, ← h.locks, ← h.pending]

theorem ite_channelTaken {s t u : State} {c : Prop} [Decidable c] (ht : c → s.ChannelTaken t) (hu : ¬c → s.ChannelTaken u) :
    s.ChannelTaken (if c then t else u) := by
  split
  · exact ht ‹_›
  · exact hu ‹_›

theorem modPool_channelTaken (s : State) (f : Pool → Pool) : s.ChannelTaken (s.modPool f) := ⟨rfl, .of_ports rfl, id⟩

theorem modChannel_channelTaken (s : State) (c : ChannelNo) (f : Channel → Channel) : s.ChannelTaken (s.modChannel c f) :=
  ⟨rfl, .of_ports rfl, id⟩

theorem setContext_channelTaken (s : State) (k : Fin 4) (c : Option Context) : s.ChannelTaken (s.setContext k c) :=
  ⟨rfl, .of_ports rfl, id⟩

theorem raise_channelTaken (p : Port) (e : Event) (s : State) : s.ChannelTaken (raise p e s) :=
  ⟨rfl, raise_onlyRaises p e s, id⟩

theorem addOutcome_channelTaken (c : ChannelNo) (r : OutcomeRecord) (s : State) : s.ChannelTaken (addOutcome c r s) :=
  (modChannel_channelTaken s c _).trans (raise_channelTaken _ _ _)

theorem finalOutcome_channelTaken (c : ChannelNo) (i : Nat) (o : MsgOutcome) (n : Nat) (s : State) :
    s.ChannelTaken (finalOutcome c i o n s) := by
  unfold finalOutcome
  split
  · exact .refl s
  · exact (removeMessage_attemptsDropped c i s).channelTaken.trans (addOutcome_channelTaken c _ _)

theorem flushResponses_channelTaken (c : ChannelNo) (x n : Nat) (s : State) : s.ChannelTaken (flushResponses c x n s) := by
  induction n generalizing s with
  | zero => exact .refl s
  | succ n ih =>
    unfold flushResponses
    split
    · exact ((finalOutcome_channelTaken c _ _ _ s).trans (modChannel_channelTaken _ c _)).trans (ih _)
    · exact .refl s

theorem completeScreen_channelTaken (x : Context) (s : State) : s.ChannelTaken (completeScreen x s) := by
  unfold completeScreen
  extract_lets owned joined
  have howned : s.ChannelTaken owned := modPool_channelTaken s _
  have hjoined : owned.ChannelTaken joined := (modChannel_channelTaken owned _ _).trans (raise_channelTaken _ _ _)
  exact (howned.trans hjoined).trans (ite_channelTaken (fun _ => modChannel_channelTaken _ _ _) fun _ =>
    ite_channelTaken (fun _ => flushResponses_channelTaken _ _ _ _) fun _ => .refl _)

theorem completeStrip_channelTaken (x : Context) (i : Nat) (s : State) : s.ChannelTaken (completeStrip x i s) :=
  ((modPool_channelTaken s _).trans (modChannel_channelTaken _ _ _)).trans (raise_channelTaken _ _ _)

theorem completeContext_channelTaken (k : Fin 4) (s : State) : s.ChannelTaken (completeContext k s) := by
  unfold completeContext
  split
  · exact .refl s
  · dsimp only
    split
    · exact (setContext_channelTaken s k none).trans (completeStrip_channelTaken _ _ _)
    · exact (setContext_channelTaken s k none).trans (completeScreen_channelTaken _ _)

theorem fillSlot_channelTaken (c : ChannelNo) (i origin : Nat) (strip : BitVec 16) (s : State) :
    s.ChannelTaken (fillSlot c i origin strip s) := by
  unfold fillSlot
  dsimp only
  refine .trans ?_ (modChannel_channelTaken _ _ _)
  split
  · split
    · exact (modChannel_channelTaken s _ _).trans (modPool_channelTaken _ _)
    · exact .refl s
  · exact .refl s

theorem placePayload_channelTaken (bytes : List Byte) (s : State) : s.ChannelTaken (placePayload bytes s).2 := by
  unfold placePayload
  split
  · rename_i n pool _
    have hwritten : (s.modPool fun _ => pool).ChannelTaken (writePayload (blockAddr n 0) bytes (s.modPool fun _ => pool)) :=
      modPool_channelTaken _ _
    exact (modPool_channelTaken s _).trans hwritten
  · exact .refl s

theorem takeFirst_channelTaken (h : Header) (d : DataBody) (k : Fin 4) (slot : Option Nat) (s : State) :
    s.ChannelTaken (takeFirst h d k slot s) := by
  unfold takeFirst
  extract_lets filled placed opened answered
  have hfilled : s.ChannelTaken filled := by
    unfold filled
    split
    · exact fillSlot_channelTaken _ _ _ _ s
    · exact .refl s
  have hplaced : filled.ChannelTaken placed.2 := placePayload_channelTaken d.payload filled
  have hopened : placed.2.ChannelTaken opened := setContext_channelTaken _ k _
  have hanswered : opened.ChannelTaken answered :=
    ite_channelTaken (fun _ => modChannel_channelTaken _ _ _) fun _ => .refl _
  exact (((hfilled.trans hplaced).trans hopened).trans hanswered).trans
    (ite_channelTaken (fun _ => completeContext_channelTaken k _) fun _ => .refl _)

theorem takeNext_channelTaken (d : DataBody) (k : Fin 4) (c : Context) (s : State) : s.ChannelTaken (takeNext d k c s) := by
  unfold takeNext
  extract_lets placed opened
  have hplaced : s.ChannelTaken placed.2 := placePayload_channelTaken d.payload s
  have hopened : placed.2.ChannelTaken opened := setContext_channelTaken _ k _
  exact (hplaced.trans hopened).trans (ite_channelTaken (fun _ => completeContext_channelTaken k _) fun _ => .refl _)

theorem judgeSegment_channelTaken (h : Header) (d : DataBody) (s : State) : s.ChannelTaken (judgeSegment h d s).2 := by
  unfold judgeSegment
  split
  · extract_lets freed
    have hfreed : s.ChannelTaken freed := by
      unfold freed
      split
      · exact (discardContext_attemptsDropped _ s).1.channelTaken
      · exact .refl s
    split
    · exact hfreed
    · exact hfreed.trans (takeFirst_channelTaken h d _ _ _)
  · split
    · exact .refl s
    · split
      · exact .refl s
      · split
        · exact takeNext_channelTaken d _ _ s
        · exact (discardContext_attemptsDropped _ s).1.channelTaken

theorem takeSegment_channelTaken (h : Header) (d : DataBody) (s : State) : s.ChannelTaken (takeSegment h d s).2 := by
  have hjudged := judgeSegment_channelTaken h d s
  unfold takeSegment
  generalize judgeSegment h d s = r at *
  dsimp only
  split
  · split <;> exact hjudged
  · refine hjudged.trans (ite_channelTaken (fun _ => ?_) fun _ => .refl _)
    exact ⟨rfl, .of_ports rfl, id⟩

theorem ownDataBack_channelWorked (h : Header) (d : DataBody) (s : State) : s.ChannelWorked (ownDataBack h d s) := by
  unfold ownDataBack
  dsimp only
  split
  · split
    · refine .trans ?_ (resolveAttempt_channelWorked _ _ _)
      split
      · exact (modChannel_channelWorked s _ _).trans (modChan_channelWorked _ _)
      · exact modChannel_channelWorked s _ _
    · exact modChan_channelWorked s _
  · exact modChan_channelWorked s _

/-! ### A frame that is handed over changes no link (R14, R15) -/

theorem takeTripFields_links (c : CycleStart) (s : State) : (takeTripFields c s).links = s.links :=
  (takeTripFields_spec c s).1.links

theorem enterAcquiring_links {first : State → State} (hfirst : ∀ x : State, x.TripTaken (first x))
    (hleader : ∀ x : State, (first x).trip.tripLeader = x.trip.tripLeader) (c : CycleStart) (t : RxTime) (s : State) :
    (enterAcquiring first c t s).links = s.links := by
  have h := (frameEvent_taken (if s.cyc.lock = .unlocked then .takeFirst c else .take c) hfirst hleader c t
    (acquiringOn c t s)).links
  rw [← enterAcquiring_eq] at h
  rw [h, acquiringOn_frame]

theorem frameEvent_links (w : ShaftWork) (c : CycleStart) (t : RxTime) (s : State) : (frameEvent w id c t s).links = s.links :=
  (frameEvent_taken w (first := id) .refl (fun _ => rfl) c t s).links

theorem judgeAcquiring_links (c : CycleStart) (t : RxTime) (s : State) : (judgeAcquiring c t s).links = s.links := by
  unfold judgeAcquiring
  extract_lets est eps k near good work anchored judged
  have hanchored : anchored.links = s.links := rfl
  have hjudged : judged.links = anchored.links := by
    unfold judged
    split
    · exact (setLock_prepared _ _).links
    · rfl
  clear_value judged
  rw [frameEvent_links, hjudged, hanchored]

theorem judgeLocked_links (c : CycleStart) (t : RxTime) (s : State) : (judgeLocked c t s).links = s.links := by
  unfold judgeLocked
  dsimp only
  split
  · rw [frameEvent_links]
    rfl
  · rfl

theorem judgeHoldover_links (c : CycleStart) (t : RxTime) (s : State) : (judgeHoldover c t s).links = s.links := by
  unfold judgeHoldover
  extract_lets est eps k missed returned
  have hreturned : returned.links = s.links := (setLock_prepared _ _).links
  clear_value returned
  split
  · split
    · rw [frameEvent_links, hreturned]
    · rw [takeTripFields_links]
      exact hreturned
  · rfl

theorem yieldTo_links (c : CycleStart) (t : RxTime) (s : State) : (yieldTo c t s).links = s.links := by
  rw [yieldTo_eq, enterAcquiring_links (raisePulse_tripTaken 15) fun x => (raisePulse_counted 15 x).tripLeader]
  rfl

theorem takeCycleStart_links (c : CycleStart) (t : RxTime) (s : State) : (takeCycleStart c t s).links = s.links := by
  unfold takeCycleStart
  split
  · split
    · exact yieldTo_links c t s
    · rfl
  · split
    · unfold judge
      extract_lets following
      have hfollowing : following.links = s.links := rfl
      clear_value following
      rw [← hfollowing]
      split
      · exact yieldTo_links c t following
      · split
        · exact enterAcquiring_links (first := id) .refl (fun _ => rfl) c t following
        · exact judgeAcquiring_links c t following
        · exact judgeLocked_links c t following
        · exact judgeHoldover_links c t following
    · rfl

theorem takeStatus_links (h : Header) (b : StatusBody) (s : State) : (takeStatus h b s).2.links = s.links := by
  obtain ⟨presence, remote, hmarked, -⟩ := markPresent_spec h.origin b s
  have hmarkedLinks : (markPresent h.origin b s).links = s.links := by
    rw [hmarked]
    rfl
  change (applyEntries _ _ _).2.links = _
  rw [applyEntries_frame]
  change (takeStatusTrip _ _ _).links = _
  generalize markPresent h.origin b s = m at *
  cases hnewer : newer m.trip.resetNo b.resetNo with
  | true => rw [takeStatusTrip_older hnewer]; exact hmarkedLinks
  | false => exact (takeStatusTrip_reported hnewer).links.trans hmarkedLinks

theorem takeFlash_links (origin : Nat) (f : TripFlash) (s : State) : (takeFlash origin f s).links = s.links := by
  cases hguard : s.trip.guarded f.cycle with
  | true => rw [takeFlash_guarded hguard]; rfl
  | false => rw [takeFlash_reports hguard]; exact (addRecord_reported _ _ s).links

theorem handFrame_links (t : RxTime) (f : Frame) (s : State) : (handFrame t f s).2.links = s.links := by
  unfold handFrame
  split
  · exact takeCycleStart_links _ t s
  · exact takeStatus_links _ _ s
  · exact takeFlash_links _ _ s
  · split
    · have htaken := takeSegment_channelTaken f.hdr ‹DataBody› s
      rw [htaken.frame]
    · rfl

theorem removeOwn_links (f : Frame) (s : State) : (removeOwn f s).links = s.links := by
  unfold removeOwn
  split
  · exact (ownDataBack_channelWorked _ _ s).links
  · exact (setOutbox_rerouted _ s).links
  · rfl
  · rfl

/-- A ring frame leaves every error window but its own link's, which took its pass before (R7). -/
theorem receiveRing_window (d : Side) (t : RxTime) (f : Frame) (s : State) (e : Side) :
    ((receiveRing d t f s).link e).window = (s.link e).window := by
  have hforwarded {x y : State} (h : x.Forwarded y) : (y.link e).window = (x.link e).window := by rw [h.link e]
  unfold receiveRing
  dsimp only
  split
  · rfl
  · split
    · split
      · rw [State.link_congr (removeOwn_links _ s)]
      · rw [hforwarded (forwardProcessed_forwarded _ _ _), State.link_congr (handFrame_links _ _ s)]
    · exact hforwarded (forward_forwarded _ _ _ s)

/-! ### The error window (R7) -/

/-- The entries of a window that a new one joins: all of them, or all but the oldest of 64. -/
def keptWindow (w : List Bool) : List Bool := if w.length < 64 then w else w.drop 1

theorem pushBounded_window {w : List Bool} (h : w.length ≤ 64) (b : Bool) : pushBounded w b 64 = keptWindow w ++ [b] := by
  unfold keptWindow
  split
  · next hlt => exact pushBounded_of_lt b hlt
  · next hfull => exact pushBounded_of_full b (by omega) (by decide)

theorem State.passed_window {s : State} {d : Side} (h : (s.link d).window.length ≤ 64) :
    ((s.passed d).link d).window = keptWindow (s.link d).window ++ [false] := by
  unfold State.passed
  rw [State.modLink_link_self]
  exact pushBounded_window h false

/-- Every command that brings a ring frame runs the one reception (log entry 5). -/
theorem exec_of_arrival {c : Instr} {d : Side} {f : Frame} (hinput : c.input = some d) (hframe : c.frame = some f) (s : State) :
    ∃ t : RxTime, exec c s = .next (receiveFrame d t f s) := by
  cases c <;> cases hinput <;> cases hframe <;> exact ⟨_, rfl⟩

theorem receiveFrame_window {s : State} {d : Side} {f : Frame} (t : RxTime) (hreaches : s.Reaches d f)
    (h : (s.link d).window.length ≤ 64) :
    ((receiveFrame d t f s).link d).window = keptWindow (s.link d).window ++ [false] := by
  rw [receiveFrame_of_reaches t hreaches, receiveRing_window, State.passed_window h]

theorem linkDrop_window (d : Side) (reason : DownReason) (s : State) : ((linkDrop d reason s).link d).window = [] := by
  rw [(linkDrop_spec d reason s).link_self]
  rfl

/-- Bytes that fail on a link in UP: the fail joins the window, and the fourth among its entries takes the link DOWN. -/
theorem badFrame_up {s : State} {d : Side} (hup : (s.link d).state = .up) (h : (s.link d).window.length ≤ 64) :
    badFrame d s =
      let failed := s.modLink d fun l => { (l.endRun.record true) with crcErrors := bump l.crcErrors }
      if 3 ≤ ((keptWindow (s.link d).window).filter fun b => b).length then linkDrop d .degraded failed else failed := by
  have hfails : ((s.modLink d fun l => { (l.endRun.record true) with crcErrors := bump l.crcErrors }).link d).fails =
      ((keptWindow (s.link d).window).filter fun b => b).length + 1 := by
    rw [State.modLink_link_self]
    change ((pushBounded (s.link d).window true 64).filter fun b => b).length = _
    rw [pushBounded_window h]
    simp
  unfold badFrame
  rw [hup]
  dsimp only
  rw [hfails]
  simp only [Nat.reduceLeDiff]

theorem exec_frameCrcFail_bad {bytes : List Byte} (h : parseFrame bytes = none) (d : Side) (t : RxTime) (s : State) :
    exec (.frameCrcFail d t bytes) s = .next (badFrame d s) := by
  change Host.Outcome.next (receiveBytes d t bytes s) = _
  rw [receiveBytes, h]

theorem exec_frameCrcFail_ring {bytes : List Byte} {f : Frame} (h : parseFrame bytes = some (.ring f)) (d : Side) (t : RxTime)
    (s : State) : exec (.frameCrcFail d t bytes) s = .next (receiveFrame d t f s) := by
  change Host.Outcome.next (receiveBytes d t bytes s) = _
  rw [receiveBytes, h]

/-- A LINK_IDLE that keeps the link UP joins its window as a pass. -/
theorem receiveIdle_window {s : State} {d : Side} (t : RxTime) {f : LinkIdle} (hup : (s.link d).state = .up)
    (hkeeps : s.cyc.address ≠ some f.sender → f.heard = true ∧ (s.link d).neighbour = some f.sender)
    (h : (s.link d).window.length ≤ 64) :
    ((receiveIdle d t f s).link d).window = keptWindow (s.link d).window ++ [false] := by
  by_cases hown : s.cyc.address = some f.sender
  · have hended : receiveIdle d t f s = (s.passed d).modLink d LinkUnit.endRun := by
      unfold receiveIdle
      simp only [hup, hown, ne_eq, not_true_eq_false, decide_false, Bool.false_eq_true, if_false]
      rfl
    rw [hended, State.modLink_link_self]
    exact State.passed_window h
  · obtain ⟨hheard, hneighbour⟩ := hkeeps hown
    have hrecorded : ((s.passed d).link d).neighbour = some f.sender := by
      unfold State.passed
      rw [State.modLink_link_self]
      exact hneighbour
    rw [receiveIdle_up t hown hup]
    change ((idleUp d t f (s.passed d)).link d).window = _
    rw [(idleUp_spec d t f (s.passed d)).1 hheard hrecorded, State.modLink_link_self, LinkUnit.measure_frame]
    exact State.passed_window h

/-- Settles O14: each reception joins the window once, and every way DOWN or UP empties it. -/
theorem errorWindowDegradesTheLink : Obligations.ErrorWindowDegradesTheLink := by
  refine ⟨fun s d t bytes hparse hup hlen => ?_, fun s d t bytes f hparse hrange hup hlen => ?_,
    fun s c d f hinput hframe hreaches hlen => ?_, fun s d t f hsender hup hkeeps hlen => ?_, fun s d reason => ?_,
    fun _ _ => rfl, fun s hready hdetached haddress hcrystal => ?_, fun s hready hattached hoff => ?_,
    fun s hready hcrystal => ?_, fun s _ hrestarting hattached => ?_, fun s d now => ?_⟩
  · refine ⟨_, (exec_frameCrcFail_bad hparse d t s).trans (congrArg Host.Outcome.next (badFrame_up hup hlen)), ?_⟩
    change _ ∧ _ ∧ ((((keptWindow (s.link d).window).filter _).length < 3) → _ ∧ _ = keptWindow (s.link d).window ++ [true] ∧ _) ∧
      (3 ≤ ((keptWindow (s.link d).window).filter _).length → _)
    dsimp only
    generalize hfailed : s.modLink d (fun l => { (l.endRun.record true) with crcErrors := bump l.crcErrors }) = failed
    have hnotDown : (s.link d).state ≠ .down := by
      rw [hup]
      decide
    have hself : failed.link d = { ((s.link d).endRun.record true) with crcErrors := bump (s.link d).crcErrors } := by
      rw [← hfailed, State.modLink_link_self]
    have hother : failed.link d.other = s.link d.other := by rw [← hfailed, State.modLink_link_other]
    split
    · next hfew =>
      have hdropped := linkDrop_spec d .degraded failed
      have hlink := hdropped.link_self
      rw [hself] at hlink
      refine ⟨hdropped.link_other.trans hother, by rw [hlink]; rfl, fun h => absurd hfew (by omega), fun _ => ?_⟩
      rw [hlink]
      exact ⟨rfl, if_neg hnotDown, if_neg hnotDown, rfl⟩
    · next hfew =>
      refine ⟨hother, by rw [hself], fun _ => ?_, fun h => absurd h hfew⟩
      rw [hself]
      subst hfailed
      exact ⟨hup, pushBounded_window hlen true, rfl, rfl, rfl, rfl, rfl⟩
  · exact ⟨_, exec_frameCrcFail_ring hparse d t s, receiveFrame_window t ⟨hup, hrange⟩ hlen⟩
  · obtain ⟨t, hexec⟩ := exec_of_arrival hinput hframe s
    exact ⟨_, hexec, receiveFrame_window t hreaches hlen⟩
  · exact ⟨_, exec_linkIdleReceived t hsender, receiveIdle_window t hup hkeeps hlen⟩
  · exact linkDrop_window d reason s
  · have hcode : (s.touched .a).attachCode = .accepted := by
      change s.attachCode = _
      rw [State.attachCode_eq, if_neg (by simp [hdetached]), if_neg haddress, if_neg (Classical.not_not.mpr hcrystal)]
    refine ⟨_, (exec_attach_a hready).trans (congrArg Host.Outcome.next (cmdAttach_accepted hcode)), fun d => ?_⟩
    rw [(attachNode_spec _).link d]
    rfl
  · have hcode : (s.touched .a).detachCode = .accepted := by
      change s.detachCode = _
      have hnone : ¬s.axis.anyActive = true := by
        rw [AxisUnit.anyActive_iff]
        rintro ⟨i, hi⟩
        exact hi (hoff i)
      rw [State.detachCode_eq, if_neg (by simp [hattached]), if_neg hnone]
    refine ⟨_, (exec_detach_a hready).trans (congrArg Host.Outcome.next (cmdDetach_accepted hcode)), fun d => ?_⟩
    rw [(detachNode_spec _).link d]
    rfl
  · have hexec : exec .clockFault s = .next (clockFault s) := by
      change Host.Outcome.next (if (s.clock.ready && decide (s.clock.state = .crystal)) = true then _ else s) = _
      rw [hready, hcrystal]
      rfl
    obtain ⟨x, hx, htripped, -⟩ := clockFault_spec s
    refine ⟨_, hexec, fun d => ?_⟩
    have hlink : (clockFault s).link d = (s.link d).shutDown .clock :=
      (State.link_congr htripped.links d).trans (hx.link d)
    rw [hlink]
    rfl
  · obtain ⟨-, -, -, hlit, -⟩ := restartCompletes_spec s
    refine ⟨_, exec_clockRestartComplete hrestarting, fun d => ?_⟩
    rw [hlit hattached d]
    rfl
  · rw [(linkUp_spec d now s).1]

end Sys2Proof.Machine
end

