-- ==== Sys2Proof/Proofs/TransmitQueue.lean ====
section
/-!
PROOFS. The transmit queue: a message that leaves with its record (R113), what ends an attempt and its waits (R105, R111, R126),
the arbiter (R101 to R105), CANCEL HEAD and the outcome window (R113, R114).
-/

namespace Sys2Proof.Machine

/-! ### A message that leaves (R113) -/

@[simp] theorem State.touched_wide (s : State) (p : Port) : ((s.touched p).port p).wide = (s.port p).wide := by
  rw [State.touched_port_self]

theorem State.modChannel_congr {s : State} {c : ChannelNo} {f g : Channel → Channel} (h : f (s.getChannel c) = g (s.getChannel c)) :
    s.modChannel c f = s.modChannel c g := by
  change { s with chan := { s.chan with channels := s.chan.channels.set c.val (f (s.getChannel c)) } } = _
  rw [h]
  rfl

theorem State.modChannel_getChannel_other {s : State} {c k : ChannelNo} (f : Channel → Channel) (h : k ≠ c) :
    (s.modChannel c f).getChannel k = s.getChannel k := by rw [State.modChannel_getChannel, if_neg h]

/-- A channel whose queue message `i` has left: if it was the head, the next head is idle. -/
def Channel.without (x : Channel) (i : Nat) : Channel :=
  { x with
    queue := x.queue.eraseIdx i
    head := if i = 0 then .idle else x.head
    attempt := if i = 0 then none else x.attempt
    reoffer := if i = 0 then false else x.reoffer }

/-- A channel whose outcome list has taken a record. -/
def Channel.reported (x : Channel) (r : OutcomeRecord) : Channel :=
  { x with outcomes := pushBounded x.outcomes r 8, overflow := x.overflow || decide (8 ≤ x.outcomes.length) }

/-- The record of a message with its final outcome. -/
def TxMsg.record (m : TxMsg) (o : MsgOutcome) (takers : Nat) : OutcomeRecord :=
  { outcome := o, tag := m.tag, kind := m.kind, dest := m.dest, tries := m.tries, takers := takers }

theorem Channel.reported_of_room {x : Channel} (r : OutcomeRecord) (h : x.outcomes.length < 8) :
    x.reported r = { x with outcomes := x.outcomes ++ [r] } := by
  unfold Channel.reported
  rw [pushBounded_of_lt _ h, decide_eq_false (by omega), Bool.or_false]

theorem Channel.without_zero_reported {x : Channel} {m : TxMsg} {rest : List TxMsg} (r : OutcomeRecord)
    (hqueue : x.queue = m :: rest) (hroom : x.outcomes.length < 8) : (x.without 0).reported r = { x with
      queue := rest, head := .idle, attempt := none, reoffer := false, outcomes := x.outcomes ++ [r] } := by
  rw [Channel.reported_of_room (x := x.without 0) r hroom]
  unfold Channel.without
  rw [hqueue]
  rfl

theorem addOutcome_eq (c : ChannelNo) (r : OutcomeRecord) (s : State) : addOutcome c r s =
    raise (s.getChannel c).config.owner .outcome (s.modChannel c fun x => x.reported r) := by
  unfold addOutcome
  exact congrArg (raise (s.getChannel c).config.owner Event.outcome) (State.modChannel_congr rfl)

theorem removeMessage_eq {s : State} {c : ChannelNo} {i : Nat} {m : TxMsg} (h : (s.getChannel c).queue[i]? = some m) :
    removeMessage c i s =
      freeBlocks m.blocks ((if i = 0 then withdraw c s else s).modChannel c fun x => x.without i) := by
  unfold removeMessage
  rw [h]
  dsimp only
  by_cases hi : i = 0
  · rw [if_pos hi, if_pos hi]
    subst hi
    exact congrArg (freeBlocks m.blocks) (State.modChannel_modChannel (withdraw c s) c (fun x => { x with queue := x.queue.eraseIdx 0 })
      fun x => { x with head := .idle, attempt := none, reoffer := false })
  · rw [if_neg hi, if_neg hi]
    refine congrArg (freeBlocks m.blocks) (State.modChannel_congr ?_)
    simp only [Channel.without, if_neg hi]

theorem finalOutcome_eq {s : State} {c : ChannelNo} {i : Nat} {m : TxMsg} (o : MsgOutcome) (takers : Nat)
    (h : (s.getChannel c).queue[i]? = some m) : finalOutcome c i o takers s =
      raise (s.getChannel c).config.owner .outcome (freeBlocks m.blocks
        ((if i = 0 then withdraw c s else s).modChannel c fun x => (x.without i).reported (m.record o takers))) := by
  have hsame : (if i = 0 then withdraw c s else s).getChannel c = s.getChannel c := by split <;> rfl
  unfold finalOutcome
  rw [h]
  dsimp only
  rw [addOutcome_eq, removeMessage_eq h]
  generalize (if i = 0 then withdraw c s else s) = x at *
  have howner : (freeBlocks m.blocks (x.modChannel c fun y => y.without i)).getChannel c = (s.getChannel c).without i := by
    rw [← hsame]
    exact State.modChannel_getChannel_self _ _ _
  rw [howner]
  exact congrArg (fun y => raise _ Event.outcome (freeBlocks m.blocks y)) (State.modChannel_modChannel x c _ _)

/-- `t` is `s` after message `i` of a channel has left with its record. -/
structure State.MessageEnded (s : State) (c : ChannelNo) (i : Nat) (m : TxMsg) (r : OutcomeRecord) (t : State) : Prop where
  channel : t.getChannel c = ((s.getChannel c).without i).reported r
  others : ∀ k : ChannelNo, k ≠ c → t.getChannel k = s.getChannel k
  pool : t.pool = s.pool.release m.blocks
  raises : t.flag (s.getChannel c).config.owner .outcome = true
  ports : ∀ p : Port, p ≠ (s.getChannel c).config.owner → t.port p = s.port p
  taken : s.ChannelTaken t
  chan : t.chan = { s.chan with channels := t.chan.channels, offered := t.chan.offered }
  offered : t.chan.offered =
    if i = 0 ∧ s.chan.offered.any (fun f => f.channel == c) = true then none else s.chan.offered

/-- The head leaves: the next head is idle, and the record joins a list with room. -/
theorem State.MessageEnded.head {s t : State} {c : ChannelNo} {m : TxMsg} {rest : List TxMsg} {r : OutcomeRecord}
    (h : s.MessageEnded c 0 m r t) (hqueue : (s.getChannel c).queue = m :: rest) (hroom : (s.getChannel c).outcomes.length < 8) :
    t.getChannel c = { s.getChannel c with
      queue := rest, head := .idle, attempt := none, reoffer := false, outcomes := (s.getChannel c).outcomes ++ [r] } :=
  h.channel.trans (Channel.without_zero_reported r hqueue hroom)

theorem withdraw_offered (c : ChannelNo) (s : State) : (withdraw c s).chan.offered =
    if s.chan.offered.any (fun f => f.channel == c) = true then none else s.chan.offered := by
  change (match s.chan.offered with | some o => if o.channel = c then none else some o | none => none) = _
  cases s.chan.offered with
  | none => rfl
  | some o => simp

theorem finalOutcome_spec {s : State} {c : ChannelNo} {i : Nat} {m : TxMsg} (o : MsgOutcome) (takers : Nat)
    (h : (s.getChannel c).queue[i]? = some m) :
    s.MessageEnded c i m (m.record o takers) (finalOutcome c i o takers s) := by
  have htaken := finalOutcome_channelTaken c i o takers s
  rw [finalOutcome_eq o takers h] at *
  have hoffered : (if i = 0 then withdraw c s else s).chan.offered =
      if i = 0 ∧ s.chan.offered.any (fun f => f.channel == c) = true then none else s.chan.offered := by
    by_cases hi : i = 0
    · subst hi
      simp [withdraw_offered]
    · simp only [hi, false_and, if_false]
  have hchan : (if i = 0 then withdraw c s else s).chan =
      { s.chan with offered := (if i = 0 then withdraw c s else s).chan.offered } := by split <;> rfl
  have hpool : (if i = 0 then withdraw c s else s).pool = s.pool := by split <;> rfl
  have hports : (if i = 0 then withdraw c s else s).ports = s.ports := by split <;> rfl
  have hget (k : ChannelNo) : (if i = 0 then withdraw c s else s).getChannel k = s.getChannel k := by split <;> rfl
  generalize (if i = 0 then withdraw c s else s) = x at *
  exact
    { channel := by
        rw [← hget]
        exact State.modChannel_getChannel_self x c _
      others := fun k hk => by
        exact (State.modChannel_getChannel_other (fun y => (y.without i).reported (m.record o takers)) hk).trans (hget k)
      pool := congrArg (fun u : Pool => u.release m.blocks) hpool
      raises := raise_raises _ _ _
      ports := fun p hp => by
        rw [raise_port, if_neg hp]
        exact congrArg (fun u => PortPair.get u p) hports
      taken := htaken
      chan := congrArg (fun u : ChannelUnit => { u with
        channels := modifyAt x.chan.channels c fun y => (y.without i).reported (m.record o takers) }) hchan
      offered := hoffered }

/-! ### The ends of attempts and waits (R105, R109, R111, R126) -/

theorem resolveAttempt_of_ended {s : State} {c : ChannelNo} {a : Attempt} {m : TxMsg} {rest : List TxMsg} (atEvent : Bool)
    (hattempt : (s.getChannel c).attempt = some a) (hqueue : (s.getChannel c).queue = m :: rest) (hended : a.ended = true)
    (hfinishing : m.finishing = false) : resolveAttempt c atEvent s =
      match attemptResult a m with
      | .retry => if atEvent then idleHead false c s
          else s.modChannel c fun x => { x with head := .retryWait, attempt := none }
      | .held => s.modChannel c fun x => { x with head := .heldWait 0, attempt := none }
      | .final o n =>
        if m.kind = .request ∧ o = .taken ∧ m.dest ≠ 31 then makeEntry c m.dest m.tag (finalOutcome c 0 o n s)
        else finalOutcome c 0 o n s := by
  unfold resolveAttempt
  rw [hattempt, hqueue]
  simp only [hended, hfinishing, Bool.not_true, Bool.false_eq_true, if_false] <;> rfl

/-- An attempt whose one segment did not come back retries below 8 tries, and is lost at 8 (R111). -/
theorem attemptResult_lost {m : TxMsg} {a : Attempt} (hsegs : a.segs = [.notReturned]) (hdest : m.dest ≠ 31) (hkind : m.kind ≠ .strip) :
    attemptResult a m = if m.tries < 8 then .retry else .final .failedLost 0 := by
  unfold attemptResult screenResult Attempt.someMark
  rw [if_neg hdest, if_neg hkind, hsegs]
  rfl

theorem exec_segmentTimeout_single {s : State} {c : ChannelNo} {m : TxMsg} {rest : List TxMsg} {n : Nat}
    (hqueue : (s.getChannel c).queue = m :: rest) (hfinishing : m.finishing = false) (hdest : m.dest ≠ 31) (hkind : m.kind = .event)
    (hattempt : (s.getChannel c).attempt = some { segs := [.onWire n], stopped := false }) (hn : 1 ≤ n) :
    exec (.segmentTimeout c 0) s = .next (
      let lost := s.modChannel c fun y => { y with attempt := some { segs := [.notReturned], stopped := false } }
      if m.tries < 8 then idleHead false c lost else finalOutcome c 0 .failedLost 0 lost) := by
  have hlost : (s.modChannel c fun x => { x with attempt := x.attempt.map fun a => a.modSeg 0 fun _ => .notReturned }) =
      s.modChannel c fun y => { y with attempt := some { segs := [.notReturned], stopped := false } } :=
    State.modChannel_congr (by rw [hattempt]; rfl)
  have hexec : exec (.segmentTimeout c 0) s = .next (resolveAttempt c true
      (s.modChannel c fun x => { x with attempt := x.attempt.map fun a => a.modSeg 0 fun _ => .notReturned })) := by
    change execSegmentTimeout c 0 s = _
    unfold execSegmentTimeout
    rw [hattempt]
    exact if_pos (by omega)
  rw [hexec, hlost]
  generalize hx : s.modChannel c _ = x
  have hself : x.getChannel c = { s.getChannel c with attempt := some { segs := [.notReturned], stopped := false } } := by
    rw [← hx, State.modChannel_getChannel_self]
  rw [resolveAttempt_of_ended true (by rw [hself]) (by rw [hself]; exact hqueue) rfl hfinishing,
    attemptResult_lost rfl hdest (by rw [hkind]; decide)]
  by_cases htries : m.tries < 8
  · rw [if_pos htries]
    exact congrArg Host.Outcome.next (if_pos htries).symm
  · rw [if_neg htries]
    simp [htries]

theorem modifyNth_getElem?_self {α : Type} {xs : List α} {i : Nat} (f : α → α) {x : α} (h : xs[i]? = some x) :
    (modifyNth xs i f)[i]? = some (f x) := by
  rw [modifyNth_eq, List.getElem?_modify_eq, h]
  rfl

theorem modifyNth_getElem?_other {α : Type} (xs : List α) {i j : Nat} (f : α → α) (h : j ≠ i) :
    (modifyNth xs i f)[j]? = xs[j]? := by
  simp [modifyNth_eq, h.symm]

/-- A context of no RESPONSE that is discarded: its slot is blank and its blocks are free (R109, R135). -/
theorem discardContext_eq {s : State} {k : Fin 4} {c : Context} (h : s.getContext k = some c) (hkind : c.kind ≠ .response) :
    discardContext k s =
      let freed := freeBlocks c.blocks (s.setContext k none)
      (match c.slot with | some i => emptySlot c.channel i freed | none => freed).modChan fun u =>
        { u with discards := bump u.discards } := by
  unfold discardContext reopenEntry
  rw [h]
  simp only [if_neg hkind] <;> rfl

theorem removeEntry_append {before after : List OutEntry} {e : OutEntry}
    (h : ∀ y ∈ before, ¬(y.dest = e.dest ∧ y.tag = e.tag)) :
    removeEntry e.dest e.tag (before ++ e :: after) = before ++ after := by
  induction before with
  | nil => exact if_pos ⟨rfl, rfl⟩
  | cons y ys ih =>
    obtain ⟨hy, hys⟩ := List.forall_mem_cons.mp h
    rw [List.cons_append, removeEntry, if_neg hy, ih hys]
    rfl

theorem exec_outstandingEntryTimeout {s : State} {c : ChannelNo} {before after : List OutEntry} {e : OutEntry}
    (hentries : (s.getChannel c).entries = before ++ e :: after) (hfirst : ∀ y ∈ before, ¬(y.dest = e.dest ∧ y.tag = e.tag))
    (hwaiting : e.state = .waiting) (hage : e.age + 1 = (s.getChannel c).config.tResp) :
    exec (.outstandingEntryTimeout c e.dest e.tag) s =
      .next (addOutcome c (noResponse e) (s.modChannel c fun x => { x with entries := before ++ after })) := by
  have hfound : (s.getChannel c).entries.find? (fun y => decide (y.dest = e.dest ∧ y.tag = e.tag)) = some e :=
    List.find?_eq_some_iff_append.mpr ⟨by simp, before, after, hentries, fun y hy => by
      rw [decide_eq_false (hfirst y hy)]
      rfl⟩
  have hexpired : ({ e with age := e.age + 1 } : OutEntry).expired (s.getChannel c).config.tResp = true := by
    simp [OutEntry.expired, hwaiting, hage]
  have hremoved : (s.modChannel c fun x => { x with entries := removeEntry e.dest e.tag x.entries }) =
      s.modChannel c fun x => { x with entries := before ++ after } :=
    State.modChannel_congr (by rw [hentries, removeEntry_append hfirst])
  change execOutstandingEntryTimeout c e.dest e.tag s = _
  unfold execOutstandingEntryTimeout
  rw [hfound]
  simp only [hexpired, if_true, hremoved]

/-- Settles O48, by the end of the attempt, the discarded context and the expired entry. -/
theorem waitsAndTimeouts : Obligations.WaitsAndTimeouts := by
  refine ⟨fun s c => ⟨fun m rest n hqueue hfinishing hdest hkind hattempt hn => ?_, fun hhead => ?_, fun hhead => ?_⟩,
    fun s => ⟨fun k c hcontext hidle hkind => ?_, fun c before after e hentries hfirst hwaiting hage hroom => ?_⟩⟩
  · have hexec := exec_segmentTimeout_single hqueue hfinishing hdest hkind hattempt hn
    refine ⟨fun htries => ?_, fun htries hroom => ?_⟩
    · rw [hexec]
      dsimp only
      rw [if_pos htries]
      exact congrArg Host.Outcome.next (State.modChannel_modChannel s c _ _)
    · dsimp only at hexec
      rw [if_neg (by omega)] at hexec
      refine ⟨_, hexec, ?_⟩
      generalize hx : s.modChannel c _ = x
      have hself : x.getChannel c = { s.getChannel c with attempt := some { segs := [.notReturned], stopped := false } } := by
        rw [← hx, State.modChannel_getChannel_self]
      have hother (k : ChannelNo) (hk : k ≠ c) : x.getChannel k = s.getChannel k := by
        rw [← hx, State.modChannel_getChannel_other _ hk]
      have hended := finalOutcome_spec (s := x) (i := 0) (m := m) .failedLost 0 (by rw [hself, hqueue]; rfl)
      generalize finalOutcome c 0 .failedLost 0 x = u at *
      have hchannel := hended.head (by rw [hself]; exact hqueue) (by rw [hself]; exact hroom)
      have hraises := hended.raises
      have hframe := hended.taken.frame
      rw [hself] at hchannel hraises
      rw [TxMsg.record, hkind] at hchannel
      refine ⟨hchannel, fun k hk => (hended.others k hk).trans (hother k hk), ?_, ?_, hraises, ?_⟩
      · rw [hended.pool, ← hx]
        rfl
      · rw [hended.pool, ← hx]
        rfl
      · rw [hframe, ← hx]
        exact ⟨rfl, rfl, rfl, rfl, rfl, rfl⟩
  · change Host.Outcome.next (if (s.getChannel c).head = .retryWait then _ else s) = _
    rw [if_pos hhead]
    exact congrArg Host.Outcome.next (State.modChannel_congr (by rw [Channel.waitEvent, hhead]))
  · change execHeldWaitEnd c s = _
    unfold execHeldWaitEnd
    rw [hhead]
    exact congrArg Host.Outcome.next (State.modChannel_congr (by rw [Channel.waitEvent, hhead]; rfl))
  · have hexec : exec (.contextStale k) s = .next (discardContext k s) := by
      change Host.Outcome.next (match s.getContext k with | some c => if 2 ≤ c.idle + 1 then discardContext k s else s | none => s) = _
      rw [hcontext]
      exact congrArg Host.Outcome.next (if_pos (by omega))
    refine ⟨_, hexec, ?_⟩
    rw [discardContext_eq hcontext hkind]
    have hgone (j : Fin 4) : (s.setContext k none).getContext j = if j = k then none else s.getContext j :=
      State.setContext_getContext s k j none
    cases hslot : c.slot with
    | none =>
      exact ⟨(hgone k).trans (if_pos rfl), fun j hj => (hgone j).trans (if_neg hj), rfl,
        fun n hn => (freeBlocks_owner c.blocks s n).trans (if_pos hn),
        fun n hn => (freeBlocks_owner c.blocks s n).trans (if_neg hn), rfl, rfl, fun _ => rfl, nofun, rfl⟩
    | some i =>
      refine ⟨(hgone k).trans (if_pos rfl), fun j hj => (hgone j).trans (if_neg hj), rfl,
        fun n hn => (freeBlocks_owner c.blocks s n).trans (if_pos hn),
        fun n hn => (freeBlocks_owner c.blocks s n).trans (if_neg hn), rfl, rfl, nofun, ?_, rfl⟩
      rintro _ ⟨⟩ hi
      have hstore : ((emptySlot c.channel i s).getChannel c.channel).store.slots =
          modifyNth (s.getChannel c.channel).store.slots i fun _ => Slot.blank := by
        unfold emptySlot
        rw [State.modChannel_getChannel_self]
      change ((emptySlot c.channel i s).getChannel c.channel).store.slots[i]? = _ ∧ ∀ j : Nat, j ≠ i →
        ((emptySlot c.channel i s).getChannel c.channel).store.slots[j]? = _
      rw [hstore]
      exact ⟨modifyNth_getElem?_self _ (List.getElem?_eq_getElem hi), fun j hj => modifyNth_getElem?_other _ _ hj⟩
  · refine ⟨_, exec_outstandingEntryTimeout hentries hfirst hwaiting hage, ?_⟩
    rw [addOutcome_eq, State.modChannel_getChannel_self, State.modChannel_modChannel]
    generalize hx : s.modChannel c _ = x
    have hself : x.getChannel c = { s.getChannel c with
        entries := before ++ after, outcomes := (s.getChannel c).outcomes ++ [noResponse e] } := by
      rw [← hx, State.modChannel_getChannel_self]
      exact Channel.reported_of_room (x := { s.getChannel c with entries := before ++ after }) _ hroom
    refine ⟨hself, fun k hk => ?_, ?_, ?_⟩
    · change x.getChannel k = _
      rw [← hx, State.modChannel_getChannel_other _ hk]
    · exact raise_raises _ _ _
    · subst hx
      exact ⟨rfl, rfl, rfl, rfl, rfl⟩

/-! ### The arbiter (R101 to R105) -/

/-- The lowest channel with a property is the one found. -/
theorem allChannels_find? {p : ChannelNo → Bool} {c : ChannelNo} (hc : p c = true)
    (hlower : ∀ k : ChannelNo, k.val < c.val → p k = false) : allChannels.find? p = some c := by
  have hsplit : ∀ c : ChannelNo, allChannels = allChannels.take c.val ++ c :: allChannels.drop (c.val + 1) := by decide
  have hbefore : ∀ c : ChannelNo, ∀ k ∈ allChannels.take c.val, k.val < c.val := by decide
  refine List.find?_eq_some_iff_append.mpr ⟨hc, _, _, hsplit c, fun k hk => ?_⟩
  rw [hlower k (hbefore c k hk)]
  rfl

/-- A channel whose idle head has no attempt is ready, and its next segment is the first (R101). -/
theorem Channel.isReady_of_idle {x : Channel} {m : TxMsg} {rest : List TxMsg} (htype : x.config.type ≠ .off)
    (hqueue : x.queue = m :: rest) (hhead : x.head = .idle) : x.isReady = true := by
  unfold Channel.isReady
  rw [hqueue, hhead, decide_eq_true htype]
  rfl

theorem segmentLength_zero {n : Nat} (h : 1 ≤ n) : segmentLength n 0 = min n 256 := by
  unfold segmentLength segmentCount
  split <;> omega

theorem segmentCharge_eq (t : ChannelType) (s : State) (n : Nat) : segmentCharge t s.imageDoubled n =
    if t = .image ∧ (s.ring.mode ≠ .through ∨ s.cyc.ring = .wrapped) then 2 * (n + 36) else n + 36 := by
  unfold segmentCharge State.imageDoubled
  simp only [Bool.and_eq_true, Bool.or_eq_true, decide_eq_true_eq]

/-- The head of a channel that begins an attempt (R105, R111). -/
theorem Channel.beginAttempt_eq {x : Channel} {m : TxMsg} {rest : List TxMsg} (hqueue : x.queue = m :: rest)
    (hhead : x.head = .idle) : x.beginAttempt = { x with
      attemptNo := x.attemptNo + 1, head := .inAttempt, reoffer := false
      queue := { m with tries := if x.reoffer = true then m.tries else m.tries + 1 } :: rest
      attempt := some { segs := List.replicate ((m.length + 255) / 256) .unsent, stopped := false } } := by
  unfold Channel.beginAttempt
  rw [hqueue, hhead]
  rfl

/-- What the arbiter does with the first segment of the head that it chooses (R102, R103). -/
theorem offerSegment_first {s : State} {c : ChannelNo} {m : TxMsg} {rest : List TxMsg}
    (hoffered : s.chan.offered = none) (hphase : s.chan.openPhase = true) (hmode : s.ring.mode ≠ .isolated)
    (hshut : s.chan.shut = false) (hallowance : 0 < s.chan.allowance)
    (hlower : ∀ k : ChannelNo, k.val < c.val → (s.getChannel k).isReady = false)
    (htype : (s.getChannel c).config.type ≠ .off) (hqueue : (s.getChannel c).queue = m :: rest)
    (hhead : (s.getChannel c).head = .idle) (hattempt : (s.getChannel c).attempt = none) :
    offerSegment s =
      let charge := segmentCharge (s.getChannel c).config.type s.imageDoubled (segmentLength m.length 0)
      let begun := s.modChannel c Channel.beginAttempt
      if s.chan.allowance < charge then s.modChan fun u => { u with shut := true }
      else begun.modChan fun u => { u with
        offered := some { channel := c, index := 0
                          frame := begun.segmentFrame c (begun.getChannel c).attemptNo m 0 }
        allowance := u.allowance - charge } := by
  have hgoes : ¬(s.chan.offered.isSome || !s.chan.openPhase || decide (s.ring.mode = .isolated) || s.chan.shut ||
      decide (s.chan.allowance = 0)) = true := by
    simp [hoffered, hphase, hmode, hshut]
    omega
  have hfound := allChannels_find? (p := fun c => (s.getChannel c).isReady) (Channel.isReady_of_idle htype hqueue hhead) hlower
  have hnext : (s.getChannel c).nextSegment = 0 := by
    unfold Channel.nextSegment
    rw [hattempt]
  unfold offerSegment
  rw [if_neg hgoes, hfound]
  dsimp only
  rw [hqueue, hnext]

/-- Settles O47, by the arbiter's choice and the start of the attempt. -/
theorem arbiterOffersSegments : Obligations.ArbiterOffersSegments := by
  refine ⟨fun s => rfl, ?_⟩
  intro s c m rest n bs x hoffered hphase hmode hshut hallowance hlower htype hqueue hhead hattempt hblocks hlength bytes charge
  have hexec : exec .segmentOffer s = .next (offerSegment s) := rfl
  rw [offerSegment_first hoffered hphase hmode hshut hallowance hlower htype hqueue hhead hattempt,
    segmentLength_zero hlength, segmentCharge_eq] at hexec
  have hbegun : (s.modChannel c Channel.beginAttempt).getChannel c = _ :=
    (State.modChannel_getChannel_self s c _).trans (Channel.beginAttempt_eq hqueue hhead)
  refine ⟨fun hbeyond => hexec.trans (congrArg Host.Outcome.next (if_pos hbeyond)), fun hfits => ?_⟩
  refine ⟨_, hexec.trans (congrArg Host.Outcome.next (if_neg (Nat.not_lt.mpr hfits))), ?_, rfl, hbegun,
    fun k hk => State.modChannel_getChannel_other (s := s) Channel.beginAttempt hk, rfl⟩
  rw [hbegun]
  unfold State.segmentFrame
  rw [hblocks]
  dsimp only [List.getElem?_cons_zero]
  rw [segmentLength_zero hlength]
  rfl

/-! ### CANCEL HEAD and the outcome window (R113, R114) -/

theorem exec_cancelHead {s : State} (p : Port) (v : Word16) (hready : s.clock.ready = true) :
    exec (.cancelHead p v) s = .next (cmdCancelHead p v (s.touched p)) :=
  congrArg Host.Outcome.next (portWrite_ready p s _ hready)

theorem exec_outcomeRead {s : State} (p : Port) (c : ChannelNo) (hready : s.clock.ready = true) :
    exec (.outcomeRead p c) s = .next (cmdOutcomeRead p c (s.touched p)) :=
  congrArg Host.Outcome.next (portRead_ready p s _ hready)

/-- CANCEL HEAD of a channel that the port owns, by its head (R114). -/
theorem cmdCancelHead_owned {s : State} {p : Port} {v : Word16} {c : ChannelNo} (hv : v.toNat = c.val)
    (howner : (s.getChannel c).config.owner = p) : cmdCancelHead p v s =
      match (s.getChannel c).queue with
      | [] => s.setCode p fun k => { k with cancelHead := .empty }
      | m :: _ =>
        if ((s.getChannel c).attempt.any fun a => a.segs.any SegState.isOnWire) = true then
          s.setCode p fun k => { k with cancelHead := .inFlight }
        else if m.finishing = true then (removeMessage c 0 s).setCode p fun k => { k with cancelHead := .accepted }
        else (finalOutcome c 0 .cancelled 0 s).setCode p fun k => { k with cancelHead := .accepted } := by
  unfold cmdCancelHead
  rw [hv, finOf_val]
  dsimp only
  rw [if_neg (Classical.not_not.mpr howner)] <;> rfl

theorem cmdCancelHead_notOwner {s : State} {p : Port} {v : Word16} {c : ChannelNo} (hv : v.toNat = c.val)
    (howner : (s.getChannel c).config.owner ≠ p) :
    cmdCancelHead p v s = s.setCode p fun k => { k with cancelHead := .notOwner } := by
  unfold cmdCancelHead
  rw [hv, finOf_val]
  exact if_pos howner

theorem loadOutcome_eq (p : Port) (c : ChannelNo) (r : OutcomeRecord) (s : State) : loadOutcome p c r s =
    (s.modChannel c fun x => { x with outView := x.outView.set p r }).drive p
      (if (s.port p).wide = true then BitVec.ofNat 16 r.tag.toNat ++ BitVec.ofNat 16 r.outcome.num
        else BitVec.ofNat 32 r.outcome.num) := by
  unfold loadOutcome
  rw [drivePair_eq]
  rfl

/-- The first word of the outcome window with a record in the owner's list (R113, R172). -/
theorem cmdOutcomeRead_owned {s : State} {p : Port} {c : ChannelNo} {r : OutcomeRecord} {rest : List OutcomeRecord}
    (howner : (s.getChannel c).config.owner = p) (houtcomes : (s.getChannel c).outcomes = r :: rest) :
    cmdOutcomeRead p c s = loadOutcome p c r (s.modChannel c fun x => { x with outcomes := rest }) := by
  unfold cmdOutcomeRead
  rw [houtcomes, decide_eq_true howner]

theorem cmdOutcomeRead_none {s : State} {p : Port} {c : ChannelNo}
    (h : (s.getChannel c).config.owner ≠ p ∨ (s.getChannel c).outcomes = []) :
    cmdOutcomeRead p c s = loadOutcome p c OutcomeRecord.blank s := by
  unfold cmdOutcomeRead
  split
  · next r rest howner houtcomes =>
    rcases h with h | h
    · exact absurd (of_decide_eq_true howner) h
    · rw [houtcomes] at h
      cases h
  · rfl

/-- Settles O49, by the answers of CANCEL HEAD and the record that the window loads. -/
theorem cancelAndOutcomes : Obligations.CancelAndOutcomes := by
  intro s p v c hready hv x answers
  have hexec := exec_cancelHead p v hready
  have hwide (f : Channel → Channel) : (((s.touched p).modChannel c f).port p).wide = (s.port p).wide :=
    State.touched_wide s p
  refine ⟨fun howner => ?_, fun howner hqueue => ?_, fun m rest howner hqueue => ⟨fun a n hattempt hwire => ?_,
    fun hattempt hfinishing hroom => ?_⟩, fun r rest howner houtcomes => ?_, fun hnone => ?_⟩
  · exact hexec.trans (congrArg Host.Outcome.next (cmdCancelHead_notOwner (s := s.touched p) hv howner))
  · refine hexec.trans (congrArg Host.Outcome.next ?_)
    rw [cmdCancelHead_owned (s := s.touched p) hv howner, State.touched_getChannel, show (s.getChannel c).queue = [] from hqueue]
  · have hout : ((s.getChannel c).attempt.any fun a => a.segs.any SegState.isOnWire) = true := by
      rw [show (s.getChannel c).attempt = some a from hattempt]
      exact List.any_eq_true.mpr ⟨_, hwire, rfl⟩
    refine hexec.trans (congrArg Host.Outcome.next ?_)
    rw [cmdCancelHead_owned (s := s.touched p) hv howner, State.touched_getChannel, show (s.getChannel c).queue = _ from hqueue]
    exact if_pos hout
  · have hended := finalOutcome_spec (s := s.touched p) (c := c) (i := 0) (m := m) .cancelled 0
      (by rw [State.touched_getChannel, show (s.getChannel c).queue = _ from hqueue]; rfl)
    have hcancels : cmdCancelHead p v (s.touched p) =
        (finalOutcome c 0 .cancelled 0 (s.touched p)).setCode p fun k => { k with cancelHead := .accepted } := by
      rw [cmdCancelHead_owned (s := s.touched p) hv howner, State.touched_getChannel,
        show (s.getChannel c).queue = _ from hqueue, show (s.getChannel c).attempt = _ from hattempt]
      simp only [hfinishing, Option.any_none, Bool.false_eq_true, if_false]
    refine ⟨_, hexec.trans (congrArg Host.Outcome.next hcancels), ?_⟩
    have hchannel := hended.head hqueue hroom
    have hframe := hended.taken.frame
    generalize finalOutcome c 0 .cancelled 0 (s.touched p) = u at *
    refine ⟨hchannel, hended.others, (congrArg Pool.free hended.pool :), (congrArg Pool.mem hended.pool :), ?_, ?_, ?_⟩
    · have hraises := hended.raises
      rw [State.touched_getChannel, howner] at hraises
      rw [State.flag, State.setCode_port_self]
      exact hraises
    · rw [State.setCode_port_self]
    · rw [hframe]
      exact ⟨rfl, rfl, rfl, rfl, rfl⟩
  · rw [exec_outcomeRead p c hready, cmdOutcomeRead_owned (s := s.touched p) howner houtcomes, loadOutcome_eq,
      State.modChannel_modChannel, BitVec.ofNat_toNat]
    rw [hwide]
  · rw [exec_outcomeRead p c hready, cmdOutcomeRead_none (s := s.touched p) hnone, loadOutcome_eq, State.touched_wide]
    refine congrArg (fun w => Host.Outcome.next (State.drive _ p w)) ?_
    split
    · decide
    · rfl

end Sys2Proof.Machine
end

