-- ==== Sys2Proof/Proofs/ReceivedMessages.lean ====
section
/-!
PROOFS. What the owner port reads of a channel: the receive queue (R118 to R122) and the strip store (R137 to R142).
-/

namespace Sys2Proof.Machine

/-! ### A channel's owner port -/

/-- A command of the port that owns the channel it names. -/
theorem ownedChannel_of_owner {s : State} {p : Port} {v : Word16} {c : ChannelNo} (answer : Code → State → State)
    (f : ChannelNo → State) (hv : v.toNat = c.val) (howner : (s.getChannel c).config.owner = p) :
    ownedChannel p v answer f s = f c := by
  unfold ownedChannel
  rw [hv, finOf_val]
  exact if_neg (Classical.not_not.mpr howner)

theorem exec_portWrite {c : Instr} {s : State} {p : Port} {f : State → State}
    (hexec : exec c s = .next (portWrite p s f)) (hready : s.clock.ready = true) : exec c s = .next (f (s.touched p)) :=
  hexec.trans (congrArg Host.Outcome.next (portWrite_ready p s f hready))

theorem exec_portRead {c : Instr} {s : State} {p : Port} {f : State → State}
    (hexec : exec c s = .next (portRead p s f)) (hready : s.clock.ready = true) : exec c s = .next (f (s.touched p)) :=
  hexec.trans (congrArg Host.Outcome.next (portRead_ready p s f hready))

/-! ### The receive queue (R118 to R122) -/

theorem zero_append_setWidth (x : BitVec 16) : 0#16 ++ x = x.setWidth 32 := by
  refine BitVec.eq_of_toNat_eq ?_
  have hx := x.isLt
  rw [BitVec.toNat_append, BitVec.toNat_setWidth]
  simp
  omega

theorem cmdDescriptor_owned {s : State} {p : Port} {c : ChannelNo} (w : Fin 9) (htype : (s.getChannel c).config.type = .screen)
    (howner : (s.getChannel c).config.owner = p) : cmdDescriptor p c w s =
      s.drive p (if (s.port p).wide = true then
        (if w.val % 2 = 0 then BitVec.ofNat 16 ((s.getChannel c).descriptor (w.val + 1)) ++ BitVec.ofNat 16 ((s.getChannel c).descriptor w.val)
          else BitVec.ofNat 16 ((s.getChannel c).descriptor w.val) ++ BitVec.ofNat 16 ((s.getChannel c).descriptor (w.val - 1)))
        else BitVec.ofNat 32 ((s.getChannel c).descriptor w.val)) := by
  unfold cmdDescriptor
  dsimp only
  rw [if_neg (Classical.not_not.mpr htype), if_neg (Classical.not_not.mpr howner), drivePair_eq, pairPartner]
  split
  · split <;> rfl
  · rfl

theorem exec_descriptorRead_owned {s : State} {p : Port} {c : ChannelNo} (w : Fin 9) (hready : s.clock.ready = true)
    (htype : (s.getChannel c).config.type = .screen) (howner : (s.getChannel c).config.owner = p) :
    exec (.descriptorRead p c w) s = .next ((s.touched p).drive p (if (s.port p).wide = true then
        (if w.val % 2 = 0 then BitVec.ofNat 16 ((s.getChannel c).descriptor (w.val + 1)) ++ BitVec.ofNat 16 ((s.getChannel c).descriptor w.val)
          else BitVec.ofNat 16 ((s.getChannel c).descriptor w.val) ++ BitVec.ofNat 16 ((s.getChannel c).descriptor (w.val - 1)))
        else BitVec.ofNat 32 ((s.getChannel c).descriptor w.val))) := by
  refine (exec_portRead (f := cmdDescriptor p c w) rfl hready).trans (congrArg Host.Outcome.next ?_)
  rw [cmdDescriptor_owned (s := s.touched p) w htype howner, State.touched_wide, State.touched_getChannel]

theorem popRx_eq {s : State} {c : ChannelNo} {m : RxMsg} {rest : List RxMsg} (h : (s.getChannel c).rx = m :: rest) :
    popRx c s = freeBlocks m.blocks (s.modChannel c fun x => { x with rx := rest, readPos := 0 }) := by
  unfold popRx
  rw [h]

/-- Byte `i` of a message of one block is that byte of the block. -/
theorem messageByte_single (mem : List Host.Cell) (n : BlockNo) {i : Nat} (h : i < 256) :
    messageByte mem [n] i = Memory.read mem (256 * n.val + i) := by
  have hblock : i / 256 = 0 := by omega
  have hbyte : i % 256 = i := by omega
  unfold messageByte messageByteAddr
  rw [hblock, hbyte]
  rfl

/-- The lines of a stream or strip read of a one-block message at a 16-bit little-endian port (R119, R138, R159). -/
theorem linesOfBytes_stream (mem : List Host.Cell) (n : BlockNo) {length : Nat} (pos : Nat) (h : length ≤ 256) :
    linesOfBytes false false (streamBytes mem [n] length pos 2) =
      ((if pos + 1 < length then Memory.read mem (256 * n.val + pos + 1) else 0) ++
        (if pos < length then Memory.read mem (256 * n.val + pos) else 0)).setWidth 32 := by
  have hbytes : streamBytes mem [n] length pos 2 =
      [if pos < length then Memory.read mem (256 * n.val + pos) else 0,
        if pos + 1 < length then Memory.read mem (256 * n.val + pos + 1) else 0] := by
    have hbyte (j : Nat) : (if j < length then messageByte mem [n] j else 0) =
        if j < length then Memory.read mem (256 * n.val + j) else 0 := by
      split
      · rw [messageByte_single mem n (by omega)]
      · rfl
    change [if pos < length then messageByte mem [n] pos else 0, if pos + 1 < length then messageByte mem [n] (pos + 1) else 0] = _
    rw [hbyte, hbyte]
    rfl
  rw [hbytes, linesOfBytes_narrow]

/-- A stream read of the head by the owner (R119). -/
theorem cmdStream_owned {s : State} {p : Port} {c : ChannelNo} {m : RxMsg} {rest : List RxMsg}
    (htype : (s.getChannel c).config.type = .screen) (howner : (s.getChannel c).config.owner = p)
    (hrx : (s.getChannel c).rx = m :: rest) : cmdStream p c s =
      let n := accessBytes (s.port p).wide
      let driven := s.drive p (linesOfBytes (s.port p).wide (s.port p).bigEndian
        (streamBytes s.pool.mem m.blocks m.length (s.getChannel c).readPos n))
      if m.length ≤ (s.getChannel c).readPos + n then popRx c driven
      else driven.modChannel c fun y => { y with readPos := y.readPos + n } := by
  unfold cmdStream
  dsimp only
  rw [if_neg (Classical.not_not.mpr htype), if_neg (Classical.not_not.mpr howner), hrx]

theorem cmdStream_empty {s : State} {p : Port} {c : ChannelNo} (htype : (s.getChannel c).config.type = .screen)
    (howner : (s.getChannel c).config.owner = p) (hrx : (s.getChannel c).rx = []) : cmdStream p c s = overread p s := by
  unfold cmdStream
  dsimp only
  rw [if_neg (Classical.not_not.mpr htype), if_neg (Classical.not_not.mpr howner), hrx]

theorem cmdDiscardHead_owned {s : State} {p : Port} {v : Word16} {c : ChannelNo} (hv : v.toNat = c.val)
    (htype : (s.getChannel c).config.type = .screen) (howner : (s.getChannel c).config.owner = p) : cmdDiscardHead p v s =
      if (s.getChannel c).rx.isEmpty = true then s.setCode p fun k => { k with discardHead := .empty }
      else (popRx c s).setCode p fun k => { k with discardHead := .accepted } := by
  unfold cmdDiscardHead
  dsimp only
  rw [ownedChannel_of_owner _ _ hv howner, if_neg (Classical.not_not.mpr htype)]

theorem cmdHold_owned {s : State} {p : Port} {v : Word16} {c : ChannelNo} (hv : v.toNat = c.val)
    (htype : (s.getChannel c).config.type = .screen) (howner : (s.getChannel c).config.owner = p) : cmdHold p v s =
      (s.modChannel c fun x => { x with held := true }).setCode p fun k => { k with hold := .accepted } := by
  unfold cmdHold
  dsimp only
  rw [ownedChannel_of_owner _ _ hv howner, if_neg (Classical.not_not.mpr htype)]

theorem cmdRelease_owned {s : State} {p : Port} {v : Word16} {c : ChannelNo} (hv : v.toNat = c.val)
    (htype : (s.getChannel c).config.type = .screen) (howner : (s.getChannel c).config.owner = p) : cmdRelease p v s =
      (s.modChannel c fun x => { x with held := false }).setCode p fun k => { k with release := .accepted } := by
  unfold cmdRelease
  dsimp only
  rw [ownedChannel_of_owner _ _ hv howner, if_neg (Classical.not_not.mpr htype)]

/-- Settles O50, by what each read and command of the owner does with the head. -/
theorem receiveQueueIsRead : Obligations.ReceiveQueueIsRead := by
  intro s p v c hready hv x word htype howner
  have hdescriptor (w : Fin 9) := exec_descriptorRead_owned w hready htype howner
  have hdiscard := (exec_portWrite (c := .discardHead p v) (f := cmdDiscardHead p v) rfl hready).trans
    (congrArg Host.Outcome.next (cmdDiscardHead_owned (s := s.touched p) hv htype howner))
  have hstream : exec (.streamRead p c) s = .next (cmdStream p c (s.touched p)) := exec_portRead rfl hready
  rw [State.touched_getChannel] at hdiscard
  refine ⟨fun m rest hrx => ⟨?_, ?_, ?_, ?_, fun n hblocks hlength hnarrow hlittle => ?_⟩, fun hrx => ⟨?_, ?_⟩, ?_, ?_⟩
  · rw [hdescriptor 0]
    unfold Channel.descriptor
    rw [show (s.getChannel c).rx = _ from hrx]
    rfl
  · rw [hdescriptor 5]
    unfold Channel.descriptor
    rw [show (s.getChannel c).rx = _ from hrx]
    have htoAll : (if m.toAll = true then 1#16 else 0#16) = BitVec.ofNat 16 (boolNum m.toAll) := by cases m.toAll <;> rfl
    rw [htoAll]
    rfl
  · rw [hdescriptor 8]
    unfold Channel.descriptor
    rw [show (s.getChannel c).rx = _ from hrx]
    refine congrArg (fun w => Host.Outcome.next (State.drive _ p w)) ?_
    unfold word
    split
    · exact zero_append_setWidth _
    · rfl
  · rw [if_neg (by rw [show (s.getChannel c).rx = _ from hrx]; exact Bool.false_ne_true), popRx_eq (s := s.touched p) hrx] at hdiscard
    refine ⟨_, hdiscard, State.modChannel_getChannel_self (s.touched p) c _, rfl, rfl, ?_, rfl, rfl⟩
    rw [State.setCode_port_self]
  · intro lines
    have hlines : linesOfBytes (s.port p).wide (s.port p).bigEndian
        (streamBytes s.pool.mem m.blocks m.length x.readPos (accessBytes (s.port p).wide)) = lines := by
      rw [hnarrow, hlittle, hblocks]
      exact linesOfBytes_stream s.pool.mem n x.readPos hlength
    have hread := hstream.trans (congrArg Host.Outcome.next (cmdStream_owned (s := s.touched p) htype howner hrx))
    have hbig : ((s.touched p).port p).bigEndian = (s.port p).bigEndian := by rw [State.touched_port_self]
    dsimp only at hread
    rw [State.touched_wide, hbig, State.touched_pool, State.touched_getChannel, hlines, hnarrow, show accessBytes false = 2 from rfl] at hread
    refine ⟨fun hmore => ?_, fun hlast => ?_⟩
    · rw [if_neg (show ¬m.length ≤ (s.getChannel c).readPos + 2 from Nat.not_le.mpr hmore)] at hread
      exact hread
    · rw [if_pos (show m.length ≤ (s.getChannel c).readPos + 2 from hlast), popRx_eq (s := (s.touched p).drive p lines) hrx, hblocks] at hread
      refine ⟨_, hread, ?_, State.modChannel_getChannel_self ((s.touched p).drive p lines) c _, rfl, ?_, rfl, rfl, rfl⟩
      · exact congrArg PortUnit.lines (State.modPort_port_self (s.touched p) p fun u => { u with lines := lines })
      · exact (freeBlocks_owner [n] s n).trans (if_pos (List.mem_singleton.mpr rfl))
  · rw [hdiscard, if_pos (by rw [show (s.getChannel c).rx = _ from hrx]; rfl)]
  · rw [hstream, cmdStream_empty (s := s.touched p) htype howner hrx]
    rfl
  · exact (exec_portWrite (f := cmdHold p v) rfl hready).trans
      (congrArg Host.Outcome.next (cmdHold_owned (s := s.touched p) hv htype howner))
  · exact (exec_portWrite (f := cmdRelease p v) rfl hready).trans
      (congrArg Host.Outcome.next (cmdRelease_owned (s := s.touched p) hv htype howner))

/-! ### The strip store (R137 to R142) -/

/-- The one slot in READING is the one that is found. -/
theorem StripStore.reading_found {u : StripStore} {i : Nat} {y : Slot} (hi : u.slots[i]? = some y) (hy : y.state = .reading)
    (honly : ∀ (j : Nat) (z : Slot), u.slots[j]? = some z → z.state = .reading → j = i) :
    u.openSlot = some i ∧ u.slots.find? (fun z => decide (z.state = .reading)) = some y := by
  obtain ⟨hlt, hget⟩ := List.getElem?_eq_some_iff.mp hi
  have hbefore (j : Nat) (hj : j < i) : ¬(u.slots[j]'(Nat.lt_trans hj hlt)).state = .reading := fun hreading =>
    absurd (honly j _ (List.getElem?_eq_getElem _) hreading) (Nat.ne_of_lt hj)
  constructor
  · refine List.findIdx?_eq_some_iff_getElem.mpr ⟨hlt, by rw [hget]; exact decide_eq_true hy, fun j hj => ?_⟩
    exact fun h => hbefore j hj (of_decide_eq_true h)
  · refine List.find?_eq_some_iff_getElem.mpr ⟨decide_eq_true hy, i, hlt, hget, fun j hj => ?_⟩
    rw [decide_eq_false (hbefore j hj)]
    rfl

theorem StripStore.openSlot_none {u : StripStore} (h : ∀ z ∈ u.slots, z.state ≠ .reading) : u.openSlot = none :=
  List.findIdx?_eq_none_iff.mpr fun z hz => decide_eq_false (h z hz)

/-- A READY slot by its number, with no slot open, is opened (R137). -/
theorem StripStore.openCode_readySlot {u : StripStore} {i : Fin 32} {y : Slot} (hclosed : ∀ z ∈ u.slots, z.state ≠ .reading)
    (hi : u.slots[i.val]? = some y) (hy : y.state = .ready) : u.openCode (BitVec.ofNat 16 i.val) = (.accepted, i.val) := by
  have hlt := i.isLt
  have hnat : (BitVec.ofNat 16 i.val).toNat = i.val := by
    rw [BitVec.toNat_ofNat]
    omega
  have hlisted : BitVec.ofNat 16 i.val ≠ 0xFFFF#16 := fun h => by
    have := congrArg BitVec.toNat h
    rw [hnat] at this
    simp at this
    omega
  unfold StripStore.openCode
  rw [StripStore.openSlot_none hclosed, if_neg hlisted, hnat, hi]
  simp [hy]

theorem StripStore.openCode_busy {u : StripStore} {i : Nat} (h : u.openSlot = some i) (slot : Word16) :
    u.openCode slot = (.busy, 0) := by
  unfold StripStore.openCode
  rw [h]
  rfl

theorem cmdOpenSlot_owned {s : State} {p : Port} {v : Word16} {c : ChannelNo} (slot : Word16) (hv : v.toNat = c.val)
    (htype : (s.getChannel c).config.type = .image) (howner : (s.getChannel c).config.owner = p) : cmdOpenSlot p v slot s =
      if ((s.getChannel c).store.openCode slot).1 = .accepted then
        ((s.modChannel c fun x => { x with
          store := x.store.setSlotState ((s.getChannel c).store.openCode slot).2 .reading }).modPort p fun u =>
            { u with slotOpened := ((s.getChannel c).store.openCode slot).2 }).setCode p fun k => { k with openSlot := .accepted }
      else s.setCode p fun k => { k with openSlot := ((s.getChannel c).store.openCode slot).1 } := by
  unfold cmdOpenSlot
  dsimp only
  rw [ownedChannel_of_owner _ _ hv howner, if_neg (Classical.not_not.mpr htype)]

theorem cmdStrip_owned {s : State} {p : Port} {c : ChannelNo} {y : Slot} (htype : (s.getChannel c).config.type = .image)
    (howner : (s.getChannel c).config.owner = p)
    (hfound : (s.getChannel c).store.slots.find? (fun z => decide (z.state = .reading)) = some y) : cmdStrip p c s =
      let n := accessBytes (s.port p).wide
      if y.length ≤ (s.getChannel c).store.readPos then overread p s
      else (s.drive p (linesOfBytes (s.port p).wide (s.port p).bigEndian
          (streamBytes s.pool.mem y.blocks y.length (s.getChannel c).store.readPos n))).modChannel c fun z =>
        { z with store := { z.store with readPos := min (z.store.readPos + n) y.length } } := by
  unfold cmdStrip
  dsimp only
  rw [if_neg (Classical.not_not.mpr htype), if_neg (Classical.not_not.mpr howner), hfound]

theorem cmdCloseSlot_owned {s : State} {p : Port} {v : Word16} {c : ChannelNo} {i : Nat} (hv : v.toNat = c.val)
    (htype : (s.getChannel c).config.type = .image) (howner : (s.getChannel c).config.owner = p)
    (hopen : (s.getChannel c).store.openSlot = some i) : cmdCloseSlot p v s =
      (s.modChannel c fun x => { x with store := x.store.setSlotState i .ready }).setCode p fun k =>
        { k with closeSlot := .accepted } := by
  unfold cmdCloseSlot
  dsimp only
  rw [ownedChannel_of_owner _ _ hv howner, if_neg (Classical.not_not.mpr htype), hopen]

theorem cmdReleaseSlot_owned {s : State} {p : Port} {v : Word16} {c : ChannelNo} {i : Nat} {y : Slot} (hv : v.toNat = c.val)
    (htype : (s.getChannel c).config.type = .image) (howner : (s.getChannel c).config.owner = p)
    (hopen : (s.getChannel c).store.openSlot = some i) (hi : (s.getChannel c).store.slots[i]? = some y) :
    cmdReleaseSlot p v s = (freeBlocks y.blocks (s.modChannel c fun x => { x with
      store := { x.store with slots := modifyNth x.store.slots i fun _ => Slot.blank, readPos := 0 } })).setCode p fun k =>
        { k with releaseSlot := .accepted } := by
  unfold cmdReleaseSlot
  dsimp only
  rw [ownedChannel_of_owner _ _ hv howner, if_neg (Classical.not_not.mpr htype), hopen]
  dsimp only
  rw [hi]

theorem cmdFreeze_owned {s : State} {p : Port} {v : Word16} {c : ChannelNo} (hv : v.toNat = c.val)
    (htype : (s.getChannel c).config.type = .image) (howner : (s.getChannel c).config.owner = p) :
    cmdFreeze p v s = (freezeStore c s).setCode p fun k => { k with freeze := .accepted } := by
  unfold cmdFreeze
  dsimp only
  rw [ownedChannel_of_owner _ _ hv howner, if_neg (Classical.not_not.mpr htype)]

theorem cmdResume_owned {s : State} {p : Port} {v : Word16} {c : ChannelNo} (hv : v.toNat = c.val)
    (htype : (s.getChannel c).config.type = .image) (howner : (s.getChannel c).config.owner = p) : cmdResume p v s =
      (s.modChannel c fun x => { x with store := { x.store with frozen := false } }).setCode p fun k =>
        { k with resume := .accepted } := by
  unfold cmdResume
  dsimp only
  rw [ownedChannel_of_owner _ _ hv howner, if_neg (Classical.not_not.mpr htype)]

/-- The slots of a channel with one slot changed. -/
theorem State.slots_modified (s : State) (c : ChannelNo) {f : Channel → Channel} {i : Nat} {g : Slot → Slot} {y : Slot}
    (hf : (f (s.getChannel c)).store.slots = modifyNth (s.getChannel c).store.slots i g)
    (hi : (s.getChannel c).store.slots[i]? = some y) :
    ((s.modChannel c f).getChannel c).store.slots[i]? = some (g y) ∧
      ∀ j : Nat, j ≠ i → ((s.modChannel c f).getChannel c).store.slots[j]? = (s.getChannel c).store.slots[j]? := by
  rw [State.modChannel_getChannel_self, hf]
  exact ⟨modifyNth_getElem?_self g hi, fun j hj => modifyNth_getElem?_other _ g hj⟩

/-- Settles O51, by the slot that each command of the owner finds. -/
theorem stripStoreIsRead : Obligations.StripStoreIsRead := by
  intro s p v c hready hv x store htype howner
  have hopens (slot : Word16) : exec (.openSlot p v slot) s = .next _ := (exec_portWrite (f := cmdOpenSlot p v slot) rfl hready).trans
    (congrArg Host.Outcome.next (cmdOpenSlot_owned (s := s.touched p) slot hv htype howner))
  refine ⟨fun i y hclosed hi hy => ?_, fun i y hi hy honly => ?_, fun hfrozen => ?_, fun hrunning => ?_, ?_⟩
  · have hcode := StripStore.openCode_readySlot hclosed hi hy
    have hexec := hopens (BitVec.ofNat 16 i.val)
    rw [State.touched_getChannel, show (s.getChannel c).store.openCode _ = _ from hcode, if_pos rfl] at hexec
    obtain ⟨hself, hothers⟩ := State.slots_modified (s.touched p) c
      (f := fun x => { x with store := x.store.setSlotState i.val .reading }) (i := i.val) (y := y) rfl hi
    refine ⟨_, hexec, hself, hothers, ?_, ?_, ?_, rfl, rfl, rfl, rfl⟩
    · exact congrArg (fun x : Channel => x.store.readPos) (State.modChannel_getChannel_self (s.touched p) c fun x =>
        { x with store := x.store.setSlotState i.val .reading })
    · rw [State.setCode_port_self]
    · rw [State.setCode_port_self, State.modPort_port_self]
  · obtain ⟨hopen, hfound⟩ := StripStore.reading_found hi hy honly
    have hread : exec (.stripRead p c) s = .next _ := (exec_portRead (f := cmdStrip p c) rfl hready).trans
      (congrArg Host.Outcome.next (cmdStrip_owned (s := s.touched p) htype howner hfound))
    dsimp only at hread
    have hbig : ((s.touched p).port p).bigEndian = (s.port p).bigEndian := by rw [State.touched_port_self]
    rw [State.touched_wide, hbig, State.touched_pool, State.touched_getChannel] at hread
    refine ⟨fun slot => ?_, fun n hblocks hlength hmore hnarrow hlittle => ?_, fun hend => ?_, ?_, ?_⟩
    · rw [hopens slot, State.touched_getChannel, StripStore.openCode_busy hopen, if_neg (by decide)]
    · have hwithin : x.store.readPos < y.length := by omega
      have hlines := linesOfBytes_stream s.pool.mem n x.store.readPos hlength
      rw [if_pos hwithin, if_pos (show x.store.readPos + 1 < y.length by omega)] at hlines
      rw [if_neg (Nat.not_le.mpr hwithin), hnarrow, hlittle, hblocks, show accessBytes false = 2 from rfl,
        show linesOfBytes false false _ = _ from hlines] at hread
      refine hread.trans (congrArg Host.Outcome.next (State.modChannel_congr ?_))
      exact congrArg (fun n => { x with store := { x.store with readPos := n } }) (Nat.min_eq_left hmore)
    · exact hread.trans (congrArg Host.Outcome.next (if_pos hend))
    · obtain ⟨hself, hothers⟩ := State.slots_modified (s.touched p) c
        (f := fun x => { x with store := x.store.setSlotState i .ready }) (i := i) (y := y) rfl hi
      refine ⟨_, (exec_portWrite (f := cmdCloseSlot p v) rfl hready).trans (congrArg Host.Outcome.next
        (cmdCloseSlot_owned (s := s.touched p) hv htype howner hopen)), hself, hothers, ?_, rfl, rfl, rfl, rfl⟩
      rw [State.setCode_port_self]
    · obtain ⟨hself, hothers⟩ := State.slots_modified (s.touched p) c (f := fun x => { x with
        store := { x.store with slots := modifyNth x.store.slots i fun _ => Slot.blank, readPos := 0 } }) (i := i) (y := y) rfl hi
      refine ⟨_, (exec_portWrite (f := cmdReleaseSlot p v) rfl hready).trans (congrArg Host.Outcome.next
        (cmdReleaseSlot_owned (s := s.touched p) hv htype howner hopen hi)), hself, hothers, rfl, rfl, ?_, rfl, rfl⟩
      rw [State.setCode_port_self]
  · refine (exec_portWrite (f := cmdFreeze p v) rfl hready).trans (congrArg Host.Outcome.next ?_)
    rw [cmdFreeze_owned (s := s.touched p) hv htype howner]
    exact congrArg (fun t => State.setCode t p _) (if_pos hfrozen)
  · have hfreeze : freezeStore c (s.touched p) = raise p .store ((s.touched p).modChannel c fun x =>
        { x with store := { x.store with frozen := true } }) := by
      unfold freezeStore
      rw [if_neg (by rw [State.touched_getChannel, show (s.getChannel c).store.frozen = false from hrunning]; exact Bool.false_ne_true),
        State.touched_getChannel, show (s.getChannel c).config.owner = p from howner]
    refine ⟨_, (exec_portWrite (f := cmdFreeze p v) rfl hready).trans (congrArg Host.Outcome.next
      (cmdFreeze_owned (s := s.touched p) hv htype howner)), ?_⟩
    rw [hfreeze]
    refine ⟨State.modChannel_getChannel_self (s.touched p) c _, ?_, ?_, rfl, rfl, rfl, rfl⟩
    · rw [State.flag, State.setCode_port_self]
      exact raise_raises _ _ _
    · rw [State.setCode_port_self]
  · exact (exec_portWrite (f := cmdResume p v) rfl hready).trans
      (congrArg Host.Outcome.next (cmdResume_owned (s := s.touched p) hv htype howner))

end Sys2Proof.Machine
end

