-- ==== Sys2Proof/Proofs/ChannelPosts.lean ====
section
/-!
PROOFS. Channel configuration (R99, R116, R130) and posting (R100, R132, R133).
-/

namespace Sys2Proof.Machine

/-! ### Configuration (R99, R116, R130) -/

theorem State.channelBusy_iff (s : State) (c : ChannelNo) : s.channelBusy c = true ↔
    (s.getChannel c).queue ≠ [] ∨ (s.getChannel c).rx ≠ [] ∨ (s.getChannel c).entries ≠ [] ∨
      (∃ y ∈ (s.getChannel c).store.slots, y.state ≠ .empty) ∨ s.contextsOn c ≠ [] := by
  simp only [State.channelBusy, Bool.or_eq_true, Bool.not_eq_true', List.isEmpty_eq_false_iff, List.any_eq_true,
    decide_eq_true_eq, or_assoc]

theorem exec_channelConfigWrite_a {s : State} (c : ChannelNo) (q : ChannelItem) (v : Word16) (hready : s.clock.ready = true) :
    exec (.channelConfigWrite .a c q v) s = .next (cmdChannelConfig .a c q v (s.touched .a)) :=
  exec_portWrite rfl hready

/-- What a write to a channel without traffic stores, with the clamp flag (R99). -/
def State.ConfigStored (s : State) (c : ChannelNo) (v : Word16) (q : ChannelItem) (y : Channel) (clamped : Bool) : Prop :=
  ∃ u, exec (.channelConfigWrite .a c q v) s = .next u ∧ u.getChannel c = y ∧
    (∀ k : ChannelNo, k ≠ c → u.getChannel k = s.getChannel k) ∧ u.cyc.configResult = .accepted ∧
    u.chan.clampFlag = (s.chan.clampFlag || clamped) ∧
    u = { s.touched .a with
      cyc := { s.cyc with configResult := .accepted },
      chan := { s.chan with channels := u.chan.channels, clampFlag := u.chan.clampFlag } }

theorem State.configStored {s : State} {c : ChannelNo} {v : Word16} {q : ChannelItem} {y : Channel} {clamped : Bool}
    (hready : s.clock.ready = true) (hfree : ¬s.channelBusy c = true) (hitem : (s.getChannel c).setItem q v.toNat = y)
    (hclamps : q.clamps v.toNat = clamped) : s.ConfigStored c v q y clamped := by
  have hcmd : cmdChannelConfig .a c q v (s.touched .a) =
      let stored := ((s.touched .a).modCyc fun u => { u with configResult := .accepted }).modChannel c fun x => x.setItem q v.toNat
      if clamped = true then stored.modChan fun u => { u with clampFlag := true } else stored := by
    rw [cmdChannelConfig, writeByA_a, ← hclamps]
    exact if_neg hfree
  have hself : (((s.touched .a).modCyc fun u => { u with configResult := .accepted }).modChannel c fun x =>
      x.setItem q v.toNat).getChannel c = y := (State.modChannel_getChannel_self _ _ _).trans hitem
  have hothers (k : ChannelNo) (hk : k ≠ c) : (((s.touched .a).modCyc fun u => { u with configResult := .accepted }).modChannel c
      fun x => x.setItem q v.toNat).getChannel k = s.getChannel k := State.modChannel_getChannel_other _ hk
  refine ⟨_, (exec_channelConfigWrite_a c q v hready).trans (congrArg Host.Outcome.next hcmd), ?_⟩
  dsimp only
  cases clamped with
  | false => exact ⟨hself, hothers, rfl, (Bool.or_false _).symm, rfl⟩
  | true => exact ⟨hself, hothers, rfl, (Bool.or_true _).symm, rfl⟩

theorem ChannelItem.clamps_eq {q : ChannelItem} (hq : q ≠ .stampShaft) (n : Nat) (h : q.range.1 ≤ q.range.2) :
    q.clamps n = decide (n < q.range.1 ∨ q.range.2 < n) := by
  unfold ChannelItem.clamps ChannelItem.stored
  rw [if_neg (fun h => hq h.1), decide_eq_decide, ne_eq, clampNat_eq_iff n h]
  omega

theorem ChannelItem.stored_eq (q : ChannelItem) (n : Nat) (h : q.range.1 ≤ q.range.2) :
    q.stored n = max q.range.1 (min n q.range.2) := clampNat_eq n h

/-- The type that a written number gives (R99). -/
theorem channelTypeOf_stored (n : Nat) : channelTypeOf (ChannelItem.stored .type n) =
    if n = 0 then .off else if n = 1 then .screen else .image := by
  rw [ChannelItem.stored_eq .type n (by decide)]
  change channelTypeOf (max 0 (min n 2)) = _
  match n with
  | 0 => rfl
  | 1 => rfl
  | n + 2 => simp [channelTypeOf]

theorem portOf_stored (n : Nat) : portOf (ChannelItem.stored .owner n) = if n = 0 then .a else .b := by
  rw [ChannelItem.stored_eq .owner n (by decide)]
  change portOf (max 0 (min n 1)) = _
  match n with
  | 0 => rfl
  | n + 1 => simp [portOf]

theorem stored_yes {q : ChannelItem} (n : Nat) (hlo : q.range.1 = 0) (hhi : q.range.2 = 1) :
    (q.stored n == 1) = decide (1 ≤ n) := by
  rw [ChannelItem.stored_eq q n (by omega), hlo, hhi, Bool.beq_eq_decide_eq, decide_eq_decide]
  omega

/-- A new type empties the outcome list, and starts with the items of SCREEN and IMAGE afresh (R99, R116, R130). -/
theorem Channel.setType_changed {x : Channel} {t : ChannelType} (hrx : x.rx = []) (hentries : x.entries = [])
    (h : x.config.type ≠ t) : x.setType t = { x with
      config := { x.config with
        type := t, tResp := if x.config.type = .screen ∨ t = .screen then 200 else x.config.tResp }
      rx := [], entries := [], outcomes := [], overflow := false
      readPos := if x.config.type = .screen ∨ t = .screen then 0 else x.readPos
      held := if x.config.type = .screen ∨ t = .screen then false else x.held
      flushed := if x.config.type = .screen ∨ t = .screen then 0 else x.flushed
      store := if x.config.type = .image ∨ t = .image then { x.store with frozen := false, gaps := [], readPos := 0 }
        else x.store } := by
  unfold Channel.setType
  dsimp only
  rw [if_neg h]
  by_cases hscreen : x.config.type = .screen ∨ t = .screen <;> by_cases himage : x.config.type = .image ∨ t = .image
  · simp only [if_pos hscreen, if_pos himage]
    rfl
  · simp only [if_pos hscreen, if_neg himage]
    rfl
  · simp only [if_neg hscreen, if_pos himage, ← hrx, ← hentries]
    rfl
  · simp only [if_neg hscreen, if_neg himage, ← hrx, ← hentries]
    rfl

/-- Settles O45, by the item that each write stores and its clamp. -/
theorem channelConfigurationWrites : Obligations.ChannelConfigurationWrites := by
  intro s c v hready x
  refine ⟨fun htraffic q => ?_, fun hqueue hrx hentries hslots hcontexts => ?_⟩
  · have hbusy : s.channelBusy c = true := (s.channelBusy_iff c).mpr htraffic
    rw [exec_channelConfigWrite_a c q v hready, cmdChannelConfig, writeByA_a]
    exact congrArg Host.Outcome.next (if_pos hbusy)
  · have hfree : ¬s.channelBusy c = true := by
      rw [State.channelBusy_iff]
      rintro (h | h | h | ⟨y, hy, h⟩ | h)
      · exact h hqueue
      · exact h hrx
      · exact h hentries
      · exact h (hslots y hy)
      · exact h hcontexts
    intro stored
    have hstored {q : ChannelItem} {y : Channel} {clamped : Bool} (hitem : x.setItem q v.toNat = y)
        (hclamps : q.clamps v.toNat = clamped) : stored q y clamped := State.configStored hready hfree hitem hclamps
    have hzero {q : ChannelItem} {n : Nat} (hq : q ≠ .stampShaft) (hlo : q.range.1 = 0) (hhi : q.range.2 = n) :
        q.clamps v.toNat = decide (n < v.toNat) := by
      rw [ChannelItem.clamps_eq hq _ (by omega), hlo, hhi, decide_eq_decide]
      omega
    refine ⟨hstored ?_ ?_, hstored ?_ ?_, hstored ?_ ?_, hstored ?_ ?_, hstored ?_ ?_, hstored ?_ ?_, fun hnone => hstored ?_ ?_,
      fun i hi => hstored ?_ ?_, fun hlo hhi => hstored ?_ ?_, fun hsame => hstored ?_ ?_, fun hdiffers => hstored ?_ ?_⟩
    · rw [Channel.setItem, ChannelItem.stored_eq _ _ (by decide)]
      rfl
    · exact ChannelItem.clamps_eq (by decide) _ (by decide)
    · rw [Channel.setItem, ChannelItem.stored_eq _ _ (by decide)]
      rfl
    · exact ChannelItem.clamps_eq (by decide) _ (by decide)
    · rw [Channel.setItem, portOf_stored]
      rfl
    · exact hzero (by decide) rfl rfl
    · rw [Channel.setItem, stored_yes _ rfl rfl]
    · exact hzero (by decide) rfl rfl
    · rw [Channel.setItem, stored_yes _ rfl rfl]
    · exact hzero (by decide) rfl rfl
    · rw [Channel.setItem, ChannelItem.stored_eq _ _ (by decide)]
      rfl
    · exact ChannelItem.clamps_eq (by decide) _ (by decide)
    · rw [Channel.setItem, if_pos hnone]
    · exact if_pos ⟨rfl, hnone⟩
    · have hrange : i.val < 4 := i.isLt
      have hsame : ChannelItem.stored .stampShaft i.val = i.val := (clampNat_eq_iff _ (by decide)).mpr ⟨Nat.zero_le _, by
        change i.val ≤ 3
        omega⟩
      rw [Channel.setItem, hi, if_neg (by omega), hsame, finOf_val]
    · have hrange : i.val < 4 := i.isLt
      unfold ChannelItem.clamps ChannelItem.stored
      rw [if_neg (by omega), decide_eq_false_iff_not, Classical.not_not, clampNat_eq_iff _ (by decide)]
      change 0 ≤ _ ∧ _ ≤ 3
      omega
    · have hthree : ChannelItem.stored .stampShaft v.toNat = 3 := by
        rw [ChannelItem.stored_eq _ _ (by decide)]
        change max 0 (min v.toNat 3) = 3
        omega
      rw [Channel.setItem, if_neg (by omega), hthree]
      rfl
    · unfold ChannelItem.clamps ChannelItem.stored
      rw [if_neg (by omega), decide_eq_true_eq, ne_eq, clampNat_eq_iff _ (by decide)]
      change ¬(0 ≤ _ ∧ _ ≤ 3)
      omega
    · rw [Channel.setItem, channelTypeOf_stored]
      exact if_pos hsame
    · exact hzero (by decide) rfl rfl
    · rw [Channel.setItem, channelTypeOf_stored]
      exact Channel.setType_changed hrx hentries hdiffers
    · exact hzero (by decide) rfl rfl

/-! ### The code of a post (R100) -/

/-- The blocks that a posting record lists, each below 512. -/
theorem listed_of_blocks {l : List Word16} {bs : List BlockNo} (h : l.map (fun w => w.toNat) = bs.map Fin.val) :
    ((l.map fun w => finOf 512 w.toNat).foldr (fun x acc => match x, acc with
      | some n, some ns => some (n :: ns)
      | _, _ => none) (some [])) = some bs := by
  induction l generalizing bs with
  | nil =>
    cases bs with
    | nil => rfl
    | cons => cases h
  | cons w l ih =>
    cases bs with
    | nil => cases h
    | cons b bs =>
      obtain ⟨hw, hl⟩ := List.cons.inj h
      rw [List.map_cons, List.foldr_cons, ih hl, show w.toNat = b.val from hw, finOf_val]

theorem listed_of_beyond {l : List Word16} (h : ∃ n ∈ l.map (fun w => w.toNat), 512 ≤ n) :
    ((l.map fun w => finOf 512 w.toNat).foldr (fun x acc => match x, acc with
      | some n, some ns => some (n :: ns)
      | _, _ => none) (some [])) = none := by
  obtain ⟨n, hn, hbeyond⟩ := h
  induction l with
  | nil => cases hn
  | cons w l ih =>
    rw [List.map_cons, List.foldr_cons]
    rcases List.mem_cons.mp hn with rfl | hrest
    · rw [finOf_of_le hbeyond]
    · rw [ih hrest]
      split
      · next h => cases h
      · rfl

theorem PostingRecord.listed_of_blocks {r : PostingRecord} {bs : List BlockNo}
    (h : (r.blocks.toList.take r.count.toNat).map (fun w => w.toNat) = bs.map Fin.val) : r.listed = some bs :=
  Machine.listed_of_blocks h

theorem PostingRecord.listed_of_beyond {r : PostingRecord}
    (h : ∃ n ∈ (r.blocks.toList.take r.count.toNat).map (fun w => w.toNat), 512 ≤ n) : r.listed = none :=
  Machine.listed_of_beyond h

theorem noRepeats_iff (ns : List BlockNo) : noRepeats ns = true ↔ ns.Nodup := by
  refine ⟨noRepeats_nodup, fun h => ?_⟩
  induction ns with
  | nil => rfl
  | cons n ns ih =>
    obtain ⟨hn, hns⟩ := List.nodup_cons.mp h
    simp [noRepeats, hn, ih hns]

theorem State.blocksPostable_iff {s : State} {p : Port} {r : PostingRecord} {bs : List BlockNo} (h : r.listed = some bs) :
    s.blocksPostable p r = true ↔ (∀ n ∈ bs, s.pool.owner n = .port p) ∧ bs.Nodup := by
  unfold State.blocksPostable
  rw [h]
  simp only [Bool.and_eq_true, List.all_eq_true, decide_eq_true_eq, noRepeats_iff]

/-- The kind word of a message kind. -/
theorem kindOf_num {kd : MsgKind} {n : Nat} (h : n = kd.num) : kindOf n = kd := by
  subst h
  cases kd <;> rfl

theorem kindOf_beyond {n : Nat} (h : n = 0 ∨ 4 ≤ n) : kindOf n = .none ∨ kindOf n = .strip := by
  match n with
  | 0 => exact .inl rfl
  | 4 => exact .inr rfl
  | n + 5 => exact .inl rfl

/-- A kind word other than 4 gives no STRIP. -/
theorem kindOf_ne_strip {n : Nat} (h : n ≠ 4) : kindOf n ≠ .strip := by
  match n with
  | 0 => decide
  | 1 => decide
  | 2 => decide
  | 3 => decide
  | 4 => exact absurd rfl h
  | n + 5 => exact nofun

/-- R100's table once the channel carries the message's kind. -/
theorem State.postCode_of_kind {s : State} {p : Port} {c : ChannelNo} {kd : MsgKind}
    (hcarries : (s.getChannel c).config.type.carries kd = true) (howner : (s.getChannel c).config.owner = p)
    (hkind : (s.port p).posting.kind.toNat = kd.num) : s.postCode p c =
      if 31 < (s.port p).posting.dest.toNat ∨ s.cyc.address = some (s.port p).posting.dest.toNat ∨
          (s.port p).posting.dest.toNat = 31 ∧ (kd = .request ∨ kd = .response) then .badDest
      else if (s.port p).posting.length.toNat = 0 ∨ 2048 < (s.port p).posting.length.toNat ∨
          (s.port p).posting.count.toNat ≠ ((s.port p).posting.length.toNat + 255) / 256 then .badLength
      else if ¬s.blocksPostable p (s.port p).posting = true then .badBlock
      else if (s.getChannel c).config.type = .screen ∧ 8 ≤ (s.getChannel c).queue.length then .queueFull
      else if kd = .request ∧ 4 ≤ (s.getChannel c).entries.length +
          ((s.getChannel c).queue.filter fun m => decide (m.kind = .request)).length then .tooManyOutstanding
      else .accepted := by
  have hon : (s.getChannel c).config.type ≠ .off := fun h => by
    rw [h] at hcarries
    cases hcarries
  have hlength : (s.port p).posting.length.toNat < 1 ∨ 2048 < (s.port p).posting.length.toNat ∨
      (s.port p).posting.count.toNat < 1 ∨ 8 < (s.port p).posting.count.toNat ∨
      (s.port p).posting.count.toNat ≠ segmentCount (s.port p).posting.length.toNat ↔
      (s.port p).posting.length.toNat = 0 ∨ 2048 < (s.port p).posting.length.toNat ∨
        (s.port p).posting.count.toNat ≠ ((s.port p).posting.length.toNat + 255) / 256 := by
    unfold segmentCount
    omega
  unfold State.postCode
  dsimp only
  rw [kindOf_num hkind, if_neg hon, if_neg (Classical.not_not.mpr howner), hcarries]
  simp only [hlength, Bool.not_true, Bool.false_eq_true, if_false, Bool.not_eq_true', Bool.not_eq_true]

theorem cmdPost_refused {s : State} {p : Port} {v : Word16} {c : ChannelNo} {code : Code} (hv : v.toNat = c.val)
    (hcode : s.postCode p c = code) (h : code ≠ .accepted) : cmdPost p v s =
      s.modPort p fun u => { u with codes := { u.codes with post := code }, postTag := 0 } := by
  unfold cmdPost
  rw [hv, finOf_val]
  dsimp only
  rw [if_neg (by rw [hcode]; exact h), hcode]
  exact State.modPort_modPort s p _ _

theorem cmdPost_accepted {s : State} {p : Port} {v : Word16} {c : ChannelNo} (hv : v.toNat = c.val)
    (hcode : s.postCode p c = .accepted) :
    cmdPost p v s = joinQueue p c (supersede c (s.setCode p fun k => { k with post := .accepted })) := by
  unfold cmdPost
  rw [hv, finOf_val]
  exact if_pos hcode

/-! ### An accepted post (R100, R132, R133) -/

/-- The message that an accepted post makes of the posting record: its tag is the channel's next, its blocks the listed ones. -/
def State.postedMessage (s : State) (p : Port) (c : ChannelNo) (kd : MsgKind) (bs : List BlockNo) : TxMsg :=
  { tag := (s.getChannel c).nextTag, kind := kd, dest := (s.port p).posting.dest.toNat
    length := (s.port p).posting.length.toNat, blocks := bs
    answers := if kd = .response then (s.port p).posting.answers.setWidth 8 else 0
    strip := if kd = .strip then (s.port p).posting.strip else 0
    stamp := if kd = .strip then (s.getChannel c).config.stampShaft.map fun i =>
      { cycle := s.cyc.cycle, pos := (s.getShaft i).posInt } else none
    tries := 0, started := false, finishing := false }

theorem joinQueue_eq {t : State} {p : Port} (c : ChannelNo) {kd : MsgKind} {bs : List BlockNo}
    (hkind : (t.port p).posting.kind.toNat = kd.num) (hlisted : (t.port p).posting.listed = some bs) : joinQueue p c t =
      ownBlocks bs .txq ((t.modChannel c fun x =>
        { x with queue := x.queue ++ [t.postedMessage p c kd bs], nextTag := x.nextTag + 1 }).modPort p fun u =>
          { u with postTag := (t.getChannel c).nextTag.toNat }) := by
  unfold joinQueue State.stampFor
  dsimp only
  rw [kindOf_num hkind, hlisted]
  rfl

/-- The state with the code ACCEPTED read back. -/
def State.accepting (s : State) (p : Port) : State := (s.touched p).setCode p fun k => { k with post := .accepted }

/-- `t` is `s` with a post accepted, before its message joins the queue: a message may have been superseded. -/
structure State.PostReady (s : State) (p : Port) (c : ChannelNo) (t : State) : Prop where
  taken : (s.accepting p).ChannelTaken t
  others : ∀ k : ChannelNo, k ≠ c → t.getChannel k = s.getChannel k
  config : (t.getChannel c).config = (s.getChannel c).config
  nextTag : (t.getChannel c).nextTag = (s.getChannel c).nextTag
  mem : t.pool.mem = s.pool.mem
  contexts : t.chan.contexts = s.chan.contexts
  otherPort : t.port p.other = s.port p.other

theorem State.accepting_otherPort (s : State) (p : Port) : (s.accepting p).port p.other = s.port p.other :=
  (PortPair.get_modify_other _ _ _).trans (PortPair.get_modify_other _ _ _)

theorem State.accepting_port (s : State) (p : Port) : (s.accepting p).port p =
    { s.port p with latch := .empty, codes := { (s.port p).codes with post := .accepted } } := by
  unfold State.accepting
  rw [State.setCode_port_self, State.touched_port_self]

theorem State.postReady_of_accepting (s : State) (p : Port) (c : ChannelNo) : s.PostReady p c (s.accepting p) :=
  ⟨.refl _, fun _ _ => rfl, rfl, rfl, rfl, rfl, s.accepting_otherPort p⟩

theorem State.postReady_of_ended {s t : State} {p : Port} {c : ChannelNo} {i : Nat} {m : TxMsg} {r : OutcomeRecord}
    (howner : (s.getChannel c).config.owner = p) (h : (s.accepting p).MessageEnded c i m r t) : s.PostReady p c t :=
  { taken := h.taken
    others := h.others
    config := by
      rw [h.channel]
      rfl
    nextTag := by
      rw [h.channel]
      rfl
    mem := (congrArg Pool.mem h.pool :)
    contexts := by
      rw [h.chan]
      rfl
    otherPort := by
      refine (h.ports _ ?_).trans (s.accepting_otherPort p)
      rw [show ((s.accepting p).getChannel c).config.owner = p from howner]
      cases p <;> decide }

/-- `u` is `s` after an accepted post of the listed blocks (R100). -/
def State.PostJoined (s : State) (p : Port) (c : ChannelNo) (bs : List BlockNo) (u : State) : Prop :=
  (∀ k : ChannelNo, k ≠ c → u.getChannel k = s.getChannel k) ∧ (∀ n ∈ bs, u.pool.owner n = .txq) ∧
    u.pool.mem = s.pool.mem ∧ (u.port p).codes.post = .accepted ∧ (u.port p).postTag = (s.getChannel c).nextTag.toNat ∧
    (u.port p).posting = (s.port p).posting ∧ u.port p.other = s.port p.other ∧
    (∀ k : Fin 4, u.getContext k = s.getContext k) ∧ u.cyc = s.cyc ∧ u.ring = s.ring ∧ u.links = s.links ∧
    u.shafts = s.shafts ∧ u.axis = s.axis ∧ u.trip = s.trip ∧ u.locks = s.locks ∧ u.pending = s.pending

theorem joinQueue_joined {s t : State} {p : Port} {c : ChannelNo} {kd : MsgKind} {bs : List BlockNo} (h : s.PostReady p c t)
    (hkind : (s.port p).posting.kind.toNat = kd.num) (hlisted : (s.port p).posting.listed = some bs) :
    s.PostJoined p c bs (joinQueue p c t) ∧
      (joinQueue p c t).getChannel c = { t.getChannel c with
        nextTag := (s.getChannel c).nextTag + 1, queue := (t.getChannel c).queue ++ [s.postedMessage p c kd bs] } ∧
      (∀ n : BlockNo, n ∉ bs → (joinQueue p c t).pool.owner n = t.pool.owner n) ∧
      (joinQueue p c t).pool.free = t.pool.free ∧ (joinQueue p c t).chan.offered = t.chan.offered ∧
      ((joinQueue p c t).port p).flags = (t.port p).flags := by
  have hport := (h.taken.ports p).1
  rw [s.accepting_port p] at hport
  have hposting : (t.port p).posting = (s.port p).posting := by rw [hport]
  have hcode : (t.port p).codes.post = .accepted := by rw [hport]
  have hframe := h.taken.frame
  have hcyc : t.cyc = s.cyc := by rw [hframe]; rfl
  have hshaft (i : ShaftNo) : t.getShaft i = s.getShaft i := by
    have : t.shafts = s.shafts := by rw [hframe]; rfl
    unfold State.getShaft
    rw [this]
  have hmessage : t.postedMessage p c kd bs = s.postedMessage p c kd bs := by
    unfold State.postedMessage
    simp only [hposting, h.nextTag, h.config, hcyc, hshaft]
  rw [joinQueue_eq c (by rw [hposting]; exact hkind) (by rw [hposting]; exact hlisted), hmessage, h.nextTag]
  generalize hx : t.modChannel c _ = x
  have hself : x.getChannel c = { t.getChannel c with
      nextTag := (s.getChannel c).nextTag + 1, queue := (t.getChannel c).queue ++ [s.postedMessage p c kd bs] } := by
    rw [← hx, State.modChannel_getChannel_self, h.nextTag]
  have hothers (k : ChannelNo) (hk : k ≠ c) : x.getChannel k = s.getChannel k := by
    rw [← hx, State.modChannel_getChannel_other _ hk, h.others k hk]
  have hxport (q : Port) : x.port q = t.port q := by rw [← hx]; rfl
  have hxframe : x = { t with chan := x.chan } := by rw [← hx]; rfl
  have hxpool : x.pool = t.pool := by rw [hxframe]
  have hxchan : x.chan = { t.chan with channels := x.chan.channels } := by rw [← hx]; rfl
  have hpost : (ownBlocks bs .txq (x.modPort p fun u => { u with postTag := (s.getChannel c).nextTag.toNat })).port p =
      { t.port p with postTag := (s.getChannel c).nextTag.toNat } := by
    rw [← hxport]
    exact State.modPort_port_self x p fun u => { u with postTag := (s.getChannel c).nextTag.toNat }
  have hblock (n : BlockNo) := ownBlocks_owner bs .txq (x.modPort p fun u =>
    { u with postTag := (s.getChannel c).nextTag.toNat }) n
  refine ⟨⟨hothers, fun n hn => (hblock n).trans (if_pos hn), ?_, ?_, ?_, ?_, ?_, fun k => ?_, ?_⟩, hself,
    fun n hn => ((hblock n).trans (if_neg hn)).trans ?_, ?_, ?_, ?_⟩
  · exact (congrArg Pool.mem hxpool).trans h.mem
  · rw [hpost]
    exact hcode
  · rw [hpost]
  · rw [hpost]
    exact hposting
  · exact ((PortPair.get_modify_other _ _ _).trans (hxport p.other)).trans h.otherPort
  · change x.chan.contexts[k.val] = s.chan.contexts[k.val]
    exact congrArg (fun v : Vector (Option Context) 4 => v[k.val])
      ((congrArg ChannelUnit.contexts hxchan :).trans h.contexts)
  · change x.cyc = _ ∧ x.ring = _ ∧ x.links = _ ∧ x.shafts = _ ∧ x.axis = _ ∧ x.trip = _ ∧ x.locks = _ ∧ x.pending = _
    rw [hxframe, hframe]
    exact ⟨rfl, rfl, rfl, rfl, rfl, rfl, rfl, rfl⟩
  · exact congrArg (fun u : Pool => u.owner n) hxpool
  · exact (congrArg Pool.free hxpool :)
  · exact (congrArg ChannelUnit.offered hxchan :)
  · rw [hpost]

theorem supersede_kept {s : State} {c : ChannelNo}
    (h : (s.getChannel c).config.type = .image → (s.getChannel c).queue.length < 4) : supersede c s = s :=
  if_neg fun hs => absurd (h hs.1) (Nat.not_lt.mpr hs.2)

theorem supersede_oldest {s : State} {c : ChannelNo} {before after : List TxMsg} {o : TxMsg}
    (htype : (s.getChannel c).config.type = .image) (hfour : 4 ≤ (s.getChannel c).queue.length)
    (hqueue : (s.getChannel c).queue = before ++ o :: after) (hbefore : ∀ e ∈ before, e.started = true)
    (ho : o.started = false) : supersede c s = finalOutcome c before.length .superseded 0 s := by
  have hfound : (before ++ o :: after).findIdx? (fun m => !m.started) = some before.length := by
    refine List.findIdx?_eq_some_iff_getElem.mpr ⟨by simp, by simp [ho], fun j hj => ?_⟩
    rw [List.getElem_append_left hj, hbefore _ (List.getElem_mem hj)]
    decide
  unfold supersede
  rw [if_pos ⟨htype, hfour⟩, hqueue, hfound]

/-- The channel that message `o` between others has left. -/
theorem Channel.without_split {x : Channel} {before after : List TxMsg} {o : TxMsg} (h : x.queue = before ++ o :: after) :
    x.without before.length = { x with
      queue := before ++ after
      head := if before.isEmpty then .idle else x.head
      attempt := if before.isEmpty then none else x.attempt
      reoffer := if before.isEmpty then false else x.reoffer } := by
  have hqueue : (before ++ o :: after).eraseIdx before.length = before ++ after := by
    simp [List.eraseIdx_append_of_length_le]
  unfold Channel.without
  rw [h, hqueue]
  cases before <;> rfl

theorem exec_post {s : State} (p : Port) (v : Word16) (hready : s.clock.ready = true) :
    exec (.post p v) s = .next (cmdPost p v (s.touched p)) := exec_portWrite rfl hready

/-- The kinds that a channel carries (R99). -/
theorem ChannelType.carries_iff (t : ChannelType) (kd : MsgKind) : t.carries kd = true ↔
    t = .screen ∧ (kd = .request ∨ kd = .response ∨ kd = .event) ∨ t = .image ∧ kd = .strip := by
  cases t <;> cases kd <;> decide

/-- The code of a post stays what it is when the access begins. -/
theorem State.touched_postCode (s : State) (p : Port) (c : ChannelNo) : (s.touched p).postCode p c = s.postCode p c := by
  have hposting : ((s.touched p).port p).posting = (s.port p).posting := by rw [State.touched_port_self]
  unfold State.postCode
  rw [hposting]
  rfl

theorem exec_post_refused {s : State} {p : Port} {v : Word16} {c : ChannelNo} {code : Code} (hready : s.clock.ready = true)
    (hv : v.toNat = c.val) (hcode : s.postCode p c = code) (h : code ≠ .accepted) :
    exec (.post p v) s = .next ((s.touched p).modPort p fun u =>
      { u with codes := { u.codes with post := code }, postTag := 0 }) := by
  rw [exec_post p v hready, cmdPost_refused hv ((s.touched_postCode p c).trans hcode) h]

theorem exec_post_accepted {s : State} {p : Port} {v : Word16} {c : ChannelNo} (hready : s.clock.ready = true)
    (hv : v.toNat = c.val) (hcode : s.postCode p c = .accepted) :
    exec (.post p v) s = .next (joinQueue p c (supersede c (s.accepting p))) := by
  rw [exec_post p v hready, cmdPost_accepted hv ((s.touched_postCode p c).trans hcode)]
  rfl

/-- A kind that the channel does not carry (R100). -/
theorem State.postCode_badKind {s : State} {p : Port} {c : ChannelNo} (hon : (s.getChannel c).config.type ≠ .off)
    (howner : (s.getChannel c).config.owner = p)
    (hcarries : ¬(s.getChannel c).config.type.carries (kindOf (s.port p).posting.kind.toNat) = true) :
    s.postCode p c = .badKind := by
  unfold State.postCode
  dsimp only
  rw [if_neg hon, if_neg (Classical.not_not.mpr howner), if_pos (by simpa using hcarries)]

/-- Settles O46, by R100's table line by line, and what joins and leaves the queue at an accepted post. -/
theorem messagesArePosted : Obligations.MessagesArePosted := by
  refine ⟨fun s p v hready hbeyond => ?_, ?_⟩
  · rw [exec_post p v hready, cmdPost, finOf_of_le hbeyond]
    exact congrArg Host.Outcome.next (State.modPort_modPort (s.touched p) p _ _)
  intro s p v c hready hv x r answers
  have hanswers {code : Code} (hcode : s.postCode p c = code) (h : code ≠ .accepted) : answers code :=
    exec_post_refused hready hv hcode h
  refine ⟨fun hoff => hanswers (if_pos hoff) (by decide), fun hon hother => hanswers ?_ (by decide),
    fun hscreen howner hkind => hanswers (State.postCode_badKind ?_ howner ?_) (by decide),
    fun himage howner hkind => hanswers (State.postCode_badKind ?_ howner ?_) (by decide), ?_⟩
  · exact (if_neg hon).trans (if_pos hother)
  · rw [show (s.getChannel c).config.type = .screen from hscreen]
    decide
  · rw [ChannelType.carries_iff, show (s.getChannel c).config.type = .screen from hscreen]
    rcases kindOf_beyond hkind with h | h
    · rw [h]
      decide
    · rw [h]
      decide
  · rw [show (s.getChannel c).config.type = .image from himage]
    decide
  · rw [ChannelType.carries_iff, show (s.getChannel c).config.type = .image from himage]
    rintro (⟨h, -⟩ | ⟨-, h⟩)
    · cases h
    · exact kindOf_ne_strip hkind h
  intro kd htypes howner hkind badDest listed
  have hcode := State.postCode_of_kind ((ChannelType.carries_iff _ _).mpr htypes) howner hkind
  refine ⟨fun hdest => hanswers (hcode.trans (if_pos hdest)) (by decide),
    fun hdest hlength => hanswers (hcode.trans ((if_neg hdest).trans (if_pos hlength))) (by decide),
    fun hdest hlo hhi hcount => ?_⟩
  have hlength : ¬((s.port p).posting.length.toNat = 0 ∨ 2048 < (s.port p).posting.length.toNat ∨
      (s.port p).posting.count.toNat ≠ ((s.port p).posting.length.toNat + 255) / 256) := by
    rintro (h | h | h)
    · exact absurd hlo (by rw [show r.length.toNat = 0 from h]; decide)
    · exact absurd h (Nat.not_lt.mpr hhi)
    · exact h hcount
  rw [if_neg hdest, if_neg hlength] at hcode
  refine ⟨fun hblocks => ?_, fun bs hlisted => ?_⟩
  · have hnone : s.blocksPostable p (s.port p).posting = false := by
      unfold State.blocksPostable
      rw [PostingRecord.listed_of_beyond hblocks]
    exact hanswers (hcode.trans (if_pos (by rw [hnone]; decide))) (by decide)
  have hsome : (s.port p).posting.listed = some bs := PostingRecord.listed_of_blocks hlisted
  have hpostable := State.blocksPostable_iff (s := s) (p := p) hsome
  intro held outstanding m joins
  refine ⟨fun hnot => ?_, fun hheld hstrip hfull => ?_, fun hheld hrequest hroom hmany => ?_,
    fun hheld hstrips hroom hrequests => ?_, fun before after o hheld hstrip hqueue => ?_⟩
  · exact hanswers (hcode.trans (if_pos fun h => hnot (hpostable.mp h))) (by decide)
  · rw [if_neg (Classical.not_not.mpr (hpostable.mpr hheld))] at hcode
    have hscreen : (s.getChannel c).config.type = .screen := htypes.elim (fun h => h.1) fun h => absurd h.2 hstrip
    exact hanswers (hcode.trans (if_pos ⟨hscreen, hfull⟩)) (by decide)
  · rw [if_neg (Classical.not_not.mpr (hpostable.mpr hheld)), if_neg fun h => absurd h.2 (Nat.not_le.mpr hroom)] at hcode
    exact hanswers (hcode.trans (if_pos ⟨hrequest, hmany⟩)) (by decide)
  · rw [if_neg (Classical.not_not.mpr (hpostable.mpr hheld)), if_neg fun h => absurd h.2 (Nat.not_le.mpr hroom),
      if_neg fun h => absurd h.2 (Nat.not_le.mpr (hrequests h.1))] at hcode
    have hkept : supersede c (s.accepting p) = s.accepting p := supersede_kept fun himage => by
      refine hstrips (htypes.elim (fun h => ?_) fun h => h.2)
      rw [show x.config.type = .image from himage] at h
      cases h.1
    have hexec := exec_post_accepted hready hv hcode
    rw [hkept] at hexec
    obtain ⟨hjoined, hchannel, howners, hfree, hoffered, -⟩ := joinQueue_joined (s.postReady_of_accepting p c) hkind hsome
    exact ⟨_, hexec, hjoined, hchannel, howners, hfree, hoffered⟩
  · intro gone hfour hbefore ho
    have himage : (s.getChannel c).config.type = .image := by
      rcases htypes with ⟨-, h⟩ | h
      · rw [hstrip] at h
        simp at h
      · exact h.1
    rw [if_neg (Classical.not_not.mpr (hpostable.mpr hheld)), if_neg fun h => (by rw [himage] at h; cases h.1),
      if_neg fun h => (by rw [hstrip] at h; cases h.1)] at hcode
    have hexec := exec_post_accepted hready hv hcode
    rw [supersede_oldest (s := s.accepting p) himage hfour hqueue hbefore ho] at hexec
    have hended := finalOutcome_spec (s := s.accepting p) (c := c) (i := before.length) (m := o) .superseded 0
      (by rw [show ((s.accepting p).getChannel c).queue = _ from hqueue]; simp)
    generalize finalOutcome c before.length .superseded 0 (s.accepting p) = t at *
    obtain ⟨hjoined, hchannel, howners, hfree, hoffered, hflags⟩ :=
      joinQueue_joined (State.postReady_of_ended howner hended) hkind hsome
    have hblock (n : BlockNo) : t.pool.owner n = if n ∈ o.blocks then .free else s.pool.owner n :=
      (congrArg (fun u : Pool => u.owner n) hended.pool :).trans (Pool.own_owner _ _ _ _)
    refine ⟨_, hexec, hjoined, ?_, ?_, hfree.trans (congrArg Pool.free hended.pool :), fun n hn hnot => ?_,
      fun n hnot hn => ?_, ?_⟩
    · rw [hchannel, hended.channel, Channel.without_split (x := (s.accepting p).getChannel c) hqueue]
      rfl
    · have hraises := hended.raises
      rw [show ((s.accepting p).getChannel c).config.owner = p from howner] at hraises
      unfold State.flag PortUnit.hasFlag at *
      rw [hflags]
      exact hraises
    · rw [howners n hnot, hblock, if_pos hn]
    · rw [howners n hnot, hblock, if_neg hn]
    · rw [hoffered, hended.offered]
      cases before <;> simp [State.accepting]

end Sys2Proof.Machine
end

