-- ==== Sys2Proof/Proofs/OwnFrames.lean ====
section
/-!
PROOFS. Own DATA segments and STATUS frames that return (R15, R66, R105, R111, R123).
-/

namespace Sys2Proof.Machine

/-! ### Own DATA segments (R15, R105, R111) -/

theorem receiveFrame_of_removes {s : State} {d : Side} {f : Frame} (t : RxTime) (h : s.Removes d f) :
    receiveFrame d t f s = removeOwn (f.arriveTransit (s.link d).delay) (s.passed d) := by
  obtain ⟨hreaches, hproc, hown⟩ := h
  rw [receiveFrame_of_reaches t hreaches, receiveRing_of_own (s := s.passed d) t hproc hown, State.passed_delay]

theorem exec_ownDataReturned {s : State} {d : Side} (t : RxTime) {h : Header} {b : DataBody}
    (hremoves : s.Removes d { hdr := h, body := .data b }) :
    exec (.ownDataReturned d t h b) s = .next (ownDataBack h b (s.passed d)) :=
  congrArg Host.Outcome.next (receiveFrame_of_removes t hremoves)

theorem exec_ownStatusReturned {s : State} {d : Side} (t : RxTime) {h : Header} {b : StatusBody}
    (hremoves : s.Removes d { hdr := h, body := .status b }) :
    exec (.ownStatusReturned d t h b) s = .next (ownStatusBack b (s.passed d)) :=
  congrArg Host.Outcome.next (receiveFrame_of_removes t hremoves)

theorem ownDataBack_late {s : State} (h : Header) {b : DataBody} (hattempt : (s.getChannel b.channel).attempt = none) :
    ownDataBack h b s = s.modChan fun u => { u with lateReturns := bump u.lateReturns } := by
  unfold ownDataBack
  dsimp only
  rw [hattempt]

/-- A segment that matches the attempt is kept as returned; a mark other than TAKEN to a single node stops the attempt, and the
attempt is decided (R105). -/
theorem ownDataBack_matched {s : State} {h : Header} {b : DataBody} {m : TxMsg} {rest : List TxMsg} {a : Attempt} {n : Nat}
    (hqueue : (s.getChannel b.channel).queue = m :: rest) (hattempt : (s.getChannel b.channel).attempt = some a)
    (htag : m.tag = b.tag) (hno : (s.getChannel b.channel).attemptNo = b.attempt)
    (hseg : a.segs[b.index]? = some (.onWire n)) : ownDataBack h b s =
      let kept := s.modChannel b.channel fun x => { x with
        attempt := some { (a.modSeg b.index fun _ => .returned h.mark h.takers) with
          stopped := a.stopped || decide (m.dest ≠ 31 ∧ h.mark ≠ .taken) } }
      resolveAttempt b.channel false (if m.dest ≠ 31 ∧ h.mark ≠ .taken then withdraw b.channel kept else kept) := by
  unfold ownDataBack
  dsimp only
  rw [hattempt, hqueue]
  dsimp only
  rw [if_pos ⟨htag, hno, by rw [hseg]; rfl⟩]
  simp only [decide_eq_true_eq]

theorem modifyNth_const {α : Type} {xs : List α} {i : Nat} (y : α) : modifyNth xs i (fun _ => y) = xs.set i y := by
  induction xs generalizing i with
  | nil => rfl
  | cons x xs ih =>
    cases i with
    | zero => rfl
    | succ i => exact congrArg (x :: ·) ih

theorem resolveAttempt_of_running {s : State} {c : ChannelNo} {a : Attempt} (atEvent : Bool)
    (hattempt : (s.getChannel c).attempt = some a) (hrunning : a.ended = false) : resolveAttempt c atEvent s = s := by
  unfold resolveAttempt
  rw [hattempt]
  cases (s.getChannel c).queue with
  | nil => rfl
  | cons m rest =>
    dsimp only
    rw [hrunning]
    rfl

/-- An attempt with another segment on the wire goes on. -/
theorem Attempt.ended_set {a : Attempt} {i j n : Nat} (x : SegState) (hj : j ≠ i) (h : a.segs[j]? = some (.onWire n)) (stopped : Bool) :
    ({ segs := a.segs.set i x, stopped := stopped } : Attempt).ended = false := by
  have hout : (a.segs.set i x).any SegState.isOnWire = true := by
    refine List.any_eq_true.mpr ⟨.onWire n, List.mem_of_getElem? (i := j) ?_, rfl⟩
    rw [List.getElem?_set_ne hj.symm, h]
  unfold Attempt.ended
  rw [hout]
  rfl

/-- A REQUEST that no entry of the same destination and tag is left of makes its WAITING entry (R123). -/
theorem makeEntry_eq {s : State} {c : ChannelNo} {dest : Nat} {tag : BitVec 8}
    (h : ∀ e ∈ (s.getChannel c).entries, ¬(e.dest = dest ∧ e.tag = tag)) : makeEntry c dest tag s =
      s.modChannel c fun x => { x with
        entries := x.entries ++ [{ dest := dest, tag := tag, cycle := s.cyc.cycle, state := .waiting, age := 0 }] } := by
  have hsame : (s.getChannel c).entries.filter (fun e => decide (e.dest = dest ∧ e.tag = tag)) = [] :=
    List.filter_eq_nil_iff.mpr fun e he => by simpa using h e he
  have hkept : (s.getChannel c).entries.filter (fun e => !decide (e.dest = dest ∧ e.tag = tag)) = (s.getChannel c).entries :=
    List.filter_eq_self.mpr fun e he => by
      rw [decide_eq_false (h e he)]
      rfl
  unfold makeEntry
  dsimp only
  rw [hsame, List.foldl_nil, State.modChannel_modChannel]
  exact State.modChannel_congr (by rw [hkept]; rfl)

/-- The one segment of an attempt came back TAKEN or BUSY (R111). -/
theorem attemptResult_single {m : TxMsg} (n : Nat) (stopped : Bool) (hdest : m.dest ≠ 31) (hkind : m.kind ≠ .strip) :
    attemptResult { segs := [.returned .taken n], stopped := stopped } m = .final .taken 0 ∧
      (m.tries < 8 → attemptResult { segs := [.returned .busy n], stopped := stopped } m = .retry) := by
  unfold attemptResult screenResult
  rw [if_neg hdest, if_neg hkind, if_neg hdest, if_neg hkind]
  exact ⟨rfl, fun htries => if_pos htries⟩

/-- The state in which the one segment of an attempt has come back. -/
def State.returnedSegment (s : State) (c : ChannelNo) (mark : Mark) (takers : Nat) (stopped : Bool) : State :=
  s.modChannel c fun x => { x with attempt := some { segs := [.returned mark takers], stopped := stopped } }

theorem State.returnedSegment_channel (s : State) (c : ChannelNo) (mark : Mark) (takers : Nat) (stopped : Bool) :
    (s.returnedSegment c mark takers stopped).getChannel c =
      { s.getChannel c with attempt := some { segs := [.returned mark takers], stopped := stopped } } :=
  State.modChannel_getChannel_self s c _

/-- The whole of a single-segment message came back TAKEN: it ends, and a REQUEST leaves its entry (R111, R123). -/
theorem ownDataBack_taken {s : State} {h : Header} {b : DataBody} {m : TxMsg} {rest : List TxMsg} {n : Nat}
    (hqueue : (s.getChannel b.channel).queue = m :: rest) (hfinishing : m.finishing = false) (hdest : m.dest ≠ 31)
    (hkind : m.kind ≠ .strip) (htag : m.tag = b.tag) (hno : (s.getChannel b.channel).attemptNo = b.attempt) (hindex : b.index = 0)
    (hattempt : (s.getChannel b.channel).attempt = some { segs := [.onWire n], stopped := false }) (hmark : h.mark = .taken) :
    ownDataBack h b s =
      let ended := finalOutcome b.channel 0 .taken 0 (s.returnedSegment b.channel .taken h.takers false)
      if m.kind = .request then makeEntry b.channel m.dest m.tag ended else ended := by
  rw [ownDataBack_matched hqueue hattempt htag hno (by rw [hindex]; rfl), hindex, hmark]
  have hstop : ¬(m.dest ≠ 31 ∧ Mark.taken ≠ .taken) := fun h => h.2 rfl
  dsimp only
  rw [if_neg hstop, decide_eq_false hstop]
  change resolveAttempt b.channel false (s.returnedSegment b.channel .taken h.takers false) = _
  have hchannel := s.returnedSegment_channel b.channel .taken h.takers false
  rw [resolveAttempt_of_ended false (by rw [hchannel]) (by rw [hchannel]; exact hqueue) rfl hfinishing,
    (attemptResult_single _ _ hdest hkind).1]
  simp only [ne_eq, hdest, not_false_eq_true, and_true]

/-- It came back BUSY below 8 tries: the head waits for its retry (R111). -/
theorem ownDataBack_busy {s : State} {h : Header} {b : DataBody} {m : TxMsg} {rest : List TxMsg} {n : Nat}
    (hqueue : (s.getChannel b.channel).queue = m :: rest) (hfinishing : m.finishing = false) (hdest : m.dest ≠ 31)
    (hkind : m.kind ≠ .strip) (htag : m.tag = b.tag) (hno : (s.getChannel b.channel).attemptNo = b.attempt) (hindex : b.index = 0)
    (hattempt : (s.getChannel b.channel).attempt = some { segs := [.onWire n], stopped := false }) (hmark : h.mark = .busy)
    (htries : m.tries < 8) : ownDataBack h b s =
      (withdraw b.channel s).modChannel b.channel fun x => { x with head := .retryWait, attempt := none } := by
  rw [ownDataBack_matched hqueue hattempt htag hno (by rw [hindex]; rfl), hindex, hmark]
  have hstop : m.dest ≠ 31 ∧ Mark.busy ≠ .taken := ⟨hdest, by decide⟩
  dsimp only
  rw [if_pos hstop, decide_eq_true hstop]
  change resolveAttempt b.channel false ((withdraw b.channel s).returnedSegment b.channel .busy h.takers true) = _
  have hchannel := (withdraw b.channel s).returnedSegment_channel b.channel .busy h.takers true
  rw [resolveAttempt_of_ended false (by rw [hchannel]) (by rw [hchannel]; exact hqueue) rfl hfinishing,
    (attemptResult_single _ _ hdest hkind).2 htries]
  exact State.modChannel_modChannel (withdraw b.channel s) b.channel _ _

/-! ### Own STATUS frames (R66, R67) -/

theorem becameDone_same (p : Port) (es : List OutboxEntry) : becameDone p es es = false := by
  induction es with
  | nil => rfl
  | cons e es ih =>
    unfold becameDone at *
    rw [List.zip_cons_cons, List.any_cons, ih, Bool.or_false]
    cases e.state <;> rfl

theorem setOutbox_same (s : State) : setOutbox s.axis.outbox s = s := by
  unfold setOutbox
  dsimp only
  rw [becameDone_same, becameDone_same]
  rfl

/-- One entry that becomes DONE among others that stay as they are. -/
theorem becameDone_one (p : Port) (before after : List OutboxEntry) {e e' : OutboxEntry} (he : e.state ≠ .done)
    (he' : e'.state = .done) (hport : e'.port = e.port) :
    becameDone p (before ++ e :: after) (before ++ e' :: after) = decide (e.port = p) := by
  induction before with
  | nil =>
    have hrest := becameDone_same p after
    unfold becameDone at *
    rw [List.nil_append, List.nil_append, List.zip_cons_cons, List.any_cons, hrest]
    simp [he, he', hport]
  | cons x before ih =>
    unfold becameDone at *
    rw [List.cons_append, List.cons_append, List.zip_cons_cons, List.any_cons, ih]
    cases x.state <;> rfl

/-- The outbox with one entry become DONE raises CORR at that entry's port alone (R63, R66). -/
theorem setOutbox_one {s : State} {before after : List OutboxEntry} {e e' : OutboxEntry}
    (houtbox : s.axis.outbox = before ++ e :: after) (he : e.state ≠ .done) (he' : e'.state = .done) (hport : e'.port = e.port) :
    setOutbox (before ++ e' :: after) s =
      raise e.port .corr (s.modAxisUnit fun u => { u with outbox := before ++ e' :: after }) := by
  unfold setOutbox
  dsimp only
  rw [houtbox, becameDone_one _ _ _ he he' hport, becameDone_one _ _ _ he he' hport]
  cases e.port <;> rfl

theorem map_eq_self {α : Type} {f : α → α} {l : List α} (h : ∀ x ∈ l, f x = x) : l.map f = l :=
  (List.map_congr_left (g := id) h).trans (List.map_id l)

theorem returnEntry_of_other {cyc : Cycle} {cs : List CorrEntry} {e : OutboxEntry} (h : ¬(e.state = .sent ∧ e.cycle = cyc)) :
    returnEntry cyc cs e = e := if_neg h

/-- An entry whose correction did not come back at its place stays as it is. -/
theorem returnEntry_of_absent {cyc : Cycle} {cs : List CorrEntry} {e : OutboxEntry}
    (h : ∀ c : CorrEntry, cs[e.place]? = some c → c.carries e = false) : returnEntry cyc cs e = e := by
  unfold returnEntry
  split
  · split
    · next c hc => rw [h c hc]; rfl
    · rfl
  · rfl

theorem returnEntry_of_carried {cyc : Cycle} {cs : List CorrEntry} {e : OutboxEntry} {c : CorrEntry} (hstate : e.state = .sent)
    (hcycle : e.cycle = cyc) (hc : cs[e.place]? = some c) (hcarries : c.carries e = true) : returnEntry cyc cs e = e.returned c := by
  unfold returnEntry
  rw [if_pos ⟨hstate, hcycle⟩, hc]
  exact if_pos hcarries

theorem CorrEntry.carries_iff (c : CorrEntry) (e : OutboxEntry) :
    c.carries e = true ↔ c.target = e.target ∧ c.axis = min e.axis 255 ∧ c.delta = e.delta := by
  simp only [CorrEntry.carries, Bool.and_eq_true, decide_eq_true_eq, and_assoc]

/-- Settles O31, by the segment or the correction that the frame matches. -/
theorem ownFramesReturn : Obligations.OwnFramesReturn := by
  refine ⟨fun s d t h b hremoves => ?_, fun s d t h b hremoves => ⟨fun habsent => ?_,
    fun before after e c houtbox hothers hstate hcycle haxis hc htarget hcaxis hdelta => ?_⟩⟩
  · intro x
    have hexec := exec_ownDataReturned t hremoves
    refine ⟨fun hattempt => hexec.trans (congrArg Host.Outcome.next (ownDataBack_late (s := s.passed d) h hattempt)),
      fun m rest a j n o hqueue htag hno hattempt hseg hj hout hmark => ?_,
      fun m rest n hqueue hfinishing hdest hkind htag hno hindex hattempt => ⟨fun hmark hroom hentries => ?_, fun hmark htries => ?_⟩⟩
    · have hback := ownDataBack_matched (s := s.passed d) (h := h) hqueue hattempt htag hno hseg
      have hstop : ¬(m.dest ≠ 31 ∧ h.mark ≠ .taken) := fun hs => hs.2 hmark
      dsimp only at hback
      rw [if_neg hstop, decide_eq_false hstop, Bool.or_false, Attempt.modSeg, modifyNth_const, hmark] at hback
      rw [resolveAttempt_of_running (a := { a with segs := a.segs.set b.index (.returned .taken h.takers) }) false
        (by rw [State.modChannel_getChannel_self]) (Attempt.ended_set _ hj hout _)] at hback
      refine ⟨_, hexec.trans (congrArg Host.Outcome.next hback), State.modChannel_getChannel_self (s.passed d) b.channel _,
        fun c hc => State.modChannel_getChannel_other (s := s.passed d) _ hc, rfl, rfl, rfl, rfl, rfl, rfl, rfl, rfl⟩
    · have hnotStrip : m.kind ≠ .strip := by
        rcases hkind with hkind | hkind <;> rw [hkind] <;> decide
      have hback := ownDataBack_taken (s := s.passed d) hqueue hfinishing hdest hnotStrip htag hno hindex hattempt hmark
      have hchannel := (s.passed d).returnedSegment_channel b.channel .taken h.takers false
      have hothers (c : ChannelNo) (hc : c ≠ b.channel) :
          ((s.passed d).returnedSegment b.channel .taken h.takers false).getChannel c = s.getChannel c :=
        State.modChannel_getChannel_other (s := s.passed d) _ hc
      have hended := finalOutcome_spec (s := (s.passed d).returnedSegment b.channel .taken h.takers false) (c := b.channel)
        (i := 0) (m := m) .taken 0 (by rw [hchannel]; exact congrArg (fun l : List TxMsg => l[0]?) hqueue)
      have hpool : ((s.passed d).returnedSegment b.channel .taken h.takers false).pool = s.pool := rfl
      have hframe : ((s.passed d).returnedSegment b.channel .taken h.takers false) =
        { s.passed d with chan := ((s.passed d).returnedSegment b.channel .taken h.takers false).chan } := rfl
      generalize (s.passed d).returnedSegment b.channel .taken h.takers false = r at *
      generalize finalOutcome b.channel 0 .taken 0 r = v at *
      have hhead := hended.head (by rw [hchannel]; exact hqueue) (by rw [hchannel]; exact hroom)
      have hraises := hended.raises
      rw [hchannel] at hhead hraises
      have hblock (k : BlockNo) : v.pool.owner k = if k ∈ m.blocks then .free else s.pool.owner k := by
        rw [hended.pool, hpool]
        exact Pool.own_owner _ _ _ _
      have hfacts : v.pool.free = s.pool.free ++ m.blocks ∧ (∀ k ∈ m.blocks, v.pool.owner k = .free) ∧
          (∀ k : BlockNo, k ∉ m.blocks → v.pool.owner k = s.pool.owner k) ∧ v.pool.mem = s.pool.mem ∧
          v.flag x.config.owner .outcome = true ∧ v.ring = s.ring ∧ v.cyc = s.cyc ∧ v.trip = s.trip ∧ v.locks = s.locks ∧
          v.pending = s.pending := by
        refine ⟨?_, fun k hk => (hblock k).trans (if_pos hk), fun k hk => (hblock k).trans (if_neg hk), ?_, hraises, ?_⟩
        · rw [hended.pool, hpool]
          rfl
        · rw [hended.pool, hpool]
          rfl
        · rw [hended.taken.frame, hframe]
          exact ⟨rfl, rfl, rfl, rfl, rfl⟩
      have hkept (c : ChannelNo) (hc : c ≠ b.channel) : v.getChannel c = s.getChannel c :=
        (hended.others c hc).trans (hothers c hc)
      dsimp only at hback
      by_cases hrequest : m.kind = .request
      · have hentry := makeEntry_eq (s := v) (c := b.channel) (dest := m.dest) (tag := m.tag)
          (by rw [hhead]; exact hentries hrequest)
        rw [if_pos hrequest, hentry, hfacts.2.2.2.2.2.2.1] at hback
        refine ⟨_, hexec.trans (congrArg Host.Outcome.next hback), ?_,
          fun c hc => (State.modChannel_getChannel_other _ hc).trans (hkept c hc), hfacts⟩
        rw [State.modChannel_getChannel_self, hhead, if_pos hrequest]
        rfl
      · rw [if_neg hrequest] at hback
        refine ⟨_, hexec.trans (congrArg Host.Outcome.next hback), ?_, hkept, hfacts⟩
        rw [hhead, if_neg hrequest]
        rfl
    · have hnotStrip : m.kind ≠ .strip := by
        rcases hkind with hkind | hkind <;> rw [hkind] <;> decide
      have hback := ownDataBack_busy (s := s.passed d) hqueue hfinishing hdest hnotStrip htag hno hindex hattempt hmark htries
      exact ⟨_, hexec.trans (congrArg Host.Outcome.next hback), State.modChannel_getChannel_self (withdraw b.channel (s.passed d)) b.channel _,
        fun c hc => State.modChannel_getChannel_other (s := withdraw b.channel (s.passed d)) _ hc, rfl, rfl, rfl, rfl, rfl, rfl, rfl⟩
  · have hsame : returnSent b.cycle b.entries s.axis.outbox = s.axis.outbox := by
      refine map_eq_self fun e he => ?_
      by_cases hsent : e.state = .sent ∧ e.cycle = b.cycle
      · refine returnEntry_of_absent fun c hc => ?_
        rw [← Bool.not_eq_true, CorrEntry.carries_iff]
        exact habsent e he hsent.1 hsent.2 c hc
      · exact returnEntry_of_other hsent
    refine (exec_ownStatusReturned t hremoves).trans (congrArg Host.Outcome.next ?_)
    change setOutbox (returnSent b.cycle b.entries s.axis.outbox) (s.passed d) = _
    rw [hsame]
    exact setOutbox_same (s.passed d)
  · have hcarries : c.carries e = true := by
      rw [CorrEntry.carries_iff, hcaxis]
      exact ⟨htarget, by omega, hdelta⟩
    have hreturned : returnSent b.cycle b.entries s.axis.outbox = before ++ e.returned c :: after := by
      have hside (l : List OutboxEntry) (hl : ∀ x ∈ l, x ∈ before ++ after) : l.map (returnEntry b.cycle b.entries) = l :=
        map_eq_self fun x hx => returnEntry_of_other (hothers x (hl x hx))
      rw [returnSent, houtbox, List.map_append, List.map_cons, returnEntry_of_carried hstate hcycle hc hcarries,
        hside before (fun x hx => List.mem_append_left _ hx), hside after (fun x hx => List.mem_append_right _ hx)]
    have hone := setOutbox_one (s := s.passed d) (e' := e.returned c) houtbox (by rw [hstate]; decide) rfl rfl
    rw [← hreturned] at hone
    refine ⟨_, (exec_ownStatusReturned t hremoves).trans (congrArg Host.Outcome.next hone), ?_,
      raise_raises _ _ _, ?_, rfl, rfl, rfl, rfl, rfl, rfl, rfl⟩
    · rw [hreturned]
      rfl
    · rw [raise_port, if_neg (by cases e.port <;> decide)]
      rfl

end Sys2Proof.Machine
end

