-- ==== Sys2Proof/Proofs/Segments.lean ====
section
/-!
PROOFS. A DATA segment for this node: its judgement (R106), and how the frame goes on with its mark (R110).
-/

namespace Sys2Proof.Machine

/-! ### The frame that goes on (R14, R110) -/

theorem exec_dataSegmentReceived {s : State} {d : Side} (t : RxTime) {h : Header} {b : DataBody}
    (hprocesses : s.Processes d { hdr := h, body := .data b }) (hdest : h.dest = 31 ∨ s.cyc.address = some h.dest) :
    exec (.dataSegmentReceived d t h b) s = .next (forwardProcessed t
      { hdr := (takeSegment h b (s.passed d)).1, body := .data b } (takeSegment h b (s.passed d)).2) := by
  refine congrArg Host.Outcome.next ((receiveFrame_of_processes t hprocesses).trans ?_)
  have hhanded : handFrame t { hdr := h, body := .data b } (s.passed d) =
      ({ hdr := (takeSegment h b (s.passed d)).1, body := .data b }, (takeSegment h b (s.passed d)).2) := if_pos hdest
  exact congrArg (fun r : Frame × State => forwardProcessed t r.1 r.2) hhanded

theorem forwardProcessed_eq_of_free {s : State} {o : Side} {t : RxTime} {f : Frame} (hhops : f.hdr.hops < 64)
    (h : s.OutputFree o t.received) :
    forwardProcessed t f s = sendOn o (.ring (f.hopped.departTransit t.arrival t.received)) s := by
  obtain ⟨hown, hnone, hwaits, hquiet⟩ := h
  rw [forwardProcessed, hown]
  exact forward_free hhops hnone hwaits hquiet

theorem State.passed_outputFree {s : State} {o : Side} {now : Nat} (d : Side) (h : s.OutputFree o now) :
    (s.passed d).OutputFree o now := h.congr rfl (s.passed_wire d o) id rfl rfl rfl

/-- A free output stays free when a segment is taken. -/
theorem State.ChannelTaken.outputFree {s t : State} {o : Side} {now : Nat} (h : s.ChannelTaken t) (hfree : s.OutputFree o now) :
    t.OutputFree o now := by
  refine hfree.congr ?_ ?_ h.offered ?_ ?_ ?_ <;> rw [h.frame] <;> rfl

/-! ### Segments 0 that are not taken (R106, R122, R124) -/

theorem judgeSegment_first {s : State} {h : Header} {b : DataBody} (hindex : b.index = 0)
    (hcontext : s.contextOf h.origin b.channel = none) : judgeSegment h b s =
      match s.verdict h.origin b with
      | .mark m => (m, s)
      | .take k slot => (.taken, takeFirst h b k slot s) := by
  unfold judgeSegment
  rw [if_pos hindex, hcontext] <;> rfl

theorem State.verdict_screen {s : State} (origin : Nat) {b : DataBody} (htype : (s.getChannel b.channel).config.type = .screen)
    (hkind : b.kind = .request ∨ b.kind = .response ∨ b.kind = .event) : s.verdict origin b = s.screenVerdict origin b := by
  have hcarries : ChannelType.screen.carries b.kind = true := (ChannelType.carries_iff _ _).mpr (.inl ⟨rfl, hkind⟩)
  unfold State.verdict
  dsimp only
  rw [htype, hcarries]
  rfl

theorem State.verdict_uncarried {s : State} (origin : Nat) {b : DataBody}
    (h : (s.getChannel b.channel).config.type = .off ∨ (s.getChannel b.channel).config.type = .image ∧ b.kind ≠ .strip) :
    s.verdict origin b = .mark .busy := by
  have hcarries : (s.getChannel b.channel).config.type.carries b.kind = false := by
    rw [← Bool.not_eq_true, ChannelType.carries_iff]
    rcases h with h | ⟨h, hkind⟩
    · rw [h]
      simp
    · rw [h]
      simp [hkind]
  unfold State.verdict
  dsimp only
  rw [hcarries]
  rfl

/-- A segment 0 for this node alone that gets a mark other than TAKEN goes on with it. -/
theorem exec_segmentMarked {s : State} {d : Side} {t : RxTime} {h : Header} {b : DataBody} {o : Side} {m : Mark}
    (hprocesses : s.Processes d { hdr := h, body := .data b }) (hown : s.cyc.address = some h.dest) (hdest : h.dest ≤ 30)
    (hindex : b.index = 0) (hcontext : s.contextOf h.origin b.channel = none) (hhops : h.hops < 64)
    (hfree : s.OutputFree o t.received) (hverdict : s.verdict h.origin b = .mark m) :
    ∃ u, exec (.dataSegmentReceived d t h b) s = .next u ∧
      (u.link o).wire = some (.ring { hdr := { h with hops := h.hops + 1, mark := m }, body := .data b }) ∧
      u.chan = (if m = .busy then { s.chan with busyMarks := bump s.chan.busyMarks } else s.chan) ∧
      u.cyc = s.cyc ∧ u.trip = s.trip ∧ u.ring = s.ring ∧ u.ports = s.ports ∧ s.SharedKept u := by
  have hjudged : judgeSegment h b (s.passed d) = (m, s.passed d) := by
    rw [judgeSegment_first (s := s.passed d) hindex hcontext,
      show (s.passed d).verdict h.origin b = _ from hverdict]
  have htaken : takeSegment h b (s.passed d) = ({ h with mark := m },
      if m = .busy then (s.passed d).modChan fun u => { u with busyMarks := bump u.busyMarks } else s.passed d) := by
    unfold takeSegment
    rw [hjudged]
    exact if_neg (by omega)
  have hexec := exec_dataSegmentReceived t hprocesses (.inr hown)
  rw [htaken] at hexec
  have hcounted : (if m = .busy then (s.passed d).modChan fun u => { u with busyMarks := bump u.busyMarks } else s.passed d) =
      { s.passed d with chan := if m = .busy then { s.chan with busyMarks := bump s.chan.busyMarks } else s.chan } := by
    split <;> rfl
  have hout : ({ s.passed d with chan := if m = .busy then { s.chan with busyMarks := bump s.chan.busyMarks } else s.chan } :
      State).OutputFree o t.received := by
    refine (State.passed_outputFree d hfree).congr rfl rfl (fun hnone => ?_) rfl rfl rfl
    change (if m = .busy then _ else _ : ChannelUnit).offered = none
    split
    · exact hnone
    · exact hnone
  rw [hcounted, forwardProcessed_eq_of_free (f := { hdr := { h with mark := m }, body := .data b }) hhops hout] at hexec
  refine ⟨_, hexec, ?_, rfl, rfl, rfl, rfl, rfl, rfl, rfl, rfl⟩
  unfold sendOn
  rw [State.modLink_link_self]
  rfl

/-- Settles O30, by the first line of R106's table that applies. -/
theorem refusedSegmentsAreMarked : Obligations.RefusedSegmentsAreMarked := by
  intro s d t h b o hprocesses hown hdest hindex hcontext hhops hfree x goesOn
  have hmarked {m : Mark} (hverdict : s.verdict h.origin b = .mark m) : goesOn m :=
    exec_segmentMarked hprocesses hown hdest hindex hcontext hhops hfree hverdict
  refine ⟨fun huncarried => hmarked (State.verdict_uncarried _ huncarried), fun htype hkind => ?_,
    fun htype hkind hheld hnone => hmarked ?_⟩
  · have hscreen := State.verdict_screen (s := s) h.origin htype (.inr (.inr hkind))
    have hnotResponse : ¬(decide (b.kind = .response) && !(s.getChannel b.channel).awaits h.origin b.answers) = true := by
      rw [hkind]
      exact Bool.false_ne_true
    refine ⟨fun hheld => hmarked (hscreen.trans (if_pos hheld)), fun hheld hfull => hmarked (hscreen.trans ?_),
      fun hheld hempty => hmarked (hscreen.trans ?_)⟩
    · unfold State.screenVerdict
      dsimp only
      rw [if_neg (by rw [show (s.getChannel b.channel).held = false from hheld]; exact Bool.false_ne_true), if_neg hnotResponse,
        if_pos (Nat.le_add_right_of_le hfull)]
    · unfold State.screenVerdict
      dsimp only
      rw [if_neg (by rw [show (s.getChannel b.channel).held = false from hheld]; exact Bool.false_ne_true), if_neg hnotResponse, hempty]
      split
      · rfl
      · split <;> rfl
  · have hscreen := State.verdict_screen (s := s) h.origin htype (.inr (.inl hkind))
    have hlate : (decide (b.kind = .response) && !(s.getChannel b.channel).awaits h.origin b.answers) = true := by
      have hawaits : (s.getChannel b.channel).awaits h.origin b.answers = false :=
        List.any_eq_false.mpr fun e he => by
          rw [decide_eq_true_eq]
          exact hnone e he
      rw [hawaits, hkind]
      rfl
    rw [hscreen]
    unfold State.screenVerdict
    dsimp only
    rw [if_neg (by rw [show (s.getChannel b.channel).held = false from hheld]; exact Bool.false_ne_true), if_pos hlate]

end Sys2Proof.Machine
end

