-- ==== Sys2Proof/Proofs/ReceivedSegments.lean ====
section
/-!
PROOFS. DATA segments that are taken (R104, R106 to R108, R110): the payload in the head free block, the message that a context
completes, the flush of stale responses (R128), and the strip store (R134 to R136).
-/

namespace Sys2Proof.Machine

/-! ### A segment that is taken (R106, R110) -/

/-- The header that a taken segment carries on (R106, R110). -/
def Header.taken (h : Header) : Header :=
  { h with hops := h.hops + 1, mark := .taken, takers := if h.dest = 31 then h.takers + 1 else h.takers }

theorem takeSegment_taken {s t : State} {h : Header} {b : DataBody} (hjudged : judgeSegment h b s = (.taken, t)) :
    takeSegment h b s = ({ h with mark := .taken, takers := if h.dest = 31 then h.takers + 1 else h.takers }, t) := by
  unfold takeSegment
  rw [hjudged]
  dsimp only
  by_cases hall : h.dest = 31
  · rw [if_pos hall, if_pos rfl, if_pos hall]
  · rw [if_neg hall, if_neg hall, if_neg (by decide)]

/-- `u` is the state after the segment of a frame has been taken with the outcome `v` and the frame has gone on. -/
structure State.SegmentTaken (s v : State) (t : RxTime) (h : Header) (b : DataBody) (u : State) : Prop where
  pool : u.pool = v.pool
  chan : u.chan = v.chan
  ports : u.ports = v.ports
  wire : ∀ o : Side, h.hops < 64 → s.OutputFree o t.received →
    (u.link o).wire = some (.ring { hdr := h.taken, body := .data b })
  units : u.cyc = s.cyc ∧ u.shafts = s.shafts ∧ u.axis = s.axis ∧ u.trip = s.trip ∧ u.locks = s.locks ∧ u.pending = s.pending

theorem exec_segmentTaken {s v : State} {d : Side} {t : RxTime} {h : Header} {b : DataBody}
    (hprocesses : s.Processes d { hdr := h, body := .data b }) (hdest : h.dest = 31 ∨ s.cyc.address = some h.dest)
    (hjudged : judgeSegment h b (s.passed d) = (.taken, v)) :
    ∃ u, exec (.dataSegmentReceived d t h b) s = .next u ∧ s.SegmentTaken v t h b u := by
  have htaken : (s.passed d).ChannelTaken v := by
    have := judgeSegment_channelTaken h b (s.passed d)
    rwa [hjudged] at this
  have hexec := exec_dataSegmentReceived t hprocesses hdest
  rw [takeSegment_taken hjudged] at hexec
  have hforwarded := forwardProcessed_forwarded t
    { hdr := { h with mark := .taken, takers := if h.dest = 31 then h.takers + 1 else h.takers }, body := .data b } v
  have hwire (o : Side) (hhops : h.hops < 64) (hfree : s.OutputFree o t.received) :=
    forwardProcessed_free (t := t) (s := v) (o := o)
      (f := { hdr := { h with mark := .taken, takers := if h.dest = 31 then h.takers + 1 else h.takers }, body := .data b })
      hhops (htaken.outputFree (State.passed_outputFree d hfree))
  have hunits : v.cyc = s.cyc ∧ v.shafts = s.shafts ∧ v.axis = s.axis ∧ v.trip = s.trip ∧ v.locks = s.locks ∧
      v.pending = s.pending := by
    rw [htaken.frame]
    exact ⟨rfl, rfl, rfl, rfl, rfl, rfl⟩
  refine ⟨_, hexec, ?_⟩
  generalize forwardProcessed _ _ _ = u at *
  have hu := hforwarded.frame
  generalize u.links = links at hu
  generalize u.ring = ring at hu
  subst hu
  exact { pool := rfl, chan := rfl, ports := rfl, wire := hwire, units := hunits }

/-! ### The payload in the head free block (R107, R108) -/

/-- The packet memory after a segment's payload has been put into the head free block. -/
def Pool.placed (u : Pool) (n : BlockNo) (rest : List BlockNo) (bytes : List Byte) : Pool :=
  { u.own [n] .assembly with free := rest, mem := Memory.writeBytes u.mem (blockAddr n 0) bytes }

theorem placePayload_eq {s : State} {n : BlockNo} {rest : List BlockNo} (bytes : List Byte) (h : s.pool.free = n :: rest) :
    placePayload bytes s = (some n, s.modPool fun u => u.placed n rest bytes) := by
  unfold placePayload
  rw [Pool.takeHead_eq _ _ n rest h]
  rfl

/-- The bytes of the packet memory after a payload has been placed: the payload in the block, the rest as it was (R108). -/
theorem Pool.placed_bytes {u : Pool} (hmem : Memory.wf u.mem = true) (n : BlockNo) (rest : List BlockNo) (bytes : List Byte) :
    (∀ j : Nat, j < bytes.length → bytes[j]? = some (Memory.read (u.placed n rest bytes).mem (256 * n.val + j))) ∧
    ∀ x : Nat, x < 256 * n.val ∨ 256 * n.val + bytes.length ≤ x → Memory.read (u.placed n rest bytes).mem x = Memory.read u.mem x := by
  refine ⟨fun j hj => ?_, fun x hx => Memory.read_writeBytes_other _ _ _ _ hx⟩
  rw [List.getElem?_eq_getElem hj]
  exact congrArg some (Memory.read_writeBytes_at (256 * n.val) j bytes hmem hj).symm

/-! ### Contexts (R107, R108) -/

theorem State.setContext_setContext (s : State) (k : Fin 4) (c e : Option Context) :
    (s.setContext k c).setContext k e = s.setContext k e := by
  have : modifyAt (modifyAt s.chan.contexts k fun _ => c) k (fun _ => e) = modifyAt s.chan.contexts k fun _ => e := by
    unfold modifyAt
    exact Vector.set_set ..
  exact congrArg (fun v => { s with chan := { s.chan with contexts := v } }) this

theorem State.setContext_getContext_self (s : State) (k : Fin 4) (c : Option Context) : (s.setContext k c).getContext k = c :=
  (State.setContext_getContext s k k c).trans (if_pos rfl)

theorem completeContext_screen {s : State} {k : Fin 4} {c : Context} (h : s.getContext k = some c) (hslot : c.slot = none) :
    completeContext k s = completeScreen c (s.setContext k none) := by
  unfold completeContext
  rw [h]
  dsimp only
  rw [hslot]

theorem completeContext_strip {s : State} {k : Fin 4} {c : Context} {i : Nat} (h : s.getContext k = some c)
    (hslot : c.slot = some i) : completeContext k s = completeStrip c i (s.setContext k none) := by
  unfold completeContext
  rw [h]
  dsimp only
  rw [hslot]

/-- The context that segment 0 of a message opens (R107, R134). -/
def DataBody.context (b : DataBody) (h : Header) (n : BlockNo) (slot : Option Nat) : Context :=
  { origin := h.origin, channel := b.channel, kind := b.kind, tag := b.tag, attempt := b.attempt, length := b.length
    count := b.count, next := 1, blocks := [n], answers := b.answers, strip := b.strip, stamp := b.stamp
    toAll := h.dest == 31, idle := 0, slot := slot }

/-- A channel whose WAITING entry a RESPONSE answers; another kind leaves it (R124). -/
def Channel.answered (x : Channel) (origin : Nat) (b : DataBody) : Channel :=
  if b.kind = .response then { x with entries := answerEntry origin b.answers x.entries } else x

theorem Channel.answered_response {x : Channel} {origin : Nat} {b : DataBody} (h : b.kind = .response) :
    x.answered origin b = { x with entries := answerEntry origin b.answers x.entries } := if_pos h

theorem Channel.answered_other {x : Channel} {origin : Nat} {b : DataBody} (h : b.kind ≠ .response) : x.answered origin b = x :=
  if_neg h

theorem State.modChannel_same (s : State) (c : ChannelNo) : (s.modChannel c fun x => x) = s :=
  congrArg (fun v => { s with chan := { s.chan with channels := v } }) (modifyAt_id (f := fun x => x) rfl)

/-- A message of one segment on a SCREEN channel is complete at once (R108). -/
theorem takeFirst_screen {s : State} {h : Header} {b : DataBody} {n : BlockNo} {rest : List BlockNo} (k : Fin 4)
    (hfree : s.pool.free = n :: rest) (hcount : b.count = 1) : takeFirst h b k none s =
      completeScreen (b.context h n none) (((s.modPool fun u => u.placed n rest b.payload).modChannel b.channel fun x =>
        x.answered h.origin b).setContext k none) := by
  unfold takeFirst
  dsimp only
  rw [placePayload_eq _ hfree, if_pos (by omega)]
  have hopened : (if b.kind = .response then
      ((s.modPool fun u => u.placed n rest b.payload).setContext k (some (b.context h n none))).modChannel b.channel fun x =>
        { x with entries := answerEntry h.origin b.answers x.entries }
      else (s.modPool fun u => u.placed n rest b.payload).setContext k (some (b.context h n none))) =
      (((s.modPool fun u => u.placed n rest b.payload).modChannel b.channel fun x => x.answered h.origin b).setContext k
        (some (b.context h n none))) := by
    by_cases hkind : b.kind = .response
    · simp only [if_pos hkind, Channel.answered]
      rfl
    · simp only [if_neg hkind, Channel.answered]
      rw [State.modChannel_same]
  change completeContext k (if b.kind = .response then
      ((s.modPool fun u => u.placed n rest b.payload).setContext k (some (b.context h n none))).modChannel b.channel fun x =>
        { x with entries := answerEntry h.origin b.answers x.entries }
      else (s.modPool fun u => u.placed n rest b.payload).setContext k (some (b.context h n none))) = _
  rw [hopened, completeContext_screen (State.setContext_getContext_self _ _ _) rfl, State.setContext_setContext]

/-! ### The stale-response flush (R128) -/

theorem flushResponses_none {s : State} {c : ChannelNo} {x : Nat} (h : ∀ m ∈ (s.getChannel c).queue, m.flushable x = false)
    (fuel : Nat) : flushResponses c x fuel s = s := by
  cases fuel with
  | zero => rfl
  | succ fuel =>
    unfold flushResponses
    rw [List.findIdx?_eq_none_iff.mpr h]

/-- `t` is `s` after the flush of the messages of a channel for which `p` holds. -/
structure State.Flushed (s : State) (c : ChannelNo) (p : TxMsg → Bool) (t : State) : Prop where
  queue : (t.getChannel c).queue = (s.getChannel c).queue.filter fun m => !p m
  rx : (t.getChannel c).rx = (s.getChannel c).rx
  owner : (t.getChannel c).config.owner = (s.getChannel c).config.owner
  others : ∀ k : ChannelNo, k ≠ c → t.getChannel k = s.getChannel k
  contexts : t.chan.contexts = s.chan.contexts
  free : t.pool.free = s.pool.free ++ (((s.getChannel c).queue.filter p).map TxMsg.blocks).flatten
  mem : t.pool.mem = s.pool.mem
  ports : s.OnlyRaises t
  raises : (∃ m ∈ (s.getChannel c).queue, p m = true) → t.flag (s.getChannel c).config.owner .outcome = true

theorem State.flushed_none {s : State} {c : ChannelNo} {p : TxMsg → Bool} (h : ∀ m ∈ (s.getChannel c).queue, p m = false) :
    s.Flushed c p s := by
  have hnone : (s.getChannel c).queue.filter p = [] := List.filter_eq_nil_iff.mpr fun m hm => by rw [h m hm]; decide
  refine ⟨(List.filter_eq_self.mpr fun m hm => by rw [h m hm]; rfl).symm, rfl, rfl, fun _ _ => rfl, rfl, ?_, rfl, .refl s, ?_⟩
  · rw [hnone]
    exact (List.append_nil _).symm
  · rintro ⟨m, hm, hp⟩
    rw [h m hm] at hp
    cases hp

/-- The first of the messages leaves; the others follow it. -/
theorem State.Flushed.step {s u t : State} {c : ChannelNo} {p : TxMsg → Bool} {before after : List TxMsg} {m : TxMsg}
    {r : OutcomeRecord} (hqueue : (s.getChannel c).queue = before ++ m :: after) (hbefore : ∀ e ∈ before, p e = false)
    (hm : p m = true) (hended : s.MessageEnded c before.length m r u) (f : Channel → Channel)
    (hf : ∀ x : Channel, (f x).queue = x.queue ∧ (f x).rx = x.rx ∧ (f x).config = x.config)
    (h : (u.modChannel c f).Flushed c p t) : s.Flushed c p t := by
  obtain ⟨fqueue, frx, fconfig⟩ := hf (u.getChannel c)
  have hself : (u.modChannel c f).getChannel c = f (u.getChannel c) := State.modChannel_getChannel_self u c f
  have uqueue : (u.getChannel c).queue = before ++ after := by
    rw [hended.channel, Channel.without_split hqueue]
    rfl
  have urx : (u.getChannel c).rx = (s.getChannel c).rx := by
    rw [hended.channel]
    rfl
  have uowner : (u.getChannel c).config.owner = (s.getChannel c).config.owner := by
    rw [hended.channel]
    rfl
  have hkeptBefore : before.filter p = [] := List.filter_eq_nil_iff.mpr fun e he => by rw [hbefore e he]; decide
  exact
    { queue := by
        rw [h.queue, hself, fqueue, uqueue, hqueue]
        simp [hm]
      rx := by rw [h.rx, hself, frx, urx]
      owner := by rw [h.owner, hself, fconfig, uowner]
      others := fun k hk => by rw [h.others k hk, State.modChannel_getChannel_other _ hk, hended.others k hk]
      contexts := by
        rw [h.contexts]
        change u.chan.contexts = _
        rw [hended.chan]
      free := by
        rw [h.free, hself, fqueue, uqueue, hqueue]
        change u.pool.free ++ _ = _
        rw [hended.pool]
        simp [Pool.release, hkeptBefore, hm]
      mem := by
        rw [h.mem]
        change u.pool.mem = _
        rw [hended.pool]
        rfl
      ports := hended.taken.ports.trans (.trans (.of_ports rfl) h.ports)
      raises := fun _ => (h.ports _).2 _ hended.raises }

theorem flushResponses_spec {c : ChannelNo} {x : Nat} (fuel : Nat) {s : State}
    (hfuel : ((s.getChannel c).queue.filter fun m => m.flushable x).length ≤ fuel) :
    s.Flushed c (fun m => m.flushable x) (flushResponses c x fuel s) := by
  induction fuel generalizing s with
  | zero =>
    refine State.flushed_none fun m hm => ?_
    refine Bool.eq_false_iff.mpr fun hp => ?_
    have : m ∈ (s.getChannel c).queue.filter fun m => m.flushable x := List.mem_filter.mpr ⟨hm, by simpa using hp⟩
    rw [List.length_eq_zero_iff.mp (Nat.le_zero.mp hfuel)] at this
    cases this
  | succ fuel ih =>
    unfold flushResponses
    split
    · next i hfound =>
      obtain ⟨hlt, hi, hearlier⟩ := List.findIdx?_eq_some_iff_getElem.mp hfound
      have hsplit : (s.getChannel c).queue = (s.getChannel c).queue.take i ++ (s.getChannel c).queue[i] ::
          (s.getChannel c).queue.drop (i + 1) := by simp
      have hlength : ((s.getChannel c).queue.take i).length = i := by
        rw [List.length_take]
        omega
      have hended := finalOutcome_spec (s := s) (c := c) (i := i) .flushed 0 (List.getElem?_eq_getElem hlt)
      have hbefore : ∀ e ∈ (s.getChannel c).queue.take i, e.flushable x = false := fun e he => by
        obtain ⟨j, hj, rfl⟩ := List.mem_take_iff_getElem.mp he
        simpa using hearlier j (by omega)
      refine State.Flushed.step hsplit hbefore hi (by rw [hlength]; exact hended)
        (fun y => { y with flushed := bump y.flushed }) (fun y => ⟨rfl, rfl, rfl⟩) (ih ?_)
      have hqueue : (((finalOutcome c i .flushed 0 s).modChannel c fun y => { y with flushed := bump y.flushed }).getChannel c).queue =
          (s.getChannel c).queue.eraseIdx i := by
        rw [State.modChannel_getChannel_self]
        change ((finalOutcome c i .flushed 0 s).getChannel c).queue = _
        rw [hended.channel]
        rfl
      have hgone := congrArg (fun l : List TxMsg => (l.filter fun m => m.flushable x).length) hsplit
      rw [hqueue, List.eraseIdx_eq_take_drop_succ, List.filter_append, List.length_append]
      simp only [List.filter_append, List.filter_cons, hi, if_true, List.length_append, List.length_cons] at hgone
      omega
    · next hnone => exact State.flushed_none fun m hm => List.findIdx?_eq_none_iff.mp hnone m hm

/-! ### A completed message (R117, R124) -/

/-- The message that a context makes (R117). -/
def Context.message (x : Context) (cycle : Cycle) : RxMsg :=
  { origin := x.origin, kind := x.kind, tag := x.tag, answers := x.answers, toAll := x.toAll, length := x.length
    cycle := cycle, blocks := x.blocks }

/-- The state in which a context's message has joined its receive queue. -/
def State.rxJoined (s : State) (x : Context) : State :=
  raise (s.getChannel x.channel).config.owner .rx ((ownBlocks x.blocks .rxq s).modChannel x.channel fun y =>
    { y with rx := y.rx ++ [x.message s.cyc.cycle] })

theorem State.rxJoined_channel (s : State) (x : Context) : (s.rxJoined x).getChannel x.channel =
    { s.getChannel x.channel with rx := (s.getChannel x.channel).rx ++ [x.message s.cyc.cycle] } :=
  State.modChannel_getChannel_self (ownBlocks x.blocks .rxq s) x.channel _

theorem State.rxJoined_other {s : State} {x : Context} {c : ChannelNo} (h : c ≠ x.channel) :
    (s.rxJoined x).getChannel c = s.getChannel c :=
  State.modChannel_getChannel_other (s := ownBlocks x.blocks .rxq s) _ h

theorem State.rxJoined_raises (s : State) (x : Context) : (s.rxJoined x).flag (s.getChannel x.channel).config.owner .rx = true :=
  raise_raises _ _ _

/-- The channel without the entry that a RESPONSE answered; another kind leaves it (R124). -/
def Channel.cleared (y : Channel) (x : Context) : Channel :=
  if x.kind = .response then
    { y with entries := y.entries.filter fun e => !decide (e.dest = x.origin ∧ e.tag = x.answers ∧ e.state = .answering) }
  else y

theorem Channel.cleared_response {y : Channel} {x : Context} (h : x.kind = .response) : y.cleared x = { y with
    entries := y.entries.filter fun e => !decide (e.dest = x.origin ∧ e.tag = x.answers ∧ e.state = .answering) } := if_pos h

theorem Channel.cleared_other {y : Channel} {x : Context} (h : x.kind ≠ .response) : y.cleared x = y := if_neg h

/-- Whether a context's message flushes stale responses: a REQUEST that meets the flush on (R128). -/
def State.flushesAt (s : State) (x : Context) : Prop := x.kind = .request ∧ (s.getChannel x.channel).config.flush = true

theorem completeScreen_kept {s : State} {x : Context}
    (h : s.flushesAt x → ∀ m ∈ (s.getChannel x.channel).queue, m.flushable x.origin = false) :
    completeScreen x s = (s.rxJoined x).modChannel x.channel fun y => y.cleared x := by
  have hjoined := s.rxJoined_channel x
  unfold completeScreen
  dsimp only
  change (if x.kind = .response then (s.rxJoined x).modChannel x.channel _
    else if (decide (x.kind = .request) && ((s.rxJoined x).getChannel x.channel).config.flush) = true then
      flushResponses x.channel x.origin ((s.rxJoined x).getChannel x.channel).queue.length (s.rxJoined x)
    else s.rxJoined x) = _
  by_cases hresponse : x.kind = .response
  · rw [if_pos hresponse]
    exact State.modChannel_congr (if_pos hresponse).symm
  · have hcleared : ((s.rxJoined x).modChannel x.channel fun y => y.cleared x) = s.rxJoined x :=
      (State.modChannel_congr (if_neg hresponse)).trans (State.modChannel_same _ _)
    rw [if_neg hresponse, hcleared, hjoined]
    split
    · next hflushes =>
      rw [Bool.and_eq_true, decide_eq_true_eq] at hflushes
      exact flushResponses_none (by rw [hjoined]; exact h hflushes) _
    · rfl

theorem completeScreen_flushes {s : State} {x : Context} (h : s.flushesAt x) :
    (s.rxJoined x).Flushed x.channel (fun m => m.flushable x.origin) (completeScreen x s) := by
  have hjoined := s.rxJoined_channel x
  have hflushes : completeScreen x s =
      flushResponses x.channel x.origin ((s.rxJoined x).getChannel x.channel).queue.length (s.rxJoined x) := by
    have hon : (decide (x.kind = .request) && ((s.rxJoined x).getChannel x.channel).config.flush) = true := by
      rw [hjoined, h.1]
      exact h.2
    have hnot : ¬x.kind = .response := by
      rw [h.1]
      decide
    exact (if_neg hnot).trans (if_pos hon)
  rw [hflushes]
  exact flushResponses_spec _ (List.length_filter_le _ _)

/-- What a completed SCREEN message leaves as it is, and the RX that it raises (R117). -/
structure State.ScreenCompleted (s : State) (x : Context) (t : State) : Prop where
  others : ∀ c : ChannelNo, c ≠ x.channel → t.getChannel c = s.getChannel c
  contexts : t.chan.contexts = s.chan.contexts
  mem : t.pool.mem = s.pool.mem
  raises : t.flag (s.getChannel x.channel).config.owner .rx = true

theorem completeScreen_completed (s : State) (x : Context) : s.ScreenCompleted x (completeScreen x s) := by
  by_cases h : s.flushesAt x
  · have hflushed := completeScreen_flushes h
    exact
      { others := fun c hc => (hflushed.others c hc).trans (State.rxJoined_other hc)
        contexts := hflushed.contexts
        mem := hflushed.mem
        raises := (hflushed.ports _).2 _ (s.rxJoined_raises x) }
  · rw [completeScreen_kept fun k => absurd k h]
    exact
      { others := fun c hc => (State.modChannel_getChannel_other _ hc).trans (State.rxJoined_other hc)
        contexts := rfl
        mem := rfl
        raises := s.rxJoined_raises x }

/-! ### A message of one segment (R106 to R108, R117, R124) -/

/-- A segment 0 on an open SCREEN channel with room is taken (R106). -/
theorem State.screenVerdict_takes {s : State} {origin : Nat} {b : DataBody} {k : Fin 4}
    (hheld : (s.getChannel b.channel).held = false)
    (hawaits : b.kind = .response → (s.getChannel b.channel).awaits origin b.answers = true)
    (hroom : (s.getChannel b.channel).rx.length + (s.contextsOn b.channel).length < (s.getChannel b.channel).config.rxDepth)
    (hcontext : s.freeContext .screen = some k) (hfree : s.pool.free ≠ []) : s.screenVerdict origin b = .take k none := by
  have hlate : ¬(decide (b.kind = .response) && !(s.getChannel b.channel).awaits origin b.answers) = true := by
    rw [Bool.and_eq_true, decide_eq_true_eq]
    rintro ⟨hkind, hnot⟩
    rw [hawaits hkind] at hnot
    cases hnot
  unfold State.screenVerdict
  dsimp only
  rw [if_neg (by rw [hheld]; exact Bool.false_ne_true), if_neg hlate, if_neg (Nat.not_le.mpr hroom), hcontext]
  exact if_neg (by simpa using hfree)

/-- The entries that a RESPONSE leaves: all but the one it answers (R124). -/
theorem answered_cleared {origin : Nat} {answers : BitVec 8} {before after : List OutEntry} {e : OutEntry} (hdest : e.dest = origin)
    (htag : e.tag = answers) (hstate : e.state = .waiting)
    (hothers : ∀ y ∈ before ++ after, ¬(y.dest = origin ∧ y.tag = answers)) :
    (answerEntry origin answers (before ++ e :: after)).filter
      (fun e => !decide (e.dest = origin ∧ e.tag = answers ∧ e.state = .answering)) = before ++ after := by
  have hanswered : answerEntry origin answers (before ++ e :: after) = before ++ { e with state := .answering } :: after := by
    induction before with
    | nil => exact if_pos ⟨hdest, htag, hstate⟩
    | cons y before ih =>
      obtain ⟨hy, hrest⟩ := List.forall_mem_cons.mp hothers
      rw [List.cons_append, answerEntry, if_neg (fun h => hy ⟨h.1, h.2.1⟩), ih hrest]
      rfl
  have hkept (l : List OutEntry) (hl : ∀ y ∈ l, y ∈ before ++ after) :
      l.filter (fun e => !decide (e.dest = origin ∧ e.tag = answers ∧ e.state = .answering)) = l :=
    List.filter_eq_self.mpr fun y hy => by
      rw [decide_eq_false fun h => hothers y (hl y hy) ⟨h.1, h.2.1⟩]
      rfl
  rw [hanswered, List.filter_append, hkept before fun y hy => List.mem_append_left _ hy, List.filter_cons,
    hkept after fun y hy => List.mem_append_right _ hy]
  simp [hdest, htag]

/-- The entries that a message of one segment leaves: an EVENT all, a REQUEST that flushes nothing all, a RESPONSE all but the one
it answers (R124, R128). -/
def State.Leaves (s : State) (h : Header) (b : DataBody) (left : List OutEntry) : Prop :=
  b.kind = .event ∧ left = (s.getChannel b.channel).entries ∨
  b.kind = .request ∧ left = (s.getChannel b.channel).entries ∧
    ((s.getChannel b.channel).config.flush = false ∨
      ∀ m ∈ (s.getChannel b.channel).queue, ¬(m.kind = .response ∧ m.dest = h.origin ∧ m.started = false)) ∨
  b.kind = .response ∧ ∃ (before after : List OutEntry) (e : OutEntry),
    (s.getChannel b.channel).entries = before ++ e :: after ∧ left = before ++ after ∧ e.dest = h.origin ∧
    e.tag = b.answers ∧ e.state = .waiting ∧ ∀ y ∈ before ++ after, ¬(y.dest = h.origin ∧ y.tag = b.answers)

theorem TxMsg.flushable_iff (m : TxMsg) (x : Nat) :
    m.flushable x = true ↔ m.kind = .response ∧ m.dest = x ∧ m.started = false := by
  simp [TxMsg.flushable, and_assoc]

theorem State.Leaves.kind {s : State} {h : Header} {b : DataBody} {left : List OutEntry} (hleft : s.Leaves h b left) :
    b.kind = .request ∨ b.kind = .response ∨ b.kind = .event := by
  rcases hleft with ⟨hkind, -⟩ | ⟨hkind, -⟩ | ⟨hkind, -⟩
  · exact .inr (.inr hkind)
  · exact .inl hkind
  · exact .inr (.inl hkind)

/-- A RESPONSE finds the entry it answers (R124). -/
theorem State.Leaves.awaits {s : State} {h : Header} {b : DataBody} {left : List OutEntry} (hleft : s.Leaves h b left)
    (hresponse : b.kind = .response) : (s.getChannel b.channel).awaits h.origin b.answers = true := by
  rcases hleft with ⟨hkind, -⟩ | ⟨hkind, -⟩ | ⟨-, before, after, e, hentries, -, hdest, htag, hstate, -⟩
  · rw [hkind] at hresponse
    cases hresponse
  · rw [hkind] at hresponse
    cases hresponse
  · refine List.any_eq_true.mpr ⟨e, ?_, decide_eq_true ⟨hdest, htag, hstate⟩⟩
    rw [hentries]
    exact List.mem_append_right _ (List.mem_cons_self ..)

/-- The channel that has taken the whole message of one segment. -/
theorem State.Leaves.channel {s : State} {h : Header} {b : DataBody} {left : List OutEntry} (hleft : s.Leaves h b left) (n : BlockNo)
    (r : RxMsg) : (({ (s.getChannel b.channel).answered h.origin b with
        rx := ((s.getChannel b.channel).answered h.origin b).rx ++ [r] } : Channel).cleared (b.context h n none)) =
      { s.getChannel b.channel with entries := left, rx := (s.getChannel b.channel).rx ++ [r] } := by
  have hsame (hkind : b.kind ≠ .response) (hentries : left = (s.getChannel b.channel).entries) :
      (({ (s.getChannel b.channel).answered h.origin b with
        rx := ((s.getChannel b.channel).answered h.origin b).rx ++ [r] } : Channel).cleared (b.context h n none)) =
      { s.getChannel b.channel with entries := left, rx := (s.getChannel b.channel).rx ++ [r] } := by
    refine (Channel.cleared_other (x := b.context h n none) hkind).trans ?_
    rw [Channel.answered_other hkind, hentries]
  rcases hleft with ⟨hkind, hentries⟩ | ⟨hkind, hentries, -⟩ | ⟨hkind, before, after, e, hentries, rfl, hdest, htag, hstate, hothers⟩
  · exact hsame (by rw [hkind]; decide) hentries
  · exact hsame (by rw [hkind]; decide) hentries
  · have hcleared := answered_cleared hdest htag hstate hothers
    rw [← hentries] at hcleared
    rw [Channel.answered_response hkind]
    refine (Channel.cleared_response (x := b.context h n none) hkind).trans ?_
    exact congrArg (fun l => { s.getChannel b.channel with entries := l, rx := (s.getChannel b.channel).rx ++ [r] }) hcleared

theorem takeFirst_screen_spec {s : State} {h : Header} {b : DataBody} {n : BlockNo} {rest : List BlockNo} {k : Fin 4}
    {left : List OutEntry} (hfree : s.pool.free = n :: rest) (hcount : b.count = 1) (hnone : s.getContext k = none)
    (hleft : s.Leaves h b left) :
    (takeFirst h b k none s).getChannel b.channel = { s.getChannel b.channel with
      entries := left
      rx := (s.getChannel b.channel).rx ++ [(b.context h n none).message s.cyc.cycle] } ∧
    (∀ c : ChannelNo, c ≠ b.channel → (takeFirst h b k none s).getChannel c = s.getChannel c) ∧
    (∀ j : Fin 4, (takeFirst h b k none s).getContext j = s.getContext j) ∧
    (takeFirst h b k none s).pool = (s.pool.placed n rest b.payload).own [n] .rxq ∧
    (takeFirst h b k none s).flag (s.getChannel b.channel).config.owner .rx = true := by
  rw [takeFirst_screen k hfree hcount]
  have hanswered : ((s.getChannel b.channel).answered h.origin b).config = (s.getChannel b.channel).config ∧
      ((s.getChannel b.channel).answered h.origin b).queue = (s.getChannel b.channel).queue := by
    unfold Channel.answered
    split
    · exact ⟨rfl, rfl⟩
    · exact ⟨rfl, rfl⟩
  generalize hw : State.setContext _ k none = w
  have hself : w.getChannel b.channel = (s.getChannel b.channel).answered h.origin b := by
    rw [← hw]
    exact State.modChannel_getChannel_self (s.modPool fun u => u.placed n rest b.payload) b.channel _
  have hothers (c : ChannelNo) (hc : c ≠ b.channel) : w.getChannel c = s.getChannel c := by
    rw [← hw]
    exact State.modChannel_getChannel_other (s := s.modPool fun u => u.placed n rest b.payload) _ hc
  have hcontexts (j : Fin 4) : w.getContext j = s.getContext j := by
    rw [← hw, State.setContext_getContext]
    split
    · next hj => rw [hj, hnone]
    · rfl
  have hcycle : w.cyc.cycle = s.cyc.cycle := by rw [← hw]; rfl
  have hpool : w.pool = s.pool.placed n rest b.payload := by rw [← hw]; rfl
  have hkept : w.flushesAt (b.context h n none) → ∀ m ∈ (w.getChannel b.channel).queue, m.flushable h.origin = false := by
    rintro ⟨hkind, hflush⟩ m hm
    rw [show (w.getChannel (b.context h n none).channel) = _ from hself, hanswered.1] at hflush
    rw [hself, hanswered.2] at hm
    rcases hleft with ⟨hevent, -⟩ | ⟨-, -, hoff | hstale⟩ | ⟨hresponse, -⟩
    · rw [show b.kind = .request from hkind] at hevent
      cases hevent
    · rw [hoff] at hflush
      cases hflush
    · rw [← Bool.not_eq_true, TxMsg.flushable_iff]
      exact hstale m hm
    · rw [show b.kind = .request from hkind] at hresponse
      cases hresponse
  have hcompleted := completeScreen_completed w (b.context h n none)
  have hjoined := w.rxJoined_channel (b.context h n none)
  have hraises := hcompleted.raises
  rw [show (w.getChannel (b.context h n none).channel) = _ from hself] at hjoined hraises
  rw [hanswered.1] at hraises
  refine ⟨?_, fun c hc => (hcompleted.others c hc).trans (hothers c hc), fun j => ?_, ?_, hraises⟩
  · rw [completeScreen_kept hkept]
    refine (State.modChannel_getChannel_self (w.rxJoined (b.context h n none)) b.channel _).trans ?_
    rw [show (w.rxJoined (b.context h n none)).getChannel b.channel = _ from hjoined, hleft.channel, hcycle]
  · rw [← hcontexts]
    exact congrArg (fun v : Vector (Option Context) 4 => v[j.val]) hcompleted.contexts
  · rw [completeScreen_kept hkept, ← hpool]
    rfl

end Sys2Proof.Machine
end

