-- ==== Sys2Proof/Proofs/LaterSegments.lean ====
section
/-!
PROOFS. The later segments of a message, and STRIPs of one segment; with them O29 (R108, R128, R134 to R136).
-/

namespace Sys2Proof.Machine

/-! ### Later segments (R108) -/

/-- A context that has taken a further block (R108). -/
def Context.extended (x : Context) (n : BlockNo) : Context :=
  { x with next := x.next + 1, blocks := x.blocks ++ [n], idle := 0 }

theorem judgeSegment_next {s : State} {h : Header} {b : DataBody} {k : Fin 4} {x : Context} (hindex : b.index ≠ 0)
    (hcontext : s.contextOf h.origin b.channel = some k) (hx : s.getContext k = some x) (hnext : b.index = x.next)
    (htag : b.tag = x.tag) (hattempt : b.attempt = x.attempt) (hcount : b.count = x.count) (hblock : s.blockFor x = true) :
    judgeSegment h b s = (.taken, takeNext b k x s) := by
  have hfollows : (x.follows b && s.blockFor x) = true := by
    rw [hblock, Bool.and_true]
    exact decide_eq_true ⟨htag, hattempt, hcount, hnext⟩
  unfold judgeSegment
  rw [if_neg hindex, hcontext]
  dsimp only
  rw [hx]
  exact if_pos hfollows

theorem State.blockFor_of_free {s : State} {x : Context} {n : BlockNo} {rest : List BlockNo} (hfree : s.pool.free = n :: rest)
    (hstrip : x.kind = .strip → s.pool.reserve < s.pool.free.length) : s.blockFor x = true := by
  unfold State.blockFor
  split
  · next hkind => exact decide_eq_true (hstrip hkind)
  · rw [hfree]
    rfl

theorem takeNext_open {s : State} {b : DataBody} {k : Fin 4} {x : Context} {n : BlockNo} {rest : List BlockNo}
    (hfree : s.pool.free = n :: rest) (hmore : x.next + 1 < x.count) :
    takeNext b k x s = (s.modPool fun u => u.placed n rest b.payload).setContext k (some (x.extended n)) := by
  unfold takeNext
  dsimp only
  rw [placePayload_eq _ hfree, if_neg (Nat.not_le.mpr hmore)]
  rfl

/-- The state in which a context's last block has been placed and the context freed. -/
def State.lastPlaced (s : State) (k : Fin 4) (n : BlockNo) (rest : List BlockNo) (bytes : List Byte) : State :=
  (s.modPool fun u => u.placed n rest bytes).setContext k none

theorem takeNext_last {s : State} {b : DataBody} {k : Fin 4} {x : Context} {n : BlockNo} {rest : List BlockNo}
    (hfree : s.pool.free = n :: rest) (hlast : x.count ≤ x.next + 1) : takeNext b k x s =
      match x.slot with
      | some i => completeStrip (x.extended n) i (s.lastPlaced k n rest b.payload)
      | none => completeScreen (x.extended n) (s.lastPlaced k n rest b.payload) := by
  have hself := State.setContext_getContext_self (s.modPool fun u => u.placed n rest b.payload) k (some (x.extended n))
  unfold takeNext
  dsimp only
  rw [placePayload_eq _ hfree, if_pos hlast]
  change completeContext k ((s.modPool fun u => u.placed n rest b.payload).setContext k (some (x.extended n))) = _
  cases hslot : x.slot with
  | none => rw [completeContext_screen hself hslot, State.setContext_setContext]; rfl
  | some i => rw [completeContext_strip hself hslot, State.setContext_setContext]; rfl

theorem completeStrip_pool (x : Context) (i : Nat) (s : State) : (completeStrip x i s).pool = s.pool.own x.blocks .store := rfl

/-- The blocks after a context's last block has been placed and all its blocks have got an owner. -/
theorem Pool.placed_own (u : Pool) (n : BlockNo) (rest : List BlockNo) (bytes : List Byte) (blocks : List BlockNo) (o : BlockOwner) :
    ((u.placed n rest bytes).own (blocks ++ [n]) o).free = rest ∧
      (∀ m : BlockNo, m ≠ n → m ∉ blocks → ((u.placed n rest bytes).own (blocks ++ [n]) o).owner m = u.owner m) ∧
      ∀ m ∈ blocks ++ [n], ((u.placed n rest bytes).own (blocks ++ [n]) o).owner m = o := by
  refine ⟨rfl, fun m hm hnot => ?_, fun m hm => ?_⟩
  · rw [Pool.own_owner, if_neg (by simp [hm, hnot])]
    exact (Pool.own_owner u [n] .assembly m).trans (if_neg (by simpa using hm))
  · rw [Pool.own_owner, if_pos hm]

/-- Whether a context's last segment completes a REQUEST that meets stale responses with the flush on (R128). -/
def State.lastFlushes (s : State) (x : Context) : Prop :=
  x.kind = .request ∧ x.count ≤ x.next + 1 ∧ x.slot = none ∧ (s.getChannel x.channel).config.flush = true ∧
    ∃ m ∈ (s.getChannel x.channel).queue, m.flushable x.origin = true

/-- What every later segment that is taken does: its payload, the contexts, and, where nothing is flushed, the blocks (R108). -/
theorem takeNext_spec {s : State} (b : DataBody) {k : Fin 4} {x : Context} {n : BlockNo} {rest : List BlockNo}
    (hfree : s.pool.free = n :: rest) :
    (takeNext b k x s).pool.mem = (s.pool.placed n rest b.payload).mem ∧
    (∀ l : Fin 4, l ≠ k → (takeNext b k x s).getContext l = s.getContext l) ∧
    (x.count ≤ x.next + 1 → (takeNext b k x s).getContext k = none) ∧
    (¬s.lastFlushes x → (takeNext b k x s).pool.free = rest ∧
      ∀ m : BlockNo, m ≠ n → m ∉ x.blocks → (takeNext b k x s).pool.owner m = s.pool.owner m) := by
  by_cases hlast : x.count ≤ x.next + 1
  · have hcontext (l : Fin 4) : (s.lastPlaced k n rest b.payload).getContext l = if l = k then none else s.getContext l :=
      State.setContext_getContext _ _ _ _
    have hpool : (s.lastPlaced k n rest b.payload).pool = s.pool.placed n rest b.payload := rfl
    have hchannel (c : ChannelNo) : (s.lastPlaced k n rest b.payload).getChannel c = s.getChannel c := rfl
    rw [takeNext_last hfree hlast]
    generalize s.lastPlaced k n rest b.payload = w at *
    cases hslot : x.slot with
    | some i =>
      obtain ⟨hrest, howners, -⟩ := s.pool.placed_own n rest b.payload x.blocks .store
      refine ⟨(congrArg Pool.mem hpool :), fun l hl => (hcontext l).trans (if_neg hl), fun _ => (hcontext k).trans (if_pos rfl),
        fun _ => ?_⟩
      dsimp only
      rw [completeStrip_pool, hpool]
      exact ⟨hrest, howners⟩
    | none =>
      obtain ⟨hrest, howners, -⟩ := s.pool.placed_own n rest b.payload x.blocks .rxq
      have hcompleted := completeScreen_completed w (x.extended n)
      have hkeeps (l : Fin 4) : (completeScreen (x.extended n) w).getContext l = w.getContext l :=
        congrArg (fun v : Vector (Option Context) 4 => v[l.val]) hcompleted.contexts
      refine ⟨hcompleted.mem.trans (congrArg Pool.mem hpool), fun l hl => (hkeeps l).trans ((hcontext l).trans (if_neg hl)),
        fun _ => (hkeeps k).trans ((hcontext k).trans (if_pos rfl)), fun hnot => ?_⟩
      have hkept := completeScreen_kept (s := w) (x := x.extended n) fun hflushes m hm => by
        rw [hchannel] at hm
        rw [← Bool.not_eq_true]
        refine fun hstale => hnot ⟨hflushes.1, hlast, hslot, ?_, m, hm, hstale⟩
        have hon := hflushes.2
        rw [hchannel] at hon
        exact hon
      dsimp only
      rw [hkept]
      change (w.pool.own (x.blocks ++ [n]) .rxq).free = rest ∧ ∀ m : BlockNo, m ≠ n → m ∉ x.blocks →
        (w.pool.own (x.blocks ++ [n]) .rxq).owner m = _
      rw [hpool]
      exact ⟨hrest, howners⟩
  · rw [takeNext_open hfree (Nat.not_le.mp hlast)]
    refine ⟨rfl, fun l hl => (State.setContext_getContext _ _ _ _).trans (if_neg hl), fun h => absurd h hlast,
      fun _ => ⟨rfl, fun m hm _ => ?_⟩⟩
    exact (Pool.own_owner s.pool [n] .assembly m).trans (if_neg (by simpa using hm))

/-- The last segment of an EVENT or a REQUEST that flushes nothing (R117). -/
theorem takeNext_completes {s : State} (b : DataBody) {k : Fin 4} {x : Context} {n : BlockNo} {rest : List BlockNo}
    (hfree : s.pool.free = n :: rest) (hlast : x.count ≤ x.next + 1) (hslot : x.slot = none)
    (hkind : x.kind = .event ∨ x.kind = .request) (hnot : ¬s.lastFlushes x) :
    (∀ m ∈ x.blocks ++ [n], (takeNext b k x s).pool.owner m = .rxq) ∧
    (takeNext b k x s).getChannel x.channel = { s.getChannel x.channel with
      rx := (s.getChannel x.channel).rx ++ [(x.extended n).message s.cyc.cycle] } ∧
    (∀ c : ChannelNo, c ≠ x.channel → (takeNext b k x s).getChannel c = s.getChannel c) ∧
    (takeNext b k x s).flag (s.getChannel x.channel).config.owner .rx = true := by
  have hpool : (s.lastPlaced k n rest b.payload).pool = s.pool.placed n rest b.payload := rfl
  have hchannel (c : ChannelNo) : (s.lastPlaced k n rest b.payload).getChannel c = s.getChannel c := rfl
  have hcycle : (s.lastPlaced k n rest b.payload).cyc.cycle = s.cyc.cycle := rfl
  obtain ⟨-, -, howners⟩ := s.pool.placed_own n rest b.payload x.blocks .rxq
  rw [takeNext_last hfree hlast, hslot]
  dsimp only
  generalize s.lastPlaced k n rest b.payload = w at *
  have hcompleted := completeScreen_completed w (x.extended n)
  have hraises := hcompleted.raises
  have hjoined := w.rxJoined_channel (x.extended n)
  rw [hchannel] at hraises hjoined
  have hkept := completeScreen_kept (s := w) (x := x.extended n) fun hflushes m hm => by
    rw [hchannel] at hm
    rw [← Bool.not_eq_true]
    refine fun hstale => hnot ⟨hflushes.1, hlast, hslot, ?_, m, hm, hstale⟩
    have hon := hflushes.2
    rw [hchannel] at hon
    exact hon
  refine ⟨fun m hm => ?_, ?_, fun c hc => (hcompleted.others c hc).trans (hchannel c), hraises⟩
  · rw [hkept]
    change (w.pool.own (x.blocks ++ [n]) .rxq).owner m = _
    rw [hpool]
    exact howners m hm
  · rw [hkept]
    refine (State.modChannel_getChannel_self (w.rxJoined (x.extended n)) x.channel _).trans ?_
    rw [show (w.rxJoined (x.extended n)).getChannel x.channel = _ from hjoined, hcycle]
    refine Channel.cleared_other (x := x.extended n) ?_
    rcases hkind with hkind | hkind
    · exact fun h => by rw [show (x.extended n).kind = .event from hkind] at h; cases h
    · exact fun h => by rw [show (x.extended n).kind = .request from hkind] at h; cases h

/-- The last segment of a REQUEST that flushes stale responses (R128). -/
theorem takeNext_flushes {s : State} (b : DataBody) {k : Fin 4} {x : Context} {n : BlockNo} {rest : List BlockNo}
    (hfree : s.pool.free = n :: rest) (hflushes : s.lastFlushes x) :
    ((takeNext b k x s).getChannel x.channel).rx = (s.getChannel x.channel).rx ++ [(x.extended n).message s.cyc.cycle] ∧
    ((takeNext b k x s).getChannel x.channel).queue = (s.getChannel x.channel).queue.filter (fun m => !m.flushable x.origin) ∧
    (∀ c : ChannelNo, c ≠ x.channel → (takeNext b k x s).getChannel c = s.getChannel c) ∧
    (takeNext b k x s).pool.free =
      rest ++ (((s.getChannel x.channel).queue.filter fun m => m.flushable x.origin).map TxMsg.blocks).flatten ∧
    (takeNext b k x s).flag (s.getChannel x.channel).config.owner .outcome = true ∧
    (takeNext b k x s).flag (s.getChannel x.channel).config.owner .rx = true := by
  obtain ⟨hkind, hlast, hslot, hon, hstale⟩ := hflushes
  have hpool : (s.lastPlaced k n rest b.payload).pool = s.pool.placed n rest b.payload := rfl
  have hchannel (c : ChannelNo) : (s.lastPlaced k n rest b.payload).getChannel c = s.getChannel c := rfl
  have hcycle : (s.lastPlaced k n rest b.payload).cyc.cycle = s.cyc.cycle := rfl
  rw [takeNext_last hfree hlast, hslot]
  dsimp only
  generalize s.lastPlaced k n rest b.payload = w at *
  have hflushed := completeScreen_flushes (s := w) (x := x.extended n) ⟨hkind, by rw [hchannel]; exact hon⟩
  have hcompleted := completeScreen_completed w (x.extended n)
  have hraises := hcompleted.raises
  have hjoined : (w.rxJoined (x.extended n)).getChannel x.channel = _ := w.rxJoined_channel (x.extended n)
  have hreach := hflushed.raises
  have hqueue := hflushed.queue
  have hfreed := hflushed.free
  have hrx := hflushed.rx
  rw [show ((w.rxJoined (x.extended n)).getChannel (x.extended n).channel) = _ from hjoined] at hreach hqueue hfreed hrx
  rw [hchannel] at hraises
  have hsame : w.getChannel (x.extended n).channel = s.getChannel x.channel := hchannel x.channel
  rw [hsame] at hreach hqueue hfreed hrx
  rw [hcycle] at hrx
  refine ⟨hrx, hqueue, fun c hc => (hcompleted.others c hc).trans (hchannel c), hfreed.trans ?_, hreach hstale, hraises⟩
  refine congrArg (· ++ _) ?_
  change w.pool.free = rest
  rw [hpool]
  rfl

/-! ### Strips of one segment (R106, R134 to R136) -/

theorem StripStore.gapUpdate_frame (u : StripStore) (source : Nat) (m : BitVec 16) : u.gapUpdate source m = { u with
    gaps := (u.gapUpdate source m).gaps, missed := (u.gapUpdate source m).missed
    outOfOrder := (u.gapUpdate source m).outOfOrder } := by
  unfold StripStore.gapUpdate
  split
  · dsimp only
    split <;> rfl
  · rfl

/-- A new source joins a gap table with room (R136). -/
theorem StripStore.gapUpdate_new {u : StripStore} {source : Nat} (m : BitVec 16) (hnew : ∀ e ∈ u.gaps, e.source ≠ source)
    (hroom : u.gaps.length < 4) : u.gapUpdate source m = { u with gaps := u.gaps ++ [{ source := source, last := m }] } := by
  have hnone : u.gaps.find? (fun e => decide (e.source = source)) = none :=
    List.find?_eq_none.mpr fun e he => by simpa using hnew e he
  unfold StripStore.gapUpdate
  rw [hnone]
  dsimp only
  rw [pushBounded_of_lt _ hroom]

/-- A known source moves to the table's end: a number ahead counts the strips passed over, another counts out of order
(R136). -/
theorem StripStore.gapUpdate_known {u : StripStore} {source : Nat} (m : BitVec 16) {before after : List GapEntry} {e : GapEntry}
    (hgaps : u.gaps = before ++ e :: after) (he : e.source = source) (hothers : ∀ g ∈ before ++ after, g.source ≠ source) :
    u.gapUpdate source m =
      if 1 ≤ (m - e.last).toNat ∧ (m - e.last).toNat ≤ 32767 then
        { u with
          missed := bumpBy u.missed ((m - e.last).toNat - 1), gaps := before ++ after ++ [{ source := source, last := m }] }
      else { u with outOfOrder := bump u.outOfOrder, gaps := before ++ after ++ [e] } := by
  have hfound : u.gaps.find? (fun g => decide (g.source = source)) = some e := by
    rw [hgaps]
    refine List.find?_eq_some_iff_append.mpr ⟨by simp [he], before, after, rfl, fun g hg => ?_⟩
    rw [decide_eq_false (hothers g (List.mem_append_left _ hg))]
    rfl
  have hkept (l : List GapEntry) (hl : ∀ g ∈ l, g ∈ before ++ after) :
      l.filter (fun g => decide (g.source ≠ source)) = l :=
    List.filter_eq_self.mpr fun g hg => decide_eq_true (hothers g (hl g hg))
  have hrest : u.gaps.filter (fun g => decide (g.source ≠ source)) = before ++ after := by
    rw [hgaps, List.filter_append, List.filter_cons, if_neg (by simp [he]), hkept before fun g hg => List.mem_append_left _ hg,
      hkept after fun g hg => List.mem_append_right _ hg]
  unfold StripStore.gapUpdate
  rw [hfound]
  dsimp only
  rw [hrest, ← he]

/-- A slot that a strip fills (R134). -/
def Slot.filled (origin : Nat) (strip : BitVec 16) : Slot :=
  { Slot.blank with state := .filling, source := origin, strip := strip }

/-- An EMPTY slot that a strip takes frees nothing (R134). -/
theorem fillSlot_empty {s : State} {c : ChannelNo} {i : Nat} {y : Slot} (origin : Nat) (strip : BitVec 16)
    (hi : (s.getChannel c).store.slots[i]? = some y) (hy : y.state = .empty) : fillSlot c i origin strip s =
      s.modChannel c fun x => { x with
        store := { x.store with slots := modifyNth x.store.slots i fun _ => Slot.filled origin strip } } := by
  unfold fillSlot
  dsimp only
  rw [hi]
  dsimp only
  rw [if_neg (by rw [hy]; decide)]
  rfl

/-- The first EMPTY slot is chosen (R134). -/
theorem StripStore.chooseSlot_empty {u : StripStore} {i : Nat} {y : Slot} (hi : u.slots[i]? = some y) (hy : y.state = .empty)
    (hearlier : ∀ (j : Nat) (z : Slot), j < i → u.slots[j]? = some z → z.state ≠ .empty) : u.chooseSlot = some i := by
  obtain ⟨hlt, hget⟩ := List.getElem?_eq_some_iff.mp hi
  have hfound : u.slots.findIdx? (fun x => decide (x.state = .empty)) = some i := by
    refine List.findIdx?_eq_some_iff_getElem.mpr ⟨hlt, by rw [hget]; exact decide_eq_true hy, fun j hj => ?_⟩
    simpa using hearlier j _ hj (List.getElem?_eq_getElem (Nat.lt_trans hj hlt))
  unfold StripStore.chooseSlot
  rw [hfound]

/-- A strip for a running store with an EMPTY slot and blocks above the reserve is taken (R106, R134). -/
theorem State.verdict_strip {s : State} {b : DataBody} {i : Nat} {y : Slot} {k : Fin 4} (origin : Nat) (hkind : b.kind = .strip)
    (htype : (s.getChannel b.channel).config.type = .image) (hrunning : (s.getChannel b.channel).store.frozen = false)
    (hchosen : (s.getChannel b.channel).store.chooseSlot = some i)
    (hi : (s.getChannel b.channel).store.slots[i]? = some y) (hblocks : y.blocks = []) (hcontext : s.freeContext .image = some k)
    (hreserve : s.pool.reserve < s.pool.free.length) : s.verdict origin b = .take k (some i) := by
  have hnone : (s.getChannel b.channel).store.blocksOf i = 0 := by
    unfold StripStore.blocksOf
    rw [hi]
    dsimp only
    rw [hblocks]
    rfl
  have himage : s.verdict origin b = s.imageVerdict b := by
    unfold State.verdict
    dsimp only
    rw [htype, hkind]
    rfl
  rw [himage]
  unfold State.imageVerdict
  dsimp only
  rw [if_neg (by rw [hrunning]; exact Bool.false_ne_true), hchosen]
  dsimp only
  rw [hcontext]
  dsimp only
  rw [hnone, if_neg (by omega)]

/-- The store that has taken a strip of one segment into slot `i` (R135). -/
def StripStore.taken (u : StripStore) (i : Nat) (x : Context) (cycle : Cycle) : StripStore :=
  ({ u with slots := modifyNth u.slots i fun _ => Slot.filled x.origin x.strip } : StripStore).complete i x cycle

theorem takeFirst_strip {s : State} {h : Header} {b : DataBody} {n : BlockNo} {rest : List BlockNo} {k : Fin 4} {i : Nat} {y : Slot}
    (hfree : s.pool.free = n :: rest) (hcount : b.count = 1) (hkind : b.kind = .strip)
    (hi : (s.getChannel b.channel).store.slots[i]? = some y) (hy : y.state = .empty) : takeFirst h b k (some i) s =
      raise (s.getChannel b.channel).config.owner .rx (ownBlocks [n] .store
        (((s.modPool fun u => u.placed n rest b.payload).setContext k none).modChannel b.channel fun x =>
          { x with store := x.store.taken i (b.context h n (some i)) s.cyc.cycle })) := by
  have hfilled := fillSlot_empty (s := s) h.origin b.strip hi hy
  have hself : ((s.modChannel b.channel fun x => { x with
      store := { x.store with slots := modifyNth x.store.slots i fun _ => Slot.filled h.origin b.strip } }).getChannel
        b.channel).config.owner = (s.getChannel b.channel).config.owner := by
    rw [State.modChannel_getChannel_self]
  unfold takeFirst
  dsimp only
  rw [hfilled]
  generalize hw : s.modChannel b.channel _ = w at *
  have hwfree : w.pool.free = n :: rest := by
    rw [← hw]
    exact hfree
  rw [placePayload_eq _ hwfree, if_pos (by omega), if_neg (by rw [hkind]; decide)]
  change completeContext k ((w.modPool fun u => u.placed n rest b.payload).setContext k (some (b.context h n (some i)))) = _
  rw [completeContext_strip (State.setContext_getContext_self _ _ _) rfl, State.setContext_setContext, ← hself]
  unfold completeStrip
  dsimp only
  refine congrArg (raise (w.getChannel b.channel).config.owner Event.rx) ?_
  rw [← hw]
  exact congrArg (fun v => ownBlocks [n] BlockOwner.store ((v.modPool fun u => u.placed n rest b.payload).setContext k none))
    (State.modChannel_modChannel s b.channel (fun x => { x with
      store := { x.store with slots := modifyNth x.store.slots i fun _ => Slot.filled h.origin b.strip } }) fun x =>
        { x with store := x.store.complete i (b.context h n (some i)) s.cyc.cycle })

/-- The store's record of a strip of one segment (R135). -/
def Context.record (x : Context) (cycle : Cycle) (seq : Nat) : Slot :=
  { state := .ready, source := x.origin, strip := x.strip, length := x.length, blocks := x.blocks, arrival := cycle
    stamp := x.stamp, toAll := x.toAll, seq := seq }

/-- The store with a strip's record in slot `i`, before the gap table meets its number (R135, R136). -/
def StripStore.stored (u : StripStore) (i : Nat) (x : Context) (cycle : Cycle) : StripStore :=
  { u with slots := u.slots.set i (x.record cycle u.nextSeq), nextSeq := u.nextSeq + 1 }

theorem StripStore.taken_eq (u : StripStore) (i : Nat) (x : Context) (cycle : Cycle) :
    u.taken i x cycle = (u.stored i x cycle).gapUpdate x.origin x.strip := by
  have hslots : modifyNth (modifyNth u.slots i fun _ => Slot.filled x.origin x.strip) i (fun _ => x.record cycle u.nextSeq) =
      u.slots.set i (x.record cycle u.nextSeq) := by
    rw [modifyNth_const, modifyNth_const, List.set_set]
  exact congrArg (fun l => ({ u with slots := l, nextSeq := u.nextSeq + 1 } : StripStore).gapUpdate x.origin x.strip) hslots

/-- What the gap table does not decide: the slots and the sequence (R135). -/
theorem StripStore.taken_kept (u : StripStore) {i : Nat} {y : Slot} (x : Context) (cycle : Cycle) (hi : u.slots[i]? = some y) :
    (u.taken i x cycle).slots[i]? = some (x.record cycle u.nextSeq) ∧
      (∀ j : Nat, j ≠ i → (u.taken i x cycle).slots[j]? = u.slots[j]?) ∧ (u.taken i x cycle).nextSeq = u.nextSeq + 1 ∧
      (u.taken i x cycle).frozen = u.frozen ∧ (u.taken i x cycle).readPos = u.readPos ∧
      (u.taken i x cycle).overwrites = u.overwrites := by
  have hlt := (List.getElem?_eq_some_iff.mp hi).1
  rw [StripStore.taken_eq, StripStore.gapUpdate_frame]
  exact ⟨by simp [StripStore.stored, hlt], fun j hj => List.getElem?_set_ne hj.symm, rfl, rfl, rfl, rfl⟩

/-! ### What a port or a later step reads of a taken segment -/

theorem State.SegmentTaken.reads {s v u : State} {t : RxTime} {h : Header} {b : DataBody} (hu : s.SegmentTaken v t h b u) :
    (∀ c : ChannelNo, u.getChannel c = v.getChannel c) ∧ (∀ k : Fin 4, u.getContext k = v.getContext k) ∧
      (∀ (p : Port) (e : Event), u.flag p e = v.flag p e) ∧ ∀ x : Nat, u.byte x = Memory.read v.pool.mem x := by
  refine ⟨fun c => ?_, fun k => ?_, fun p e => ?_, fun x => ?_⟩
  · rw [State.getChannel, hu.chan]
    rfl
  · rw [State.getContext, hu.chan]
    rfl
  · rw [State.flag, State.port, hu.ports]
    rfl
  · rw [State.byte, hu.pool]

/-- Settles O29, by the segment's judgement and what the taken segment completes. -/
theorem messagesAreReceived : Obligations.MessagesAreReceived := by
  refine ⟨fun s d t h b n rest left hprocesses hdest hleft hindex hcount htype hheld hcontext hroom hsome hfree hmem => ?_,
    fun s d t h b n rest k x hprocesses hdest hindex hcontext hx hnext htag hattempt hcount hfree hstrip hmem => ?_,
    fun s d t h b n rest i y hprocesses hdest hkind hindex hcount htype hcontext hsome hfree hreserve hmem => ?_⟩
  · replace hleft : s.Leaves h b left := hleft
    obtain ⟨k, hk⟩ := Option.isSome_iff_exists.mp hsome
    have hverdict : s.verdict h.origin b = .take k none := (State.verdict_screen _ htype hleft.kind).trans
      (State.screenVerdict_takes hheld hleft.awaits hroom hk (by rw [hfree]; exact List.cons_ne_nil _ _))
    have hjudged : judgeSegment h b (s.passed d) = (.taken, takeFirst h b k none (s.passed d)) := by
      rw [judgeSegment_first (s := s.passed d) hindex hcontext, show (s.passed d).verdict h.origin b = _ from hverdict]
    obtain ⟨u, hexec, hu⟩ := exec_segmentTaken (t := t) hprocesses hdest hjudged
    obtain ⟨hchannel, hothers, hcontexts, hpool, hraises⟩ :=
      takeFirst_screen_spec (s := s.passed d) hfree hcount (State.freeContext_free hk) hleft
    obtain ⟨rchannel, rcontext, rflag, rbyte⟩ := hu.reads
    obtain ⟨hbytes, hkept⟩ := Pool.placed_bytes hmem n rest b.payload
    obtain ⟨hrest, howners, hblocks⟩ := s.pool.placed_own n rest b.payload [] .rxq
    generalize takeFirst h b k none (s.passed d) = v at *
    have hupool : u.pool = (s.pool.placed n rest b.payload).own ([] ++ [n]) .rxq := hu.pool.trans hpool
    refine ⟨u, hexec, (rchannel _).trans hchannel, fun c hc => (rchannel c).trans (hothers c hc),
      fun j => (rcontext j).trans (hcontexts j), ?_, ?_, fun m hm => ?_, fun j hj => ?_, fun z hz => ?_, (rflag _ _).trans hraises,
      hu.wire, hu.units⟩
    · rw [hupool]
      exact hrest
    · rw [hupool]
      exact hblocks n (List.mem_singleton.mpr rfl)
    · rw [hupool]
      exact howners m hm List.not_mem_nil
    · rw [rbyte, hpool]
      exact hbytes j hj
    · rw [rbyte, hpool]
      exact hkept z hz
  · intro y stale flushes whole
    have hblock := State.blockFor_of_free (s := s) hfree hstrip
    have hjudged := judgeSegment_next (s := s.passed d) hindex hcontext hx hnext htag hattempt hcount hblock
    obtain ⟨u, hexec, hu⟩ := exec_segmentTaken (t := t) hprocesses hdest hjudged
    obtain ⟨hplaced, hcontexts, hlastContext, hkeeps⟩ := takeNext_spec (s := s.passed d) b (k := k) (x := x) hfree
    have hopen := takeNext_open (s := s.passed d) (b := b) (k := k) (x := x) hfree
    have hcompletes := takeNext_completes (s := s.passed d) b (k := k) (x := x) hfree
    have hflush := takeNext_flushes (s := s.passed d) b (k := k) (x := x) hfree
    obtain ⟨rchannel, rcontext, rflag, rbyte⟩ := hu.reads
    obtain ⟨hbytes, hkept⟩ := Pool.placed_bytes hmem n rest b.payload
    have hstale (m : TxMsg) : m.flushable x.origin = true ↔ stale m := TxMsg.flushable_iff m x.origin
    have hflushes : (s.passed d).lastFlushes x ↔ flushes := by
      simp only [State.lastFlushes, hstale]
      rfl
    rw [hflushes] at hkeeps hcompletes hflush
    have hfilter : y.queue.filter (fun m => m.flushable x.origin) = y.queue.filter (fun m => decide (stale m)) :=
      List.filter_congr fun m _ => Bool.eq_iff_iff.mpr ((hstale m).trans decide_eq_true_iff.symm)
    have hfilterNot : y.queue.filter (fun m => !m.flushable x.origin) = y.queue.filter (fun m => decide (¬stale m)) :=
      List.filter_congr fun m _ => Bool.eq_iff_iff.mpr (by
        rw [Bool.not_eq_true', ← Bool.not_eq_true, hstale m, decide_eq_true_iff])
    generalize takeNext b k x (s.passed d) = v at *
    refine ⟨u, hexec, fun hnot => ?_, fun hdoes => ?_, fun j hj => ?_, fun z hz => ?_,
      fun l hl => (rcontext l).trans (hcontexts l hl), fun hmore => ?_, fun hlast hslot hkind hnot => ?_, hu.wire, hu.units⟩
    · rw [hu.pool]
      exact hkeeps hnot
    · obtain ⟨hrx, hqueue, hothers, hfreed, houtcome, hraises⟩ := hflush hdoes
      refine ⟨(rcontext k).trans (hlastContext hdoes.2.1), ?_, ?_, fun c hc => (rchannel c).trans (hothers c hc), ?_,
        (rflag _ _).trans houtcome, (rflag _ _).trans hraises⟩
      · rw [rchannel]
        exact hrx
      · rw [rchannel]
        exact hqueue.trans hfilterNot
      · rw [hu.pool]
        exact hfreed.trans (congrArg (fun l : List TxMsg => rest ++ (l.map TxMsg.blocks).flatten) hfilter)
    · rw [rbyte, hplaced]
      exact hbytes j hj
    · rw [rbyte, hplaced]
      exact hkept z hz
    · rw [hopen hmore] at rcontext rchannel
      have hpool : u.pool = s.pool.placed n rest b.payload := by rw [hu.pool, hopen hmore]; rfl
      have hports : u.ports = s.ports := by rw [hu.ports, hopen hmore]; rfl
      refine ⟨(rcontext k).trans (State.setContext_getContext_self _ _ _), ?_, fun hn m hm => ?_, rchannel, hports⟩
      · rw [hpool]
        exact (Pool.own_owner s.pool [n] .assembly n).trans (if_pos (List.mem_singleton.mpr rfl))
      · rw [hpool]
        exact (Pool.own_owner s.pool [n] .assembly m).trans (if_neg fun h => by
          rw [List.mem_singleton.mp h] at hm
          exact hn hm)
    · obtain ⟨howners, hchannel, hothers, hraises⟩ := hcompletes hlast hslot hkind hnot
      refine ⟨(rcontext k).trans (hlastContext hlast), fun m hm => ?_, (rchannel _).trans hchannel,
        fun c hc => (rchannel c).trans (hothers c hc), (rflag _ _).trans hraises⟩
      rw [hu.pool]
      exact howners m hm
  · intro x hrunning hi hy hblocks hearlier
    obtain ⟨k, hk⟩ := Option.isSome_iff_exists.mp hsome
    have hverdict := State.verdict_strip (s := s) h.origin hkind htype hrunning (StripStore.chooseSlot_empty hi hy hearlier) hi
      hblocks hk hreserve
    have hjudged : judgeSegment h b (s.passed d) = (.taken, takeFirst h b k (some i) (s.passed d)) := by
      rw [judgeSegment_first (s := s.passed d) hindex hcontext, show (s.passed d).verdict h.origin b = _ from hverdict]
    obtain ⟨u, hexec, hu⟩ := exec_segmentTaken (t := t) hprocesses hdest hjudged
    have htaken := takeFirst_strip (s := s.passed d) (h := h) (k := k) hfree hcount hkind hi hy
    obtain ⟨rchannel, rcontext, rflag, rbyte⟩ := hu.reads
    have hupool := hu.pool
    rw [htaken] at rchannel rcontext rflag rbyte hupool
    obtain ⟨hbytes, hkept⟩ := Pool.placed_bytes hmem n rest b.payload
    obtain ⟨hrest, howners, hstored⟩ := s.pool.placed_own n rest b.payload [] .store
    have hchannel : u.getChannel b.channel = { s.getChannel b.channel with
        store := x.taken i (b.context h n (some i)) s.cyc.cycle } :=
      (rchannel b.channel).trans (State.modChannel_getChannel_self
        (((s.passed d).modPool fun u => u.placed n rest b.payload).setContext k none) b.channel _)
    obtain ⟨hslot, hslots, hseq, hfrozen, hreadPos, hoverwrites⟩ :=
      x.taken_kept (b.context h n (some i)) s.cyc.cycle hi
    have hgaps := x.taken_eq i (b.context h n (some i)) s.cyc.cycle
    refine ⟨u, hexec, ?_⟩
    intro w
    have hw : w = x.taken i (b.context h n (some i)) s.cyc.cycle := congrArg Channel.store hchannel
    clear_value w
    subst hw
    have hpool : u.pool = (s.pool.placed n rest b.payload).own ([] ++ [n]) .store := hupool
    refine ⟨hslot, hslots, hseq, hfrozen.trans hrunning, hreadPos, hoverwrites, fun hnew hgapRoom => ?_,
      fun before after e hknown he hgapOthers => ?_, hchannel, fun c hc => (rchannel c).trans ?_, fun j => (rcontext j).trans ?_,
      ?_, ?_, fun m hm => ?_, fun j hj => ?_, fun z hz => ?_, (rflag _ _).trans (raise_raises _ _ _), hu.wire, hu.units⟩
    · have hjoins := StripStore.gapUpdate_new (u := x.stored i (b.context h n (some i)) s.cyc.cycle) (source := h.origin) b.strip hnew hgapRoom
      rw [show x.taken i (b.context h n (some i)) s.cyc.cycle = _ from hgaps.trans hjoins]
      exact ⟨rfl, rfl, rfl⟩
    · intro ahead
      have hmoves := StripStore.gapUpdate_known (u := x.stored i (b.context h n (some i)) s.cyc.cycle) (source := h.origin) b.strip
        hknown he hgapOthers
      rw [show x.taken i (b.context h n (some i)) s.cyc.cycle = _ from hgaps.trans hmoves]
      refine ⟨fun hlo hhi => ?_, fun hbehind => ?_⟩
      · rw [if_pos ⟨hlo, hhi⟩]
        exact ⟨rfl, rfl, rfl⟩
      · rw [if_neg (fun ⟨hlo, hhi⟩ => by change ahead ≥ 1 at hlo; change ahead ≤ 32767 at hhi; omega)]
        exact ⟨rfl, rfl, rfl⟩
    · exact State.modChannel_getChannel_other (s := ((s.passed d).modPool fun u => u.placed n rest b.payload).setContext k none) _ hc
    · refine (State.setContext_getContext ((s.passed d).modPool fun u => u.placed n rest b.payload) k j none).trans ?_
      split
      · next hjk =>
        rw [hjk]
        exact (State.freeContext_free hk).symm
      · rfl
    · rw [hpool]
      exact hrest
    · rw [hpool]
      exact hstored n (List.mem_singleton.mpr rfl)
    · rw [hpool]
      exact howners m hm List.not_mem_nil
    · rw [rbyte]
      exact hbytes j hj
    · rw [rbyte]
      exact hkept z hz

end Sys2Proof.Machine
end

