-- ==== Sys2Proof/Proofs/PortAccesses.lean ====
section
/-!
PROOFS. Accesses of a port to a word address (R157, R158, R161, R170): what the window map puts at the addresses used, refused
accesses, and the obligation about accesses.
-/

namespace Sys2Proof.Machine

/-! ### An access by the port's width -/

theorem busWrite_narrow {p : Port} {s : State} (a : Word16) (w : BitVec 32) (hready : s.clock.ready = true)
    (hwide : (s.port p).wide = false) : busWrite p a w s = write16 p (s.port p).latch a w (s.touched p) := by
  simp only [busWrite, hready, hwide]
  rfl

theorem busRead_narrow {p : Port} {s : State} (a : Word16) (hready : s.clock.ready = true)
    (hwide : (s.port p).wide = false) : busRead p a s = read16 p (s.port p).latch a (s.touched p) := by
  simp only [busRead, hready, hwide]
  rfl

theorem busWrite_wide {p : Port} {s : State} (a : Word16) (w : BitVec 32) (hready : s.clock.ready = true)
    (hwide : (s.port p).wide = true) :
    busWrite p a w s = write32 p (s.port p).latch (a.toNat - a.toNat % 2) w (s.touched p) := by
  simp only [busWrite, hready, hwide]
  rfl

theorem busRead_wide {p : Port} {s : State} (a : Word16) (hready : s.clock.ready = true)
    (hwide : (s.port p).wide = true) :
    busRead p a s = read32 p (s.port p).latch (a.toNat - a.toNat % 2) (s.touched p) := by
  simp only [busRead, hready, hwide]
  rfl

/-- The mask of a pair's even word has every bit but bit 0. -/
theorem evenMask_getElem : ∀ (i : Nat) (hi : i < 16), (0xFFFE#16)[i] = decide (1 ≤ i) := by decide

/-- The even word of an address's pair, as a 32-bit port drives it (R157). -/
theorem ofNat_even (a : Word16) : BitVec.ofNat 16 (a.toNat - a.toNat % 2) = a &&& 0xFFFE := by
  apply BitVec.eq_of_toNat_eq
  have ha := a.isLt
  have hand : a.toNat &&& 0xFFFE = a.toNat - a.toNat % 2 := by
    have hmask : (a &&& 0xFFFE#16) = (a >>> 1) <<< 1 := by
      ext i hi
      rw [BitVec.getElem_and, evenMask_getElem i hi]
      cases i with
      | zero => simp
      | succ i => simp [BitVec.getLsbD_eq_getElem hi, Nat.add_comm 1 i]
    have := congrArg BitVec.toNat hmask
    simp only [BitVec.toNat_and, BitVec.toNat_shiftLeft, BitVec.toNat_ushiftRight, Nat.shiftLeft_eq,
      Nat.shiftRight_eq_div_pow] at this
    rw [show (0xFFFE#16).toNat = 0xFFFE from rfl] at this
    omega
  rw [BitVec.toNat_ofNat, BitVec.toNat_and]
  exact (Nat.mod_eq_of_lt (by omega)).trans hand.symm

/-! ### What the map puts at an address -/

/-- Nothing stands at 4000h and above (R161). -/
theorem State.regAt_undefined (s : State) (p : Port) {a : Nat} (h : 0x4000 ≤ a) : s.regAt p a = .undefined := by
  unfold State.regAt
  repeat rw [if_neg (by omega)]

theorem State.regAt_axis (s : State) (p : Port) (i : AxisNo) {off : Nat} (h : off < 0x80) :
    s.regAt p (0x200 + 0x80 * i.val + off) = axisReg s p i off := by
  have hi := i.isLt
  unfold State.regAt
  iterate 8 rw [if_neg (by omega)]
  rw [if_pos (by omega), show (0x200 + 0x80 * i.val + off - 0x200) / 0x80 = i.val by omega, finOf_val]
  exact congrArg (axisReg s p i) (by omega)

theorem State.regAt_post (s : State) (p : Port) {off : Nat} (h : off < 0x30) :
    s.regAt p (0xC00 + off) = postReg s p off := by
  unfold State.regAt
  iterate 13 rw [if_neg (by omega)]
  rw [if_pos (by omega), Nat.add_sub_cancel_left]

/-! ### Refused accesses -/

/-- The access itself: ACCESS raised, the capture filled if empty, the count raised, nothing else (R155, R161). -/
theorem access_spec (s : State) (p : Port) (addr : Word16) (write : Bool) (reason : AccessReason) :
    let u := access p addr write reason s
    u.flag p .access = true ∧ (u.port p).accessCount = bump (s.port p).accessCount ∧
    ((s.port p).capture = none → (u.port p).capture = some { addr := addr, write := write, reason := reason }) ∧
    (∀ c : Capture, (s.port p).capture = some c → (u.port p).capture = some c) ∧
    u.port p.other = s.port p.other ∧ u = { s with ports := u.ports } := by
  intro u
  have hu : u.port p = _ := access_port_self p addr write reason s
  refine ⟨?_, ?_, fun h => ?_, fun c h => ?_, access_port_other p addr write reason s, rfl⟩
  · exact raise_raises p .access _
  · rw [hu]
  · rw [hu, h]
    rfl
  · rw [hu, h]
    rfl

theorem undefinedAccess_narrow {s : State} {p : Port} {a : Word16} (w : BitVec 32) (hready : s.clock.ready = true)
    (hwide : (s.port p).wide = false) (ha : 0x4000 ≤ a.toNat) :
    exec (.undefinedAccess p a none) s = .next ((access p a false .undefined (s.touched p)).drive p 0) ∧
    exec (.undefinedAccess p a (some w)) s = .next (access p a true .undefined (s.touched p)) ∧
    exec (.registerWrite p (.addr a) w) s = .next (access p a true .undefined (s.touched p)) := by
  have hreg := (s.touched p).regAt_undefined p ha
  have hwrite : busWrite p a w s = access p a true .undefined (s.touched p) := by
    rw [busWrite_narrow a w hready hwide, write16, hreg]
  have hread : busRead p a s = (access p a false .undefined (s.touched p)).drive p 0 := by
    rw [busRead_narrow a hready hwide, read16, hreg]
    rfl
  exact ⟨congrArg Host.Outcome.next hread, congrArg Host.Outcome.next hwrite, congrArg Host.Outcome.next hwrite⟩

theorem undefinedAccess_wide {s : State} {p : Port} {a : Word16} (w : BitVec 32) (hready : s.clock.ready = true)
    (hwide : (s.port p).wide = true) (ha : 0x4000 ≤ a.toNat) :
    exec (.undefinedAccess p a none) s = .next ((access p (a &&& 0xFFFE) false .undefined (s.touched p)).drive p 0) ∧
    exec (.undefinedAccess p a (some w)) s = .next (access p (a &&& 0xFFFE) true .undefined (s.touched p)) := by
  have even : 0x4000 ≤ a.toNat - a.toNat % 2 := by omega
  have hreg := (s.touched p).regAt_undefined p even
  have hodd := (s.touched p).regAt_undefined p (Nat.le_succ_of_le even)
  refine ⟨congrArg Host.Outcome.next ?_, congrArg Host.Outcome.next ?_⟩
  · change busRead p a s = _
    rw [busRead_wide a hready hwide, read32, if_neg (by omega), if_neg (by omega), hreg, ← ofNat_even]
    simp only [readTwo, hreg, Reg.halfRead, runRead, hodd]
    rfl
  · change busWrite p a w s = _
    rw [busWrite_wide a w hready hwide, write32, hreg, ← ofNat_even]
    simp only [writeTwo, hreg, Reg.halfWrite, runWrite, hodd]
    rfl

theorem guardedReg_halfWrite {open_ : Bool} {v : Nat} {f : Word16 → State → State} (h : open_ = false) :
    (Reg.guarded .a open_ v f).halfWrite = some (.refuses .guarded) := by
  rw [h]
  rfl

/-- A 32-bit write of the pair of an axis's enable and correction slew while port A does not hold its guard lock (R150). -/
theorem guardedAxisPair_wide {s : State} {i : AxisNo} {j : LockNo} (odd : Bool) (w : BitVec 32)
    (hready : s.clock.ready = true) (hwide : (s.port .a).wide = true) (hlock : (s.getAxis i).guardLock = some j)
    (hheld : (s.getLock j).holder ≠ some .a) :
    exec (.registerWrite .a (.addr (axisAddr i (if odd = true then 0x21 else 0x20))) w) s =
      .next (access .a (axisAddr i 0x20) true .guarded (s.touched .a)) := by
  have hi := i.isLt
  have heven : (axisAddr i (if odd = true then 0x21 else 0x20)).toNat -
      (axisAddr i (if odd = true then 0x21 else 0x20)).toNat % 2 = 0x200 + 0x80 * i.val + 0x20 := by
    rw [axisAddr, BitVec.toNat_ofNat]
    split <;> omega
  have hopen : (s.touched .a).guardOpen .a ((s.touched .a).getAxis i).guardLock = false := by
    rw [State.touched_getAxis, hlock]
    exact decide_eq_false hheld
  have hfirst : ((s.touched .a).regAt .a (0x200 + 0x80 * i.val + 0x20)).halfWrite = some (.refuses .guarded) := by
    rw [State.regAt_axis _ _ _ (by decide)]
    exact guardedReg_halfWrite hopen
  have hsecond : ((s.touched .a).regAt .a (0x200 + 0x80 * i.val + 0x20 + 1)).halfWrite = some (.refuses .guarded) := by
    rw [Nat.add_assoc _ 0x20, State.regAt_axis _ _ _ (by decide)]
    exact guardedReg_halfWrite hopen
  have hpair : writeTwo .a (0x200 + 0x80 * i.val + 0x20) w (s.touched .a) =
      access .a (axisAddr i 0x20) true .guarded (s.touched .a) := by
    simp only [writeTwo, hfirst, runWrite, hsecond]
    rfl
  refine congrArg Host.Outcome.next ?_
  change busWrite .a _ w s = _
  rw [busWrite_wide _ w hready hwide, heven, ← hpair, write32, State.regAt_axis _ _ _ (by decide)]
  rfl

/-! ### Port A's words written by port B -/

theorem refuseWord_touched_narrow {s : State} {p : Port} (addr : Word16) (r : AccessReason)
    (hwide : (s.port p).wide = false) : refuseWord p addr r (s.touched p) = access p addr true r (s.touched p) :=
  refuseWord_narrow p addr r _ ((s.touched_wide p).trans hwide)

theorem refuseWord_touched_wide {s : State} {p : Port} (addr : Word16) (r : AccessReason)
    (hwide : (s.port p).wide = true) :
    refuseWord p addr r (s.touched p) =
      if partnerTaken addr.toNat then s.touched p else access p (addr &&& 0xFFFE#16) true r (s.touched p) :=
  refuseWord_wide p addr r _ ((s.touched_wide p).trans hwide)

/-- A refused word whose pair's other half is not taken: one ACCESS at either width (R157, R161). -/
theorem refuseWord_touched {s : State} {p : Port} {addr : Word16} (r : AccessReason)
    (hpartner : partnerTaken addr.toNat = false) :
    refuseWord p addr r (s.touched p) =
      access p (if (s.port p).wide = true then addr &&& 0xFFFE#16 else addr) true r (s.touched p) := by
  cases hwide : (s.port p).wide with
  | false => exact refuseWord_touched_narrow addr r hwide
  | true =>
    rw [refuseWord_touched_wide addr r hwide, hpartner]
    rfl

theorem wordsOfPortA_readOnly (s : State) (v : Word16) (hready : s.clock.ready = true) :
    let refused (word even : Word16) : State :=
      access .b (if (s.port .b).wide = true then even else word) true .readOnly (s.touched .b)
    exec (.nodeAddress .b v) s = .next (refused 0x0002 0x0002) ∧
    exec (.attach .b) s = .next (refused 0x0003 0x0002) ∧
    ((s.port .b).wide = false →
      exec (.detach .b) s = .next (refused 0x0004 0x0004) ∧ exec (.clockRestart .b) s = .next (refused 0x0009 0x0009)) ∧
    ((s.port .b).wide = true →
      exec (.detach .b) s = .next (s.touched .b) ∧ exec (.clockRestart .b) s = .next (s.touched .b)) ∧
    exec (.roleWrite .b v) s = .next (refused 0x000A 0x000A) ∧
    exec (.configurationWrite .b .period v) s = .next (refused 0x000B 0x000A) ∧
    exec (.cancelPlan .b) s = .next (refused 0x00B4 0x00B4) ∧
    exec (.engage .b v) s = .next (refused 0x0638 0x0638) ∧
    exec (.disengage .b v) s = .next (refused 0x0639 0x0638) ∧
    exec (.drop .b v) s = .next (refused 0x063A 0x063A) := by
  intro refused
  have one {c : Instr} {addr : Word16}
      (hexec : exec c s = .next (portWrite .b s (refuseWord .b addr .readOnly))) (hpartner : partnerTaken addr.toNat = false) :
      exec c s = .next (refused addr (addr &&& 0xFFFE#16)) :=
    (exec_portWrite hexec hready).trans (congrArg Host.Outcome.next (refuseWord_touched .readOnly hpartner))
  have narrow {c : Instr} {addr : Word16}
      (hexec : exec c s = .next (portWrite .b s (refuseWord .b addr .readOnly))) (hwide : (s.port .b).wide = false) :
      exec c s = .next (refused addr addr) :=
    (exec_portWrite hexec hready).trans <| congrArg Host.Outcome.next <|
      (refuseWord_touched_narrow addr .readOnly hwide).trans (by simp [refused])
  have wide {c : Instr} {addr : Word16}
      (hexec : exec c s = .next (portWrite .b s (refuseWord .b addr .readOnly))) (hpartner : partnerTaken addr.toNat = true)
      (hwide : (s.port .b).wide = true) : exec c s = .next (s.touched .b) :=
    (exec_portWrite hexec hready).trans <| congrArg Host.Outcome.next <|
      (refuseWord_touched_wide addr .readOnly hwide).trans (if_pos hpartner)
  exact ⟨one rfl rfl, one rfl rfl, fun h => ⟨narrow rfl h, narrow rfl h⟩, fun h => ⟨wide rfl rfl h, wide rfl rfl h⟩,
    one rfl rfl, one rfl rfl, one rfl rfl, one rfl rfl, one rfl rfl, one rfl rfl⟩

/-! ### Registers without an address -/

theorem unplacedRead (s : State) (p : Port) (q : Unplaced) (hready : s.clock.ready = true) :
    exec (.wideFieldLowWordRead p (.unplaced q)) s =
      .next ((s.touched p).drive p (BitVec.ofNat 32 ((s.touched p).unplacedValue p q % 65536))) :=
  exec_portRead (f := readUnplaced p q) rfl hready

theorem optNum_eq_getD (o : Option Nat) : optNum o = o.getD 0xFFFF := by cases o <;> rfl

theorem unplacedReads (s : State) (p : Port) (d : Side) (c : ChannelNo) (hready : s.clock.ready = true) :
    let reads (q : Unplaced) (v : Nat) : Prop :=
      exec (.wideFieldLowWordRead p (.unplaced q)) s = .next ((s.touched p).drive p (BitVec.ofNat 32 (v % 65536)))
    let yes (b : Bool) : Nat := if b = true then 1 else 0
    reads (.link d .laser) (yes (s.link d).laser) ∧
    reads (.link d .neighbour) ((s.link d).neighbour.getD 0xFFFF) ∧
    reads (.link d .goodRun) (s.link d).run ∧
    reads .staleCount s.axis.stale ∧
    reads (.blocksHeld p) ((List.finRange 512).filter fun n => decide (s.pool.owner n = .port p)).length ∧
    reads (.trip .stagedReset) (yes s.trip.stagedReset) ∧
    reads (.trip .topSource) ((s.trip.topSource.map fun n => n.val).getD 0xFFFF) ∧
    reads (.channel c .hold) (yes (s.getChannel c).held) ∧
    reads (.channel c .completionSequence) (s.getChannel c).store.nextSeq ∧
    reads (.outcomeOverflow c) (yes (s.getChannel c).overflow) ∧
    reads .lockGiveRefused (yes (s.locks.giveRefused.get p)) ∧
    ∀ a : AreaNo, reads (.areaBinding a) (((s.locks.bindings[a.val]).map fun j => j.val).getD 0xFFFF) := by
  intro reads yes
  have read {q : Unplaced} {v : Nat} (h : (s.touched p).unplacedValue p q = v) : reads q v := h ▸ unplacedRead s p q hready
  exact ⟨read rfl, read (optNum_eq_getD _), read rfl, read rfl, read rfl, read rfl, read (optNum_eq_getD _), read rfl,
    read rfl, read rfl, read rfl, fun a => read (optNum_eq_getD _)⟩

theorem bindingOf_lock (k : LockNo) : bindingOf k.val = some k := by
  have hk := k.isLt
  rw [bindingOf, if_neg (by omega), if_pos (by omega), finOf_val]

/-- Port A's write of an area's binding, judged by the binding that it replaces (R149). -/
theorem areaBindingWrite_spec (s : State) (a : AreaNo) (v : Word16) (hready : s.clock.ready = true) :
    ((∀ j : LockNo, s.locks.bindings[a.val] = some j → (s.getLock j).holder = some .a) →
      (∀ k : LockNo, v.toNat = k.val → exec (.areaBindingWrite .a a v) s = .next ((s.touched .a).modLocks fun u =>
        { u with bindings := u.bindings.set a.val (some k) })) ∧
      (v = 0xFFFF → exec (.areaBindingWrite .a a v) s = .next ((s.touched .a).modLocks fun u =>
        { u with bindings := u.bindings.set a.val none }))) ∧
    ∀ j : LockNo, s.locks.bindings[a.val] = some j → (s.getLock j).holder ≠ some .a →
      exec (.areaBindingWrite .a a v) s = .next (access .a
        (if (s.port .a).wide = true then (Unplaced.areaBinding a).addr &&& 0xFFFE else (Unplaced.areaBinding a).addr) true
        .guarded (s.touched .a)) := by
  have hexec := exec_portWrite (c := .areaBindingWrite .a a v) (f := cmdBindingWrite .a a v) (s := s) rfl hready
  refine ⟨fun hheld => ?_, fun j hj hheld => ?_⟩
  · have hopen : (s.touched .a).guardOpen .a (s.touched .a).locks.bindings[a.val] = true := by
      rw [State.touched_locks]
      cases hj : s.locks.bindings[a.val] with
      | none => rfl
      | some j => exact decide_eq_true (hheld j hj)
    have taken : cmdBindingWrite .a a v (s.touched .a) = (s.touched .a).modLocks fun u =>
        { u with bindings := u.bindings.set a.val (bindingOf v.toNat) } := if_pos hopen
    rw [hexec, taken]
    refine ⟨fun k hk => ?_, fun hv => ?_⟩
    · rw [hk, bindingOf_lock]
    · rw [hv]
      rfl
  · have hopen : (s.touched .a).guardOpen .a (s.touched .a).locks.bindings[a.val] = false := by
      rw [State.touched_locks, hj]
      exact decide_eq_false hheld
    rw [hexec, cmdBindingWrite, hopen, refuseUnplaced, accessAddr, State.touched_wide]
    rfl

/-! ### Words and fields at a 16-bit port -/

/-- A write of a word that a 16-bit port's write changes. -/
theorem registerWrite_word {s : State} {p : Port} {a : Word16} {v : Nat} {f : Word16 → State → State} (w : BitVec 32)
    (hready : s.clock.ready = true) (hwide : (s.port p).wide = false)
    (hreg : (s.touched p).regAt p a.toNat = .word v (.takes f)) :
    exec (.registerWrite p (.addr a) w) s = .next (f (w.setWidth 16) (s.touched p)) := by
  refine congrArg Host.Outcome.next ?_
  change busWrite p a w s = _
  rw [busWrite_narrow a w hready hwide, write16, hreg]

/-- A write of a word that only reads. -/
theorem registerWrite_readOnly {s : State} {p : Port} {a : Word16} {v : Nat} (w : BitVec 32)
    (hready : s.clock.ready = true) (hwide : (s.port p).wide = false) (hreg : (s.touched p).regAt p a.toNat = .shows v) :
    exec (.registerWrite p (.addr a) w) s = .next (access p a true .readOnly (s.touched p)) := by
  refine congrArg Host.Outcome.next ?_
  change busWrite p a w s = _
  rw [busWrite_narrow a w hready hwide, write16, hreg, Reg.shows]

theorem fieldWord_low (v : BitVec 32) : fieldWord (v.setWidth 48) 0 = v.extractLsb' 0 16 := by
  ext i hi
  simp only [fieldWord, BitVec.getElem_extractLsb', BitVec.getLsbD_setWidth]
  rw [decide_eq_true (by omega), Bool.true_and]

theorem fieldWord_high (v : BitVec 32) : fieldWord (v.setWidth 48) 1 = v.extractLsb' 16 16 := by
  ext i hi
  simp only [fieldWord, BitVec.getElem_extractLsb', BitVec.getLsbD_setWidth]
  rw [decide_eq_true (by omega), Bool.true_and]

/-- The low word of a field of 32 bits, read at a 16-bit port, holds the high word in the latch (R158). -/
theorem readFieldWord_low (s : State) (p : Port) (latch : Latch) (base : Nat) (v : BitVec 32) :
    readFieldWord p latch base base 2 (v.setWidth 48) (s.touched p) =
      (s.modPort p fun u => { u with latch := .reading (base + 1) [v.extractLsb' 16 16] }).drive p
        ((v.extractLsb' 0 16).setWidth 32) := by
  have hwords : (fieldWords 2 (v.setWidth 48)).drop 1 = [v.extractLsb' 16 16] :=
    congrArg (fun x => [x]) (fieldWord_high v)
  have loads : readFieldWord p latch base base 2 (v.setWidth 48) (s.touched p) =
      (setLatch p (Latch.ofRest (base + 1) ((fieldWords 2 (v.setWidth 48)).drop 1)) (s.touched p)).drive p
        ((fieldWord (v.setWidth 48) 0).setWidth 32) := if_pos rfl
  rw [loads, hwords, fieldWord_low, setLatch, State.touched, State.modPort_modPort]
  rfl

/-- The high word then answers from the latch, whatever the field has become (R158). -/
theorem readFieldWord_high (s : State) (p : Port) (base : Nat) (x : Word16) (v : BitVec 48) :
    readFieldWord p (.reading (base + 1) [x]) (base + 1) base 2 v (s.touched p) = (s.touched p).drive p (x.setWidth 32) := by
  have answers : readFieldWord p (.reading (base + 1) [x]) (base + 1) base 2 v (s.touched p) =
      (setLatch p .empty (s.touched p)).drive p (x.setWidth 32) :=
    (if_neg (Nat.succ_ne_self base)).trans (if_pos rfl)
  rw [answers, setLatch, State.touched, State.modPort_modPort]

theorem localPeriodRead (s : State) (p : Port) (hready : s.clock.ready = true) (hwide : (s.port p).wide = false) :
    let period : BitVec 32 := BitVec.ofInt 32 s.cyc.period
    let held : State := (s.modPort p fun u =>
      { u with latch := .reading 0x1D [period.extractLsb' 16 16] }).drive p ((period.extractLsb' 0 16).setWidth 32)
    exec (.wideFieldLowWordRead p (.addr 0x001C)) s = .next held ∧
    ∀ t : State, t.clock.ready = true → t.port p = held.port p →
      exec (.wideFieldLowWordRead p (.addr 0x001D)) t =
        .next ((t.touched p).drive p ((period.extractLsb' 16 16).setWidth 32)) := by
  intro period held
  refine ⟨congrArg Host.Outcome.next ?_, fun t htready ht => congrArg Host.Outcome.next ?_⟩
  · change busRead p 0x001C s = _
    rw [busRead_narrow _ hready hwide]
    exact readFieldWord_low s p (s.port p).latch 0x1C period
  · have hport : held.port p = { s.port p with
        latch := .reading 0x1D [period.extractLsb' 16 16]
        lines := (period.extractLsb' 0 16).setWidth 32 } := by
      simp only [held, State.drive, State.modPort_port_self]
    change busRead p 0x001D t = _
    rw [busRead_narrow _ htready (by rw [ht, hport]; exact hwide), ht, hport]
    exact readFieldWord_high t p 0x1C _ _

/-- Settles O60, each part by what the map puts at the address and how the port's width reaches it. -/
theorem accessesAtAPort : Obligations.AccessesAtAPort := by
  refine ⟨⟨access_spec, fun s p a w hready hwide ha => undefinedAccess_narrow w hready hwide ha,
    fun s p a w hready hwide ha => undefinedAccess_wide w hready hwide ha,
    fun s i j odd w hready hwide hlock hheld => guardedAxisPair_wide odd w hready hwide hlock hheld,
    fun s p w hready hwide => registerWrite_readOnly (v := s.cyc.cycle.toNat) w hready hwide rfl,
    wordsOfPortA_readOnly, unplacedReads, areaBindingWrite_spec⟩, fun s p w hready hwide => ⟨?_, fun hw => ?_, ?_, ?_, ?_⟩⟩
  · exact registerWrite_word (v := s.cyc.foreign)
      (f := fun _ s => s.modCyc fun u => { u with foreign := 0 }) w hready hwide rfl
  · rw [registerWrite_word (v := boolNum ((s.touched p).port p).bigEndian)
      (f := fun v s => s.modPort p fun u => { u with bigEndian := listedBool v.toNat }) w hready hwide rfl, hw]
    rfl
  · exact registerWrite_word (v := ((s.touched p).port p).posting.length.toNat)
      (f := fun v => setPosting p fun r => { r with length := v }) w hready hwide
      ((s.touched p).regAt_post p (off := 2) (by decide))
  · exact exec_portWrite (f := writeUnplaced p .discardCount (w.setWidth 16)) rfl hready
  · exact localPeriodRead s p hready hwide

end Sys2Proof.Machine
end
